-- ==== Sys2Proof/Word.lean ====
section
/-! DEFINITION. The word types of the block: the 32-bit words of the command stream and of the I/O memory, and the
binary32 and binary64 bit patterns (00_scope.md R8, R11, R12; 10_state.md R27). -/

namespace Sys2Proof

/-- A 32-bit word of the command stream (30_encoding.md R80). -/
abbrev Word := BitVec 32

/-- The bit pattern of a binary32 value: a sample word or a parameter (00_scope.md R12). -/
abbrev F32 := BitVec 32

/-- The bit pattern of a binary64 value: every internal quantity (00_scope.md R11). -/
abbrev F64 := BitVec 64

/-- A 16-bit register address (10_state.md R26). -/
abbrev RegAddr := BitVec 16

/-- A ring position or ring cursor, unsigned and taken modulo 32768 (00_scope.md R15). -/
abbrev RingPos := BitVec 15

end Sys2Proof
end

