-- ==== Sys2Proof/Syntax.lean ====
section
/-! DEFINITION. The thirteen commands (30_encoding.md R83), one constructor per row of the opcode table. -/

namespace Sys2Proof

/-- One decoded command with its operands as 30_encoding.md R84 assembles them. The bits O[63:32] of SETP, WRIO and
PROCESS are ignored (R85) and have no place here. -/
inductive Instr where
  /-- NOP: do nothing (46_lifecycle_commands.md R220). -/
  | nop
  /-- RESET: return the recursive state to neutral (46_lifecycle_commands.md R224). -/
  | reset
  /-- CLEANUP: release the ring (46_lifecycle_commands.md R225). -/
  | cleanup
  /-- GETP idx: read a parameter (45_parameter_commands.md R206). -/
  | getp (idx : BitVec 8)
  /-- RDREG addr: read a register (47_register_access.md R240). -/
  | rdreg (addr : RegAddr)
  /-- RDRING ch, pos: read a ring cell (47_register_access.md R243). -/
  | rdring (ch : BitVec 3) (pos : RingPos)
  /-- RDIO buf, idx: read an I/O word (47_register_access.md R244). -/
  | rdio (buf : BitVec 2) (idx : BitVec 15)
  /-- INIT fs: initialise (46_lifecycle_commands.md R221). -/
  | init (fs : F64)
  /-- SETRATE fs: change the sample rate (46_lifecycle_commands.md R223). -/
  | setrate (fs : F64)
  /-- SETP idx, v: set a parameter (45_parameter_commands.md R201). -/
  | setp (idx : BitVec 8) (v : F32)
  /-- WRREG addr, val: write a register (47_register_access.md R241). -/
  | wrreg (addr : RegAddr) (val : BitVec 64)
  /-- WRIO buf, idx, word: write an I/O word (47_register_access.md R245). -/
  | wrio (buf : BitVec 2) (idx : BitVec 15) (word : Word)
  /-- PROCESS n, presence: process one block of n stereo samples (44_process.md R170). `n` is the signed count
  int32(O[31:0]); the four flags are the presence bits X[0] to X[3]. -/
  | process (in0 in1 out0 out1 : Bool) (n : Int)
deriving DecidableEq, Repr

end Sys2Proof
end

