-- ==== Sys2Proof/WellFormed.lean ====
section
/-! DEFINITION. Which terms of Instr are commands an encoding can hold. Every operand but PROCESS's count is a bit
field of exactly its width (20_memory.md R68: every value of a field is in range); the count is a signed 32-bit
number (30_encoding.md R84). -/

namespace Sys2Proof

/-- `n` is a value of a 32-bit two's-complement word (00_scope.md R15). -/
def inInt32 (n : Int) : Bool := decide (-2147483648 ≤ n) && decide (n ≤ 2147483647)

/-- The command can be encoded (30_encoding.md R83, R84). -/
def Instr.wellFormed : Instr → Bool
  | .nop => true
  | .reset => true
  | .cleanup => true
  | .getp _ => true
  | .rdreg _ => true
  | .rdring _ _ => true
  | .rdio _ _ => true
  | .init _ => true
  | .setrate _ => true
  | .setp _ _ => true
  | .wrreg _ _ => true
  | .wrio _ _ _ => true
  | .process _ _ _ _ n => inInt32 n

end Sys2Proof
end

