-- ==== Sys2Proof/Decode.lean ====
section
/-! DEFINITION. The decoder and the encoder of the command words (30_encoding.md R80 to R88), and how a command is
taken from the front of the command stream (R82; 20_memory.md R65). -/

namespace Sys2Proof

/-- OP = W[7:0] (30_encoding.md R81). -/
def opField (w : Word) : BitVec 8 := w.extractLsb' 0 8

/-- X = W[15:8] (30_encoding.md R81). -/
def xField (w : Word) : BitVec 8 := w.extractLsb' 8 8

/-- Y = W[31:16] (30_encoding.md R81). -/
def yField (w : Word) : BitVec 16 := w.extractLsb' 16 16

/-- The command has format L: OP[7] = 1, three words, for every opcode, reserved ones included (30_encoding.md R82). -/
def isFormatL (w : Word) : Bool := w.getLsbD 7

/-- The length of a command in words, decided by OP[7] alone (30_encoding.md R82). -/
def commandLength (w : Word) : Nat := if isFormatL w then 3 else 1

/-- The 64-bit operand O = {W2, W1} (30_encoding.md R81). -/
def operandO (w1 w2 : Word) : BitVec 64 := w2 ++ w1

/-- Why a command word is illegal (30_encoding.md R85). -/
inductive DecodeError where
  /-- OP is not in the map of R83 (30_encoding.md R86). -/
  | reservedOpcode
  /-- An assigned opcode with a non-zero reserved bit in W (30_encoding.md R87). -/
  | reservedField
deriving DecidableEq, Repr

/-- Accept an assigned opcode if its reserved bits of W are zero, else refuse it (30_encoding.md R85, R87). -/
def checkReserved (zero : Bool) (i : Instr) : Except DecodeError Instr :=
  if zero then .ok i else .error .reservedField

/-- The decoding function of 30_encoding.md R85: the opcode map of R83, then the check of every reserved field against
zero, with the operands of R84. `w1` and `w2` are the operand words of a format-L command; a format-C command reads
neither. -/
def decode (w w1 w2 : Word) : Except DecodeError Instr :=
  let op := opField w
  let x := xField w
  let y := yField w
  if op = 0x00#8 then checkReserved (x == 0#8 && y == 0#16) .nop
  else if op = 0x01#8 then checkReserved (x == 0#8 && y == 0#16) .reset
  else if op = 0x02#8 then checkReserved (x == 0#8 && y == 0#16) .cleanup
  else if op = 0x10#8 then checkReserved (y == 0#16) (.getp x)
  else if op = 0x20#8 then checkReserved (x == 0#8) (.rdreg y)
  else if op = 0x21#8 then
    checkReserved (x.extractLsb' 3 5 == 0#5 && y.extractLsb' 15 1 == 0#1)
      (.rdring (x.extractLsb' 0 3) (y.extractLsb' 0 15))
  else if op = 0x22#8 then
    checkReserved (x.extractLsb' 2 6 == 0#6 && y.extractLsb' 15 1 == 0#1)
      (.rdio (x.extractLsb' 0 2) (y.extractLsb' 0 15))
  else if op = 0x81#8 then checkReserved (x == 0#8 && y == 0#16) (.init (operandO w1 w2))
  else if op = 0x82#8 then checkReserved (x == 0#8 && y == 0#16) (.setrate (operandO w1 w2))
  else if op = 0x90#8 then checkReserved (y == 0#16) (.setp x w1)
  else if op = 0xA0#8 then checkReserved (x == 0#8) (.wrreg y (operandO w1 w2))
  else if op = 0xA2#8 then
    checkReserved (x.extractLsb' 2 6 == 0#6 && y.extractLsb' 15 1 == 0#1)
      (.wrio (x.extractLsb' 0 2) (y.extractLsb' 0 15) w1)
  else if op = 0xC0#8 then
    checkReserved (x.extractLsb' 4 4 == 0#4 && y == 0#16)
      (.process (x.getLsbD 0) (x.getLsbD 1) (x.getLsbD 2) (x.getLsbD 3) w1.toInt)
  else .error .reservedOpcode

/-- The opcode of each command (30_encoding.md R83); the OP field that `raise Error` records (10_state.md R23). -/
def Instr.opcode : Instr → BitVec 8
  | .nop => 0x00#8
  | .reset => 0x01#8
  | .cleanup => 0x02#8
  | .getp _ => 0x10#8
  | .rdreg _ => 0x20#8
  | .rdring _ _ => 0x21#8
  | .rdio _ _ => 0x22#8
  | .init _ => 0x81#8
  | .setrate _ => 0x82#8
  | .setp _ _ => 0x90#8
  | .wrreg _ _ => 0xA0#8
  | .wrio _ _ _ => 0xA2#8
  | .process _ _ _ _ _ => 0xC0#8

/-- The command word {Y, X, OP} (30_encoding.md R81). -/
def commandWord (op x : BitVec 8) (y : BitVec 16) : Word := y ++ (x ++ op)

/-- A format-L command: the command word, then O[31:0], then O[63:32] (30_encoding.md R81; 20_memory.md R64). -/
def formatL (w : Word) (o : BitVec 64) : List Word := [w, o.extractLsb' 0 32, o.extractLsb' 32 32]

/-- The presence bits of PROCESS as the low half of X, with X[7:4] = 0 (30_encoding.md R84). -/
def presenceField (in0 in1 out0 out1 : Bool) : BitVec 8 :=
  0#4 ++ (BitVec.ofBool out1 ++ (BitVec.ofBool out0 ++ (BitVec.ofBool in1 ++ BitVec.ofBool in0)))

/-- The words of a command, in stream order; an ignored operand half is written as zeros, as the assembler does
(30_encoding.md R81 to R84, R90). -/
def encode (i : Instr) : List Word :=
  match i with
  | .nop => [commandWord 0x00#8 0#8 0#16]
  | .reset => [commandWord 0x01#8 0#8 0#16]
  | .cleanup => [commandWord 0x02#8 0#8 0#16]
  | .getp idx => [commandWord 0x10#8 idx 0#16]
  | .rdreg addr => [commandWord 0x20#8 0#8 addr]
  | .rdring ch pos => [commandWord 0x21#8 (0#5 ++ ch) (0#1 ++ pos)]
  | .rdio buf idx => [commandWord 0x22#8 (0#6 ++ buf) (0#1 ++ idx)]
  | .init fs => formatL (commandWord 0x81#8 0#8 0#16) fs
  | .setrate fs => formatL (commandWord 0x82#8 0#8 0#16) fs
  | .setp idx v => formatL (commandWord 0x90#8 idx 0#16) (0#32 ++ v)
  | .wrreg addr val => formatL (commandWord 0xA0#8 0#8 addr) val
  | .wrio buf idx word => formatL (commandWord 0xA2#8 (0#6 ++ buf) (0#1 ++ idx)) (0#32 ++ word)
  | .process in0 in1 out0 out1 n =>
    formatL (commandWord 0xC0#8 (presenceField in0 in1 out0 out1) 0#16) (0#32 ++ BitVec.ofInt 32 n)

/-- What the front of the command stream holds (20_memory.md R65; 70_reset_and_hazards.md R291). -/
inductive Fetch where
  /-- No word: the stream ends at a command boundary. -/
  | ended
  /-- A format-L command word whose operand words have not all arrived. -/
  | truncated
  /-- A whole command: its command word, its operand words (zero for format C) and the words after it. -/
  | command (w w1 w2 : Word) (rest : List Word)
deriving DecidableEq, Repr

/-- Take one command from the front of the stream, by its length alone (30_encoding.md R82). -/
def fetchCommand : List Word → Fetch
  | [] => .ended
  | w :: rest =>
    if isFormatL w then
      match rest with
      | w1 :: w2 :: rest' => .command w w1 w2 rest'
      | _ => .truncated
    else .command w 0#32 0#32 rest

/-- One row of the opcode table: a word W matches it iff (W AND mask) = value (30_encoding.md R85). -/
structure OpcodeRow where
  /-- The row's mnemonic. -/
  mnemonic : String
  /-- The bits of W that are fixed: the opcode and every reserved field. -/
  mask : Word
  /-- What those bits are. -/
  value : Word
deriving DecidableEq, Repr

/-- The mask and match columns of the opcode table (30_encoding.md R83, R85; opcode_table.json). -/
def opcodeTable : List OpcodeRow :=
  [ ⟨"NOP", 0xFFFFFFFF#32, 0x00000000#32⟩,
    ⟨"RESET", 0xFFFFFFFF#32, 0x00000001#32⟩,
    ⟨"CLEANUP", 0xFFFFFFFF#32, 0x00000002#32⟩,
    ⟨"GETP", 0xFFFF00FF#32, 0x00000010#32⟩,
    ⟨"RDREG", 0x0000FFFF#32, 0x00000020#32⟩,
    ⟨"RDRING", 0x8000F8FF#32, 0x00000021#32⟩,
    ⟨"RDIO", 0x8000FCFF#32, 0x00000022#32⟩,
    ⟨"INIT", 0xFFFFFFFF#32, 0x00000081#32⟩,
    ⟨"SETRATE", 0xFFFFFFFF#32, 0x00000082#32⟩,
    ⟨"SETP", 0xFFFF00FF#32, 0x00000090#32⟩,
    ⟨"WRREG", 0x0000FFFF#32, 0x000000A0#32⟩,
    ⟨"WRIO", 0x8000FCFF#32, 0x000000A2#32⟩,
    ⟨"PROCESS", 0xFFFFF0FF#32, 0x000000C0#32⟩ ]

/-- The mnemonic of each command (30_encoding.md R83). -/
def Instr.mnemonic : Instr → String
  | .nop => "NOP"
  | .reset => "RESET"
  | .cleanup => "CLEANUP"
  | .getp _ => "GETP"
  | .rdreg _ => "RDREG"
  | .rdring _ _ => "RDRING"
  | .rdio _ _ => "RDIO"
  | .init _ => "INIT"
  | .setrate _ => "SETRATE"
  | .setp _ _ => "SETP"
  | .wrreg _ _ => "WRREG"
  | .wrio _ _ _ => "WRIO"
  | .process _ _ _ _ _ => "PROCESS"

/-- The word W matches the row (30_encoding.md R85). -/
def OpcodeRow.matchesWord (r : OpcodeRow) (w : Word) : Bool := w &&& r.mask == r.value

/-- The words, in stream order, of an instruction whose bits are `w` numbered as the opcode table numbers them (bit 0
is the least significant bit of the command word); every bit from `nbits` on is 0. As many words as the command's
format asks for (30_encoding.md R82). -/
def tableWords (nbits w : Nat) : List Word :=
  let v := w % 2 ^ nbits
  let w0 : Word := BitVec.ofNat 32 v
  if isFormatL w0 then [w0, BitVec.ofNat 32 (v / 2 ^ 32), BitVec.ofNat 32 (v / 2 ^ 64)] else [w0]

/-- The instruction the decoder reads from the bits of a table row. -/
def decodeTableWord (nbits w : Nat) : Option Instr :=
  match fetchCommand (tableWords nbits w) with
  | .command w0 w1 w2 _ => (decode w0 w1 w2).toOption
  | _ => none

end Sys2Proof
end

