-- ==== Sys2Proof/Machine/State.lean ====
section
/-! DEFINITION. The state of the block as plain data (10_state.md R20 to R39, 20_memory.md R60 to R62), the reasons a
step can stop, and the state after power-on (10_state.md R42; 70_reset_and_hazards.md R280). -/

namespace Sys2Proof.Machine

open Sys2Proof

/-- A fault of the model: the step stops, and the run's end state is no observation (60_exceptions.md R268;
70_reset_and_hazards.md R291). None of these is an error of the block, which never stops (60_exceptions.md R260). -/
inductive Fault where
  /-- A run that has read a register or a parameter that holds UNDEF is stopped (00_scope.md R10; 93_implementation_defined.md,
  treatment `fault`; 47_register_access.md R240; 45_parameter_commands.md R206). Raised by the step after the RDREG or GETP
  that read it (log 4). Safe: the model stops where the hardware goes on with some unspecified value. -/
  | undefRead
  /-- A read of a ring cell that holds UNDEF (00_scope.md R10; 47_register_access.md R243). Raised by RDRING, and by
  PROCESS, whose remix pass never meets one (20_memory.md R75). Safe: the memory holds no value there, and the model stops
  where the hardware returns some unspecified one. -/
  | undefRingCell
  /-- A read of an I/O word that nothing has written (60_exceptions.md R268; 47_register_access.md R244). Raised by RDIO and
  PROCESS. Safe, as above. -/
  | undefIoWord
  /-- The stuck state: the stream ends inside a format-L command, which is not executed (70_reset_and_hazards.md R291;
  20_memory.md R65). Raised by the fetch. Safe: the block waits for words that never come. -/
  | truncatedCommand
deriving DecidableEq, Repr

/-- A refusal of the model. No meaning answers with one. -/
inductive Refusal where
  /-- The instruction has no meaning yet. Raised by a dispatch arm only; safe. No arm does. -/
  | notModelled (mnemonic : String)
deriving DecidableEq, Repr

/-- The lifecycle state STATE (10_state.md R21). -/
inductive Lifecycle where
  /-- Encoded 0: after power-on or CLEANUP. -/
  | uninit
  /-- Encoded 1: after a successful INIT. -/
  | ready
deriving DecidableEq, Repr

/-- One filter unit F_i (10_state.md R35). -/
structure Filter where
  /-- Coefficient b0; written, read by no rule (42_crossover_filterbank.md R122). -/
  b0 : F64
  /-- Coefficient b1. -/
  b1 : F64
  /-- Coefficient a1. -/
  a1 : F64
  /-- Coefficient a2. -/
  a2 : F64
  /-- Coefficient b2. -/
  b2 : F64
  /-- State w[n−1]. -/
  w1 : F64
  /-- State w[n−2]. -/
  w2 : F64
  /-- Cached last lowpass output. -/
  lp : F64
  /-- Cached last highpass output. -/
  hp : F64
  /-- The frequency the coefficients were derived from. -/
  freq : F64
deriving DecidableEq, Repr

/-- One compressor unit C_b (10_state.md R36). -/
structure Comp where
  /-- RMS smoothing accumulator. -/
  rms : F64
  /-- Logarithmic envelope, dB. -/
  env : F64
  /-- Gain-reduction accumulator. -/
  gr : F64
  /-- Mode selector ("ratio state"). -/
  sel : F64
  /-- Attack coefficient C_ATT. -/
  cAtt : F64
  /-- Release coefficient C_REL. -/
  cRel : F64
  /-- Threshold, dB. -/
  thr : F64
  /-- Upward ratio. -/
  upr : F64
  /-- Release-time constant, seconds. -/
  relTc : F64
  /-- Auxiliary coefficient "linear". -/
  auxLin : F64
  /-- Auxiliary coefficient "knee". -/
  auxKnee : F64
  /-- PATH: the path taken at the last step, 1 primary, 0 alternative. -/
  path : Bool
  /-- RED: the last reduction multiplier. -/
  red : F64
deriving DecidableEq, Repr

/-- A cell-addressed memory of w-bit cells (20_memory.md R64): what an unlisted cell holds, `none` being UNDEF
(00_scope.md R10), and the cells that hold something else, by rising address. -/
structure Memory (w : Nat) where
  /-- What every cell that is not listed holds; `none` is the spec's UNDEF. -/
  fill : Option (BitVec w)
  /-- The listed cells: address and contents. -/
  cells : List (Nat × BitVec w)
deriving DecidableEq, Repr

/-- The state of the block: everything 10_state.md R20 groups, the two memories, the command pointer and the words the
host has presented (30_encoding.md R80). -/
structure State where
  /-- CP: the index of the next unconsumed word (10_state.md R29). -/
  cp : Nat
  /-- The words the host has presented that are not yet consumed, first one next (30_encoding.md R80; 20_memory.md R60). -/
  stream : List Word
  /-- STATE (10_state.md R21). -/
  lifecycle : Lifecycle
  /-- STATUS (10_state.md R22). -/
  status : BitVec 64
  /-- LAST_ERR (10_state.md R23). -/
  lastErr : BitVec 64
  /-- RESP (10_state.md R25). -/
  resp : BitVec 64
  /-- FS (10_state.md R32). -/
  fs : F64
  /-- XO_LO (10_state.md R32). -/
  xoLo : F64
  /-- XO_HI (10_state.md R32). -/
  xoHi : F64
  /-- P[0..19] (10_state.md R30). -/
  params : Vector F32 20
  /-- RATIO_UP (10_state.md R31). -/
  ratioUp : F64
  /-- RATIO_DN (10_state.md R31). -/
  ratioDn : F64
  /-- GAIN2[0..2] (10_state.md R31). -/
  gain2 : Vector F64 3
  /-- SV[0..2] (10_state.md R33). -/
  sv : Vector F64 3
  /-- SC[0..2] (10_state.md R33). -/
  sc : Vector F64 3
  /-- PK[0..1] (10_state.md R34). -/
  pk : Vector F64 2
  /-- F_0..F_5 (10_state.md R35). -/
  filters : Vector Filter 6
  /-- C_0..C_2 (10_state.md R36). -/
  comps : Vector Comp 3
  /-- MGR[0..2] (10_state.md R37). -/
  mgr : Vector F64 3
  /-- MRMS[0..2] (10_state.md R37). -/
  mrms : Vector F64 3
  /-- WCUR (10_state.md R38). -/
  wcur : RingPos
  /-- RCUR (10_state.md R38). -/
  rcur : RingPos
  /-- RING[ch][pos] at address ch·32768 + pos (20_memory.md R61). -/
  ring : Memory 64
  /-- IO[buf][idx] at address buf·32768 + idx (20_memory.md R62). -/
  io : Memory 32
  /-- Whether P[i] holds a value, not UNDEF: SETP or INIT has written it since power-on (00_scope.md R10; 10_state.md R42). -/
  paramSet : Vector Bool 20
  /-- Whether a successful INIT has run since power-on, so that every register INIT writes holds a value, not UNDEF
  (00_scope.md R10; 10_state.md R42). -/
  initDone : Bool
  /-- The model's own mark (log 4): RDREG or GETP has read a register or a parameter that holds UNDEF, so the run has faulted:
  the next step stops with `Fault.undefRead` (00_scope.md R10; 60_exceptions.md R268). No command reads it. -/
  undefRead : Bool
deriving DecidableEq, Repr

/-- A filter unit at power-on: every field UNDEF (10_state.md R42); the values are the model's (log 3). -/
def Filter.powerOn : Filter := ⟨0#64, 0#64, 0#64, 0#64, 0#64, 0#64, 0#64, 0#64, 0#64, 0#64⟩

/-- A compressor unit at power-on: every field UNDEF (10_state.md R42); the values are the model's (log 3). -/
def Comp.powerOn : Comp :=
  ⟨0#64, 0#64, 0#64, 0#64, 0#64, 0#64, 0#64, 0#64, 0#64, 0#64, 0#64, false, 0#64⟩

/-- A memory whose every cell is UNDEF (10_state.md R42: RING and IO at power-on). -/
def Memory.undef (w : Nat) : Memory w := ⟨none, []⟩

/-- The state right after power-on (70_reset_and_hazards.md R280): STATE = UNINIT, STATUS = LAST_ERR = RESP = 0, CP = 0,
no word presented, everything else UNDEF (10_state.md R42). A register that is UNDEF holds a value of the model's (log 3),
and the marks say that the spec gives it none. -/
def State.reset : State where
  cp := 0
  stream := []
  lifecycle := .uninit
  status := 0#64
  lastErr := 0#64
  resp := 0#64
  fs := 0#64
  xoLo := 0#64
  xoHi := 0#64
  params := Vector.replicate 20 0#32
  ratioUp := 0#64
  ratioDn := 0#64
  gain2 := Vector.replicate 3 0#64
  sv := Vector.replicate 3 0#64
  sc := Vector.replicate 3 0#64
  pk := Vector.replicate 2 0#64
  filters := Vector.replicate 6 Filter.powerOn
  comps := Vector.replicate 3 Comp.powerOn
  mgr := Vector.replicate 3 0#64
  mrms := Vector.replicate 3 0#64
  wcur := 0#15
  rcur := 0#15
  ring := Memory.undef 64
  io := Memory.undef 32
  paramSet := Vector.replicate 20 false
  initDone := false
  undefRead := false

end Sys2Proof.Machine
end

