-- ==== Sys2Proof/Config.lean ====
section
/-! DEFINITION. The implementation parameters (00_scope.md R6): the rows the source or the spec fixes, as numbers, and the
OPEN rows, as one opaque constant, so that whatever is proved of the machine holds for every value of them (00_scope.md
R7; log 1). What an OPEN row comes to in the datapath is in Machine/Platform.lean. -/

namespace Sys2Proof

open Sys2Proof.Machine

/-- MODE_CMP: the comparison used for mode selection (00_scope.md R6). -/
inductive ModeCmp where
  /-- SEL < MODE_THR, the default. -/
  | lt
  /-- SEL ≤ MODE_THR. -/
  | le
deriving DecidableEq, Repr, Inhabited

/-- COEFF_MAP: which of r and d is a1 and which b1 (00_scope.md R6; 90_conflicts.md C1). -/
inductive CoeffMap where
  /-- a1 = r, b1 = d: the source's text, the default. -/
  | doc
  /-- a1 = d, b1 = r. -/
  | swapped
deriving DecidableEq, Repr, Inhabited

/-- The operations whose result can be a NaN of unspecified payload (00_scope.md R11, R12). -/
inductive FpOp where
  /-- Addition. -/
  | add
  /-- Subtraction. -/
  | sub
  /-- Multiplication. -/
  | mul
  /-- Division. -/
  | div
  /-- Square root. -/
  | sqrt
  /-- F64 of a binary32 NaN. -/
  | widen
  /-- TAN. -/
  | tan
  /-- LN. -/
  | ln
  /-- EXP. -/
  | exp
deriving DecidableEq, Repr, Inhabited

namespace Config

/-- What a compressor path may read of its compressor: the registers REF_PATH reads and the two auxiliary coefficients
(43_compressor.md R150). PATH and RED are not among them: no rule reads PATH, and RED acts through MGR only
(10_state.md R40, R41; log 12). -/
structure PathRegs where
  /-- C_b.ENV. -/
  env : F64
  /-- C_b.GR. -/
  gr : F64
  /-- C_b.SEL. -/
  sel : F64
  /-- C_b.C_ATT. -/
  cAtt : F64
  /-- C_b.C_REL. -/
  cRel : F64
  /-- C_b.THR. -/
  thr : F64
  /-- C_b.UPR. -/
  upr : F64
  /-- C_b.AUX_LIN. -/
  auxLin : F64
  /-- C_b.AUX_KNEE. -/
  auxKnee : F64
deriving DecidableEq, Repr

/-- A compressor path as a parameter: it reads the band number, what R150 lets it read of its compressor, and rms', and
returns (env', gr') (43_compressor.md R144, R147, R150). -/
abbrev PathFn := Fin 3 → PathRegs → F64 → F64 × F64

/-- The OPEN rows of 00_scope.md R6. A row with a default is an Option: `none` is the default of R6, `some v` any other
choice. The fields `nan64` and `nan32` are the NaN payloads that 00_scope.md R12 leaves unspecified, by the operation and
its operands (log 2); the last two are the values that 00_scope.md R10 leaves unspecified (log 4). -/
structure OpenRows where
  /-- SM_COEF_DEPTH. -/
  smCoefDepth : Option F64
  /-- SM_COEF_UP. -/
  smCoefUp : Option F64
  /-- SM_COEF_OUT. -/
  smCoefOut : Option F64
  /-- DECAY_RATE. -/
  decayRate : Option F64
  /-- POWER_EPS. -/
  powerEps : Option F64
  /-- LOG2DB. -/
  log2db : Option F64
  /-- GAIN_FLOOR. -/
  gainFloor : Option F64
  /-- MODE_THR. -/
  modeThr : Option F64
  /-- MODE_CMP. -/
  modeCmp : Option ModeCmp
  /-- COEFF_MAP. -/
  coeffMap : Option CoeffMap
  /-- R_FN. -/
  rFn : Option (F64 → F64)
  /-- TAN. -/
  tan : F64 → F64
  /-- LN. -/
  ln : F64 → F64
  /-- EXP. -/
  exp : F64 → F64
  /-- WIRING: G_IN_SRC. -/
  gInSrc : Option (Fin 3)
  /-- WIRING: G_CMP_SRC. -/
  gCmpSrc : Option (Fin 3)
  /-- WIRING: G_OUT_SRC. -/
  gOutSrc : Option (Fin 3)
  /-- OUT_GAIN_TARGET. -/
  outGainTarget : Option F64
  /-- PATH_PRIMARY. -/
  pathPrimary : Option PathFn
  /-- PATH_ALT. -/
  pathAlt : Option PathFn
  /-- T_ATT. -/
  tAtt : Option F64
  /-- THR_RESET. -/
  thrReset : Option F64
  /-- REL_TC_RESET. -/
  relTcReset : Option F64
  /-- AUX_LIN_RESET. -/
  auxLinReset : Option F64
  /-- AUX_KNEE_RESET. -/
  auxKneeReset : Option F64
  /-- The bits of a binary64 NaN result (00_scope.md R12): any of them may come. -/
  nan64 : FpOp → F64 → F64 → F64
  /-- The bits of a binary32 NaN that F32 gives (00_scope.md R12): any of them may come. -/
  nan32 : F64 → F32
  /-- What RDREG gets from a register that holds UNDEF, by its address and CP (00_scope.md R10): any bits may come. -/
  undefReg : RegAddr → Nat → BitVec 64
  /-- What GETP gets from a parameter that holds UNDEF, by its index and CP (00_scope.md R10): any bits may come. -/
  undefParam : BitVec 8 → Nat → F32
deriving Inhabited

/-- The OPEN rows of the hardware. No body: nothing can evaluate it or prove a value of it (00_scope.md R7; log 1). -/
opaque openRows : OpenRows

end Config

/-- A configuration as the datapath takes it: a value of every OPEN row (00_scope.md R7). -/
structure Config where
  /-- The OPEN rows. -/
  rows : Config.OpenRows

namespace Config

/-- The configuration of the hardware. -/
def current : Config := ⟨openRows⟩

/-- N_PARAM (00_scope.md R6). -/
def nParam : Nat := 20

/-- MAX_BLOCK, the largest legal PROCESS count (00_scope.md R6). -/
def maxBlock : Int := 32768

/-- RING_CAP and IO_LEN: cells per ring channel and words per I/O buffer (00_scope.md R6). -/
def bufLen : Nat := 32768

/-- RING_CH (00_scope.md R6). -/
def ringChannels : Nat := 8

/-- The four I/O buffers (20_memory.md R62). -/
def ioBuffers : Nat := 4

/-- XO_LO_DEFAULT = 200.0 (00_scope.md R6). -/
def xoLoDefault : F64 := 0x4069000000000000#64

/-- XO_HI_DEFAULT = 2000.0 (00_scope.md R6). -/
def xoHiDefault : F64 := 0x409F400000000000#64

/-- LOG_EPS = 1.0e-30 (00_scope.md R6). -/
def logEps : F64 := 0x39B4484BFEEBC2A0#64

/-- MAX_RATIO = 36.0 (00_scope.md R6). -/
def maxRatio : F64 := 0x4042000000000000#64

/-- PI64, the binary64 value nearest π (00_scope.md R13). -/
def pi64 : F64 := 0x400921FB54442D18#64

/-- BOOL_THRESHOLD = 0.5 as a binary64 (00_scope.md R6; 45_parameter_commands.md R205). -/
def boolThreshold : F64 := 0x3FE0000000000000#64

/-- PARAM_DEFAULTS, binary32 (45_parameter_commands.md R200): depth 1.0, time 0.5, ratios 0.5, advanced 0.0, band controls
0.5, band gains 0.5, switches 0.0, auxiliary controls 0.0, bypass 0.0. -/
def paramDefaults : Vector F32 20 :=
  #v[0x3F800000#32, 0x3F000000#32, 0x3F000000#32, 0x3F000000#32, 0x00000000#32,
     0x3F000000#32, 0x3F000000#32, 0x3F000000#32, 0x3F000000#32, 0x3F000000#32,
     0x3F000000#32, 0x00000000#32, 0x00000000#32, 0x00000000#32, 0x00000000#32,
     0x00000000#32, 0x00000000#32, 0x00000000#32, 0x00000000#32, 0x00000000#32]

end Config

end Sys2Proof
end

