-- ==== Sys2Proof/Machine/Numerics.lean ====
section
/-! DEFINITION. IEEE 754 values behind the bit patterns, and correct rounding (00_scope.md R11 to R14): what does not depend
on the configuration. A finite value is a sign, a significand and a power of two; every operation is computed exactly on
these and rounded once, to nearest with ties to even. -/

namespace Sys2Proof.Machine

open Sys2Proof

/-- A binary interchange format: its exponent and fraction widths. -/
structure FpFormat where
  /-- Exponent bits. -/
  expBits : Nat
  /-- Fraction bits. -/
  fracBits : Nat
deriving DecidableEq, Repr

/-- binary32 (00_scope.md R12). -/
def binary32 : FpFormat := ⟨8, 23⟩

/-- binary64 (00_scope.md R11). -/
def binary64 : FpFormat := ⟨11, 52⟩

/-- The weight of the least significant bit of a subnormal: 2^emin. -/
def fpEmin (f : FpFormat) : Int := 2 - 2 ^ (f.expBits - 1) - (f.fracBits : Int)

/-- What a bit pattern stands for. -/
inductive FpValue where
  /-- Not a number. -/
  | nan
  /-- An infinity; `neg` is its sign. -/
  | inf (neg : Bool)
  /-- (−1)^neg × m × 2^e, zero and subnormals included (00_scope.md R11: no flush-to-zero). -/
  | fin (neg : Bool) (m : Nat) (e : Int)
deriving DecidableEq, Repr

/-- The value of a bit pattern given as a number. -/
def fpUnpack (f : FpFormat) (bits : Nat) : FpValue :=
  let neg := bits.testBit (f.expBits + f.fracBits)
  let ex := bits >>> f.fracBits % 2 ^ f.expBits
  let frac := bits % 2 ^ f.fracBits
  if ex = 2 ^ f.expBits - 1 then (if frac = 0 then .inf neg else .nan)
  else if ex = 0 then .fin neg frac (fpEmin f)
  else .fin neg (frac + 2 ^ f.fracBits) ((ex : Int) - 1 + fpEmin f)

/-- The sign bit in its place. -/
def fpSign (f : FpFormat) (neg : Bool) : Nat := neg.toNat <<< (f.expBits + f.fracBits)

/-- The magnitude bits of an infinity. -/
def fpInfBits (f : FpFormat) : Nat := (2 ^ f.expBits - 1) <<< f.fracBits

/-- m / 2^k rounded to the nearest integer, ties to even (00_scope.md R11). -/
def roundShift (m k : Nat) : Nat :=
  let q := m >>> k
  let r := m % 2 ^ k
  if 2 * r > 2 ^ k ∨ (2 * r = 2 ^ k ∧ q % 2 = 1) then q + 1 else q

/-- The bit pattern of (−1)^neg × m × 2^e rounded to the format, to nearest with ties to even; too large gives an
infinity, too small a subnormal or a zero of the same sign (00_scope.md R11, R12). Where m stands for a longer exact
value, its last bit is a sticky bit and m has at least two bits more than the format keeps. -/
def fpRound (f : FpFormat) (neg : Bool) (m : Nat) (e : Int) : Nat :=
  if m = 0 then fpSign f neg
  else
    let top : Int := max (e + (m.log2 : Int) - (f.fracBits : Int)) (fpEmin f)
    let q := if top ≤ e then m <<< (e - top).toNat else roundShift m (top - e).toNat
    fpSign f neg + min ((top - fpEmin f).toNat <<< f.fracBits + q) (fpInfBits f)

/-- The value of a binary64 pattern. -/
def unpack64 (x : F64) : FpValue := fpUnpack binary64 x.toNat

/-- The value of a binary32 pattern. -/
def unpack32 (x : F32) : FpValue := fpUnpack binary32 x.toNat

/-- A rounded binary64 result. -/
def round64 (neg : Bool) (m : Nat) (e : Int) : F64 := BitVec.ofNat 64 (fpRound binary64 neg m e)

/-- A rounded binary32 result. -/
def round32 (neg : Bool) (m : Nat) (e : Int) : F32 := BitVec.ofNat 32 (fpRound binary32 neg m e)

/-- A binary64 infinity. -/
def inf64 (neg : Bool) : F64 := BitVec.ofNat 64 (fpSign binary64 neg + fpInfBits binary64)

/-- A binary32 infinity. -/
def inf32 (neg : Bool) : F32 := BitVec.ofNat 32 (fpSign binary32 neg + fpInfBits binary32)

/-- The pattern is a binary64 NaN. -/
def isNaN64 (x : F64) : Bool := decide (x.toNat % 2 ^ 63 > 0x7FF0000000000000)

/-- The pattern is a binary32 NaN. -/
def isNaN32 (x : F32) : Bool := decide (x.toNat % 2 ^ 31 > 0x7F800000)

/-- The place of a non-NaN binary64 pattern on the number line; both zeros are at 0 (00_scope.md R14). -/
def fpKey64 (x : F64) : Int :=
  if x.getLsbD 63 then -((x.toNat % 2 ^ 63 : Nat) : Int) else ((x.toNat % 2 ^ 63 : Nat) : Int)

/-- The place of a non-NaN binary32 pattern on the number line. -/
def fpKey32 (x : F32) : Int :=
  if x.getLsbD 31 then -((x.toNat % 2 ^ 31 : Nat) : Int) else ((x.toNat % 2 ^ 31 : Nat) : Int)

/-- a < b, false if either is a NaN (00_scope.md R14). -/
def fltLt (a b : F64) : Bool := !isNaN64 a && !isNaN64 b && decide (fpKey64 a < fpKey64 b)

/-- a <= b, false if either is a NaN (00_scope.md R14). -/
def fltLe (a b : F64) : Bool := !isNaN64 a && !isNaN64 b && decide (fpKey64 a ≤ fpKey64 b)

/-- a == b, false if either is a NaN, and −0.0 == +0.0 (00_scope.md R14). -/
def fltEq (a b : F64) : Bool := !isNaN64 a && !isNaN64 b && decide (fpKey64 a = fpKey64 b)

/-- a < b on binary32 patterns, false if either is a NaN (00_scope.md R14; 45_parameter_commands.md R202). -/
def fltLt32 (a b : F32) : Bool := !isNaN32 a && !isNaN32 b && decide (fpKey32 a < fpKey32 b)

/-- max2(a, b) = (a < b) ? b : a (00_scope.md R14). -/
def max2 (a b : F64) : F64 := if fltLt a b then b else a

/-- min2(a, b) = (a > b) ? b : a (00_scope.md R14). -/
def min2 (a b : F64) : F64 := if fltLt b a then b else a

/-- clampf(x, lo, hi) = (x < lo) ? lo : ((x > hi) ? hi : x) (00_scope.md R14). -/
def clampf (x lo hi : F64) : F64 := if fltLt x lo then lo else if fltLt hi x then hi else x

/-- ABS(x) clears the sign bit (00_scope.md R13). -/
def absF (x : F64) : F64 := x &&& 0x7FFFFFFFFFFFFFFF#64

/-- `x` if it is a NaN, else the default quiet NaN: some binary64 NaN, whichever `x` offers (00_scope.md R12; log 2). -/
def someNaN64 (x : F64) : F64 := if isNaN64 x then x else 0x7FF8000000000000#64

/-- `x` if it is a NaN, else the default quiet NaN: some binary32 NaN (00_scope.md R12; log 2). -/
def someNaN32 (x : F32) : F32 := if isNaN32 x then x else 0x7FC00000#32

/-- The integer square root of n, digit by digit: the largest r below 2^k + acc with r² ≤ n, given acc² ≤ n. -/
def sqrtDigits (n : Nat) : Nat → Nat → Nat
  | 0, acc => acc
  | k + 1, acc => sqrtDigits n k (if (acc + 2 ^ k) * (acc + 2 ^ k) ≤ n then acc + 2 ^ k else acc)

/-- +0.0. -/
def zeroF : F64 := 0x0000000000000000#64

/-- 1.0. -/
def oneF : F64 := 0x3FF0000000000000#64

/-- −1.0. -/
def negOneF : F64 := 0xBFF0000000000000#64

/-- 2.0. -/
def twoF : F64 := 0x4000000000000000#64

/-- 0.5. -/
def halfF : F64 := 0x3FE0000000000000#64

/-- 16.0. -/
def sixteenF : F64 := 0x4030000000000000#64

/-- +∞. -/
def posInfF : F64 := 0x7FF0000000000000#64

/-- −∞. -/
def negInfF : F64 := 0xFFF0000000000000#64

end Sys2Proof.Machine
end

