-- ==== Sys2Proof/Machine/Platform.lean ====
section
/-! DEFINITION. What each OPEN row of 00_scope.md R6 comes to: its default where the row is left alone, the row's own value
where that value meets what the spec requires of it (R13 for the functions, 40_parameter_smoother.md R104 for the smoother
coefficients, 43_compressor.md R146 for the mode threshold), and the free NaN payloads (log 1, 2, 10, 11). -/

namespace Sys2Proof

open Sys2Proof.Machine

/-- The value of an OPEN row that must meet a condition: a row that does not is refused and the default stands. -/
def Config.acceptOr (ok : F64 → Bool) (dflt : F64) (row : Option F64) : F64 :=
  match row with
  | some v => if ok v then v else dflt
  | none => dflt

/-- A smoother coefficient lies in (0, 1] (40_parameter_smoother.md R104). -/
def Config.coefOk (v : F64) : Bool := fltLt zeroF v && fltLe v oneF

/-- SM_COEF_DEPTH, default 0.01. -/
def Config.smCoefDepth (c : Config) : F64 :=
  Config.acceptOr Config.coefOk 0x3F847AE147AE147B#64 c.rows.smCoefDepth

/-- SM_COEF_UP, default 0.01. -/
def Config.smCoefUp (c : Config) : F64 := Config.acceptOr Config.coefOk 0x3F847AE147AE147B#64 c.rows.smCoefUp

/-- SM_COEF_OUT, default 0.005. -/
def Config.smCoefOut (c : Config) : F64 := Config.acceptOr Config.coefOk 0x3F747AE147AE147B#64 c.rows.smCoefOut

/-- DECAY_RATE, default 1.0e-4. -/
def Config.decayRate (c : Config) : F64 := c.rows.decayRate.getD 0x3F1A36E2EB1C432D#64

/-- POWER_EPS, default 1.0e-30. -/
def Config.powerEps (c : Config) : F64 := c.rows.powerEps.getD 0x39B4484BFEEBC2A0#64

/-- LOG2DB, default 20/ln 10. -/
def Config.log2db (c : Config) : F64 := c.rows.log2db.getD 0x40215F2CED384F29#64

/-- GAIN_FLOOR, default 0.01. -/
def Config.gainFloor (c : Config) : F64 := c.rows.gainFloor.getD 0x3F847AE147AE147B#64

/-- MODE_THR, a negative threshold, default −1.0e-6 (43_compressor.md R146). -/
def Config.modeThr (c : Config) : F64 :=
  Config.acceptOr (fun v => fltLt v zeroF) 0xBEB0C6F7A0B5ED8D#64 c.rows.modeThr

/-- MODE_CMP, default LT. -/
def Config.modeCmp (c : Config) : ModeCmp := c.rows.modeCmp.getD .lt

/-- COEFF_MAP, default DOC. -/
def Config.coeffMap (c : Config) : CoeffMap := c.rows.coeffMap.getD .doc

/-- G_IN_SRC, default DEPTH (smoother 0). -/
def Config.gInSrc (c : Config) : Fin 3 := c.rows.gInSrc.getD 0

/-- G_CMP_SRC, default UP (smoother 1). -/
def Config.gCmpSrc (c : Config) : Fin 3 := c.rows.gCmpSrc.getD 1

/-- G_OUT_SRC, default OUT (smoother 2). -/
def Config.gOutSrc (c : Config) : Fin 3 := c.rows.gOutSrc.getD 2

/-- OUT_GAIN_TARGET, default 1.0. -/
def Config.outGainTarget (c : Config) : F64 := c.rows.outGainTarget.getD oneF

/-- T_ATT, default 0.005 s. -/
def Config.tAtt (c : Config) : F64 := c.rows.tAtt.getD 0x3F747AE147AE147B#64

/-- THR_RESET, default −30.0 dB. -/
def Config.thrReset (c : Config) : F64 := c.rows.thrReset.getD 0xC03E000000000000#64

/-- REL_TC_RESET, default 0.05 s. -/
def Config.relTcReset (c : Config) : F64 := c.rows.relTcReset.getD 0x3FA999999999999A#64

/-- AUX_LIN_RESET, default 1.0. -/
def Config.auxLinReset (c : Config) : F64 := c.rows.auxLinReset.getD oneF

/-- AUX_KNEE_RESET, default 0.0. -/
def Config.auxKneeReset (c : Config) : F64 := c.rows.auxKneeReset.getD zeroF

/-- Some binary64 NaN for an operation and its operands (00_scope.md R12; log 2). -/
def Config.nan64 (c : Config) (op : FpOp) (a b : F64) : F64 := someNaN64 (c.rows.nan64 op a b)

/-- Some binary32 NaN for a narrowed NaN (00_scope.md R12; log 2). -/
def Config.nan32 (c : Config) (x : F64) : F32 := someNaN32 (c.rows.nan32 x)

/-- TAN: TAN(NaN) is a NaN, otherwise whatever the row gives (00_scope.md R13). -/
def Config.tan (c : Config) (x : F64) : F64 := if isNaN64 x then c.nan64 .tan x zeroF else c.rows.tan x

/-- LN: LN(+∞) = +∞, LN(+0.0) = −∞, LN(x) is a NaN for x < 0 and for a NaN, otherwise whatever the row gives
(00_scope.md R13). -/
def Config.ln (c : Config) (x : F64) : F64 :=
  if isNaN64 x || fltLt x zeroF then c.nan64 .ln x zeroF
  else if x = posInfF then posInfF
  else if x = zeroF then negInfF
  else c.rows.ln x

/-- EXP: EXP(−∞) = +0.0, EXP(+∞) = +∞, EXP(NaN) is a NaN, otherwise whatever the row gives (00_scope.md R13). -/
def Config.exp (c : Config) (x : F64) : F64 :=
  if isNaN64 x then c.nan64 .exp x zeroF
  else if x = negInfF then zeroF
  else if x = posInfF then posInfF
  else c.rows.exp x

end Sys2Proof
end

