-- ==== Sys2Proof/Machine/Arith.lean ====
section
/-! DEFINITION. The binary64 operations of the datapath and the conversions (00_scope.md R11 to R13): each is exact on the
operands' values and rounded once; a NaN result has whatever payload the configuration's free value gives (log 2). -/

namespace Sys2Proof.Machine

open Sys2Proof

/-- The exact sum of two finite values, rounded: (−1)^n1·m1·2^e1 + (−1)^n2·m2·2^e2; an exact zero is +0.0 unless both
operands are negative zeros (IEEE 754 round to nearest; 00_scope.md R11). -/
def addFinite (n1 : Bool) (m1 : Nat) (e1 : Int) (n2 : Bool) (m2 : Nat) (e2 : Int) : F64 :=
  let e := min e1 e2
  let a : Int := ((m1 <<< (e1 - e).toNat : Nat) : Int)
  let b : Int := ((m2 <<< (e2 - e).toNat : Nat) : Int)
  let t := (if n1 then -a else a) + (if n2 then -b else b)
  if t = 0 then round64 (n1 && n2) 0 0 else round64 (decide (t < 0)) t.natAbs e

/-- The sum of two unpacked operands; `nan` is the NaN to give. -/
def addValues (nan : F64) (u v : FpValue) : F64 :=
  match u, v with
  | .nan, _ => nan
  | _, .nan => nan
  | .inf s, .inf t => if s = t then inf64 s else nan
  | .inf s, .fin _ _ _ => inf64 s
  | .fin _ _ _, .inf t => inf64 t
  | .fin n1 m1 e1, .fin n2 m2 e2 => addFinite n1 m1 e1 n2 m2 e2

/-- The value with its sign changed. -/
def negValue (v : FpValue) : FpValue :=
  match v with
  | .nan => .nan
  | .inf s => .inf (!s)
  | .fin s m e => .fin (!s) m e

/-- a + b (00_scope.md R11). -/
def fadd (c : Config) (a b : F64) : F64 := addValues (c.nan64 .add a b) (unpack64 a) (unpack64 b)

/-- a − b (00_scope.md R11). -/
def fsub (c : Config) (a b : F64) : F64 := addValues (c.nan64 .sub a b) (unpack64 a) (negValue (unpack64 b))

/-- a × b (00_scope.md R11). -/
def fmul (c : Config) (a b : F64) : F64 :=
  match unpack64 a, unpack64 b with
  | .nan, _ => c.nan64 .mul a b
  | _, .nan => c.nan64 .mul a b
  | .inf s, .inf t => inf64 (s ^^ t)
  | .inf s, .fin t m _ => if m = 0 then c.nan64 .mul a b else inf64 (s ^^ t)
  | .fin s m _, .inf t => if m = 0 then c.nan64 .mul a b else inf64 (s ^^ t)
  | .fin s m1 e1, .fin t m2 e2 => round64 (s ^^ t) (m1 * m2) (e1 + e2)

/-- The quotient of two finite values, m2 not zero: enough quotient bits and a sticky bit for the remainder. -/
def divFinite (neg : Bool) (m1 : Nat) (e1 : Int) (m2 : Nat) (e2 : Int) : F64 :=
  let num := m1 <<< 112
  round64 neg (2 * (num / m2) + (if num % m2 = 0 then 0 else 1)) (e1 - e2 - 113)

/-- a / b (00_scope.md R11). -/
def fdiv (c : Config) (a b : F64) : F64 :=
  match unpack64 a, unpack64 b with
  | .nan, _ => c.nan64 .div a b
  | _, .nan => c.nan64 .div a b
  | .inf _, .inf _ => c.nan64 .div a b
  | .inf s, .fin t _ _ => inf64 (s ^^ t)
  | .fin s _ _, .inf t => round64 (s ^^ t) 0 0
  | .fin s m1 e1, .fin t m2 e2 =>
    if m2 = 0 then (if m1 = 0 then c.nan64 .div a b else inf64 (s ^^ t))
    else divFinite (s ^^ t) m1 e1 m2 e2

/-- The square root of a positive finite value: the significand is shifted to an even power of two, its integer root is
taken, and a sticky bit stands for the rest. -/
def sqrtFinite (m : Nat) (e : Int) : F64 :=
  let k : Nat := if e % 2 = 0 then 112 else 113
  let n := m <<< k
  let r := sqrtDigits n 84 0
  round64 false (2 * r + (if r * r = n then 0 else 1)) ((e - (k : Int)) / 2 - 1)

/-- SQRT(x), correctly rounded; SQRT(−0.0) = −0.0 (00_scope.md R13). -/
def fsqrt (c : Config) (x : F64) : F64 :=
  match unpack64 x with
  | .nan => c.nan64 .sqrt x zeroF
  | .inf s => if s then c.nan64 .sqrt x zeroF else inf64 false
  | .fin s m e => if m = 0 then x else if s then c.nan64 .sqrt x zeroF else sqrtFinite m e

/-- F64(x): widen a binary32 word, exactly for every non-NaN value (00_scope.md R12). -/
def widen (c : Config) (x : F32) : F64 :=
  match unpack32 x with
  | .nan => c.nan64 .widen (x.zeroExtend 64) zeroF
  | .inf s => inf64 s
  | .fin s m e => round64 s m e

/-- F32(x): narrow to binary32, to nearest with ties to even; overflow gives an infinity (00_scope.md R12). -/
def narrow (c : Config) (x : F64) : F32 :=
  match unpack64 x with
  | .nan => c.nan32 x
  | .inf s => inf32 s
  | .fin s m e => round32 s m e

end Sys2Proof.Machine
end

