-- ==== Sys2Proof/Machine/Flags.lean ====
section
/-! DEFINITION. What acts as a flag (10_state.md R40): the error codes and their STATUS bits, the boolean reading of a
parameter, and the mode selection of a compressor. -/

namespace Sys2Proof.Machine

open Sys2Proof

/-- The error causes (60_exceptions.md R261). -/
inductive ErrorCode where
  /-- ERR_ILLEGAL: a reserved opcode or a non-zero reserved field. -/
  | illegal
  /-- ERR_UNINIT: a command that needs READY issued while UNINIT. -/
  | uninit
  /-- ERR_BLOCK: PROCESS with N > MAX_BLOCK. -/
  | block
  /-- ERR_RATE: an invalid sample rate or crossover frequency. -/
  | rate
  /-- ERR_REG: a reserved register address, or a write to a read-only register. -/
  | reg
deriving DecidableEq, Repr

/-- The code recorded in LAST_ERR[7:0] (10_state.md R23; 60_exceptions.md R261). -/
def errorNumber (e : ErrorCode) : BitVec 8 :=
  match e with
  | .illegal => 1#8
  | .uninit => 2#8
  | .block => 3#8
  | .rate => 4#8
  | .reg => 5#8

/-- STATUS with the bit code − 1 alone (10_state.md R22; 60_exceptions.md R261). -/
def statusBit (e : ErrorCode) : BitVec 64 := 1#64 <<< ((errorNumber e).toNat - 1)

/-- LAST_ERR for an error: zext_64 of OP above the code (10_state.md R23; 60_exceptions.md R264). -/
def lastErrWord (e : ErrorCode) (op : BitVec 8) : BitVec 64 := 0#48 ++ (op ++ errorNumber e)

/-- bool(v) = F64(v) ≥ BOOL_THRESHOLD (45_parameter_commands.md R205). -/
def boolParam (c : Config) (v : F32) : Bool := fltLe Config.boolThreshold (widen c v)

/-- SELECT(v): true takes the primary path, false the alternative; a NaN selector takes the alternative
(43_compressor.md R146). -/
def selectPrimary (c : Config) (v : F64) : Bool :=
  match c.modeCmp with
  | .lt => fltLt v c.modeThr
  | .le => fltLe v c.modeThr

end Sys2Proof.Machine
end

