-- ==== Sys2Proof/Machine/Ops.lean ====
section
/-! DEFINITION. The named operations over the memories, the command stream and the error registers that every meaning
shares: reading and writing a cell (20_memory.md R60 to R66), consuming a command (10_state.md R29), and raising an error
(60_exceptions.md R264). -/

namespace Sys2Proof.Machine

open Sys2Proof

/-! ## Cells -/

/-- The contents of the listed cell at an address, if the list has it. -/
def cellsFind {w : Nat} : List (Nat × BitVec w) → Nat → Option (BitVec w)
  | [], _ => none
  | (b, v) :: rest, a => if a = b then some v else cellsFind rest a

/-- The list with one cell listed at its place by rising address. -/
def cellsInsert {w : Nat} : List (Nat × BitVec w) → Nat → BitVec w → List (Nat × BitVec w)
  | [], a, v => [(a, v)]
  | (b, u) :: rest, a, v =>
    if a < b then (a, v) :: (b, u) :: rest
    else if a = b then (a, v) :: rest
    else (b, u) :: cellsInsert rest a v

/-- The list without the cell at an address. -/
def cellsErase {w : Nat} : List (Nat × BitVec w) → Nat → List (Nat × BitVec w)
  | [], _ => []
  | (b, u) :: rest, a => if a = b then cellsErase rest a else (b, u) :: cellsErase rest a

/-- Every listed address is at least `lo` and they rise strictly. -/
def cellsRising {w : Nat} : Nat → List (Nat × BitVec w) → Bool
  | _, [] => true
  | lo, (b, _) :: rest => decide (lo ≤ b) && cellsRising (b + 1) rest

/-- The canonical form: addresses strictly rising, no listed cell equal to what an unlisted one holds, and every address
below `size`, the number of cells of the space (20_memory.md R60). -/
def Memory.wf {w : Nat} (size : Nat) (m : Memory w) : Bool :=
  cellsRising 0 m.cells && m.cells.all (fun p => decide (some p.2 ≠ m.fill) && decide (p.1 < size))

/-- Read one cell; `none` is UNDEF (00_scope.md R10). -/
def Memory.read {w : Nat} (m : Memory w) (a : Nat) : Option (BitVec w) :=
  match cellsFind m.cells a with
  | some v => some v
  | none => m.fill

/-- Write one cell, keeping the canonical form. -/
def Memory.write {w : Nat} (m : Memory w) (a : Nat) (v : BitVec w) : Memory w :=
  if m.fill = some v then { m with cells := cellsErase m.cells a }
  else { m with cells := cellsInsert m.cells a v }

/-- A memory whose every cell holds `v` (46_lifecycle_commands.md R221, R224: every ring cell +0.0). -/
def Memory.filled {w : Nat} (v : BitVec w) : Memory w := ⟨some v, []⟩

/-! ## The ring and the I/O memory -/

/-- The number of ring cells, 8 × 32768 (20_memory.md R61). -/
def ringCells : Nat := Config.ringChannels * Config.bufLen

/-- The number of I/O words, 4 × 32768 (20_memory.md R62). -/
def ioWords : Nat := Config.ioBuffers * Config.bufLen

/-- The place of RING[ch][pos] (20_memory.md R61). -/
def ringAddr (ch : BitVec 3) (pos : RingPos) : Nat := ch.toNat * Config.bufLen + pos.toNat

/-- The place of IO[buf][idx] (20_memory.md R62). -/
def ioAddr (buf : BitVec 2) (idx : BitVec 15) : Nat := buf.toNat * Config.bufLen + idx.toNat

/-- RING[ch][pos]; `none` is UNDEF. -/
def State.ringCell (s : State) (ch : BitVec 3) (pos : RingPos) : Option F64 := s.ring.read (ringAddr ch pos)

/-- RING[ch][pos] <- v. -/
def State.setRingCell (s : State) (ch : BitVec 3) (pos : RingPos) (v : F64) : State :=
  { s with ring := s.ring.write (ringAddr ch pos) v }

/-- IO[buf][idx]; `none` is UNDEF. -/
def State.ioWord (s : State) (buf : BitVec 2) (idx : BitVec 15) : Option Word := s.io.read (ioAddr buf idx)

/-- IO[buf][idx] <- v. -/
def State.setIoWord (s : State) (buf : BitVec 2) (idx : BitVec 15) (v : Word) : State :=
  { s with io := s.io.write (ioAddr buf idx) v }

/-! ## Registers written by several commands -/

/-- RESP <- v (10_state.md R25). -/
def State.setResp (s : State) (v : BitVec 64) : State := { s with resp := v }

/-- RESP <- v, where v is what a read of an UNDEF register or parameter happened to return: the command goes on as on the
hardware, and the mark says that the run has faulted (00_scope.md R10; 60_exceptions.md R268; log 4). -/
def State.respondUndef (s : State) (v : BitVec 64) : State := { s with resp := v, undefRead := true }

/-- The fault that stops the model before its next command: a run that has read an UNDEF register or parameter has faulted
(00_scope.md R10; 93_implementation_defined.md; 70_reset_and_hazards.md R291; log 4). -/
def State.pendingFault (s : State) : Option Fault := if s.undefRead then some .undefRead else none

/-- F_i <- F. -/
def State.setFilter (s : State) (i : Fin 6) (f : Filter) : State := { s with filters := s.filters.set i f }

/-- C_b <- C. -/
def State.setComp (s : State) (b : Fin 3) (k : Comp) : State := { s with comps := s.comps.set b k }

/-- Three values by index. -/
def three {α : Type} (f : Fin 3 → α) : Vector α 3 := #v[f 0, f 1, f 2]

/-- Six values by index. -/
def six {α : Type} (f : Fin 6 → α) : Vector α 6 := #v[f 0, f 1, f 2, f 3, f 4, f 5]

/-! ## Errors and the command stream -/

/-- `raise Error(code)` for a command whose opcode is `op`: set the STATUS bit, write LAST_ERR, and change nothing else
(60_exceptions.md R264, R266; nothing is saved and nothing is entered, so there is no return: R267). -/
def raiseError (e : ErrorCode) (op : BitVec 8) (s : State) : State :=
  { s with status := s.status ||| statusBit e, lastErr := lastErrWord e op }

/-- The command just taken from the stream is consumed: CP <- CP + len (10_state.md R29), before the command acts
(60_exceptions.md R264). -/
def State.consume (s : State) (len : Nat) (rest : List Word) : State := { s with cp := s.cp + len, stream := rest }

/-- The host presents words after those it has presented before (70_reset_and_hazards.md R292). -/
def State.present (s : State) (ws : List Word) : State := { s with stream := s.stream ++ ws }

/-- What an illegal command does: ERR_ILLEGAL with the OP field of its word (30_encoding.md R88). -/
def illegalCommand (w : Word) (s : State) : State := raiseError .illegal (opField w) s

end Sys2Proof.Machine
end

