-- ==== Sys2Proof/Machine/Operands.lean ====
section
/-! DEFINITION. The operand forms and checks the commands share: the channels a PROCESS resolves (44_process.md R172), the
block of input words it reads (R173 to R175), the clamp and the ratio of a parameter value (45_parameter_commands.md R202,
R203), and the domain of sample rates and crossovers (42_crossover_filterbank.md R123; 46_lifecycle_commands.md R222). -/

namespace Sys2Proof.Machine

open Sys2Proof

/-- The buffer of the right input: IN1, or IN0 when in1 is absent (44_process.md R172). -/
def rightIn (in1 : Bool) : BitVec 2 := if in1 then 1#2 else 0#2

/-- The buffer of the right output: OUT1, or OUT0 when out1 is absent (44_process.md R172). -/
def rightOut (out1 : Bool) : BitVec 2 := if out1 then 3#2 else 2#2

/-- The words IO[buf][i], IO[buf][i+1], …, `n` of them; `none` if one of them is UNDEF (60_exceptions.md R268). -/
def readBlock (s : State) (buf : BitVec 2) : Nat → Nat → Option (List Word)
  | 0, _ => some []
  | n + 1, i =>
    match s.ioWord buf (BitVec.ofNat 15 i), readBlock s buf n (i + 1) with
    | some v, some rest => some (v :: rest)
    | _, _ => none

/-- Write words to IO[buf][i], IO[buf][i+1], … in order. -/
def writeBlock (buf : BitVec 2) : List Word → Nat → State → State
  | [], _, s => s
  | v :: rest, i, s => writeBlock buf rest (i + 1) (s.setIoWord buf (BitVec.ofNat 15 i) v)

/-- CLAMP01(v) on binary32 values: NaN and negative give +0.0, above 1.0 gives 1.0, −0.0 is kept
(45_parameter_commands.md R202). -/
def clamp01 (v : F32) : F32 :=
  if isNaN32 v then 0x00000000#32
  else if fltLt32 v 0x00000000#32 then 0x00000000#32
  else if fltLt32 0x3F800000#32 v then 0x3F800000#32
  else v

/-- ratio(v): with w = F64(v), ((w − 0.5) × 16.0) + 1.0 above 0.5, else w × 2.0 (45_parameter_commands.md R203). -/
def ratioOf (c : Config) (v : F32) : F64 :=
  let w := widen c v
  if fltLt halfF w then fadd c (fmul c (fsub c w halfF) sixteenF) oneF else fmul c w twoF

/-- The doubled band gain 2.0 × F64(v) (10_state.md R31). -/
def doubledGain (c : Config) (v : F32) : F64 := fmul c twoF (widen c v)

/-- The crossover lies in the domain 0 < f < FS × 0.5 (42_crossover_filterbank.md R123; 47_register_access.md R242); a NaN
fails. -/
def crossoverOk (c : Config) (f fs : F64) : Bool := fltLt zeroF f && fltLt f (fmul c fs halfF)

/-- The sample rate is a finite positive number above twice both crossovers (46_lifecycle_commands.md R222, R223). -/
def rateOk (c : Config) (fs lo hi : F64) : Bool :=
  fltEq fs fs && fltLt zeroF fs && fltLt fs posInfF
    && fltLt lo (fmul c fs halfF) && fltLt hi (fmul c fs halfF)

end Sys2Proof.Machine
end

