-- ==== Sys2Proof/Machine/Compressor.lean ====
section
/-! DEFINITION. The dual-mode compressor: POWER, COMP_COEF, REF_PATH and COMP_STEP (43_compressor.md). -/

namespace Sys2Proof.Machine

open Sys2Proof

/-- POWER: ((L × L) + (R × R)) + POWER_EPS (43_compressor.md R141). -/
def power (c : Config) (l r : F64) : F64 := fadd c (fadd c (fmul c l l) (fmul c r r)) c.powerEps

/-- EXP(−1.0 / (T × FS)) − 1.0: a smoothing coefficient from a time constant (43_compressor.md R143). -/
def timeCoef (c : Config) (tc fs : F64) : F64 := fsub c (c.exp (fdiv c negOneF (fmul c tc fs))) oneF

/-- COMP_COEF: C_ATT from T_ATT and C_REL from REL_TC, at sample rate fs (43_compressor.md R143). -/
def compCoef (c : Config) (fs : F64) (k : Comp) : Comp :=
  { k with cAtt := timeCoef c c.tAtt fs, cRel := timeCoef c k.relTc fs }

/-- x + ((x − target) × coef): the smoothing form of every compressor step (43_compressor.md R142). -/
def slew (c : Config) (x target coef : F64) : F64 := fadd c x (fmul c (fsub c x target) coef)

/-- What a path may read of a compressor (43_compressor.md R150; 10_state.md R40, R41). -/
def pathRegs (k : Comp) : Config.PathRegs where
  env := k.env
  gr := k.gr
  sel := k.sel
  cAtt := k.cAtt
  cRel := k.cRel
  thr := k.thr
  upr := k.upr
  auxLin := k.auxLin
  auxKnee := k.auxKnee

/-- REF_PATH part 1: the level of rms' in dB and the smoothed envelope (43_compressor.md R147). -/
def refEnv (c : Config) (k : Config.PathRegs) (rms : F64) : F64 :=
  let x := fsqrt c (absF rms)
  let lvl := fmul c c.log2db (c.ln (fadd c x Config.logEps))
  slew c k.env lvl (if fltLt k.env lvl then k.cAtt else k.cRel)

/-- REF_PATH part 2: the ratio of the threshold region (43_compressor.md R148). -/
def refRatio (k : Config.PathRegs) (env : F64) : F64 :=
  if fltLt env k.thr then max2 k.upr oneF else min2 (max2 k.sel oneF) Config.maxRatio

/-- REF_PATH part 3: the target gain and the smoothed gain (43_compressor.md R149). DEDUCED (log 24): R149 and R153 say that a
ratio of 1 from GR = 1.0 gives gr' = 1.0 on every step, while this pseudocode gives a NaN where env' or THR is infinite
(∞ × 0); the pseudocode is the model. -/
def refGain (c : Config) (k : Config.PathRegs) (env : F64) : F64 :=
  let gdb := fmul c (fsub c k.thr env) (fsub c oneF (fdiv c oneF (refRatio k env)))
  let tgt := clampf (c.exp (fdiv c gdb c.log2db)) c.gainFloor Config.maxRatio
  clampf (slew c k.gr tgt (if fltLt k.gr tgt then k.cRel else k.cAtt)) c.gainFloor Config.maxRatio

/-- REF_PATH: (env', gr') from the compressor's registers and rms' (43_compressor.md R147 to R150). -/
def refPath (c : Config) (k : Config.PathRegs) (rms : F64) : F64 × F64 :=
  let env := refEnv c k rms
  (env, refGain c k env)

/-- PATH_PRIMARY, default REF_PATH (00_scope.md R6; 43_compressor.md R147). -/
def primaryPath (c : Config) (b : Fin 3) (k : Config.PathRegs) (rms : F64) : F64 × F64 :=
  match c.rows.pathPrimary with
  | some f => f b k rms
  | none => refPath c k rms

/-- PATH_ALT, default REF_PATH (00_scope.md R6; 43_compressor.md R147). -/
def altPath (c : Config) (b : Fin 3) (k : Config.PathRegs) (rms : F64) : F64 × F64 :=
  match c.rows.pathAlt with
  | some f => f b k rms
  | none => refPath c k rms

/-- The registers of C_b after one COMP_STEP with power p (43_compressor.md R144, R145, R146): RMS first, then the path the
selector picks, then GR and RED. DEDUCED (log 21): for p = +∞ R153 says that ENV stays +∞ afterwards, while this pseudocode
gives a NaN at the next step for a negative C_ATT; the pseudocode is the model. -/
def compNext (c : Config) (b : Fin 3) (p : F64) (k : Comp) : Comp :=
  let rms := slew c k.rms p k.cAtt
  let primary := selectPrimary c k.sel
  let r := if primary then primaryPath c b (pathRegs k) rms else altPath c b (pathRegs k) rms
  { k with rms := rms, path := primary, env := r.1, gr := r.2, red := r.2 }

/-- M = (RED × g) × s (43_compressor.md R151). -/
def compMult (c : Config) (red g gain : F64) : F64 := fmul c (fmul c red g) gain

/-- COMP_STEP: the compressor's registers, the meters MGR = RED × s and MRMS = rms', and the multiplier
(43_compressor.md R144, R151, R152). -/
def compStep (c : Config) (b : Fin 3) (p g gain : F64) (s : State) : State × F64 :=
  let k := compNext c b p s.comps[b]
  ({ s with
      comps := s.comps.set b k
      mgr := s.mgr.set b (fmul c k.red gain)
      mrms := s.mrms.set b k.rms },
   compMult c k.red g gain)

end Sys2Proof.Machine
end

