-- ==== Sys2Proof/Machine/Crossover.lean ====
section
/-! DEFINITION. The crossover filter bank: XO_COEF, XO_TICK, BANK_ADV and BANK_SIMPLE (42_crossover_filterbank.md). -/

namespace Sys2Proof

open Sys2Proof.Machine

/-- R_FN, default r = 1.0 / t (00_scope.md R6; 42_crossover_filterbank.md R122). -/
def Config.rFn (c : Config) (t : F64) : F64 :=
  match c.rows.rFn with
  | some g => g t
  | none => fdiv c oneF t

namespace Machine

/-- XO_COEF for one unit at crossover f and sample rate fs: only the coefficients and FREQ change
(42_crossover_filterbank.md R122). -/
def xoCoef (c : Config) (f fs : F64) (u : Filter) : Filter :=
  let th := fdiv c (fmul c f Config.pi64) fs
  let t := c.tan th
  let r := c.rFn t
  let d := fdiv c oneF (fadd c (fmul c (fadd c r t) t) oneF)
  let a2 := fmul c d t
  { u with
    a1 := match c.coeffMap with
      | .doc => r
      | .swapped => d
    b1 := match c.coeffMap with
      | .doc => d
      | .swapped => r
    a2 := a2
    b2 := fmul c a2 t
    b0 := oneF
    freq := f }

/-- The crossover a unit uses: XO_LO for F_0 to F_3, XO_HI for F_4 and F_5 (42_crossover_filterbank.md R121). -/
def crossoverOf (lo hi : F64) (i : Fin 6) : F64 := if i.val ≤ 3 then lo else hi

/-- XO_COEF for every unit (42_crossover_filterbank.md R124: INIT and SETRATE). -/
def deriveAll (c : Config) (s : State) : State :=
  { s with filters := six fun i => xoCoef c (crossoverOf s.xoLo s.xoHi i) s.fs s.filters[i] }

/-- XO_COEF for F_0 to F_3 (42_crossover_filterbank.md R124: WRREG XO_LO). -/
def deriveLow (c : Config) (s : State) : State :=
  { s with filters := six fun i => if i.val ≤ 3 then xoCoef c s.xoLo s.fs s.filters[i] else s.filters[i] }

/-- XO_COEF for F_4 and F_5 (42_crossover_filterbank.md R124: WRREG XO_HI). -/
def deriveHigh (c : Config) (s : State) : State :=
  { s with filters := six fun i => if i.val ≤ 3 then s.filters[i] else xoCoef c s.xoHi s.fs s.filters[i] }

/-- XO_TICK: advance one unit by one sample; LP and HP are the two outputs (42_crossover_filterbank.md R125). -/
def xoTick (c : Config) (u : Filter) (x : F64) : Filter :=
  let p := fsub c x u.w2
  let it := fadd c (fmul c u.w1 u.a1) (fmul c p u.a2)
  let lp := fadd c (fadd c (fmul c u.w1 u.a2) u.w2) (fmul c p u.b2)
  { u with
    w1 := fsub c (fmul c twoF it) u.w1
    w2 := fsub c (fmul c twoF lp) u.w2
    lp := lp
    hp := fsub c (fsub c x (fmul c u.b1 it)) lp }

/-- BANK_ADV: all six units on the gain-scaled inputs; the units after the sample, and the bands of ring channels 0 to 5
(42_crossover_filterbank.md R129). -/
def bankAdv (c : Config) (fl : Vector Filter 6) (xL xR : F64) : Vector Filter 6 × Vector F64 6 :=
  let g := #v[xoTick c fl[0] xL, xoTick c fl[1] xR, xoTick c fl[2] xL,
              xoTick c fl[3] xR, xoTick c fl[4] xL, xoTick c fl[5] xR]
  (g, #v[g[0].lp, g[1].lp, g[2].hp, g[3].hp, g[4].hp, g[5].hp])

/-- BANK_SIMPLE: the lowpass outputs of F_0 and F_1 feed F_2 and F_3; the mid band is +0.0
(42_crossover_filterbank.md R130). -/
def bankSimple (c : Config) (fl : Vector Filter 6) (xL xR : F64) : Vector Filter 6 × Vector F64 6 :=
  let g0 := xoTick c fl[0] xL
  let g1 := xoTick c fl[1] xR
  let g := #v[g0, g1, xoTick c fl[2] g0.lp, xoTick c fl[3] g1.lp, xoTick c fl[4] xL, xoTick c fl[5] xR]
  (g, #v[g[2].lp, g[3].lp, zeroF, zeroF, g[4].hp, g[5].hp])

/-- The bank in the topology of the block: BANK_ADV iff bool(P[4]) (42_crossover_filterbank.md R131). -/
def bank (c : Config) (adv : Bool) (fl : Vector Filter 6) (xL xR : F64) : Vector Filter 6 × Vector F64 6 :=
  if adv then bankAdv c fl xL xR else bankSimple c fl xL xR

end Machine

end Sys2Proof
end

