-- ==== Sys2Proof/Machine/Registers.lean ====
section
/-! DEFINITION. The register map (10_state.md R26): the registers by name, their addresses and access, what a read returns
(R27), and which of them hold UNDEF (00_scope.md R10; 10_state.md R42). -/

namespace Sys2Proof.Machine

open Sys2Proof

/-- The registers of one filter unit (10_state.md R35). -/
inductive FilterField where
  | b0 | b1 | a1 | a2 | b2 | w1 | w2 | lp | hp | freq
deriving DecidableEq, Repr

/-- The registers of one compressor unit (10_state.md R36). -/
inductive CompField where
  | rms | env | gr | sel | cAtt | cRel | thr | upr | relTc | auxLin | auxKnee | path | red
deriving DecidableEq, Repr

/-- The registers of 10_state.md R26 by name. -/
inductive Reg where
  | id
  | state
  | status
  | lastErr
  | fs
  | xoLo
  | xoHi
  | wcur
  | rcur
  | sv (k : Fin 3)
  | sc (k : Fin 3)
  | pk (ch : Fin 2)
  | ratioUp
  | ratioDn
  | gain2 (b : Fin 3)
  | filter (i : Fin 6) (f : FilterField)
  | comp (b : Fin 3) (f : CompField)
  | mgr (b : Fin 3)
  | mrms (b : Fin 3)
deriving DecidableEq, Repr

/-- The fields of a filter unit in address order (10_state.md R26). -/
def filterFieldAt : Nat → Option FilterField
  | 0 => some .b0
  | 1 => some .b1
  | 2 => some .a1
  | 3 => some .a2
  | 4 => some .b2
  | 5 => some .w1
  | 6 => some .w2
  | 7 => some .lp
  | 8 => some .hp
  | 9 => some .freq
  | _ => none

/-- The fields of a compressor unit in address order (10_state.md R26). -/
def compFieldAt : Nat → Option CompField
  | 0 => some .rms
  | 1 => some .env
  | 2 => some .gr
  | 3 => some .sel
  | 4 => some .cAtt
  | 5 => some .cRel
  | 6 => some .thr
  | 7 => some .upr
  | 8 => some .relTc
  | 9 => some .auxLin
  | 10 => some .auxKnee
  | 11 => some .path
  | 12 => some .red
  | _ => none

/-- The registers below address 0x100 (10_state.md R26). -/
def lowRegAt : Nat → Option Reg
  | 0x00 => some .id
  | 0x01 => some .state
  | 0x02 => some .status
  | 0x03 => some .lastErr
  | 0x04 => some .fs
  | 0x05 => some .xoLo
  | 0x06 => some .xoHi
  | 0x07 => some .wcur
  | 0x08 => some .rcur
  | 0x10 => some (.sv 0)
  | 0x11 => some (.sv 1)
  | 0x12 => some (.sv 2)
  | 0x14 => some (.sc 0)
  | 0x15 => some (.sc 1)
  | 0x16 => some (.sc 2)
  | 0x18 => some (.pk 0)
  | 0x19 => some (.pk 1)
  | 0x20 => some .ratioUp
  | 0x21 => some .ratioDn
  | 0x24 => some (.gain2 0)
  | 0x25 => some (.gain2 1)
  | 0x26 => some (.gain2 2)
  | _ => none

/-- The register at an address; `none` is a reserved address (10_state.md R26). -/
def regAt (addr : RegAddr) : Option Reg :=
  let a := addr.toNat
  if a < 0x100 then lowRegAt a
  else if a < 0x200 then
    if h : (a - 0x100) / 16 < 6 then
      (filterFieldAt ((a - 0x100) % 16)).map (Reg.filter ⟨(a - 0x100) / 16, h⟩)
    else none
  else if a < 0x300 then
    if h : (a - 0x200) / 16 < 3 then
      (compFieldAt ((a - 0x200) % 16)).map (Reg.comp ⟨(a - 0x200) / 16, h⟩)
    else none
  else if a < 0x310 then
    if h : a - 0x300 < 3 then some (.mgr ⟨a - 0x300, h⟩) else none
  else
    if h : a - 0x310 < 3 then some (.mrms ⟨a - 0x310, h⟩) else none

/-- Access RW: WRREG may write it; every other register is read-only (10_state.md R26; 47_register_access.md R241). -/
def Reg.writable : Reg → Bool
  | .xoLo => true
  | .xoHi => true
  | .comp _ .sel => true
  | .comp _ .thr => true
  | .comp _ .upr => true
  | .comp _ .relTc => true
  | .comp _ .auxLin => true
  | .comp _ .auxKnee => true
  | _ => false

/-- One register of a filter unit. -/
def filterReg (f : Filter) : FilterField → F64
  | .b0 => f.b0
  | .b1 => f.b1
  | .a1 => f.a1
  | .a2 => f.a2
  | .b2 => f.b2
  | .w1 => f.w1
  | .w2 => f.w2
  | .lp => f.lp
  | .hp => f.hp
  | .freq => f.freq

/-- One register of a compressor unit; PATH is zero-extended (10_state.md R26, R27). -/
def compReg (k : Comp) : CompField → BitVec 64
  | .rms => k.rms
  | .env => k.env
  | .gr => k.gr
  | .sel => k.sel
  | .cAtt => k.cAtt
  | .cRel => k.cRel
  | .thr => k.thr
  | .upr => k.upr
  | .relTc => k.relTc
  | .auxLin => k.auxLin
  | .auxKnee => k.auxKnee
  | .path => (BitVec.ofBool k.path).zeroExtend 64
  | .red => k.red

/-- STATE as a number: UNINIT is 0, READY is 1 (10_state.md R21). -/
def lifecycleWord : Lifecycle → BitVec 64
  | .uninit => 0#64
  | .ready => 1#64

/-- What a read of a register returns: the binary64 pattern of an `f64` register, the zero-extended integer of a `u`
register (10_state.md R27); ID is the constant 1 (R24). -/
def State.regValue (s : State) : Reg → BitVec 64
  | .id => 1#64
  | .state => lifecycleWord s.lifecycle
  | .status => s.status
  | .lastErr => s.lastErr
  | .fs => s.fs
  | .xoLo => s.xoLo
  | .xoHi => s.xoHi
  | .wcur => s.wcur.zeroExtend 64
  | .rcur => s.rcur.zeroExtend 64
  | .sv k => s.sv[k]
  | .sc k => s.sc[k]
  | .pk ch => s.pk[ch]
  | .ratioUp => s.ratioUp
  | .ratioDn => s.ratioDn
  | .gain2 b => s.gain2[b]
  | .filter i f => filterReg s.filters[i] f
  | .comp b f => compReg s.comps[b] f
  | .mgr b => s.mgr[b]
  | .mrms b => s.mrms[b]

/-- The register holds a value, not UNDEF (00_scope.md R10). The control registers hold one from power-on; the values SETP
derives hold one once their parameter is set (45_parameter_commands.md R204); every other register is written first by
INIT (10_state.md R42). -/
def State.regDefined (s : State) : Reg → Bool
  | .id => true
  | .state => true
  | .status => true
  | .lastErr => true
  | .ratioUp => s.paramSet[2]
  | .ratioDn => s.paramSet[3]
  | .gain2 b => s.paramSet[8 + b.val]
  | .comp _ .upr => s.paramSet[2]
  | .comp _ .sel => s.paramSet[3]
  | _ => s.initDone

/-- Bits that an UNDEF register may return, within its width: a `u` register is zero-extended from its 15 bits or its one
bit (10_state.md R26, R27). -/
def Reg.fit (r : Reg) (v : BitVec 64) : BitVec 64 :=
  match r with
  | .wcur => (v.setWidth 15).zeroExtend 64
  | .rcur => (v.setWidth 15).zeroExtend 64
  | .comp _ .path => (v.setWidth 1).zeroExtend 64
  | _ => v

/-- A register read as RDREG reads it: the value it holds, or, from a register that holds UNDEF, an unspecified value of its
width with the mark that stops the run (00_scope.md R10; 47_register_access.md R240; log 4). -/
def State.readReg (c : Config) (addr : RegAddr) (r : Reg) (s : State) : State :=
  if s.regDefined r then s.setResp (s.regValue r) else s.respondUndef (r.fit (c.rows.undefReg addr s.cp))

end Sys2Proof.Machine
end

