-- ==== Sys2Proof/Machine/Access.lean ====
section
/-! DEFINITION. The register, ring and I/O access commands RDREG, WRREG, RDRING, RDIO and WRIO (47_register_access.md). -/

namespace Sys2Proof.Machine

open Sys2Proof Host

/-- RDREG addr: a reserved address raises ERR_REG, else RESP <- the register's value; of a register that is UNDEF the value
is unspecified and the run has faulted (47_register_access.md R240; 00_scope.md R10; log 4). -/
def execRdreg (addr : RegAddr) (s : State) : Outcome State Fault Refusal :=
  match regAt addr with
  | none => .next (raiseError .reg 0x20#8 s)
  | some r => .next (s.readReg Config.current addr r)

/-- A configuration register of a compressor takes a value as it is given (47_register_access.md R242). -/
def setCompReg (k : Comp) (f : CompField) (v : BitVec 64) : Comp :=
  match f with
  | .sel => { k with sel := v }
  | .thr => { k with thr := v }
  | .upr => { k with upr := v }
  | .auxLin => { k with auxLin := v }
  | .auxKnee => { k with auxKnee := v }
  | .relTc => { k with relTc := v }
  | _ => k

/-- WRITE_EFFECT(addr, val) on a writable register: a crossover is checked against (0, FS × 0.5) and its filters'
coefficients follow, REL_TC is followed by COMP_COEF, the others are stored as given (47_register_access.md R242). -/
def writeEffect (c : Config) (r : Reg) (v : BitVec 64) (s : State) : State :=
  match r with
  | .xoLo => if crossoverOk c v s.fs then deriveLow c { s with xoLo := v } else raiseError .rate 0xA0#8 s
  | .xoHi => if crossoverOk c v s.fs then deriveHigh c { s with xoHi := v } else raiseError .rate 0xA0#8 s
  | .comp b .relTc => s.setComp b (compCoef c s.fs (setCompReg s.comps[b] .relTc v))
  | .comp b f => s.setComp b (setCompReg s.comps[b] f v)
  | _ => s

/-- WRREG addr, val: needs READY, then a register that is listed and RW, else ERR_REG (47_register_access.md R241, R242;
60_exceptions.md R265). -/
def execWrreg (addr : RegAddr) (val : BitVec 64) (s : State) : Outcome State Fault Refusal :=
  if s.lifecycle = .uninit then .next (raiseError .uninit 0xA0#8 s)
  else
    match regAt addr with
    | none => .next (raiseError .reg 0xA0#8 s)
    | some r =>
      if r.writable then .next (writeEffect Config.current r val s) else .next (raiseError .reg 0xA0#8 s)

/-- RDRING ch, pos: RESP <- the ring cell; an UNDEF cell faults (47_register_access.md R243; 00_scope.md R10). -/
def execRdring (ch : BitVec 3) (pos : RingPos) (s : State) : Outcome State Fault Refusal :=
  match s.ringCell ch pos with
  | some v => .next (s.setResp v)
  | none => .fault .undefRingCell

/-- RDIO buf, idx: RESP <- the word zero-extended; an UNDEF word faults (47_register_access.md R244). -/
def execRdio (buf : BitVec 2) (idx : BitVec 15) (s : State) : Outcome State Fault Refusal :=
  match s.ioWord buf idx with
  | some v => .next (s.setResp (v.zeroExtend 64))
  | none => .fault .undefIoWord

/-- WRIO buf, idx, word: IO[buf][idx] <- word, in both lifecycle states, to every buffer (47_register_access.md R245). -/
def execWrio (buf : BitVec 2) (idx : BitVec 15) (word : Word) (s : State) : Outcome State Fault Refusal :=
  .next (s.setIoWord buf idx word)

end Sys2Proof.Machine
end

