-- ==== Sys2Proof/Machine/Smoother.lean ====
section
/-! DEFINITION. The parameter smoothers: SMOOTH (40_parameter_smoother.md R100 to R104). -/

namespace Sys2Proof.Machine

open Sys2Proof

/-- One smoother advanced by one sample: SV + ((target − SV) × SC) (40_parameter_smoother.md R101). DEDUCED (log 22): where
R104 says that a target equal to SV leaves SV unchanged, this pseudocode gives a NaN at an infinity and +0.0 at −0.0; the
pseudocode is the model. -/
def smoothValue (c : Config) (v coef target : F64) : F64 := fadd c v (fmul c (fsub c target v) coef)

/-- target(k): F64(P[0]), RATIO_UP, OUT_GAIN_TARGET (40_parameter_smoother.md R102). -/
def smootherTarget (c : Config) (s : State) (k : Fin 3) : F64 :=
  match k with
  | 0 => widen c s.params[0]
  | 1 => s.ratioUp
  | 2 => c.outGainTarget

/-- The three smoothers advanced once, in the order 0, 1, 2 (40_parameter_smoother.md R103; 44_process.md R175). No target
reads an SV, so the order has no effect. -/
def smoothAll (c : Config) (s : State) : State :=
  { s with sv := three fun k => smoothValue c s.sv[k] s.sc[k] (smootherTarget c s k) }

end Sys2Proof.Machine
end

