-- ==== Sys2Proof/Machine/Lifecycle.lean ====
section
/-! DEFINITION. The lifecycle commands NOP, INIT, SETRATE, RESET and CLEANUP (46_lifecycle_commands.md). -/

namespace Sys2Proof.Machine

open Sys2Proof Host

/-- NOP: nothing (46_lifecycle_commands.md R220). -/
def execNop (s : State) : Outcome State Fault Refusal := .next s

/-- The recursive state of a filter unit at +0.0; its coefficients stay (46_lifecycle_commands.md R224). -/
def clearFilter (u : Filter) : Filter := { u with w1 := zeroF, w2 := zeroF, lp := zeroF, hp := zeroF }

/-- The recursive state of a compressor unit at neutral, unity gain and zero envelope; its configuration stays
(46_lifecycle_commands.md R224). -/
def clearComp (k : Comp) : Comp := { k with rms := zeroF, env := zeroF, gr := oneF, red := oneF, path := false }

/-- What INIT and RESET both do: peak trackers, filter and compressor state, meters, cursors and the ring to neutral
(46_lifecycle_commands.md R221, R224). -/
def neutralState (s : State) : State :=
  { s with
    pk := #v[zeroF, zeroF]
    filters := six fun i => clearFilter s.filters[i]
    comps := three fun b => clearComp s.comps[b]
    mgr := three fun _ => zeroF
    mrms := three fun _ => zeroF
    wcur := 0#15
    rcur := 0#15
    ring := Memory.filled zeroF }

/-- The parameter file at PARAM_DEFAULTS, its derived values, the smoother coefficients, and every smoother at its target
(46_lifecycle_commands.md R221; 40_parameter_smoother.md R103). -/
def initParams (c : Config) (s : State) : State :=
  let s1 : State :=
    { s with
      params := Config.paramDefaults
      ratioUp := ratioOf c Config.paramDefaults[2]
      ratioDn := ratioOf c Config.paramDefaults[3]
      gain2 := #v[doubledGain c Config.paramDefaults[8], doubledGain c Config.paramDefaults[9],
                  doubledGain c Config.paramDefaults[10]]
      sc := #v[c.smCoefDepth, c.smCoefUp, c.smCoefOut] }
  { s1 with sv := three fun k => smootherTarget c s1 k }

/-- The compressor configuration INIT loads, before COMP_COEF (46_lifecycle_commands.md R221). -/
def initComp (c : Config) (up dn : F64) (k : Comp) : Comp :=
  { k with
    sel := dn
    upr := up
    thr := c.thrReset
    relTc := c.relTcReset
    auxLin := c.auxLinReset
    auxKnee := c.auxKneeReset }

/-- INIT with a valid sample rate: every element 10_state.md R42 lists for INIT (46_lifecycle_commands.md R221). -/
def initState (c : Config) (fs : F64) (s : State) : State :=
  let s1 := initParams c { s with lifecycle := .ready, fs := fs, xoLo := Config.xoLoDefault, xoHi := Config.xoHiDefault }
  let s2 := deriveAll c s1
  let s3 := { s2 with comps := three fun b => compCoef c fs (initComp c s2.ratioUp s2.ratioDn s2.comps[b]) }
  { neutralState s3 with paramSet := Vector.replicate 20 true, initDone := true }

/-- INIT fs: a sample rate the default crossovers do not allow raises ERR_RATE and changes nothing else
(46_lifecycle_commands.md R221, R222). -/
def execInit (fs : F64) (s : State) : Outcome State Fault Refusal :=
  if rateOk Config.current fs Config.xoLoDefault Config.xoHiDefault then
    .next (initState Config.current fs s)
  else .next (raiseError .rate 0x81#8 s)

/-- The new sample rate with the coefficients and time constants that follow from it; nothing else changes
(46_lifecycle_commands.md R223). -/
def applyRate (c : Config) (fs : F64) (s : State) : State :=
  let s1 := deriveAll c { s with fs := fs }
  { s1 with comps := three fun b => compCoef c fs s1.comps[b] }

/-- SETRATE fs: needs READY, and a rate the present crossovers allow (46_lifecycle_commands.md R223, R226). -/
def execSetrate (fs : F64) (s : State) : Outcome State Fault Refusal :=
  if s.lifecycle = .uninit then .next (raiseError .uninit 0x82#8 s)
  else if rateOk Config.current fs s.xoLo s.xoHi then .next (applyRate Config.current fs s)
  else .next (raiseError .rate 0x82#8 s)

/-- RESET: needs READY; the recursive state to neutral, the configuration kept (46_lifecycle_commands.md R224, R226). -/
def execReset (s : State) : Outcome State Fault Refusal :=
  if s.lifecycle = .uninit then .next (raiseError .uninit 0x01#8 s) else .next (neutralState s)

/-- CLEANUP: STATE <- UNINIT and every ring cell UNDEF; allowed in both states (46_lifecycle_commands.md R225). -/
def execCleanup (s : State) : Outcome State Fault Refusal :=
  .next { s with lifecycle := .uninit, ring := Memory.undef 64 }

end Sys2Proof.Machine
end

