-- ==== Sys2Proof/Machine/Params.lean ====
section
/-! DEFINITION. The parameter commands SETP and GETP (45_parameter_commands.md). -/

namespace Sys2Proof.Machine

open Sys2Proof Host

/-- C_b.UPR <- r for every band (45_parameter_commands.md R204). -/
def setAllUpr (r : F64) (ks : Vector Comp 3) : Vector Comp 3 := three fun b => { ks[b] with upr := r }

/-- C_b.SEL <- r for every band (45_parameter_commands.md R204). -/
def setAllSel (r : F64) (ks : Vector Comp 3) : Vector Comp 3 := three fun b => { ks[b] with sel := r }

/-- DERIVE(idx, v'): the internal values a SETP updates (45_parameter_commands.md R204; 10_state.md R31). -/
def derive (c : Config) (idx : Nat) (v : F32) (s : State) : State :=
  if idx = 2 then { s with ratioUp := ratioOf c v, comps := setAllUpr (ratioOf c v) s.comps }
  else if idx = 3 then { s with ratioDn := ratioOf c v, comps := setAllSel (ratioOf c v) s.comps }
  else if h : 8 ≤ idx ∧ idx ≤ 10 then
    { s with gain2 := s.gain2.set (idx - 8) (doubledGain c v) (by omega) }
  else s

/-- P[idx] <- v, after which the parameter holds a value (45_parameter_commands.md R201; 00_scope.md R10). -/
def storeParam (idx : Nat) (h : idx < 20) (v : F32) (s : State) : State :=
  { s with params := s.params.set idx v h, paramSet := s.paramSet.set idx true h }

/-- SETP: the clamped value is stored and its derived values follow; an index from 20 on changes nothing
(45_parameter_commands.md R201). -/
def setParam (c : Config) (idx : BitVec 8) (v : F32) (s : State) : State :=
  if h : idx.toNat < 20 then derive c idx.toNat (clamp01 v) (storeParam idx.toNat h (clamp01 v) s) else s

/-- SETP idx, v (45_parameter_commands.md R201 to R204). -/
def execSetp (idx : BitVec 8) (v : F32) (s : State) : Outcome State Fault Refusal :=
  .next (setParam Config.current idx v s)

/-- GETP idx: RESP <- the raw parameter zero-extended, 0 for an index from 20 on; of a parameter that is UNDEF the 32 bits
are unspecified and the run has faulted (45_parameter_commands.md R206; 00_scope.md R10; log 4). -/
def execGetp (idx : BitVec 8) (s : State) : Outcome State Fault Refusal :=
  if h : idx.toNat < 20 then
    if s.paramSet[idx.toNat] then .next (s.setResp (s.params[idx.toNat].zeroExtend 64))
    else .next (s.respondUndef ((Config.current.rows.undefParam idx s.cp).zeroExtend 64))
  else .next (s.setResp 0#64)

end Sys2Proof.Machine
end

