-- ==== Sys2Proof/Machine/Peak.lean ====
section
/-! DEFINITION. The peak envelope trackers: PEAK (41_peak_envelope.md R110 to R113). -/

namespace Sys2Proof.Machine

open Sys2Proof

/-- PEAK: below the envelope it decays by DECAY_RATE, floored at +0.0, else it snaps to the sample
(41_peak_envelope.md R111). DEDUCED (log 23): R113 says that PK is never below zero, while a negative sample after a NaN leaves
it negative by this pseudocode and by R113's own words on a NaN; the pseudocode is the model. -/
def peakValue (c : Config) (pk x : F64) : F64 :=
  if fltLt x pk then
    let y := fsub c pk c.decayRate
    if fltLt y zeroF then zeroF else y
  else x

/-- One sample of the peak pass: PEAK(0, F64(left)) then PEAK(1, F64(right)) (44_process.md R174). -/
def peakSample (c : Config) (w : Word × Word) (s : State) : State :=
  { s with pk := #v[peakValue c s.pk[0] (widen c w.1), peakValue c s.pk[1] (widen c w.2)] }

/-- PEAK_PASS over the block's samples in order (41_peak_envelope.md R112; 44_process.md R174). -/
def peakPass (c : Config) : List (Word × Word) → State → State
  | [], s => s
  | w :: ws, s => peakPass c ws (peakSample c w s)

end Sys2Proof.Machine
end

