-- ==== Sys2Proof/Machine/Process.lean ====
section
/-! DEFINITION. PROCESS, the block pipeline (44_process.md). Every input word is read before any cell is written (R186), so
the passes run over the list of the block's (left, right) words. -/

namespace Sys2Proof.Machine

open Sys2Proof Host

/-- RING_WRITE: six bands and the two raw samples at the write cursor (44_process.md R176; 20_memory.md R61). -/
def ringWrite (bands : Vector F64 6) (sL sR : F64) (s : State) : State :=
  let p := s.wcur
  (((((((s.setRingCell 0#3 p bands[0]).setRingCell 1#3 p bands[1]).setRingCell 2#3 p bands[2]).setRingCell
    3#3 p bands[3]).setRingCell 4#3 p bands[4]).setRingCell 5#3 p bands[5]).setRingCell 6#3 p sL).setRingCell 7#3 p sR

/-- WCUR <- (WCUR + 1) mod 32768 (44_process.md R177). -/
def advanceWcur (s : State) : State := { s with wcur := s.wcur + 1#15 }

/-- One sample of SPLIT_PASS: smoothers, input gain, filter bank, ring write, cursor (44_process.md R175). -/
def splitSample (c : Config) (adv : Bool) (w : Word × Word) (s : State) : State :=
  let sL := widen c w.1
  let sR := widen c w.2
  let s1 := smoothAll c s
  let g := s1.sv[c.gInSrc]
  let r := bank c adv s1.filters (fmul c sL g) (fmul c sR g)
  advanceWcur (ringWrite r.2 sL sR { s1 with filters := r.1 })

/-- SPLIT_PASS over the block's samples in order (44_process.md R175). -/
def splitPass (c : Config) (adv : Bool) : List (Word × Word) → State → State
  | [], s => s
  | w :: ws, s => splitPass c adv ws (splitSample c adv w s)

/-- The six band cells at a ring position; `none` if one of them is UNDEF (44_process.md R178; 00_scope.md R10). -/
def readBands (s : State) (rc : RingPos) : Option (Vector F64 6) :=
  match s.ringCell 0#3 rc, s.ringCell 1#3 rc, s.ringCell 2#3 rc, s.ringCell 3#3 rc, s.ringCell 4#3 rc, s.ringCell 5#3 rc with
  | some a0, some a1, some a2, some a3, some a4, some a5 => some #v[a0, a1, a2, a3, a4, a5]
  | _, _, _, _, _, _ => none

/-- The weighted remix of three bands: (((v0 × M0) + (v1 × M1)) + (v2 × M2)) × go (44_process.md R178). -/
def remixSum (c : Config) (v0 v1 v2 m0 m1 m2 go : F64) : F64 :=
  fmul c (fadd c (fadd c (fmul c v0 m0) (fmul c v1 m1)) (fmul c v2 m2)) go

/-- OUT_WRITE: the left output to OUT0, then the right output to its buffer (44_process.md R179). -/
def outWrite (c : Config) (outR : BitVec 2) (i : Nat) (l r : F64) (s : State) : State :=
  (s.setIoWord 2#2 (BitVec.ofNat 15 i) (narrow c l)).setIoWord outR (BitVec.ofNat 15 i) (narrow c r)

/-- One sample of REMIX_PASS on bands already read back: the three compressors in band order, then the output
(44_process.md R178). -/
def remixSample (c : Config) (g go : F64) (outR : BitVec 2) (i : Nat) (v : Vector F64 6) (s : State) : State :=
  let r0 := compStep c 0 (power c v[0] v[1]) g s.gain2[0] s
  let r1 := compStep c 1 (power c v[2] v[3]) g s.gain2[1] r0.1
  let r2 := compStep c 2 (power c v[4] v[5]) g s.gain2[2] r1.1
  outWrite c outR i (remixSum c v[0] v[2] v[4] r0.2 r1.2 r2.2 go) (remixSum c v[1] v[3] v[5] r0.2 r1.2 r2.2 go) r2.1

/-- The samples of REMIX_PASS still to do, from sample `i` and read cursor `rc` on; RCUR takes the last cursor
(44_process.md R177, R178). `none` if a ring cell read back is UNDEF. -/
def remixLoop (c : Config) (g go : F64) (outR : BitVec 2) : Nat → Nat → RingPos → State → Option State
  | 0, _, rc, s => some { s with rcur := rc }
  | n + 1, i, rc, s =>
    match readBands s rc with
    | some v => remixLoop c g go outR n (i + 1) (rc + 1#15) (remixSample c g go outR i v s)
    | none => none

/-- REMIX_PASS: the read cursor starts at (WCUR − N) mod 32768, g and go are the smoother values after the split pass
(44_process.md R177, R178). -/
def remixPass (c : Config) (outR : BitVec 2) (n : Nat) (s : State) : Option State :=
  remixLoop c s.sv[c.gCmpSrc] s.sv[c.gOutSrc] outR n 0 (s.wcur - BitVec.ofNat 15 n) s

/-- BYPASS: the input words to the output buffers bit for bit; OUT1 only when out1 is present (44_process.md R173). -/
def bypassBlock (in1 out1 : Bool) (n : Nat) (s : State) : Outcome State Fault Refusal :=
  match readBlock s 0#2 n 0 with
  | none => .fault .undefIoWord
  | some ls =>
    if out1 then
      match readBlock s (rightIn in1) n 0 with
      | none => .fault .undefIoWord
      | some rs => .next (writeBlock 3#2 rs 0 (writeBlock 2#2 ls 0 s))
    else .next (writeBlock 2#2 ls 0 s)

/-- The three passes over a block of samples (44_process.md R170, R174 to R179). -/
def pipeline (c : Config) (adv : Bool) (outR : BitVec 2) (ws : List (Word × Word)) (s : State) : Option State :=
  remixPass c outR ws.length (splitPass c adv ws (peakPass c ws s))

/-- A PROCESS that has passed its checks and is not bypassed (44_process.md R170). -/
def processBlock (c : Config) (in1 out1 : Bool) (n : Nat) (s : State) : Outcome State Fault Refusal :=
  match readBlock s 0#2 n 0, readBlock s (rightIn in1) n 0 with
  | some ls, some rs =>
    match pipeline c (boolParam c s.params[4]) (rightOut out1) (ls.zip rs) s with
    | some t => .next t
    | none => .fault .undefRingCell
  | _, _ => .fault .undefIoWord

/-- PROCESS n, presence: the checks in their order (44_process.md R171; 60_exceptions.md R265), the bypass, or the passes
(R170). -/
def execProcess (in0 in1 out0 out1 : Bool) (n : Int) (s : State) : Outcome State Fault Refusal :=
  if !in0 || !out0 || decide (n ≤ 0) then .next s
  else if s.lifecycle = .uninit then .next (raiseError .uninit 0xC0#8 s)
  else if Config.maxBlock < n then .next (raiseError .block 0xC0#8 s)
  else if boolParam Config.current s.params[19] then bypassBlock in1 out1 n.toNat s
  else processBlock Config.current in1 out1 n.toNat s

end Sys2Proof.Machine
end

