-- ==== Sys2Proof/Machine/Dispatch.lean ====
section
/-! DEFINITION. One arm per command (30_encoding.md R83). -/

namespace Sys2Proof.Machine

open Sys2Proof

def exec (i : Instr) (s : State) : Host.Outcome State Fault Refusal :=
  match i with
  | .nop => Sys2Proof.Machine.execNop s
  | .reset => Sys2Proof.Machine.execReset s
  | .cleanup => Sys2Proof.Machine.execCleanup s
  | .getp idx => Sys2Proof.Machine.execGetp idx s
  | .rdreg addr => Sys2Proof.Machine.execRdreg addr s
  | .rdring ch pos => Sys2Proof.Machine.execRdring ch pos s
  | .rdio buf idx => Sys2Proof.Machine.execRdio buf idx s
  | .init fs => Sys2Proof.Machine.execInit fs s
  | .setrate fs => Sys2Proof.Machine.execSetrate fs s
  | .setp idx v => Sys2Proof.Machine.execSetp idx v s
  | .wrreg addr val => Sys2Proof.Machine.execWrreg addr val s
  | .wrio buf idx word => Sys2Proof.Machine.execWrio buf idx word s
  | .process in0 in1 out0 out1 n => Sys2Proof.Machine.execProcess in0 in1 out0 out1 n s

end Sys2Proof.Machine
end

