-- ==== Sys2Proof/Machine/Step.lean ====
section
/-! DEFINITION. One step: take the next command from the stream, consume it, and execute it (10_state.md R29;
30_encoding.md R82, R88; 60_exceptions.md R264; 70_reset_and_hazards.md R291). -/

namespace Sys2Proof.Machine

open Sys2Proof

/-- One step of the block. A run that has read an UNDEF register or parameter stops with its fault (00_scope.md R10; log 4).
Otherwise a whole command is consumed and then executed, an illegal one raises ERR_ILLEGAL; with no word
in the stream the block is idle and holds all state (60_exceptions.md R276; log 7); a command cut off by the end of the
stream is not executed, and the block is stuck (70_reset_and_hazards.md R291). -/
def step (s : State) : Host.Outcome State Fault Refusal :=
  match s.pendingFault with
  | some f => .fault f
  | none =>
    match fetchCommand s.stream with
    | .ended => .next s
    | .truncated => .fault .truncatedCommand
    | .command w w1 w2 rest =>
      match decode w w1 w2 with
      | .ok i => exec i (s.consume (commandLength w) rest)
      | .error _ => .next (illegalCommand w (s.consume (commandLength w) rest))

/-- The host presents the instruction whose bits are `w` as the next command of the stream (70_reset_and_hazards.md R292;
log 6), to a run that no UNDEF read has stopped. -/
def State.withFetchWord (s : State) (nbits w : Nat) : State :=
  { s with stream := tableWords nbits w ++ s.stream, undefRead := false }

end Sys2Proof.Machine
end

