-- ==== Sys2Proof/Safety.lean ====
section
/-! DEFINITION. How a run ends (70_reset_and_hazards.md R291; 60_exceptions.md R267), and the invariants of the block's state
that claims speak of. -/

namespace Sys2Proof.Machine

open Sys2Proof

/-- `k` steps of the block. -/
def runSteps (k : Nat) (s : State) : Host.Outcome State Fault Refusal := Host.Core.run Sys2Proof.core k s

/-- The run from `s` ends in `t`: CP has reached the end of the stream at a command boundary, and the run has not faulted
(70_reset_and_hazards.md R291). -/
def runEnds (s t : State) : Prop := ∃ k, runSteps k s = .next t ∧ t.stream = [] ∧ t.pendingFault = none

/-- The run from `s` is stuck: its stream ends inside a format-L command (70_reset_and_hazards.md R291). -/
def runStuck (s : State) : Prop := ∃ k, runSteps k s = .fault .truncatedCommand

/-- The run from `s` has faulted: it read something UNDEF (70_reset_and_hazards.md R291; 60_exceptions.md R268). -/
def runFaulted (s : State) : Prop := ∃ k f, runSteps k s = .fault f ∧ f ≠ .truncatedCommand

/-- A run ended with no error iff STATUS = 0 in its end state (60_exceptions.md R267; 70_reset_and_hazards.md R291). -/
def endedNoError (t : State) : Prop := t.status = 0#64

/-- Both memories are in their canonical form, within their spaces (20_memory.md R60). -/
def memoriesWf (s : State) : Bool := s.ring.wf ringCells && s.io.wf ioWords

/-- The error registers are as 10_state.md R22 and R23 lay them out: STATUS[63:5] = 0, LAST_ERR[63:16] = 0, and LAST_ERR
is 0 exactly when STATUS is, otherwise its code's bit is set in STATUS. -/
def errorRegsOk (s : State) : Prop :=
  s.status.toNat < 32 ∧
  ((s.status = 0#64 ∧ s.lastErr = 0#64) ∨
    ∃ (e : ErrorCode) (op : BitVec 8), s.lastErr = lastErrWord e op ∧ s.status &&& statusBit e = statusBit e)

/-- What STATE says about the rest: READY only after an INIT, with every parameter set and every ring cell holding a value;
UNINIT with every ring cell UNDEF (10_state.md R21, R42). -/
def lifecycleOk (s : State) : Prop :=
  match s.lifecycle with
  | .ready => s.initDone = true ∧ s.ring.fill = some zeroF
  | .uninit => s.ring = Memory.undef 64

/-- An INIT sets every parameter (10_state.md R42; 46_lifecycle_commands.md R221). -/
def marksOk (s : State) : Prop := s.initDone = true → ∀ i : Fin 20, s.paramSet[i] = true

/-- A parameter value lies in [0, 1] and is no NaN (10_state.md R30; 45_parameter_commands.md R202). -/
def paramInUnit (v : F32) : Bool := !isNaN32 v && !fltLt32 v 0x00000000#32 && !fltLt32 0x3F800000#32 v

/-- Every parameter lies in [0, 1] (10_state.md R30). -/
def paramsOk (s : State) : Prop := ∀ i : Fin 20, paramInUnit s.params[i] = true

/-- FS is finite and positive and both crossovers lie in (0, FS/2) (42_crossover_filterbank.md R123), whatever the
configuration. -/
def ratesOk (s : State) : Prop :=
  s.initDone = true →
    fltLt zeroF s.fs = true ∧ fltLt s.fs posInfF = true ∧
    ∀ c : Config, crossoverOk c s.xoLo s.fs = true ∧ crossoverOk c s.xoHi s.fs = true

/-- Each filter's FREQ is the crossover it is assigned (10_state.md R28; 42_crossover_filterbank.md R121), its b0 is 1.0
(R122), and the two lanes of a pair have the same coefficients (R120). -/
def filtersOk (s : State) : Prop :=
  s.initDone = true →
    (∀ i : Fin 6, s.filters[i].freq = (if i.val ≤ 3 then s.xoLo else s.xoHi) ∧ s.filters[i].b0 = oneF) ∧
    (∀ i j : Fin 6, i.val / 2 = j.val / 2 →
      s.filters[i].a1 = s.filters[j].a1 ∧ s.filters[i].b1 = s.filters[j].b1 ∧
      s.filters[i].a2 = s.filters[j].a2 ∧ s.filters[i].b2 = s.filters[j].b2)

/-- Every smoother coefficient lies in (0, 1] (40_parameter_smoother.md R104). -/
def smoothersOk (s : State) : Prop :=
  s.initDone = true → ∀ k : Fin 3, fltLt zeroF s.sc[k] = true ∧ fltLe s.sc[k] oneF = true

/-- Between commands RCUR equals WCUR (44_process.md R177). -/
def cursorsOk (s : State) : Prop := s.rcur = s.wcur

/-- The derived values are those of the parameters they are kept beside (10_state.md R31). -/
def derivedOk (s : State) : Prop :=
  (s.paramSet[2] = true → s.ratioUp = ratioOf Config.current s.params[2]) ∧
  (s.paramSet[3] = true → s.ratioDn = ratioOf Config.current s.params[3]) ∧
  (∀ b : Fin 3, s.paramSet[8 + b.val] = true → s.gain2[b] = doubledGain Config.current s.params[8 + b.val])

/-- The first `n` words of an I/O buffer hold values, not UNDEF (70_reset_and_hazards.md R292: the host writes every input
word a PROCESS will read). -/
def inputsWritten (s : State) (buf : BitVec 2) (n : Nat) : Prop :=
  ∀ i < n, (s.ioWord buf (BitVec.ofNat 15 i)).isSome = true

/-- The word IO[buf][i] where it holds one, else 0. -/
def ioWordD (s : State) (buf : BitVec 2) (i : Nat) : Word := (s.ioWord buf (BitVec.ofNat 15 i)).getD 0#32

/-- A read command: it may write RESP and nothing else (20_memory.md R66; 10_state.md R25). -/
def isReadCommand : Instr → Bool
  | .getp _ => true
  | .rdreg _ => true
  | .rdring _ _ => true
  | .rdio _ _ => true
  | _ => false

/-- The parameters with no effect in the core: 1, 5 to 7, 11 to 16, 17 and 18 (45_parameter_commands.md R207). -/
def inertParam (i : Nat) : Bool := i == 1 || (5 ≤ i && i ≤ 7) || (11 ≤ i && i ≤ 18)

/-- Two states that differ in inert parameters only (45_parameter_commands.md R207). -/
def agreeButInert (s t : State) : Prop :=
  t = { s with params := t.params, paramSet := t.paramSet } ∧
  ∀ j : Fin 20, inertParam j.val = false → t.params[j] = s.params[j] ∧ t.paramSet[j] = s.paramSet[j]

/-- Two states that differ in the peak trackers, the meters, the read cursor, the cached filter outputs, PATH and RED only:
what no datapath rule reads (41_peak_envelope.md R112; 43_compressor.md R152; 10_state.md R40, R41). -/
def agreeButMeters (s t : State) : Prop :=
  t = { s with
    pk := t.pk, mgr := t.mgr, mrms := t.mrms, rcur := t.rcur, filters := t.filters, comps := t.comps } ∧
  (∀ k : Fin 6, t.filters[k] = { s.filters[k] with lp := t.filters[k].lp, hp := t.filters[k].hp }) ∧
  ∀ b : Fin 3, t.comps[b] = { s.comps[b] with path := t.comps[b].path, red := t.comps[b].red }

/-- The (left, right) input words of a block as a PROCESS resolves its channels (44_process.md R172, R174). -/
def blockWords (s : State) (in1 : Bool) (n : Nat) : List (Word × Word) :=
  (List.range n).map fun i => (ioWordD s 0#2 i, ioWordD s (rightIn in1) i)

/-- The split pass with no ring: the state after it, and the bands of each sample in order (44_process.md R182). -/
def directSplit (c : Config) (adv : Bool) : List (Word × Word) → State → State × List (Vector F64 6)
  | [], s => (s, [])
  | w :: ws, s =>
    let s1 := smoothAll c s
    let g := s1.sv[c.gInSrc]
    let r := bank c adv s1.filters (fmul c (widen c w.1) g) (fmul c (widen c w.2) g)
    let rest := directSplit c adv ws { s1 with filters := r.1 }
    (rest.1, r.2 :: rest.2)

/-- The remix pass on bands handed over directly, with no ring (44_process.md R182). -/
def directRemix (c : Config) (g go : F64) (outR : BitVec 2) : List (Vector F64 6) → Nat → State → State
  | [], _, s => s
  | v :: vs, i, s => directRemix c g go outR vs (i + 1) (remixSample c g go outR i v s)

/-- The left and the right unit of every filter pair are equal, and so are the two peak trackers
(42_crossover_filterbank.md R120; 44_process.md R172). -/
def lanesEqual (s : State) : Prop :=
  s.filters[0] = s.filters[1] ∧ s.filters[2] = s.filters[3] ∧ s.filters[4] = s.filters[5] ∧ s.pk[0] = s.pk[1]

/-- A finite binary64 value: no NaN and no infinity. -/
def isFinite64 (x : F64) : Bool := decide (x.toNat % 2 ^ 63 < 0x7FF0000000000000)

/-- The number a finite value stands for: (−1)^neg × m × 2^e (00_scope.md R11). -/
def finValue (neg : Bool) (m : Nat) (e : Int) : ℚ := (if neg then -1 else 1) * (m : ℚ) * (2 : ℚ) ^ e

/-- One value is below another: by the numbers they stand for, with the infinities at the ends; a NaN is below nothing and
nothing is below a NaN (00_scope.md R14). -/
def valueLt : FpValue → FpValue → Bool
  | .nan, _ => false
  | _, .nan => false
  | .inf s, .inf t => s && !t
  | .inf s, .fin _ _ _ => s
  | .fin _ _ _, .inf t => !t
  | .fin n m e, .fin n' m' e' => decide (finValue n m e < finValue n' m' e')

/-- Two values are equal as numbers: −0.0 and +0.0 are, a NaN is equal to nothing (00_scope.md R14). -/
def valueEq : FpValue → FpValue → Bool
  | .inf s, .inf t => s == t
  | .fin n m e, .fin n' m' e' => decide (finValue n m e = finValue n' m' e')
  | _, _ => false

/-- The result `r`, with its pattern's parity, is the real number x, of the sign `neg`, rounded to nearest, ties to even, within
a set of candidate values: a finite result has that sign, no candidate is nearer to x, and a candidate as near with another
value means that r's pattern is even; the result is an infinity of that sign exactly from `bound` on (00_scope.md R11). -/
def isNearestEven (x : ℝ) (neg : Bool) (r : FpValue) (even : Prop) (bound : ℝ) (candidate : FpValue → Prop) : Prop :=
  match r with
  | .nan => False
  | .inf s => s = neg ∧ bound ≤ |x|
  | .fin s m e =>
    s = neg ∧ |x| < bound ∧
    ∀ (s2 : Bool) (m2 : Nat) (e2 : Int), candidate (.fin s2 m2 e2) →
      |(finValue s m e : ℝ) - x| ≤ |(finValue s2 m2 e2 : ℝ) - x| ∧
      (|(finValue s m e : ℝ) - x| = |(finValue s2 m2 e2 : ℝ) - x| → finValue s m e ≠ finValue s2 m2 e2 → even)

/-- The binary64 pattern `r` is x correctly rounded; from half a unit above the largest finite value on, x gives an infinity
(00_scope.md R11). -/
def roundsTo64 (x : ℝ) (neg : Bool) (r : F64) : Prop :=
  isNearestEven x neg (unpack64 r) (r.toNat % 2 = 0) ((2 ^ 54 - 1) * 2 ^ 970) fun v => ∃ y : F64, unpack64 y = v

/-- The binary32 pattern `r` is x correctly rounded (00_scope.md R12). -/
def roundsTo32 (x : ℝ) (neg : Bool) (r : F32) : Prop :=
  isNearestEven x neg (unpack32 r) (r.toNat % 2 = 0) ((2 ^ 25 - 1) * 2 ^ 103) fun v => ∃ y : F32, unpack32 y = v

end Sys2Proof.Machine
end

