-- ==== Sys2Proof/Certificates/Slice0/Obligations.lean ====
section
/-! DEFINITION. The statements about the block, for the provers. Each docstring names the rules a statement rests on. -/

open Sys2Proof Sys2Proof.Machine

/-! ## Encoding -/

/-- Decoding the words of a well-formed command, whatever follows them in the stream, gives the command back
(30_encoding.md R81 to R85). -/
def Obligations.DecodeInvertsEncode : Prop :=
  ∀ (i : Instr) (rest : List Word), i.wellFormed = true →
    ∃ w w1 w2, fetchCommand (encode i ++ rest) = .command w w1 w2 rest ∧ decode w w1 w2 = .ok i

/-- A command word is accepted exactly when it matches a row of the opcode table, the row is the one of its mnemonic, no
word matches two rows, an opcode outside the map is refused as reserved, any other refusal is a non-zero reserved field, and
O[63:32] of SETP, WRIO and PROCESS decides nothing (30_encoding.md R85, R86, R87). -/
def Obligations.DecodeAcceptsTableRows : Prop :=
  (∀ w w1 w2 : Word, (∃ i, decode w w1 w2 = .ok i) ↔ ∃ r ∈ opcodeTable, r.matchesWord w = true) ∧
  (∀ (w w1 w2 : Word) (i : Instr), decode w w1 w2 = .ok i →
    ∃ r ∈ opcodeTable, r.matchesWord w = true ∧ r.mnemonic = i.mnemonic) ∧
  (∀ w : Word, ∀ r ∈ opcodeTable, ∀ r' ∈ opcodeTable,
    r.matchesWord w = true → r'.matchesWord w = true → r = r') ∧
  (∀ w w1 w2 : Word, decode w w1 w2 = .error .reservedOpcode ↔ ∀ r ∈ opcodeTable, opField r.value ≠ opField w) ∧
  (∀ w w1 w2 v2 : Word, opField w = 0x90#8 ∨ opField w = 0xA2#8 ∨ opField w = 0xC0#8 →
    decode w w1 w2 = decode w w1 v2)

/-- The operands of a decoded command are the bit fields that 30_encoding.md R84 names. -/
def Obligations.OperandsFromFields : Prop :=
  ∀ (w w1 w2 : Word) (i : Instr), decode w w1 w2 = .ok i →
    (∀ idx, i = .getp idx → idx = w.extractLsb' 8 8) ∧
    (∀ a, i = .rdreg a → a = w.extractLsb' 16 16) ∧
    (∀ ch pos, i = .rdring ch pos → ch = w.extractLsb' 8 3 ∧ pos = w.extractLsb' 16 15) ∧
    (∀ b k, i = .rdio b k → b = w.extractLsb' 8 2 ∧ k = w.extractLsb' 16 15) ∧
    (∀ fs, i = .init fs ∨ i = .setrate fs → fs = w2 ++ w1) ∧
    (∀ idx v, i = .setp idx v → idx = w.extractLsb' 8 8 ∧ v = w1) ∧
    (∀ a v, i = .wrreg a v → a = w.extractLsb' 16 16 ∧ v = w2 ++ w1) ∧
    (∀ b k v, i = .wrio b k v → b = w.extractLsb' 8 2 ∧ k = w.extractLsb' 16 15 ∧ v = w1) ∧
    (∀ in0 in1 out0 out1 n, i = .process in0 in1 out0 out1 n →
      in0 = w.getLsbD 8 ∧ in1 = w.getLsbD 9 ∧ out0 = w.getLsbD 10 ∧ out1 = w.getLsbD 11 ∧ n = w1.toInt)

/-- The encoding examples of 30_encoding.md R92, read in both directions. -/
def Obligations.EncodingExamples : Prop :=
  let ok := fun (i : Instr) (ws : List Word) =>
    encode i = ws ∧ decode (ws.getD 0 0#32) (ws.getD 1 0#32) (ws.getD 2 0#32) = .ok i
  ok .nop [0x00000000#32] ∧
  ok .reset [0x00000001#32] ∧
  ok (.getp 3#8) [0x00000310#32] ∧
  ok (.rdreg 0x0203#16) [0x02030020#32] ∧
  ok (.rdring 6#3 5#15) [0x00050621#32] ∧
  ok (.rdio 2#2 2#15) [0x00020222#32] ∧
  ok (.init 0x40E7700000000000#64) [0x00000081#32, 0x00000000#32, 0x40E77000#32] ∧
  ok (.setp 19#8 0x3F800000#32) [0x00001390#32, 0x3F800000#32, 0x00000000#32] ∧
  ok (.wrreg 0x0203#16 0xBFF0000000000000#64) [0x020300A0#32, 0x00000000#32, 0xBFF00000#32] ∧
  ok (.wrio 0#2 1#15 0x3F000000#32) [0x000100A2#32, 0x3F000000#32, 0x00000000#32] ∧
  ok (.process true false true false 4) [0x000005C0#32, 0x00000004#32, 0x00000000#32] ∧
  ok (.process true false true false (-1)) [0x000005C0#32, 0xFFFFFFFF#32, 0x00000000#32] ∧
  regAt 0x0203#16 = some (.comp 0 .sel)

/-! ## The step -/

/-- A step runs the decoded command: when the front of the stream is a whole command whose words decode to `i`, the step is
`exec i` on the state with exactly those words consumed (10_state.md R29; 60_exceptions.md R264). A run that has read an UNDEF
register or parameter has faulted, and its step stops whatever comes next (00_scope.md R10; 60_exceptions.md R268; log 4). -/
def Obligations.StepRunsDecodedCommand : Prop :=
  (∀ (s : State), s.undefRead = true → step s = .fault .undefRead) ∧
  ∀ (s : State) (w w1 w2 : Word) (rest : List Word) (i : Instr), s.undefRead = false →
    fetchCommand s.stream = .command w w1 w2 rest → decode w w1 w2 = .ok i →
    i.wellFormed = true ∧
    step s = exec i { s with cp := s.cp + (if w.getLsbD 7 then 3 else 1), stream := rest }

/-- An illegal command sets STATUS[0], writes LAST_ERR with its OP field, advances CP by the length its OP[7] gives, and
changes nothing else (30_encoding.md R88), in a run that no UNDEF read has stopped (log 4). -/
def Obligations.IllegalCommandOnlyRecordsError : Prop :=
  ∀ (s : State) (w w1 w2 : Word) (rest : List Word) (e : DecodeError), s.undefRead = false →
    fetchCommand s.stream = .command w w1 w2 rest → decode w w1 w2 = .error e →
    step s = .next { s with
      cp := s.cp + (if w.getLsbD 7 then 3 else 1), stream := rest
      status := s.status ||| 1#64, lastErr := 0#48 ++ (w.extractLsb' 0 8 ++ 1#8) }

/-- Every command that completes advances CP by one word if OP[7] = 0 and by three if OP[7] = 1, legal or not, and takes
exactly those words from the stream; CP starts at 0 (30_encoding.md R82, R89; 10_state.md R29). -/
def Obligations.CpAdvancesByLength : Prop :=
  State.reset.cp = 0 ∧
  ∀ (s t : State) (w : Word) (rest : List Word), s.stream = w :: rest → step s = .next t →
    t.cp = s.cp + (if w.getLsbD 7 then 3 else 1) ∧
    t.stream = s.stream.drop (if w.getLsbD 7 then 3 else 1) ∧
    (if w.getLsbD 7 then 3 else 1) ≤ s.stream.length

/-- With no word in the stream a step changes nothing; the stuck state is exactly a stream that ends inside a format-L
command, in a run that has not faulted (60_exceptions.md R276; 20_memory.md R65; 70_reset_and_hazards.md R291; log 4, log 7,
log 8). -/
def Obligations.StreamEndAndTruncation : Prop :=
  (∀ s : State, s.undefRead = false → s.stream = [] → step s = .next s) ∧
  ∀ s : State, step s = .fault .truncatedCommand ↔
    s.undefRead = false ∧ ∃ w rest, s.stream = w :: rest ∧ w.getLsbD 7 = true ∧ rest.length < 2

/-- The model stops only for reading what is UNDEF or for a cut-off command (00_scope.md R10; 60_exceptions.md R268): a
command stops on a memory cell that is UNDEF, a PROCESS never on a ring cell (20_memory.md R75), and a read of a register or
a parameter that is UNDEF leaves the mark that stops the next step. That the stop comes after the RDREG or GETP and not
within it is the model's choice (log 4). No step refuses: every command of the map has a meaning (30_encoding.md R83). -/
def Obligations.FaultsAreUndefReads : Prop :=
  (∀ (s : State) (r : Refusal), step s ≠ .refused r) ∧
  (∀ s : State, step s = .fault .undefRead ↔ s.undefRead = true) ∧
  (∀ (i : Instr) (s t : State), exec i s = .next t →
    (t.undefRead = true ↔ s.undefRead = true ∨
      (∃ a r, i = .rdreg a ∧ regAt a = some r ∧ s.regDefined r = false) ∨
      ∃ (idx : BitVec 8) (h : idx.toNat < 20), i = .getp idx ∧ s.paramSet[idx.toNat] = false)) ∧
  ∀ (i : Instr) (s : State) (f : Fault), lifecycleOk s → exec i s = .fault f →
    (f = .undefRingCell ∧ ∃ ch pos, i = .rdring ch pos ∧ s.ringCell ch pos = none) ∨
    (f = .undefIoWord ∧
      ((∃ b k, i = .rdio b k ∧ s.ioWord b k = none) ∨
       ∃ in1 out1 n j, i = .process true in1 true out1 n ∧ j < n.toNat ∧
        (s.ioWord 0#2 (BitVec.ofNat 15 j) = none ∨ s.ioWord (if in1 then 1#2 else 0#2) (BitVec.ofNat 15 j) = none)))

/-! ## Errors -/

/-- Errors are precise: a completed command either leaves STATUS and LAST_ERR as they were, or it raised one error, set
that error's STATUS bit, wrote {OP, code} to LAST_ERR, and changed nothing else but CP (60_exceptions.md R264). -/
def Obligations.ErrorsArePrecise : Prop :=
  ∀ (s t : State) (w : Word) (rest : List Word), s.stream = w :: rest → step s = .next t →
    (t.status = s.status ∧ t.lastErr = s.lastErr) ∨
    ∃ e : ErrorCode,
      t = { s with
        cp := s.cp + (if w.getLsbD 7 then 3 else 1), stream := s.stream.drop (if w.getLsbD 7 then 3 else 1)
        status := s.status ||| (1#64 <<< ((errorNumber e).toNat - 1))
        lastErr := 0#48 ++ (w.extractLsb' 0 8 ++ errorNumber e) }

/-- Over any run no STATUS bit is ever cleared, so a run that ends with STATUS = 0 had STATUS = 0 all along
(10_state.md R22; 60_exceptions.md R267). -/
def Obligations.StatusStickyOverRuns : Prop :=
  ∀ (k : Nat) (s t : State), runSteps k s = .next t →
    s.status &&& t.status = s.status ∧
    (t.status = 0#64 → ∀ j ≤ k, ∃ u, runSteps j s = .next u ∧ u.status = 0#64 ∧ u.lastErr = s.lastErr)

/-- WRREG, SETRATE, RESET and PROCESS (past its silent cases) raise ERR_UNINIT in UNINIT whatever their operands, and do
nothing else; no other command touches that STATUS bit (46_lifecycle_commands.md R226; 60_exceptions.md R265). -/
def Obligations.NeedsReadyRaisesUninit : Prop :=
  ∀ s : State,
    (s.lifecycle = .uninit →
      (∀ a v, exec (.wrreg a v) s = .next { s with status := s.status ||| 2#64, lastErr := 0xA002#64 }) ∧
      (∀ fs, exec (.setrate fs) s = .next { s with status := s.status ||| 2#64, lastErr := 0x8202#64 }) ∧
      exec .reset s = .next { s with status := s.status ||| 2#64, lastErr := 0x0102#64 } ∧
      (∀ in1 out1 n, 0 < n →
        exec (.process true in1 true out1 n) s = .next { s with status := s.status ||| 2#64, lastErr := 0xC002#64 })) ∧
    (∀ i t, i.opcode ∉ [0xA0#8, 0x82#8, 0x01#8, 0xC0#8] → exec i s = .next t →
      t.status.getLsbD 1 = s.status.getLsbD 1)

/-! ## Who writes what -/

/-- The read commands write RESP and nothing else, but for the ERR_REG of RDREG and the model's own mark of an UNDEF read
(log 4); every other command leaves RESP and the mark alone (10_state.md R25; 20_memory.md R66). -/
def Obligations.ReadsWriteRespOnly : Prop :=
  ∀ (i : Instr) (s t : State), exec i s = .next t →
    (isReadCommand i = true →
      t = { s with resp := t.resp, undefRead := t.undefRead } ∨
      (t = { s with status := s.status ||| 16#64, lastErr := 0x2005#64 } ∧ ∃ a, i = .rdreg a ∧ regAt a = none)) ∧
    (isReadCommand i = false → t.resp = s.resp ∧ t.undefRead = s.undefRead)

/-- STATE is written by INIT and CLEANUP only, FS by INIT and SETRATE, the crossovers by INIT and WRREG, the parameters and
their derived values by INIT and SETP, SC by INIT, the filter and compressor coefficients by INIT, SETRATE and WRREG; no
command changes the stream it stands in (10_state.md R21, R31, R32, R33; 42_crossover_filterbank.md R124; 43_compressor.md
R143; 30_encoding.md R89). -/
def Obligations.ConfigurationWriters : Prop :=
  ∀ (i : Instr) (s t : State), exec i s = .next t →
    (t.cp = s.cp ∧ t.stream = s.stream) ∧
    (i.opcode ∉ [0x81#8, 0x02#8] → t.lifecycle = s.lifecycle) ∧
    (i.opcode ∉ [0x81#8, 0x82#8] → t.fs = s.fs) ∧
    (i.opcode ∉ [0x81#8, 0xA0#8] → t.xoLo = s.xoLo ∧ t.xoHi = s.xoHi) ∧
    (i.opcode ∉ [0x81#8, 0x90#8] →
      t.params = s.params ∧ t.ratioUp = s.ratioUp ∧ t.ratioDn = s.ratioDn ∧ t.gain2 = s.gain2) ∧
    (i.opcode ≠ 0x81#8 → t.sc = s.sc) ∧
    (i.opcode ∉ [0x81#8, 0x82#8, 0xA0#8] →
      (∀ k : Fin 6, t.filters[k].b0 = s.filters[k].b0 ∧ t.filters[k].b1 = s.filters[k].b1 ∧
        t.filters[k].a1 = s.filters[k].a1 ∧ t.filters[k].a2 = s.filters[k].a2 ∧
        t.filters[k].b2 = s.filters[k].b2 ∧ t.filters[k].freq = s.filters[k].freq) ∧
      ∀ b : Fin 3, t.comps[b].cAtt = s.comps[b].cAtt ∧ t.comps[b].cRel = s.comps[b].cRel) ∧
    (i.opcode ∉ [0x81#8, 0xA0#8] →
      ∀ b : Fin 3, t.comps[b].thr = s.comps[b].thr ∧ t.comps[b].relTc = s.comps[b].relTc ∧
        t.comps[b].auxLin = s.comps[b].auxLin ∧ t.comps[b].auxKnee = s.comps[b].auxKnee) ∧
    (i.opcode ∉ [0x81#8, 0xA0#8, 0x90#8] →
      ∀ b : Fin 3, t.comps[b].sel = s.comps[b].sel ∧ t.comps[b].upr = s.comps[b].upr)

/-- The recursive state is written by INIT, RESET and PROCESS only (the smoothers not by RESET), the ring by these and
CLEANUP, the I/O memory by WRIO and PROCESS only (46_lifecycle_commands.md R224, R225; 44_process.md R180; 20_memory.md
R62; 40_parameter_smoother.md R103). -/
def Obligations.DatapathWriters : Prop :=
  ∀ (i : Instr) (s t : State), exec i s = .next t →
    (i.opcode ∉ [0x81#8, 0xC0#8] → t.sv = s.sv) ∧
    (i.opcode ∉ [0x81#8, 0x01#8, 0xC0#8] →
      t.pk = s.pk ∧ t.mgr = s.mgr ∧ t.mrms = s.mrms ∧ t.wcur = s.wcur ∧ t.rcur = s.rcur ∧
      (∀ k : Fin 6, t.filters[k].w1 = s.filters[k].w1 ∧ t.filters[k].w2 = s.filters[k].w2 ∧
        t.filters[k].lp = s.filters[k].lp ∧ t.filters[k].hp = s.filters[k].hp) ∧
      ∀ b : Fin 3, t.comps[b].rms = s.comps[b].rms ∧ t.comps[b].env = s.comps[b].env ∧
        t.comps[b].gr = s.comps[b].gr ∧ t.comps[b].red = s.comps[b].red ∧ t.comps[b].path = s.comps[b].path) ∧
    (i.opcode ∉ [0x81#8, 0x01#8, 0x02#8, 0xC0#8] → t.ring = s.ring) ∧
    (i.opcode ∉ [0xA2#8, 0xC0#8] → t.io = s.io)

/-! ## Lifecycle commands -/

/-- NOP completes in every state and changes nothing; as a step, the all-zero word advances CP by one, and a word with OP = 0
and a non-zero X or Y raises ERR_ILLEGAL, in a run that no UNDEF read has stopped (46_lifecycle_commands.md R220; log 4). -/
def Obligations.NopDoesNothing : Prop :=
  (∀ s : State, exec .nop s = .next s) ∧
  (∀ (s : State) (rest : List Word), s.undefRead = false → s.stream = 0x00000000#32 :: rest →
    step s = .next { s with cp := s.cp + 1, stream := rest }) ∧
  ∀ (s : State) (w : Word) (rest : List Word), s.undefRead = false → s.stream = w :: rest → w.extractLsb' 0 8 = 0x00#8 →
    (w.extractLsb' 8 8 ≠ 0#8 ∨ w.extractLsb' 16 16 ≠ 0#16) →
    step s = .next { s with
      cp := s.cp + 1, stream := rest, status := s.status ||| 1#64, lastErr := 0x0001#64 }

/-- RESET in READY completes: the recursive state at neutral, every ring cell +0.0, everything else kept
(46_lifecycle_commands.md R224). -/
def Obligations.ResetRestoresNeutral : Prop :=
  ∀ s : State, s.lifecycle = .ready → ∃ t, exec .reset s = .next t ∧
    t = { s with
      pk := t.pk, filters := t.filters, comps := t.comps, mgr := t.mgr, mrms := t.mrms
      wcur := 0#15, rcur := 0#15, ring := t.ring } ∧
    (∀ k : Fin 2, t.pk[k] = 0#64) ∧
    (∀ k : Fin 6, t.filters[k] = { s.filters[k] with w1 := 0#64, w2 := 0#64, lp := 0#64, hp := 0#64 }) ∧
    (∀ b : Fin 3, t.comps[b] = { s.comps[b] with
      rms := 0#64, env := 0#64, gr := 0x3FF0000000000000#64, red := 0x3FF0000000000000#64, path := false }) ∧
    (∀ b : Fin 3, t.mgr[b] = 0#64 ∧ t.mrms[b] = 0#64) ∧
    ∀ ch pos, t.ringCell ch pos = some 0#64

/-- CLEANUP completes in every state: STATE is UNINIT, every ring cell is UNDEF, everything else is kept, and a second
CLEANUP changes nothing more (46_lifecycle_commands.md R225). -/
def Obligations.CleanupReleasesRing : Prop :=
  ∀ s : State, ∃ t, exec .cleanup s = .next t ∧
    t = { s with lifecycle := .uninit, ring := t.ring } ∧
    (∀ ch pos, t.ringCell ch pos = none ∧ exec (.rdring ch pos) t = .fault .undefRingCell) ∧
    exec .cleanup t = .next t

/-- INIT with a valid rate completes in either lifecycle state and gives every element of 10_state.md R42 the value of its
INIT column; CP, STATUS, LAST_ERR, RESP and the I/O memory stay (46_lifecycle_commands.md R221). -/
def Obligations.InitSetsEveryElement : Prop :=
  ∀ (fs : F64) (s : State),
    let c := Config.current
    rateOk c fs 0x4069000000000000#64 0x409F400000000000#64 = true →
    ∃ t, exec (.init fs) s = .next t ∧
      (t.cp = s.cp ∧ t.stream = s.stream ∧ t.status = s.status ∧ t.lastErr = s.lastErr ∧ t.resp = s.resp ∧
        t.io = s.io ∧ t.undefRead = s.undefRead) ∧
      (t.lifecycle = .ready ∧ t.initDone = true ∧ ∀ j : Fin 20, t.paramSet[j] = true) ∧
      (t.fs = fs ∧ t.xoLo = 0x4069000000000000#64 ∧ t.xoHi = 0x409F400000000000#64) ∧
      t.params = Config.paramDefaults ∧
      (t.ratioUp = 0x3FF0000000000000#64 ∧ t.ratioDn = 0x3FF0000000000000#64 ∧
        ∀ b : Fin 3, t.gain2[b] = 0x3FF0000000000000#64) ∧
      (t.sc[0] = c.smCoefDepth ∧ t.sc[1] = c.smCoefUp ∧ t.sc[2] = c.smCoefOut) ∧
      (t.sv[0] = 0x3FF0000000000000#64 ∧ t.sv[1] = 0x3FF0000000000000#64 ∧ t.sv[2] = c.outGainTarget) ∧
      (∀ k : Fin 2, t.pk[k] = 0#64) ∧
      (∀ k : Fin 6, t.filters[k] =
        { xoCoef c (if k.val ≤ 3 then 0x4069000000000000#64 else 0x409F400000000000#64) fs s.filters[k] with
          w1 := 0#64, w2 := 0#64, lp := 0#64, hp := 0#64 }) ∧
      (∀ b : Fin 3, t.comps[b] =
        { rms := 0#64, env := 0#64, gr := 0x3FF0000000000000#64, sel := 0x3FF0000000000000#64
          cAtt := timeCoef c c.tAtt fs, cRel := timeCoef c c.relTcReset fs
          thr := c.thrReset, upr := 0x3FF0000000000000#64, relTc := c.relTcReset
          auxLin := c.auxLinReset, auxKnee := c.auxKneeReset, path := false, red := 0x3FF0000000000000#64 }) ∧
      (∀ b : Fin 3, t.mgr[b] = 0#64 ∧ t.mrms[b] = 0#64) ∧
      (t.wcur = 0#15 ∧ t.rcur = 0#15) ∧
      ∀ ch pos, t.ringCell ch pos = some 0#64

/-- The sample rates INIT accepts: VALID_INIT is its five comparisons, and that amounts to a number above 4000.0 and below
+∞; 4000.0 itself is refused (46_lifecycle_commands.md R222). -/
def Obligations.InitAcceptsRatesAbove4000 : Prop :=
  ∀ (c : Config) (fs : F64),
    (rateOk c fs 0x4069000000000000#64 0x409F400000000000#64 = true ↔
      fltEq fs fs = true ∧ fltLt zeroF fs = true ∧ fltLt fs 0x7FF0000000000000#64 = true ∧
      fltLt 0x4069000000000000#64 (fmul c fs halfF) = true ∧ fltLt 0x409F400000000000#64 (fmul c fs halfF) = true) ∧
    (rateOk c fs 0x4069000000000000#64 0x409F400000000000#64 = true ↔
      fltLt 0x40AF400000000000#64 fs = true ∧ fltLt fs 0x7FF0000000000000#64 = true) ∧
    rateOk c 0x40AF400000000000#64 0x4069000000000000#64 0x409F400000000000#64 = false

/-- INIT and SETRATE with a rate outside their domain complete by raising ERR_RATE with no other effect
(46_lifecycle_commands.md R221, R222, R223; 60_exceptions.md R264). -/
def Obligations.InvalidRateRaisesErrRate : Prop :=
  ∀ (fs : F64) (s : State),
    (rateOk Config.current fs 0x4069000000000000#64 0x409F400000000000#64 = false →
      exec (.init fs) s = .next { s with status := s.status ||| 8#64, lastErr := 0x8104#64 }) ∧
    (s.lifecycle = .ready → rateOk Config.current fs s.xoLo s.xoHi = false →
      exec (.setrate fs) s = .next { s with status := s.status ||| 8#64, lastErr := 0x8204#64 })

/-- SETRATE in READY with a rate the present crossovers allow completes: FS, the filter coefficients and the compressor time
coefficients follow the new rate, and nothing else changes; the same SETRATE again, wherever it stands in the stream, changes
nothing (46_lifecycle_commands.md R223). That computing a coefficient again gives a NaN the same bits is the model's choice
(log 2). -/
def Obligations.SetrateRederives : Prop :=
  ∀ (fs : F64) (s : State), s.lifecycle = .ready → rateOk Config.current fs s.xoLo s.xoHi = true →
    ∃ t, exec (.setrate fs) s = .next t ∧ t = { s with fs := fs, filters := t.filters, comps := t.comps } ∧
      (∀ k : Fin 6, t.filters[k] =
        xoCoef Config.current (if k.val ≤ 3 then s.xoLo else s.xoHi) fs s.filters[k]) ∧
            (∀ b : Fin 3, t.comps[b] = { s.comps[b] with
        cAtt := timeCoef Config.current Config.current.tAtt fs
        cRel := timeCoef Config.current s.comps[b].relTc fs }) ∧
      ∀ (n : Nat) (ws : List Word),
        exec (.setrate fs) { t with cp := n, stream := ws } = .next { t with cp := n, stream := ws }

/-! ## Parameter commands -/

/-- SETP with an index below 20 completes in either lifecycle state: the clamped value is stored, its derived values follow,
and nothing else changes (45_parameter_commands.md R201, R204). -/
def Obligations.SetpStoresClampedAndDerives : Prop :=
  ∀ (idx : BitVec 8) (v : F32) (s : State), idx.toNat < 20 →
    let c := Config.current
    ∃ t, exec (.setp idx v) s = .next t ∧
      t = { s with
        params := t.params, paramSet := t.paramSet, ratioUp := t.ratioUp, ratioDn := t.ratioDn
        gain2 := t.gain2, comps := t.comps } ∧
      (∀ j : Fin 20, t.params[j] = (if j.val = idx.toNat then clamp01 v else s.params[j]) ∧
        t.paramSet[j] = (if j.val = idx.toNat then true else s.paramSet[j])) ∧
      t.ratioUp = (if idx = 2#8 then ratioOf c (clamp01 v) else s.ratioUp) ∧
      t.ratioDn = (if idx = 3#8 then ratioOf c (clamp01 v) else s.ratioDn) ∧
      (∀ b : Fin 3, t.gain2[b] = if idx.toNat = 8 + b.val then fmul c twoF (widen c (clamp01 v)) else s.gain2[b]) ∧
      ∀ b : Fin 3, t.comps[b] = { s.comps[b] with
        upr := if idx = 2#8 then ratioOf c (clamp01 v) else s.comps[b].upr
        sel := if idx = 3#8 then ratioOf c (clamp01 v) else s.comps[b].sel }

/-- GETP of a parameter that holds a value completes with its raw bits zero-extended; of one that is UNDEF with some
zero-extended bits, and the mark that stops the run at its next step; an index from 20 on is silent: GETP gives 0 and SETP
changes nothing (45_parameter_commands.md R201, R206; 60_exceptions.md R262). That the stop 00_scope.md R10 asks for comes
at the next step is the model's choice (log 4). -/
def Obligations.GetpReturnsRawBits : Prop :=
  ∀ (idx : BitVec 8) (s : State),
    (∀ h : idx.toNat < 20, s.paramSet[idx.toNat] = true →
      exec (.getp idx) s = .next { s with resp := 0#32 ++ s.params[idx.toNat] }) ∧
    (∀ h : idx.toNat < 20, s.paramSet[idx.toNat] = false →
      ∃ v : F32, exec (.getp idx) s = .next { s with resp := 0#32 ++ v, undefRead := true } ∧
        step { s with resp := 0#32 ++ v, undefRead := true } = .fault .undefRead) ∧
    (20 ≤ idx.toNat → exec (.getp idx) s = .next { s with resp := 0#64 } ∧ ∀ v, exec (.setp idx v) s = .next s)

/-- The parameter round trip: SETP then GETP of any index below 20 completes with the value's own bits for a value in
[0, 1], −0.0 included, and with the bits of its clamp otherwise (45_parameter_commands.md R208). -/
def Obligations.ParameterRoundTrip : Prop :=
  ∀ (idx : BitVec 8) (v : F32) (s : State), idx.toNat < 20 →
    ∃ t u, exec (.setp idx v) s = .next t ∧ exec (.getp idx) t = .next u ∧
      u.resp = 0#32 ++ clamp01 v ∧ (paramInUnit v = true → u.resp = 0#32 ++ v)

/-- CLAMP01: a NaN or a negative value gives +0.0, a value above 1.0 gives 1.0, any other value is kept, so −0.0 and every
value of [0, 1] are; the result is always in [0, 1] and clamping again changes nothing (45_parameter_commands.md R202). -/
def Obligations.ClampKeepsUnitInterval : Prop :=
  ∀ v : F32,
    (isNaN32 v = true → clamp01 v = 0x00000000#32) ∧
    (fltLt32 v 0x00000000#32 = true → clamp01 v = 0x00000000#32) ∧
    (fltLt32 0x3F800000#32 v = true → clamp01 v = 0x3F800000#32) ∧
    (paramInUnit v = true → clamp01 v = v) ∧
    paramInUnit (clamp01 v) = true ∧ clamp01 (clamp01 v) = clamp01 v ∧
    clamp01 0x80000000#32 = 0x80000000#32 ∧ clamp01 0x7F800000#32 = 0x3F800000#32 ∧
    clamp01 0xFF800000#32 = 0x00000000#32

/-! ## Register, ring and I/O access -/

/-- The register map: the addresses of 10_state.md R26 and no others, each naming one register, and the writable ones
(47_register_access.md R241). -/
def Obligations.RegisterMap : Prop :=
  (∀ a a' r, regAt a = some r → regAt a' = some r → a = a') ∧
  (regAt 0x0000#16 = some .id ∧ regAt 0x0001#16 = some .state ∧ regAt 0x0002#16 = some .status ∧
    regAt 0x0003#16 = some .lastErr ∧ regAt 0x0004#16 = some .fs ∧ regAt 0x0005#16 = some .xoLo ∧
    regAt 0x0006#16 = some .xoHi ∧ regAt 0x0007#16 = some .wcur ∧ regAt 0x0008#16 = some .rcur ∧
    regAt 0x0018#16 = some (.pk 0) ∧ regAt 0x0019#16 = some (.pk 1) ∧ regAt 0x0020#16 = some .ratioUp ∧
    regAt 0x0021#16 = some .ratioDn) ∧
  (∀ k : Fin 3, regAt (0x0010#16 + BitVec.ofNat 16 k.val) = some (.sv k) ∧
    regAt (0x0014#16 + BitVec.ofNat 16 k.val) = some (.sc k) ∧
    regAt (0x0024#16 + BitVec.ofNat 16 k.val) = some (.gain2 k) ∧
    regAt (0x0300#16 + BitVec.ofNat 16 k.val) = some (.mgr k) ∧
    regAt (0x0310#16 + BitVec.ofNat 16 k.val) = some (.mrms k)) ∧
  (∀ i : Fin 6,
    let at_ := fun (o : Nat) => regAt (0x0100#16 + BitVec.ofNat 16 (16 * i.val + o))
    at_ 0x0 = some (.filter i .b0) ∧ at_ 0x1 = some (.filter i .b1) ∧ at_ 0x2 = some (.filter i .a1) ∧
    at_ 0x3 = some (.filter i .a2) ∧ at_ 0x4 = some (.filter i .b2) ∧ at_ 0x5 = some (.filter i .w1) ∧
    at_ 0x6 = some (.filter i .w2) ∧ at_ 0x7 = some (.filter i .lp) ∧ at_ 0x8 = some (.filter i .hp) ∧
    at_ 0x9 = some (.filter i .freq) ∧ ∀ o, 0xA ≤ o → o < 0x10 → at_ o = none) ∧
  (∀ b : Fin 3,
    let at_ := fun (o : Nat) => regAt (0x0200#16 + BitVec.ofNat 16 (16 * b.val + o))
    at_ 0x0 = some (.comp b .rms) ∧ at_ 0x1 = some (.comp b .env) ∧ at_ 0x2 = some (.comp b .gr) ∧
    at_ 0x3 = some (.comp b .sel) ∧ at_ 0x4 = some (.comp b .cAtt) ∧ at_ 0x5 = some (.comp b .cRel) ∧
    at_ 0x6 = some (.comp b .thr) ∧ at_ 0x7 = some (.comp b .upr) ∧ at_ 0x8 = some (.comp b .relTc) ∧
    at_ 0x9 = some (.comp b .auxLin) ∧ at_ 0xA = some (.comp b .auxKnee) ∧ at_ 0xB = some (.comp b .path) ∧
    at_ 0xC = some (.comp b .red) ∧ ∀ o, 0xD ≤ o → o < 0x10 → at_ o = none) ∧
  (∀ (a : RegAddr), (∃ r, regAt a = some r ∧ r.writable = true) ↔
    a = 0x0005#16 ∨ a = 0x0006#16 ∨
    ∃ b < 3, ∃ o ∈ [3, 6, 7, 8, 9, 10], a.toNat = 0x200 + 16 * b + o) ∧
  (∀ a ∈ [0x0009#16, 0x0017#16, 0x0027#16, 0x010A#16, 0x0160#16, 0x020D#16, 0x0230#16, 0x0303#16, 0x0313#16, 0xFFFF#16],
    regAt a = none)

/-- RDREG completes at every address. At each address of 10_state.md R26 it returns the state element the map names there:
the control registers in every state, all the others once an INIT has run, a `u` register zero-extended. At a reserved
address it raises ERR_REG. Of a register that is UNDEF it returns some bits of the register's width, and the mark that stops
the run at its next step (47_register_access.md R240; 10_state.md R24, R26, R27). That the stop 00_scope.md R10 asks for
comes at the next step is the model's choice (log 4). -/
def Obligations.RdregReturnsRegister : Prop :=
  ∀ (s : State),
    let reads := fun (a : RegAddr) (v : BitVec 64) => exec (.rdreg a) s = .next { s with resp := v }
    (∀ a r, regAt a = some r → s.regDefined r = true → reads a (s.regValue r)) ∧
    (∀ a r, regAt a = some r → s.regDefined r = false →
      ∃ v, exec (.rdreg a) s = .next { s with resp := v, undefRead := true } ∧
        step { s with resp := v, undefRead := true } = .fault .undefRead ∧
        (r = .wcur ∨ r = .rcur → v.toNat < 2 ^ 15) ∧ (∀ b, r = .comp b .path → v.toNat < 2)) ∧
    (∀ a, regAt a = none →
      exec (.rdreg a) s = .next { s with status := s.status ||| 16#64, lastErr := 0x2005#64 }) ∧
    reads 0x0000#16 1#64 ∧ reads 0x0001#16 (if s.lifecycle = .ready then 1#64 else 0#64) ∧
    reads 0x0002#16 s.status ∧ reads 0x0003#16 s.lastErr ∧
    (s.paramSet[2] = true → reads 0x0020#16 s.ratioUp ∧
      ∀ b : Fin 3, reads (0x0207#16 + BitVec.ofNat 16 (16 * b.val)) s.comps[b].upr) ∧
    (s.paramSet[3] = true → reads 0x0021#16 s.ratioDn ∧
      ∀ b : Fin 3, reads (0x0203#16 + BitVec.ofNat 16 (16 * b.val)) s.comps[b].sel) ∧
    (∀ b : Fin 3, s.paramSet[8 + b.val] = true → reads (0x0024#16 + BitVec.ofNat 16 b.val) s.gain2[b]) ∧
    (s.initDone = true →
      (reads 0x0004#16 s.fs ∧ reads 0x0005#16 s.xoLo ∧ reads 0x0006#16 s.xoHi ∧
        reads 0x0007#16 (0#49 ++ s.wcur) ∧ reads 0x0008#16 (0#49 ++ s.rcur) ∧
        reads 0x0018#16 s.pk[0] ∧ reads 0x0019#16 s.pk[1]) ∧
      (∀ k : Fin 3, reads (0x0010#16 + BitVec.ofNat 16 k.val) s.sv[k] ∧ reads (0x0014#16 + BitVec.ofNat 16 k.val) s.sc[k] ∧
        reads (0x0300#16 + BitVec.ofNat 16 k.val) s.mgr[k] ∧ reads (0x0310#16 + BitVec.ofNat 16 k.val) s.mrms[k]) ∧
      (∀ i : Fin 6,
        let f := fun (o : Nat) (v : F64) => reads (0x0100#16 + BitVec.ofNat 16 (16 * i.val + o)) v
        f 0x0 s.filters[i].b0 ∧ f 0x1 s.filters[i].b1 ∧ f 0x2 s.filters[i].a1 ∧ f 0x3 s.filters[i].a2 ∧
        f 0x4 s.filters[i].b2 ∧ f 0x5 s.filters[i].w1 ∧ f 0x6 s.filters[i].w2 ∧ f 0x7 s.filters[i].lp ∧
        f 0x8 s.filters[i].hp ∧ f 0x9 s.filters[i].freq) ∧
      ∀ b : Fin 3,
        let k := fun (o : Nat) (v : BitVec 64) => reads (0x0200#16 + BitVec.ofNat 16 (16 * b.val + o)) v
        k 0x0 s.comps[b].rms ∧ k 0x1 s.comps[b].env ∧ k 0x2 s.comps[b].gr ∧ k 0x4 s.comps[b].cAtt ∧
        k 0x5 s.comps[b].cRel ∧ k 0x6 s.comps[b].thr ∧ k 0x8 s.comps[b].relTc ∧ k 0x9 s.comps[b].auxLin ∧
        k 0xA s.comps[b].auxKnee ∧ k 0xB (if s.comps[b].path then 1#64 else 0#64) ∧ k 0xC s.comps[b].red)

/-- WRREG of a crossover in READY: inside (0, FS × 0.5) it completes with the crossover and the coefficients of its own
filters, their state kept, and nothing else; outside it raises ERR_RATE with no other effect (47_register_access.md R242). -/
def Obligations.WrregCrossover : Prop :=
  ∀ (v : F64) (s : State), s.lifecycle = .ready →
    let c := Config.current
    (fltLt zeroF v = true ∧ fltLt v (fmul c s.fs halfF) = true →
      (∃ t, exec (.wrreg 0x0005#16 v) s = .next t ∧ t = { s with xoLo := v, filters := t.filters } ∧
        ∀ k : Fin 6, t.filters[k] = if k.val ≤ 3 then xoCoef c v s.fs s.filters[k] else s.filters[k]) ∧
      (∃ t, exec (.wrreg 0x0006#16 v) s = .next t ∧ t = { s with xoHi := v, filters := t.filters } ∧
        ∀ k : Fin 6, t.filters[k] = if k.val ≤ 3 then s.filters[k] else xoCoef c v s.fs s.filters[k])) ∧
    (¬(fltLt zeroF v = true ∧ fltLt v (fmul c s.fs halfF) = true) →
      exec (.wrreg 0x0005#16 v) s = .next { s with status := s.status ||| 8#64, lastErr := 0xA004#64 } ∧
      exec (.wrreg 0x0006#16 v) s = .next { s with status := s.status ||| 8#64, lastErr := 0xA004#64 })

/-- WRREG of a compressor register in READY completes: SEL, THR, UPR, AUX_LIN and AUX_KNEE take the operand bit for bit,
REL_TC as well and then both time coefficients of that band follow; the other bands and everything else stay
(47_register_access.md R242; 10_state.md R27; 43_compressor.md R143). -/
def Obligations.WrregCompressor : Prop :=
  ∀ (b : Fin 3) (v : F64) (s : State), s.lifecycle = .ready →
    let c := Config.current
    let at_ := fun (o : Nat) => 0x0200#16 + BitVec.ofNat 16 (16 * b.val + o)
    let put := fun (k : Comp) => (.next { s with comps := s.comps.set b.val k } : Host.Outcome State Fault Refusal)
    exec (.wrreg (at_ 3) v) s = put { s.comps[b] with sel := v } ∧
    exec (.wrreg (at_ 6) v) s = put { s.comps[b] with thr := v } ∧
    exec (.wrreg (at_ 7) v) s = put { s.comps[b] with upr := v } ∧
    exec (.wrreg (at_ 9) v) s = put { s.comps[b] with auxLin := v } ∧
    exec (.wrreg (at_ 10) v) s = put { s.comps[b] with auxKnee := v } ∧
    exec (.wrreg (at_ 8) v) s = put { s.comps[b] with
      relTc := v, cAtt := timeCoef c c.tAtt s.fs, cRel := timeCoef c v s.fs }

/-- WRREG in READY of a reserved address or of a read-only register raises ERR_REG with no other effect
(47_register_access.md R241). -/
def Obligations.WrregReadOnlyRaisesErrReg : Prop :=
  ∀ (a : RegAddr) (v : BitVec 64) (s : State), s.lifecycle = .ready →
    (∀ r, regAt a = some r → r.writable = false) →
    exec (.wrreg a v) s = .next { s with status := s.status ||| 16#64, lastErr := 0xA005#64 }

/-- What an accepted WRREG wrote is what RDREG of the same address returns, bit for bit, NaN payloads and −0.0 included
(10_state.md R27; 47_register_access.md R241, R242). -/
def Obligations.WrregThenRdreg : Prop :=
  ∀ (a : RegAddr) (r : Reg) (v : BitVec 64) (s t : State),
    s.initDone = true → marksOk s → regAt a = some r → r.writable = true → s.lifecycle = .ready →
    exec (.wrreg a v) s = .next t →
    (r = .xoLo ∨ r = .xoHi → crossoverOk Config.current v s.fs = true) →
    exec (.rdreg a) t = .next { t with resp := v }

/-- RDRING completes with the cell, or faults where the cell is UNDEF; in READY every cell holds a value, in UNINIT none does
(47_register_access.md R243; 10_state.md R42). -/
def Obligations.RdringReturnsCell : Prop :=
  ∀ (ch : BitVec 3) (pos : RingPos) (s : State),
    (∀ v, s.ringCell ch pos = some v → exec (.rdring ch pos) s = .next { s with resp := v }) ∧
    (s.ringCell ch pos = none → exec (.rdring ch pos) s = .fault .undefRingCell) ∧
    (lifecycleOk s → (s.lifecycle = .ready ↔ (s.ringCell ch pos).isSome = true))

/-- WRIO completes in either lifecycle state: the addressed word takes the operand, every other word and everything else
stay, and RDIO of it then completes with the word zero-extended; an RDIO of a word nothing has written faults
(47_register_access.md R244, R245; 20_memory.md R69). -/
def Obligations.WrioThenRdio : Prop :=
  ∀ (b : BitVec 2) (k : BitVec 15) (v : Word) (s : State),
    (∃ t, exec (.wrio b k v) s = .next t ∧ t = { s with io := t.io } ∧ t.ioWord b k = some v ∧
      (∀ b' k', b' ≠ b ∨ k' ≠ k → t.ioWord b' k' = s.ioWord b' k') ∧
      exec (.rdio b k) t = .next { t with resp := 0#32 ++ v }) ∧
    (∀ u, s.ioWord b k = some u → exec (.rdio b k) s = .next { s with resp := 0#32 ++ u }) ∧
    (s.ioWord b k = none → exec (.rdio b k) s = .fault .undefIoWord)

/-! ## PROCESS -/

/-- The checks of PROCESS in their order: ERR_ILLEGAL for a reserved bit (in a run that no UNDEF read has stopped, log 4),
then the silent cases, then ERR_UNINIT, then ERR_BLOCK; past them 1 ≤ N ≤ 32768 (44_process.md R171). -/
def Obligations.ProcessChecksInOrder : Prop :=
  (∀ (s : State) (w w1 w2 : Word) (rest : List Word), s.undefRead = false → s.stream = w :: w1 :: w2 :: rest →
    w.extractLsb' 0 8 = 0xC0#8 → (w.extractLsb' 12 4 ≠ 0#4 ∨ w.extractLsb' 16 16 ≠ 0#16) →
    step s = .next { s with
      cp := s.cp + 3, stream := rest, status := s.status ||| 1#64, lastErr := 0xC001#64 }) ∧
  ∀ (in0 in1 out0 out1 : Bool) (n : Int) (s : State),
    (in0 = false ∨ out0 = false ∨ n ≤ 0 → exec (.process in0 in1 out0 out1 n) s = .next s) ∧
    (in0 = true → out0 = true → 0 < n → s.lifecycle = .uninit →
      exec (.process in0 in1 out0 out1 n) s = .next { s with status := s.status ||| 2#64, lastErr := 0xC002#64 }) ∧
    (in0 = true → out0 = true → 32768 < n → s.lifecycle = .ready →
      exec (.process in0 in1 out0 out1 n) s = .next { s with status := s.status ||| 4#64, lastErr := 0xC003#64 }) ∧
    (∀ t, exec (.process in0 in1 out0 out1 n) s = .next t → t ≠ s → t.status = s.status → t.lastErr = s.lastErr →
      in0 = true ∧ out0 = true ∧ s.lifecycle = .ready ∧ 1 ≤ n ∧ n ≤ 32768)

/-- Bypass: PROCESS completes by copying the input words bit for bit, OUT0 from IN0 and, when out1 is present, OUT1 from the
resolved right input; no other word and no other state changes (44_process.md R173). -/
def Obligations.BypassCopiesWords : Prop :=
  ∀ (in1 out1 : Bool) (n : Int) (s : State), s.lifecycle = .ready → 0 < n → n ≤ 32768 →
    boolParam Config.current s.params[19] = true →
    inputsWritten s 0#2 n.toNat → (out1 = true → inputsWritten s (if in1 then 1#2 else 0#2) n.toNat) →
    ∃ t, exec (.process true in1 true out1 n) s = .next t ∧ t = { s with io := t.io } ∧
      (∀ i < n.toNat, t.ioWord 2#2 (BitVec.ofNat 15 i) = s.ioWord 0#2 (BitVec.ofNat 15 i)) ∧
      (out1 = true → ∀ i < n.toNat,
        t.ioWord 3#2 (BitVec.ofNat 15 i) = s.ioWord (if in1 then 1#2 else 0#2) (BitVec.ofNat 15 i)) ∧
      ∀ b k, (b = 0#2 ∨ b = 1#2 ∨ (b = 3#2 ∧ out1 = false) ∨ n.toNat ≤ k.toNat) → t.ioWord b k = s.ioWord b k

/-- PROCESS that is not bypassed completes in READY once its input words are written: the cursors, the smoothers, the peak
trackers and the raw ring channels are what the passes give, and every output word of the block holds a value
(44_process.md R170, R174 to R179; 20_memory.md R75; 40_parameter_smoother.md R103; 41_peak_envelope.md R112). -/
def Obligations.ProcessBlockCompletes : Prop :=
  ∀ (in1 out1 : Bool) (n : Int) (s : State), s.lifecycle = .ready → lifecycleOk s → 0 < n → n ≤ 32768 →
    boolParam Config.current s.params[19] = false →
    inputsWritten s 0#2 n.toNat → inputsWritten s (if in1 then 1#2 else 0#2) n.toNat →
    let c := Config.current
    ∃ t, exec (.process true in1 true out1 n) s = .next t ∧
      t.wcur = s.wcur + BitVec.ofNat 15 n.toNat ∧ t.rcur = t.wcur ∧ (n = 32768 → t.wcur = s.wcur) ∧
      (∀ k : Fin 3, t.sv[k] = (fun x => smoothValue c x s.sc[k] (smootherTarget c s k))^[n.toNat] s.sv[k]) ∧
      t.pk[0] = (blockWords s in1 n.toNat).foldl (fun x w => peakValue c x (widen c w.1)) s.pk[0] ∧
      t.pk[1] = (blockWords s in1 n.toNat).foldl (fun x w => peakValue c x (widen c w.2)) s.pk[1] ∧
      (∀ i < n.toNat,
        t.ringCell 6#3 (s.wcur + BitVec.ofNat 15 i) = some (widen c (ioWordD s 0#2 i)) ∧
        t.ringCell 7#3 (s.wcur + BitVec.ofNat 15 i) = some (widen c (ioWordD s (if in1 then 1#2 else 0#2) i)) ∧
        (t.ioWord 2#2 (BitVec.ofNat 15 i)).isSome = true ∧
        (out1 = true → (t.ioWord 3#2 (BitVec.ofNat 15 i)).isSome = true))

/-- What PROCESS may write: a completed PROCESS changes the recursive state, the ring at the block's positions and the output
words of the block, or raises one of its two errors; no parameter, coefficient, configuration register, FS, XO_LO, XO_HI,
RESP, input word, or output word from index N on, and no OUT1 word when out1 is absent (44_process.md R180, R179). -/
def Obligations.ProcessWritesOnly : Prop :=
  ∀ (in0 in1 out0 out1 : Bool) (n : Int) (s t : State), exec (.process in0 in1 out0 out1 n) s = .next t →
    t = { s with
      pk := t.pk, sv := t.sv, filters := t.filters, comps := t.comps, mgr := t.mgr, mrms := t.mrms
      ring := t.ring, wcur := t.wcur, rcur := t.rcur, io := t.io, status := t.status, lastErr := t.lastErr } ∧
    (∀ k : Fin 6, t.filters[k] = { s.filters[k] with
      w1 := t.filters[k].w1, w2 := t.filters[k].w2, lp := t.filters[k].lp, hp := t.filters[k].hp }) ∧
    (∀ b : Fin 3, t.comps[b] = { s.comps[b] with
      rms := t.comps[b].rms, env := t.comps[b].env, gr := t.comps[b].gr, path := t.comps[b].path
      red := t.comps[b].red }) ∧
    (∀ b k, (b = 0#2 ∨ b = 1#2 ∨ (b = 3#2 ∧ out1 = false) ∨ n.toNat ≤ k.toNat) → t.ioWord b k = s.ioWord b k) ∧
    (∀ ch pos, (∀ i < n.toNat, pos ≠ s.wcur + BitVec.ofNat 15 i) → t.ringCell ch pos = s.ringCell ch pos) ∧
    (t.status ≠ s.status ∨ t.lastErr ≠ s.lastErr →
      t = { s with status := t.status, lastErr := t.lastErr } ∧ (t.lastErr = 0xC002#64 ∨ t.lastErr = 0xC003#64))

/-- The ring is transparent: a PROCESS that is not bypassed gives exactly what the pipeline without a ring gives, in which
each sample's six bands go straight from the split to the compressors, with g and go the smoother values after the whole
split (44_process.md R178, R182; 20_memory.md R74, R75). That both pipelines give a NaN the same bits is the model's choice
(log 2). -/
def Obligations.ProcessIsRingFreePipeline : Prop :=
  ∀ (in1 out1 : Bool) (n : Int) (s : State), s.lifecycle = .ready → lifecycleOk s → 0 < n → n ≤ 32768 →
    boolParam Config.current s.params[19] = false →
    inputsWritten s 0#2 n.toNat → inputsWritten s (if in1 then 1#2 else 0#2) n.toNat →
    let c := Config.current
    let ws := blockWords s in1 n.toNat
    let r := directSplit c (boolParam c s.params[4]) ws (peakPass c ws s)
    let u := directRemix c r.1.sv[c.gCmpSrc] r.1.sv[c.gOutSrc] (if out1 then 3#2 else 2#2) r.2 0 r.1
    ∃ t, exec (.process true in1 true out1 n) s = .next t ∧
      t = { u with
        ring := t.ring, wcur := s.wcur + BitVec.ofNat 15 n.toNat, rcur := s.wcur + BitVec.ofNat 15 n.toNat } ∧
      ∀ (i : Nat) (v : Vector F64 6), r.2[i]? = some v → ∀ ch : Fin 6,
        t.ringCell (BitVec.ofNat 3 ch.val) (s.wcur + BitVec.ofNat 15 i) = some v[ch]

/-- The ring's contents before a PROCESS never influence anything it leaves behind but the ring itself
(44_process.md R182). That a NaN gets the same bits in both runs is the model's choice (log 2). -/
def Obligations.RingHistoryInvisible : Prop :=
  ∀ (in0 in1 out0 out1 : Bool) (n : Int) (s t : State) (m : Memory 64),
    s.ring.fill.isSome = true → m.fill.isSome = true → exec (.process in0 in1 out0 out1 n) s = .next t →
    ∃ t', exec (.process in0 in1 out0 out1 n) { s with ring := m } = .next t' ∧ t' = { t with ring := t'.ring }

/-- In the simple topology a PROCESS leaves +0.0 in both mid-band channels at every position it wrote
(42_crossover_filterbank.md R130, R131). -/
def Obligations.SimpleTopologySilencesMidBand : Prop :=
  ∀ (in1 out1 : Bool) (n : Int) (s t : State), s.lifecycle = .ready → 0 < n → n ≤ 32768 →
    boolParam Config.current s.params[19] = false → boolParam Config.current s.params[4] = false →
    exec (.process true in1 true out1 n) s = .next t →
    ∀ i < n.toNat, t.ringCell 2#3 (s.wcur + BitVec.ofNat 15 i) = some 0#64 ∧
      t.ringCell 3#3 (s.wcur + BitVec.ofNat 15 i) = some 0#64

/-- With in1 absent both lanes compute the same: if the two units of every filter pair and the two peak trackers are equal
before a PROCESS, they are after it, and where out1 is present the two output channels are equal (44_process.md R172;
42_crossover_filterbank.md R120). Where the lanes compute a NaN, that its bits are equal too is the model's choice: the bits
of a NaN are a function of the operation and its operands (log 2). -/
def Obligations.MonoInputKeepsLanesEqual : Prop :=
  ∀ (out1 : Bool) (n : Int) (s t : State), lanesEqual s → exec (.process true false true out1 n) s = .next t →
    lanesEqual t ∧
    (s.lifecycle = .ready → 0 < n → n ≤ 32768 → out1 = true →
      ∀ i < n.toNat, t.ioWord 2#2 (BitVec.ofNat 15 i) = t.ioWord 3#2 (BitVec.ofNat 15 i))

/-! ## What does not influence what -/

/-- The inert parameters have no effect on any other state or output: two states that differ in them only are taken by any
command, but a GETP of one of them, to outcomes that differ in them only (45_parameter_commands.md R207). That a NaN gets the
same bits in both runs is the model's choice (log 2). -/
def Obligations.InertParametersHaveNoEffect : Prop :=
  ∀ (i : Instr) (s s' : State), (∀ idx, i = .getp idx → inertParam idx.toNat = false) → agreeButInert s s' →
    (∃ t t', exec i s = .next t ∧ exec i s' = .next t' ∧ agreeButInert t t') ∨
    ∃ f, exec i s = .fault f ∧ exec i s' = .fault f

/-- The peak trackers, the meters, the read cursor, the cached filter outputs, PATH and RED gate nothing: two states that
differ in them only are taken by any command but RDREG to outcomes that differ in them only (41_peak_envelope.md R112;
43_compressor.md R152; 10_state.md R40, R41). That a NaN gets the same bits in both runs is the model's choice (log 2). -/
def Obligations.MetersAffectNothing : Prop :=
  ∀ (i : Instr) (s s' : State), (∀ a, i ≠ .rdreg a) → agreeButMeters s s' →
    (∃ t t', exec i s = .next t ∧ exec i s' = .next t' ∧ agreeButMeters t t') ∨
    ∃ f, exec i s = .fault f ∧ exec i s' = .fault f

/-! ## The datapath -/

/-- SMOOTH: its formula, its worked example, and that a smoother at a finite target other than −0.0 stays there exactly,
whatever its coefficient in (0, 1] (40_parameter_smoother.md R101, R104). -/
def Obligations.SmoothStepAndFixedPoint : Prop :=
  ∀ c : Config,
    (∀ v coef target, smoothValue c v coef target = fadd c v (fmul c (fsub c target v) coef)) ∧
    smoothValue c 0x0000000000000000#64 0x3F847AE147AE147B#64 0x3FF0000000000000#64 = 0x3F847AE147AE147B#64 ∧
    (∀ v coef, isFinite64 v = true → v ≠ 0x8000000000000000#64 → fltLt zeroF coef = true → fltLe coef oneF = true →
      smoothValue c v coef v = v)

/-- PEAK: below the envelope it decays and is floored at +0.0, else it snaps to the sample; a NaN sample makes it NaN and
the next sample replaces a NaN; from a value that is not negative it never becomes negative (41_peak_envelope.md R111,
R113). -/
def Obligations.PeakDecaysSnapsAndFloors : Prop :=
  ∀ (c : Config) (pk x : F64),
    (fltLt x pk = false → peakValue c pk x = x) ∧
    (fltLt x pk = true → fltLt (fsub c pk c.decayRate) zeroF = true → peakValue c pk x = 0#64) ∧
    (fltLt x pk = true → fltLt (fsub c pk c.decayRate) zeroF = false → peakValue c pk x = fsub c pk c.decayRate) ∧
    (isNaN64 x = true ∨ isNaN64 pk = true → peakValue c pk x = x) ∧
    (fltLe zeroF pk = true → fltLt (peakValue c pk x) zeroF = false)

/-- A silent sample keeps a zeroed filter at zero: for finite coefficients with A1 not negative and a zero of either sign, the
low output and both states are +0.0 and the high output is a zero (42_crossover_filterbank.md R125, R126; log 18). -/
def Obligations.SilenceKeepsFilterAtZero : Prop :=
  ∀ (c : Config) (u : Filter) (x : F64), u.w1 = 0#64 → u.w2 = 0#64 → fltEq x zeroF = true →
    isFinite64 u.a1 = true → isFinite64 u.a2 = true → isFinite64 u.b1 = true → isFinite64 u.b2 = true →
    u.a1.getLsbD 63 = false →
    (xoTick c u x).w1 = 0#64 ∧ (xoTick c u x).w2 = 0#64 ∧ (xoTick c u x).lp = 0#64 ∧
      fltEq (xoTick c u x).hp zeroF = true

/-- Through the parameter interface the primary path is unreachable: whatever SETP 3 is given, the selector it leaves in
every band takes the alternative path, under either comparison; a NaN selector takes it too (43_compressor.md R146, R154).
That it holds for every configuration rests on the model's choice of log 11: a MODE_THR row that is not negative is refused
and the default stands. -/
def Obligations.ParametersNeverSelectPrimary : Prop :=
  (∀ (v : F32) (s t : State), exec (.setp 3#8 v) s = .next t →
    ∀ (c : Config) (b : Fin 3), selectPrimary c t.comps[b].sel = false) ∧
  ∀ (c : Config) (x : F64), isNaN64 x = true → selectPrimary c x = false

/-- Under the default rows, whatever its operands, a compressor step leaves GR = RED in [GAIN_FLOOR, MAX_RATIO] or NaN, and
RMS and PATH as their rules say (43_compressor.md R144, R145, R149, R153). -/
def Obligations.GainStaysInRangeOrNaN : Prop :=
  ∀ (c : Config) (b : Fin 3) (p : F64) (k : Comp),
    c.rows.pathPrimary = none → c.rows.pathAlt = none → c.rows.gainFloor = none →
    let k' := compNext c b p k
    k'.red = k'.gr ∧
    (isNaN64 k'.gr = true ∨
      (fltLe 0x3F847AE147AE147B#64 k'.gr = true ∧ fltLe k'.gr 0x4042000000000000#64 = true)) ∧
    k'.rms = fadd c k.rms (fmul c (fsub c k.rms p) k.cAtt) ∧
    k'.path = selectPrimary c k.sel

/-- At ratio 1 the compressor is transparent: with EXP(±0.0) = 1.0, finite coefficients and a finite distance of envelope and
threshold, a compressor at unity gain whose two ratios are 1.0 stays at exactly unity: a whole COMP_STEP on any power leaves
GR = RED = 1.0 (43_compressor.md R144, R149, R153). EXP is an OPEN row, so its value at zero is a hypothesis
(00_scope.md R7). -/
def Obligations.RatioOneIsTransparent : Prop :=
  ∀ c : Config, c.rows.log2db = none → c.rows.gainFloor = none →
    c.exp 0x0000000000000000#64 = oneF → c.exp 0x8000000000000000#64 = oneF →
    (∀ (k : Config.PathRegs) (env : F64), k.upr = oneF → k.sel = oneF → k.gr = oneF →
      isFinite64 (fsub c k.thr env) = true → isFinite64 k.cAtt = true → isFinite64 k.cRel = true →
      refGain c k env = oneF) ∧
    ∀ (b : Fin 3) (p : F64) (k : Comp), c.rows.pathPrimary = none → c.rows.pathAlt = none →
      k.upr = oneF → k.sel = oneF → k.gr = oneF →
      isFinite64 (fsub c k.thr (compNext c b p k).env) = true → isFinite64 k.cAtt = true → isFinite64 k.cRel = true →
      (compNext c b p k).gr = oneF ∧ (compNext c b p k).red = oneF

/-! ## The arithmetic -/

/-- Ordered comparison: the order of the numbers the patterns stand for, the infinities at the ends, in both formats; false
when an operand is a NaN, the two zeros equal; and max2, min2 and clampf as they are written,
so that a NaN first operand passes through them (00_scope.md R14). -/
def Obligations.OrderedComparison : Prop :=
  (∀ a b : F64, fltLt a b = valueLt (unpack64 a) (unpack64 b) ∧ fltEq a b = valueEq (unpack64 a) (unpack64 b) ∧
    fltLe a b = (valueLt (unpack64 a) (unpack64 b) || valueEq (unpack64 a) (unpack64 b))) ∧
  (∀ a b : F32, fltLt32 a b = valueLt (unpack32 a) (unpack32 b)) ∧
  (∀ a b : F64, isNaN64 a = true ∨ isNaN64 b = true →
    fltLt a b = false ∧ fltLe a b = false ∧ fltEq a b = false ∧ fltLt b a = false ∧ fltLe b a = false) ∧
  fltEq 0x8000000000000000#64 0x0000000000000000#64 = true ∧
  fltLt 0x8000000000000000#64 0x0000000000000000#64 = false ∧
  (∀ a b : F64, isNaN64 a = false → isNaN64 b = false →
    (fltLe a b = true ↔ fltLt a b = true ∨ fltEq a b = true) ∧ (fltLt a b = true ↔ fltLe b a = false)) ∧
  (∀ a b : F64, max2 a b = (if fltLt a b = true then b else a) ∧ min2 a b = (if fltLt b a = true then b else a)) ∧
  (∀ x lo hi : F64, clampf x lo hi = if fltLt x lo = true then lo else if fltLt hi x = true then hi else x) ∧
  ∀ a b lo hi : F64, isNaN64 a = true → max2 a b = a ∧ min2 a b = a ∧ clampf a lo hi = a

/-- Rounding is to nearest with ties to even: a number of any size and sign is given the pattern of the nearest value of the
format, of two as near the even pattern, and an infinity exactly from the halfway point above the largest finite value on.
On finite operands each of +, −, × and / is the exact result so rounded, and SQRT the exact root: one rounding, no fused
operation; an exact zero sum is +0.0 unless both addends are negative zeros, a finite number over zero is an infinity, and
0 / 0 and the root of a negative number are NaNs (log 17). Rounding m / 2^k to an integer is within half a unit, and a tie
goes to the even one. Every finite pattern is the rounding of its own value, so an exact result is never changed by rounding,
in both formats, subnormals included (00_scope.md R11, R12, R13). -/
def Obligations.RoundingIsNearestEvenAndExact : Prop :=
  (∀ (neg : Bool) (m : Nat) (e : Int),
    roundsTo64 (finValue neg m e) neg (round64 neg m e) ∧ roundsTo32 (finValue neg m e) neg (round32 neg m e)) ∧
  (∀ (c : Config) (a b : F64) (n1 n2 : Bool) (m1 m2 : Nat) (e1 e2 : Int),
    unpack64 a = .fin n1 m1 e1 → unpack64 b = .fin n2 m2 e2 →
    let x := finValue n1 m1 e1
    let y := finValue n2 m2 e2
    roundsTo64 (x + y : ℚ) (if x + y = 0 then n1 && n2 else decide (x + y < 0)) (fadd c a b) ∧
    roundsTo64 (x - y : ℚ) (if x - y = 0 then n1 && !n2 else decide (x - y < 0)) (fsub c a b) ∧
    roundsTo64 (x * y : ℚ) (n1 ^^ n2) (fmul c a b) ∧
    (y ≠ 0 → roundsTo64 (x / y : ℚ) (n1 ^^ n2) (fdiv c a b)) ∧
    (y = 0 → x ≠ 0 → unpack64 (fdiv c a b) = .inf (n1 ^^ n2)) ∧
    (y = 0 → x = 0 → isNaN64 (fdiv c a b) = true) ∧
    (0 ≤ x → roundsTo64 (Real.sqrt x) n1 (fsqrt c a)) ∧
    (x < 0 → isNaN64 (fsqrt c a) = true)) ∧
  (∀ m k : Nat,
    2 * (2 ^ k * roundShift m k) ≤ 2 * m + 2 ^ k ∧ 2 * m ≤ 2 * (2 ^ k * roundShift m k) + 2 ^ k ∧
    (2 * (2 ^ k * roundShift m k) = 2 * m + 2 ^ k ∨ 2 * m = 2 * (2 ^ k * roundShift m k) + 2 ^ k →
      roundShift m k % 2 = 0)) ∧
  (∀ (x : F64) (n : Bool) (m : Nat) (e : Int), unpack64 x = .fin n m e → round64 n m e = x) ∧
  ∀ (x : F32) (n : Bool) (m : Nat) (e : Int), unpack32 x = .fin n m e → round32 n m e = x

/-- Widening is exact for every binary32 value that is no NaN: a finite one keeps its sign and its number, an infinity its
sign, so narrowing gives it back; a NaN stays a NaN both ways (00_scope.md R12). -/
def Obligations.WidenThenNarrow : Prop :=
  ∀ (c : Config) (x : F32),
    (∀ (n : Bool) (m : Nat) (e : Int), unpack32 x = .fin n m e →
      ∃ (m' : Nat) (e' : Int), unpack64 (widen c x) = .fin n m' e' ∧ finValue n m' e' = finValue n m e) ∧
    (∀ n : Bool, unpack32 x = .inf n → unpack64 (widen c x) = .inf n) ∧
    (isNaN32 x = false → narrow c (widen c x) = x ∧ isNaN64 (widen c x) = false) ∧
    (isNaN32 x = true → isNaN64 (widen c x) = true ∧ isNaN32 (narrow c (widen c x)) = true)

/-! ## Invariants every step keeps -/

/-- Power-on meets every invariant below (10_state.md R42; 70_reset_and_hazards.md R280). That the registers the spec leaves
UNDEF are 0 is the model's choice (log 3); the clauses on parameters, cursors and derived values use it. -/
def Obligations.ResetMeetsInvariants : Prop :=
  memoriesWf State.reset = true ∧ lifecycleOk State.reset ∧ marksOk State.reset ∧ errorRegsOk State.reset ∧
  paramsOk State.reset ∧ ratesOk State.reset ∧ filtersOk State.reset ∧ smoothersOk State.reset ∧
  cursorsOk State.reset ∧ derivedOk State.reset

/-- Power-on: STATE, STATUS, LAST_ERR, RESP and CP as 70_reset_and_hazards.md R280 gives them, every ring cell, I/O word and
parameter UNDEF, every register but the four control registers UNDEF (10_state.md R42), no UNDEF read yet, and the only
commands that stop are the reads of a memory cell, RDRING and RDIO. That RDREG and GETP of what is UNDEF do not stop
themselves is the model's choice, not the spec's: 00_scope.md R10 has a model treat that read as a fault, and this model stops
at the step after it (log 4). -/
def Obligations.PowerOnState : Prop :=
  State.reset.lifecycle = .uninit ∧ State.reset.status = 0#64 ∧ State.reset.lastErr = 0#64 ∧
  State.reset.resp = 0#64 ∧ State.reset.cp = 0 ∧
  (∀ ch pos, State.reset.ringCell ch pos = none) ∧ (∀ b k, State.reset.ioWord b k = none) ∧
  (∀ j : Fin 20, State.reset.paramSet[j] = false) ∧ State.reset.undefRead = false ∧
  (∀ r : Reg, State.reset.regDefined r = true ↔ r = .id ∨ r = .state ∨ r = .status ∨ r = .lastErr) ∧
  ∀ (i : Instr) (f : Fault), exec i State.reset = .fault f →
    (∃ ch pos, i = .rdring ch pos) ∨ ∃ b k, i = .rdio b k

/-- Every step keeps both memories in their canonical form: every listed address inside its space (20_memory.md R60, R61,
R62), the addresses rising, and no listed cell equal to what an unlisted one holds. That a memory is such a list is the
model's choice (log 5), not a rule of the spec. -/
def Obligations.StepKeepsMemoriesCanonical : Prop :=
  ∀ s t : State, memoriesWf s = true → step s = .next t → memoriesWf t = true

/-- Every step keeps what STATE says of the ring and the marks: READY only after an INIT, with every ring cell and every
parameter holding a value; UNINIT with every ring cell UNDEF (10_state.md R21, R42). -/
def Obligations.StepKeepsLifecycle : Prop :=
  ∀ s t : State, lifecycleOk s ∧ marksOk s → step s = .next t → lifecycleOk t ∧ marksOk t

/-- Every step keeps STATUS[63:5] = 0, LAST_ERR[63:16] = 0, and LAST_ERR naming an error whose STATUS bit is set
(10_state.md R22, R23). -/
def Obligations.StepKeepsErrorRegisters : Prop :=
  ∀ s t : State, errorRegsOk s → step s = .next t → errorRegsOk t

/-- Every step keeps FS finite and positive and both crossovers in (0, FS × 0.5) (42_crossover_filterbank.md R123), and keeps
each filter's FREQ at its crossover, its b0 at 1.0 and the coefficients of the two lanes of a pair equal (10_state.md R28;
42_crossover_filterbank.md R120, R121, R122). -/
def Obligations.StepKeepsRatesAndCoefficients : Prop :=
  ∀ s t : State, ratesOk s ∧ filtersOk s → step s = .next t → ratesOk t ∧ filtersOk t

/-- Every step keeps every parameter in [0, 1] (10_state.md R30), the derived values those of the parameters they stand
beside (10_state.md R31), the smoother coefficients in (0, 1] (40_parameter_smoother.md R104), and RCUR equal to WCUR
(44_process.md R177). The clause on the smoother coefficients rests on the model's choice of log 11: a row outside (0, 1] is
refused and the default stands; that a derived value is again the same NaN, where it is one, on log 2. -/
def Obligations.StepKeepsParametersAndSmoothers : Prop :=
  ∀ s t : State, (paramsOk s ∧ derivedOk s) ∧ smoothersOk s ∧ cursorsOk s → step s = .next t →
    (paramsOk t ∧ derivedOk t) ∧ smoothersOk t ∧ cursorsOk t
end

