-- ==== Sys2Proof/Laws/State.lean ====
section
/-! SUPPORT. One lemma per field per named update of State, each true by unfolding the update once: no later proof unfolds a
record update. -/

namespace Sys2Proof.Machine

open Sys2Proof

/-! ## Indexed families of registers -/

@[simp] theorem three_get {α : Type} (f : Fin 3 → α) (k : Fin 3) : (three f)[k] = f k := by
  fin_cases k <;> rfl

@[simp] theorem six_get {α : Type} (f : Fin 6 → α) (k : Fin 6) : (six f)[k] = f k := by
  fin_cases k <;> rfl

@[simp] theorem three_getElem {α : Type} (f : Fin 3 → α) (k : Nat) (h : k < 3) : (three f)[k] = f ⟨k, h⟩ :=
  three_get f ⟨k, h⟩

@[simp] theorem six_getElem {α : Type} (f : Fin 6 → α) (k : Nat) (h : k < 6) : (six f)[k] = f ⟨k, h⟩ :=
  six_get f ⟨k, h⟩

/-! ## setResp -/

@[simp] theorem setResp_cp (s : State) (v : BitVec 64) : (s.setResp v).cp = s.cp := rfl
@[simp] theorem setResp_stream (s : State) (v : BitVec 64) : (s.setResp v).stream = s.stream := rfl
@[simp] theorem setResp_lifecycle (s : State) (v : BitVec 64) : (s.setResp v).lifecycle = s.lifecycle := rfl
@[simp] theorem setResp_status (s : State) (v : BitVec 64) : (s.setResp v).status = s.status := rfl
@[simp] theorem setResp_lastErr (s : State) (v : BitVec 64) : (s.setResp v).lastErr = s.lastErr := rfl
@[simp] theorem setResp_resp (s : State) (v : BitVec 64) : (s.setResp v).resp = v := rfl
@[simp] theorem setResp_fs (s : State) (v : BitVec 64) : (s.setResp v).fs = s.fs := rfl
@[simp] theorem setResp_xoLo (s : State) (v : BitVec 64) : (s.setResp v).xoLo = s.xoLo := rfl
@[simp] theorem setResp_xoHi (s : State) (v : BitVec 64) : (s.setResp v).xoHi = s.xoHi := rfl
@[simp] theorem setResp_params (s : State) (v : BitVec 64) : (s.setResp v).params = s.params := rfl
@[simp] theorem setResp_ratioUp (s : State) (v : BitVec 64) : (s.setResp v).ratioUp = s.ratioUp := rfl
@[simp] theorem setResp_ratioDn (s : State) (v : BitVec 64) : (s.setResp v).ratioDn = s.ratioDn := rfl
@[simp] theorem setResp_gain2 (s : State) (v : BitVec 64) : (s.setResp v).gain2 = s.gain2 := rfl
@[simp] theorem setResp_sv (s : State) (v : BitVec 64) : (s.setResp v).sv = s.sv := rfl
@[simp] theorem setResp_sc (s : State) (v : BitVec 64) : (s.setResp v).sc = s.sc := rfl
@[simp] theorem setResp_pk (s : State) (v : BitVec 64) : (s.setResp v).pk = s.pk := rfl
@[simp] theorem setResp_filters (s : State) (v : BitVec 64) : (s.setResp v).filters = s.filters := rfl
@[simp] theorem setResp_comps (s : State) (v : BitVec 64) : (s.setResp v).comps = s.comps := rfl
@[simp] theorem setResp_mgr (s : State) (v : BitVec 64) : (s.setResp v).mgr = s.mgr := rfl
@[simp] theorem setResp_mrms (s : State) (v : BitVec 64) : (s.setResp v).mrms = s.mrms := rfl
@[simp] theorem setResp_wcur (s : State) (v : BitVec 64) : (s.setResp v).wcur = s.wcur := rfl
@[simp] theorem setResp_rcur (s : State) (v : BitVec 64) : (s.setResp v).rcur = s.rcur := rfl
@[simp] theorem setResp_ring (s : State) (v : BitVec 64) : (s.setResp v).ring = s.ring := rfl
@[simp] theorem setResp_io (s : State) (v : BitVec 64) : (s.setResp v).io = s.io := rfl
@[simp] theorem setResp_paramSet (s : State) (v : BitVec 64) : (s.setResp v).paramSet = s.paramSet := rfl
@[simp] theorem setResp_initDone (s : State) (v : BitVec 64) : (s.setResp v).initDone = s.initDone := rfl
@[simp] theorem setResp_undefRead (s : State) (v : BitVec 64) : (s.setResp v).undefRead = s.undefRead := rfl

/-! ## respondUndef -/

@[simp] theorem respondUndef_cp (s : State) (v : BitVec 64) : (s.respondUndef v).cp = s.cp := rfl
@[simp] theorem respondUndef_stream (s : State) (v : BitVec 64) : (s.respondUndef v).stream = s.stream := rfl
@[simp] theorem respondUndef_lifecycle (s : State) (v : BitVec 64) : (s.respondUndef v).lifecycle = s.lifecycle := rfl
@[simp] theorem respondUndef_status (s : State) (v : BitVec 64) : (s.respondUndef v).status = s.status := rfl
@[simp] theorem respondUndef_lastErr (s : State) (v : BitVec 64) : (s.respondUndef v).lastErr = s.lastErr := rfl
@[simp] theorem respondUndef_resp (s : State) (v : BitVec 64) : (s.respondUndef v).resp = v := rfl
@[simp] theorem respondUndef_fs (s : State) (v : BitVec 64) : (s.respondUndef v).fs = s.fs := rfl
@[simp] theorem respondUndef_xoLo (s : State) (v : BitVec 64) : (s.respondUndef v).xoLo = s.xoLo := rfl
@[simp] theorem respondUndef_xoHi (s : State) (v : BitVec 64) : (s.respondUndef v).xoHi = s.xoHi := rfl
@[simp] theorem respondUndef_params (s : State) (v : BitVec 64) : (s.respondUndef v).params = s.params := rfl
@[simp] theorem respondUndef_ratioUp (s : State) (v : BitVec 64) : (s.respondUndef v).ratioUp = s.ratioUp := rfl
@[simp] theorem respondUndef_ratioDn (s : State) (v : BitVec 64) : (s.respondUndef v).ratioDn = s.ratioDn := rfl
@[simp] theorem respondUndef_gain2 (s : State) (v : BitVec 64) : (s.respondUndef v).gain2 = s.gain2 := rfl
@[simp] theorem respondUndef_sv (s : State) (v : BitVec 64) : (s.respondUndef v).sv = s.sv := rfl
@[simp] theorem respondUndef_sc (s : State) (v : BitVec 64) : (s.respondUndef v).sc = s.sc := rfl
@[simp] theorem respondUndef_pk (s : State) (v : BitVec 64) : (s.respondUndef v).pk = s.pk := rfl
@[simp] theorem respondUndef_filters (s : State) (v : BitVec 64) : (s.respondUndef v).filters = s.filters := rfl
@[simp] theorem respondUndef_comps (s : State) (v : BitVec 64) : (s.respondUndef v).comps = s.comps := rfl
@[simp] theorem respondUndef_mgr (s : State) (v : BitVec 64) : (s.respondUndef v).mgr = s.mgr := rfl
@[simp] theorem respondUndef_mrms (s : State) (v : BitVec 64) : (s.respondUndef v).mrms = s.mrms := rfl
@[simp] theorem respondUndef_wcur (s : State) (v : BitVec 64) : (s.respondUndef v).wcur = s.wcur := rfl
@[simp] theorem respondUndef_rcur (s : State) (v : BitVec 64) : (s.respondUndef v).rcur = s.rcur := rfl
@[simp] theorem respondUndef_ring (s : State) (v : BitVec 64) : (s.respondUndef v).ring = s.ring := rfl
@[simp] theorem respondUndef_io (s : State) (v : BitVec 64) : (s.respondUndef v).io = s.io := rfl
@[simp] theorem respondUndef_paramSet (s : State) (v : BitVec 64) : (s.respondUndef v).paramSet = s.paramSet := rfl
@[simp] theorem respondUndef_initDone (s : State) (v : BitVec 64) : (s.respondUndef v).initDone = s.initDone := rfl
@[simp] theorem respondUndef_undefRead (s : State) (v : BitVec 64) : (s.respondUndef v).undefRead = true := rfl

/-! ## setRingCell -/

@[simp] theorem setRingCell_cp (s : State) (ch : BitVec 3) (p : RingPos) (v : F64) :
    (s.setRingCell ch p v).cp = s.cp := rfl
@[simp] theorem setRingCell_stream (s : State) (ch : BitVec 3) (p : RingPos) (v : F64) :
    (s.setRingCell ch p v).stream = s.stream := rfl
@[simp] theorem setRingCell_lifecycle (s : State) (ch : BitVec 3) (p : RingPos) (v : F64) :
    (s.setRingCell ch p v).lifecycle = s.lifecycle := rfl
@[simp] theorem setRingCell_status (s : State) (ch : BitVec 3) (p : RingPos) (v : F64) :
    (s.setRingCell ch p v).status = s.status := rfl
@[simp] theorem setRingCell_lastErr (s : State) (ch : BitVec 3) (p : RingPos) (v : F64) :
    (s.setRingCell ch p v).lastErr = s.lastErr := rfl
@[simp] theorem setRingCell_resp (s : State) (ch : BitVec 3) (p : RingPos) (v : F64) :
    (s.setRingCell ch p v).resp = s.resp := rfl
@[simp] theorem setRingCell_fs (s : State) (ch : BitVec 3) (p : RingPos) (v : F64) :
    (s.setRingCell ch p v).fs = s.fs := rfl
@[simp] theorem setRingCell_xoLo (s : State) (ch : BitVec 3) (p : RingPos) (v : F64) :
    (s.setRingCell ch p v).xoLo = s.xoLo := rfl
@[simp] theorem setRingCell_xoHi (s : State) (ch : BitVec 3) (p : RingPos) (v : F64) :
    (s.setRingCell ch p v).xoHi = s.xoHi := rfl
@[simp] theorem setRingCell_params (s : State) (ch : BitVec 3) (p : RingPos) (v : F64) :
    (s.setRingCell ch p v).params = s.params := rfl
@[simp] theorem setRingCell_ratioUp (s : State) (ch : BitVec 3) (p : RingPos) (v : F64) :
    (s.setRingCell ch p v).ratioUp = s.ratioUp := rfl
@[simp] theorem setRingCell_ratioDn (s : State) (ch : BitVec 3) (p : RingPos) (v : F64) :
    (s.setRingCell ch p v).ratioDn = s.ratioDn := rfl
@[simp] theorem setRingCell_gain2 (s : State) (ch : BitVec 3) (p : RingPos) (v : F64) :
    (s.setRingCell ch p v).gain2 = s.gain2 := rfl
@[simp] theorem setRingCell_sv (s : State) (ch : BitVec 3) (p : RingPos) (v : F64) :
    (s.setRingCell ch p v).sv = s.sv := rfl
@[simp] theorem setRingCell_sc (s : State) (ch : BitVec 3) (p : RingPos) (v : F64) :
    (s.setRingCell ch p v).sc = s.sc := rfl
@[simp] theorem setRingCell_pk (s : State) (ch : BitVec 3) (p : RingPos) (v : F64) :
    (s.setRingCell ch p v).pk = s.pk := rfl
@[simp] theorem setRingCell_filters (s : State) (ch : BitVec 3) (p : RingPos) (v : F64) :
    (s.setRingCell ch p v).filters = s.filters := rfl
@[simp] theorem setRingCell_comps (s : State) (ch : BitVec 3) (p : RingPos) (v : F64) :
    (s.setRingCell ch p v).comps = s.comps := rfl
@[simp] theorem setRingCell_mgr (s : State) (ch : BitVec 3) (p : RingPos) (v : F64) :
    (s.setRingCell ch p v).mgr = s.mgr := rfl
@[simp] theorem setRingCell_mrms (s : State) (ch : BitVec 3) (p : RingPos) (v : F64) :
    (s.setRingCell ch p v).mrms = s.mrms := rfl
@[simp] theorem setRingCell_wcur (s : State) (ch : BitVec 3) (p : RingPos) (v : F64) :
    (s.setRingCell ch p v).wcur = s.wcur := rfl
@[simp] theorem setRingCell_rcur (s : State) (ch : BitVec 3) (p : RingPos) (v : F64) :
    (s.setRingCell ch p v).rcur = s.rcur := rfl
@[simp] theorem setRingCell_ring (s : State) (ch : BitVec 3) (p : RingPos) (v : F64) :
    (s.setRingCell ch p v).ring = s.ring.write (ringAddr ch p) v := rfl
@[simp] theorem setRingCell_io (s : State) (ch : BitVec 3) (p : RingPos) (v : F64) :
    (s.setRingCell ch p v).io = s.io := rfl
@[simp] theorem setRingCell_paramSet (s : State) (ch : BitVec 3) (p : RingPos) (v : F64) :
    (s.setRingCell ch p v).paramSet = s.paramSet := rfl
@[simp] theorem setRingCell_initDone (s : State) (ch : BitVec 3) (p : RingPos) (v : F64) :
    (s.setRingCell ch p v).initDone = s.initDone := rfl
@[simp] theorem setRingCell_undefRead (s : State) (ch : BitVec 3) (p : RingPos) (v : F64) :
    (s.setRingCell ch p v).undefRead = s.undefRead := rfl

/-! ## setIoWord -/

@[simp] theorem setIoWord_cp (s : State) (buf : BitVec 2) (i : BitVec 15) (v : Word) :
    (s.setIoWord buf i v).cp = s.cp := rfl
@[simp] theorem setIoWord_stream (s : State) (buf : BitVec 2) (i : BitVec 15) (v : Word) :
    (s.setIoWord buf i v).stream = s.stream := rfl
@[simp] theorem setIoWord_lifecycle (s : State) (buf : BitVec 2) (i : BitVec 15) (v : Word) :
    (s.setIoWord buf i v).lifecycle = s.lifecycle := rfl
@[simp] theorem setIoWord_status (s : State) (buf : BitVec 2) (i : BitVec 15) (v : Word) :
    (s.setIoWord buf i v).status = s.status := rfl
@[simp] theorem setIoWord_lastErr (s : State) (buf : BitVec 2) (i : BitVec 15) (v : Word) :
    (s.setIoWord buf i v).lastErr = s.lastErr := rfl
@[simp] theorem setIoWord_resp (s : State) (buf : BitVec 2) (i : BitVec 15) (v : Word) :
    (s.setIoWord buf i v).resp = s.resp := rfl
@[simp] theorem setIoWord_fs (s : State) (buf : BitVec 2) (i : BitVec 15) (v : Word) :
    (s.setIoWord buf i v).fs = s.fs := rfl
@[simp] theorem setIoWord_xoLo (s : State) (buf : BitVec 2) (i : BitVec 15) (v : Word) :
    (s.setIoWord buf i v).xoLo = s.xoLo := rfl
@[simp] theorem setIoWord_xoHi (s : State) (buf : BitVec 2) (i : BitVec 15) (v : Word) :
    (s.setIoWord buf i v).xoHi = s.xoHi := rfl
@[simp] theorem setIoWord_params (s : State) (buf : BitVec 2) (i : BitVec 15) (v : Word) :
    (s.setIoWord buf i v).params = s.params := rfl
@[simp] theorem setIoWord_ratioUp (s : State) (buf : BitVec 2) (i : BitVec 15) (v : Word) :
    (s.setIoWord buf i v).ratioUp = s.ratioUp := rfl
@[simp] theorem setIoWord_ratioDn (s : State) (buf : BitVec 2) (i : BitVec 15) (v : Word) :
    (s.setIoWord buf i v).ratioDn = s.ratioDn := rfl
@[simp] theorem setIoWord_gain2 (s : State) (buf : BitVec 2) (i : BitVec 15) (v : Word) :
    (s.setIoWord buf i v).gain2 = s.gain2 := rfl
@[simp] theorem setIoWord_sv (s : State) (buf : BitVec 2) (i : BitVec 15) (v : Word) :
    (s.setIoWord buf i v).sv = s.sv := rfl
@[simp] theorem setIoWord_sc (s : State) (buf : BitVec 2) (i : BitVec 15) (v : Word) :
    (s.setIoWord buf i v).sc = s.sc := rfl
@[simp] theorem setIoWord_pk (s : State) (buf : BitVec 2) (i : BitVec 15) (v : Word) :
    (s.setIoWord buf i v).pk = s.pk := rfl
@[simp] theorem setIoWord_filters (s : State) (buf : BitVec 2) (i : BitVec 15) (v : Word) :
    (s.setIoWord buf i v).filters = s.filters := rfl
@[simp] theorem setIoWord_comps (s : State) (buf : BitVec 2) (i : BitVec 15) (v : Word) :
    (s.setIoWord buf i v).comps = s.comps := rfl
@[simp] theorem setIoWord_mgr (s : State) (buf : BitVec 2) (i : BitVec 15) (v : Word) :
    (s.setIoWord buf i v).mgr = s.mgr := rfl
@[simp] theorem setIoWord_mrms (s : State) (buf : BitVec 2) (i : BitVec 15) (v : Word) :
    (s.setIoWord buf i v).mrms = s.mrms := rfl
@[simp] theorem setIoWord_wcur (s : State) (buf : BitVec 2) (i : BitVec 15) (v : Word) :
    (s.setIoWord buf i v).wcur = s.wcur := rfl
@[simp] theorem setIoWord_rcur (s : State) (buf : BitVec 2) (i : BitVec 15) (v : Word) :
    (s.setIoWord buf i v).rcur = s.rcur := rfl
@[simp] theorem setIoWord_ring (s : State) (buf : BitVec 2) (i : BitVec 15) (v : Word) :
    (s.setIoWord buf i v).ring = s.ring := rfl
@[simp] theorem setIoWord_io (s : State) (buf : BitVec 2) (i : BitVec 15) (v : Word) :
    (s.setIoWord buf i v).io = s.io.write (ioAddr buf i) v := rfl
@[simp] theorem setIoWord_paramSet (s : State) (buf : BitVec 2) (i : BitVec 15) (v : Word) :
    (s.setIoWord buf i v).paramSet = s.paramSet := rfl
@[simp] theorem setIoWord_initDone (s : State) (buf : BitVec 2) (i : BitVec 15) (v : Word) :
    (s.setIoWord buf i v).initDone = s.initDone := rfl
@[simp] theorem setIoWord_undefRead (s : State) (buf : BitVec 2) (i : BitVec 15) (v : Word) :
    (s.setIoWord buf i v).undefRead = s.undefRead := rfl

/-! ## setFilter -/

@[simp] theorem setFilter_cp (s : State) (i : Fin 6) (f : Filter) : (s.setFilter i f).cp = s.cp := rfl
@[simp] theorem setFilter_stream (s : State) (i : Fin 6) (f : Filter) : (s.setFilter i f).stream = s.stream := rfl
@[simp] theorem setFilter_lifecycle (s : State) (i : Fin 6) (f : Filter) :
    (s.setFilter i f).lifecycle = s.lifecycle := rfl
@[simp] theorem setFilter_status (s : State) (i : Fin 6) (f : Filter) : (s.setFilter i f).status = s.status := rfl
@[simp] theorem setFilter_lastErr (s : State) (i : Fin 6) (f : Filter) : (s.setFilter i f).lastErr = s.lastErr := rfl
@[simp] theorem setFilter_resp (s : State) (i : Fin 6) (f : Filter) : (s.setFilter i f).resp = s.resp := rfl
@[simp] theorem setFilter_fs (s : State) (i : Fin 6) (f : Filter) : (s.setFilter i f).fs = s.fs := rfl
@[simp] theorem setFilter_xoLo (s : State) (i : Fin 6) (f : Filter) : (s.setFilter i f).xoLo = s.xoLo := rfl
@[simp] theorem setFilter_xoHi (s : State) (i : Fin 6) (f : Filter) : (s.setFilter i f).xoHi = s.xoHi := rfl
@[simp] theorem setFilter_params (s : State) (i : Fin 6) (f : Filter) : (s.setFilter i f).params = s.params := rfl
@[simp] theorem setFilter_ratioUp (s : State) (i : Fin 6) (f : Filter) : (s.setFilter i f).ratioUp = s.ratioUp := rfl
@[simp] theorem setFilter_ratioDn (s : State) (i : Fin 6) (f : Filter) : (s.setFilter i f).ratioDn = s.ratioDn := rfl
@[simp] theorem setFilter_gain2 (s : State) (i : Fin 6) (f : Filter) : (s.setFilter i f).gain2 = s.gain2 := rfl
@[simp] theorem setFilter_sv (s : State) (i : Fin 6) (f : Filter) : (s.setFilter i f).sv = s.sv := rfl
@[simp] theorem setFilter_sc (s : State) (i : Fin 6) (f : Filter) : (s.setFilter i f).sc = s.sc := rfl
@[simp] theorem setFilter_pk (s : State) (i : Fin 6) (f : Filter) : (s.setFilter i f).pk = s.pk := rfl
@[simp] theorem setFilter_filters (s : State) (i : Fin 6) (f : Filter) :
    (s.setFilter i f).filters = s.filters.set i f := rfl
@[simp] theorem setFilter_comps (s : State) (i : Fin 6) (f : Filter) : (s.setFilter i f).comps = s.comps := rfl
@[simp] theorem setFilter_mgr (s : State) (i : Fin 6) (f : Filter) : (s.setFilter i f).mgr = s.mgr := rfl
@[simp] theorem setFilter_mrms (s : State) (i : Fin 6) (f : Filter) : (s.setFilter i f).mrms = s.mrms := rfl
@[simp] theorem setFilter_wcur (s : State) (i : Fin 6) (f : Filter) : (s.setFilter i f).wcur = s.wcur := rfl
@[simp] theorem setFilter_rcur (s : State) (i : Fin 6) (f : Filter) : (s.setFilter i f).rcur = s.rcur := rfl
@[simp] theorem setFilter_ring (s : State) (i : Fin 6) (f : Filter) : (s.setFilter i f).ring = s.ring := rfl
@[simp] theorem setFilter_io (s : State) (i : Fin 6) (f : Filter) : (s.setFilter i f).io = s.io := rfl
@[simp] theorem setFilter_paramSet (s : State) (i : Fin 6) (f : Filter) :
    (s.setFilter i f).paramSet = s.paramSet := rfl
@[simp] theorem setFilter_initDone (s : State) (i : Fin 6) (f : Filter) :
    (s.setFilter i f).initDone = s.initDone := rfl
@[simp] theorem setFilter_undefRead (s : State) (i : Fin 6) (f : Filter) :
    (s.setFilter i f).undefRead = s.undefRead := rfl

/-! ## setComp -/

@[simp] theorem setComp_cp (s : State) (b : Fin 3) (k : Comp) : (s.setComp b k).cp = s.cp := rfl
@[simp] theorem setComp_stream (s : State) (b : Fin 3) (k : Comp) : (s.setComp b k).stream = s.stream := rfl
@[simp] theorem setComp_lifecycle (s : State) (b : Fin 3) (k : Comp) : (s.setComp b k).lifecycle = s.lifecycle := rfl
@[simp] theorem setComp_status (s : State) (b : Fin 3) (k : Comp) : (s.setComp b k).status = s.status := rfl
@[simp] theorem setComp_lastErr (s : State) (b : Fin 3) (k : Comp) : (s.setComp b k).lastErr = s.lastErr := rfl
@[simp] theorem setComp_resp (s : State) (b : Fin 3) (k : Comp) : (s.setComp b k).resp = s.resp := rfl
@[simp] theorem setComp_fs (s : State) (b : Fin 3) (k : Comp) : (s.setComp b k).fs = s.fs := rfl
@[simp] theorem setComp_xoLo (s : State) (b : Fin 3) (k : Comp) : (s.setComp b k).xoLo = s.xoLo := rfl
@[simp] theorem setComp_xoHi (s : State) (b : Fin 3) (k : Comp) : (s.setComp b k).xoHi = s.xoHi := rfl
@[simp] theorem setComp_params (s : State) (b : Fin 3) (k : Comp) : (s.setComp b k).params = s.params := rfl
@[simp] theorem setComp_ratioUp (s : State) (b : Fin 3) (k : Comp) : (s.setComp b k).ratioUp = s.ratioUp := rfl
@[simp] theorem setComp_ratioDn (s : State) (b : Fin 3) (k : Comp) : (s.setComp b k).ratioDn = s.ratioDn := rfl
@[simp] theorem setComp_gain2 (s : State) (b : Fin 3) (k : Comp) : (s.setComp b k).gain2 = s.gain2 := rfl
@[simp] theorem setComp_sv (s : State) (b : Fin 3) (k : Comp) : (s.setComp b k).sv = s.sv := rfl
@[simp] theorem setComp_sc (s : State) (b : Fin 3) (k : Comp) : (s.setComp b k).sc = s.sc := rfl
@[simp] theorem setComp_pk (s : State) (b : Fin 3) (k : Comp) : (s.setComp b k).pk = s.pk := rfl
@[simp] theorem setComp_filters (s : State) (b : Fin 3) (k : Comp) : (s.setComp b k).filters = s.filters := rfl
@[simp] theorem setComp_comps (s : State) (b : Fin 3) (k : Comp) : (s.setComp b k).comps = s.comps.set b k := rfl
@[simp] theorem setComp_mgr (s : State) (b : Fin 3) (k : Comp) : (s.setComp b k).mgr = s.mgr := rfl
@[simp] theorem setComp_mrms (s : State) (b : Fin 3) (k : Comp) : (s.setComp b k).mrms = s.mrms := rfl
@[simp] theorem setComp_wcur (s : State) (b : Fin 3) (k : Comp) : (s.setComp b k).wcur = s.wcur := rfl
@[simp] theorem setComp_rcur (s : State) (b : Fin 3) (k : Comp) : (s.setComp b k).rcur = s.rcur := rfl
@[simp] theorem setComp_ring (s : State) (b : Fin 3) (k : Comp) : (s.setComp b k).ring = s.ring := rfl
@[simp] theorem setComp_io (s : State) (b : Fin 3) (k : Comp) : (s.setComp b k).io = s.io := rfl
@[simp] theorem setComp_paramSet (s : State) (b : Fin 3) (k : Comp) : (s.setComp b k).paramSet = s.paramSet := rfl
@[simp] theorem setComp_initDone (s : State) (b : Fin 3) (k : Comp) : (s.setComp b k).initDone = s.initDone := rfl
@[simp] theorem setComp_undefRead (s : State) (b : Fin 3) (k : Comp) : (s.setComp b k).undefRead = s.undefRead := rfl

/-! ## raiseError -/

@[simp] theorem raiseError_cp (e : ErrorCode) (op : BitVec 8) (s : State) : (raiseError e op s).cp = s.cp := rfl
@[simp] theorem raiseError_stream (e : ErrorCode) (op : BitVec 8) (s : State) :
    (raiseError e op s).stream = s.stream := rfl
@[simp] theorem raiseError_lifecycle (e : ErrorCode) (op : BitVec 8) (s : State) :
    (raiseError e op s).lifecycle = s.lifecycle := rfl
@[simp] theorem raiseError_status (e : ErrorCode) (op : BitVec 8) (s : State) :
    (raiseError e op s).status = s.status ||| statusBit e := rfl
@[simp] theorem raiseError_lastErr (e : ErrorCode) (op : BitVec 8) (s : State) :
    (raiseError e op s).lastErr = lastErrWord e op := rfl
@[simp] theorem raiseError_resp (e : ErrorCode) (op : BitVec 8) (s : State) : (raiseError e op s).resp = s.resp := rfl
@[simp] theorem raiseError_fs (e : ErrorCode) (op : BitVec 8) (s : State) : (raiseError e op s).fs = s.fs := rfl
@[simp] theorem raiseError_xoLo (e : ErrorCode) (op : BitVec 8) (s : State) : (raiseError e op s).xoLo = s.xoLo := rfl
@[simp] theorem raiseError_xoHi (e : ErrorCode) (op : BitVec 8) (s : State) : (raiseError e op s).xoHi = s.xoHi := rfl
@[simp] theorem raiseError_params (e : ErrorCode) (op : BitVec 8) (s : State) :
    (raiseError e op s).params = s.params := rfl
@[simp] theorem raiseError_ratioUp (e : ErrorCode) (op : BitVec 8) (s : State) :
    (raiseError e op s).ratioUp = s.ratioUp := rfl
@[simp] theorem raiseError_ratioDn (e : ErrorCode) (op : BitVec 8) (s : State) :
    (raiseError e op s).ratioDn = s.ratioDn := rfl
@[simp] theorem raiseError_gain2 (e : ErrorCode) (op : BitVec 8) (s : State) :
    (raiseError e op s).gain2 = s.gain2 := rfl
@[simp] theorem raiseError_sv (e : ErrorCode) (op : BitVec 8) (s : State) : (raiseError e op s).sv = s.sv := rfl
@[simp] theorem raiseError_sc (e : ErrorCode) (op : BitVec 8) (s : State) : (raiseError e op s).sc = s.sc := rfl
@[simp] theorem raiseError_pk (e : ErrorCode) (op : BitVec 8) (s : State) : (raiseError e op s).pk = s.pk := rfl
@[simp] theorem raiseError_filters (e : ErrorCode) (op : BitVec 8) (s : State) :
    (raiseError e op s).filters = s.filters := rfl
@[simp] theorem raiseError_comps (e : ErrorCode) (op : BitVec 8) (s : State) :
    (raiseError e op s).comps = s.comps := rfl
@[simp] theorem raiseError_mgr (e : ErrorCode) (op : BitVec 8) (s : State) : (raiseError e op s).mgr = s.mgr := rfl
@[simp] theorem raiseError_mrms (e : ErrorCode) (op : BitVec 8) (s : State) : (raiseError e op s).mrms = s.mrms := rfl
@[simp] theorem raiseError_wcur (e : ErrorCode) (op : BitVec 8) (s : State) : (raiseError e op s).wcur = s.wcur := rfl
@[simp] theorem raiseError_rcur (e : ErrorCode) (op : BitVec 8) (s : State) : (raiseError e op s).rcur = s.rcur := rfl
@[simp] theorem raiseError_ring (e : ErrorCode) (op : BitVec 8) (s : State) : (raiseError e op s).ring = s.ring := rfl
@[simp] theorem raiseError_io (e : ErrorCode) (op : BitVec 8) (s : State) : (raiseError e op s).io = s.io := rfl
@[simp] theorem raiseError_paramSet (e : ErrorCode) (op : BitVec 8) (s : State) :
    (raiseError e op s).paramSet = s.paramSet := rfl
@[simp] theorem raiseError_initDone (e : ErrorCode) (op : BitVec 8) (s : State) :
    (raiseError e op s).initDone = s.initDone := rfl
@[simp] theorem raiseError_undefRead (e : ErrorCode) (op : BitVec 8) (s : State) :
    (raiseError e op s).undefRead = s.undefRead := rfl

/-! ## consume -/

@[simp] theorem consume_cp (s : State) (n : Nat) (ws : List Word) : (s.consume n ws).cp = s.cp + n := rfl
@[simp] theorem consume_stream (s : State) (n : Nat) (ws : List Word) : (s.consume n ws).stream = ws := rfl
@[simp] theorem consume_lifecycle (s : State) (n : Nat) (ws : List Word) :
    (s.consume n ws).lifecycle = s.lifecycle := rfl
@[simp] theorem consume_status (s : State) (n : Nat) (ws : List Word) : (s.consume n ws).status = s.status := rfl
@[simp] theorem consume_lastErr (s : State) (n : Nat) (ws : List Word) : (s.consume n ws).lastErr = s.lastErr := rfl
@[simp] theorem consume_resp (s : State) (n : Nat) (ws : List Word) : (s.consume n ws).resp = s.resp := rfl
@[simp] theorem consume_fs (s : State) (n : Nat) (ws : List Word) : (s.consume n ws).fs = s.fs := rfl
@[simp] theorem consume_xoLo (s : State) (n : Nat) (ws : List Word) : (s.consume n ws).xoLo = s.xoLo := rfl
@[simp] theorem consume_xoHi (s : State) (n : Nat) (ws : List Word) : (s.consume n ws).xoHi = s.xoHi := rfl
@[simp] theorem consume_params (s : State) (n : Nat) (ws : List Word) : (s.consume n ws).params = s.params := rfl
@[simp] theorem consume_ratioUp (s : State) (n : Nat) (ws : List Word) : (s.consume n ws).ratioUp = s.ratioUp := rfl
@[simp] theorem consume_ratioDn (s : State) (n : Nat) (ws : List Word) : (s.consume n ws).ratioDn = s.ratioDn := rfl
@[simp] theorem consume_gain2 (s : State) (n : Nat) (ws : List Word) : (s.consume n ws).gain2 = s.gain2 := rfl
@[simp] theorem consume_sv (s : State) (n : Nat) (ws : List Word) : (s.consume n ws).sv = s.sv := rfl
@[simp] theorem consume_sc (s : State) (n : Nat) (ws : List Word) : (s.consume n ws).sc = s.sc := rfl
@[simp] theorem consume_pk (s : State) (n : Nat) (ws : List Word) : (s.consume n ws).pk = s.pk := rfl
@[simp] theorem consume_filters (s : State) (n : Nat) (ws : List Word) : (s.consume n ws).filters = s.filters := rfl
@[simp] theorem consume_comps (s : State) (n : Nat) (ws : List Word) : (s.consume n ws).comps = s.comps := rfl
@[simp] theorem consume_mgr (s : State) (n : Nat) (ws : List Word) : (s.consume n ws).mgr = s.mgr := rfl
@[simp] theorem consume_mrms (s : State) (n : Nat) (ws : List Word) : (s.consume n ws).mrms = s.mrms := rfl
@[simp] theorem consume_wcur (s : State) (n : Nat) (ws : List Word) : (s.consume n ws).wcur = s.wcur := rfl
@[simp] theorem consume_rcur (s : State) (n : Nat) (ws : List Word) : (s.consume n ws).rcur = s.rcur := rfl
@[simp] theorem consume_ring (s : State) (n : Nat) (ws : List Word) : (s.consume n ws).ring = s.ring := rfl
@[simp] theorem consume_io (s : State) (n : Nat) (ws : List Word) : (s.consume n ws).io = s.io := rfl
@[simp] theorem consume_paramSet (s : State) (n : Nat) (ws : List Word) :
    (s.consume n ws).paramSet = s.paramSet := rfl
@[simp] theorem consume_initDone (s : State) (n : Nat) (ws : List Word) :
    (s.consume n ws).initDone = s.initDone := rfl
@[simp] theorem consume_undefRead (s : State) (n : Nat) (ws : List Word) :
    (s.consume n ws).undefRead = s.undefRead := rfl

/-! ## present -/

@[simp] theorem present_cp (s : State) (ws : List Word) : (s.present ws).cp = s.cp := rfl
@[simp] theorem present_stream (s : State) (ws : List Word) : (s.present ws).stream = s.stream ++ ws := rfl
@[simp] theorem present_lifecycle (s : State) (ws : List Word) : (s.present ws).lifecycle = s.lifecycle := rfl
@[simp] theorem present_status (s : State) (ws : List Word) : (s.present ws).status = s.status := rfl
@[simp] theorem present_lastErr (s : State) (ws : List Word) : (s.present ws).lastErr = s.lastErr := rfl
@[simp] theorem present_resp (s : State) (ws : List Word) : (s.present ws).resp = s.resp := rfl
@[simp] theorem present_fs (s : State) (ws : List Word) : (s.present ws).fs = s.fs := rfl
@[simp] theorem present_xoLo (s : State) (ws : List Word) : (s.present ws).xoLo = s.xoLo := rfl
@[simp] theorem present_xoHi (s : State) (ws : List Word) : (s.present ws).xoHi = s.xoHi := rfl
@[simp] theorem present_params (s : State) (ws : List Word) : (s.present ws).params = s.params := rfl
@[simp] theorem present_ratioUp (s : State) (ws : List Word) : (s.present ws).ratioUp = s.ratioUp := rfl
@[simp] theorem present_ratioDn (s : State) (ws : List Word) : (s.present ws).ratioDn = s.ratioDn := rfl
@[simp] theorem present_gain2 (s : State) (ws : List Word) : (s.present ws).gain2 = s.gain2 := rfl
@[simp] theorem present_sv (s : State) (ws : List Word) : (s.present ws).sv = s.sv := rfl
@[simp] theorem present_sc (s : State) (ws : List Word) : (s.present ws).sc = s.sc := rfl
@[simp] theorem present_pk (s : State) (ws : List Word) : (s.present ws).pk = s.pk := rfl
@[simp] theorem present_filters (s : State) (ws : List Word) : (s.present ws).filters = s.filters := rfl
@[simp] theorem present_comps (s : State) (ws : List Word) : (s.present ws).comps = s.comps := rfl
@[simp] theorem present_mgr (s : State) (ws : List Word) : (s.present ws).mgr = s.mgr := rfl
@[simp] theorem present_mrms (s : State) (ws : List Word) : (s.present ws).mrms = s.mrms := rfl
@[simp] theorem present_wcur (s : State) (ws : List Word) : (s.present ws).wcur = s.wcur := rfl
@[simp] theorem present_rcur (s : State) (ws : List Word) : (s.present ws).rcur = s.rcur := rfl
@[simp] theorem present_ring (s : State) (ws : List Word) : (s.present ws).ring = s.ring := rfl
@[simp] theorem present_io (s : State) (ws : List Word) : (s.present ws).io = s.io := rfl
@[simp] theorem present_paramSet (s : State) (ws : List Word) : (s.present ws).paramSet = s.paramSet := rfl
@[simp] theorem present_initDone (s : State) (ws : List Word) : (s.present ws).initDone = s.initDone := rfl
@[simp] theorem present_undefRead (s : State) (ws : List Word) : (s.present ws).undefRead = s.undefRead := rfl

/-! ## smoothAll -/

@[simp] theorem smoothAll_cp (c : Config) (s : State) : (smoothAll c s).cp = s.cp := rfl
@[simp] theorem smoothAll_stream (c : Config) (s : State) : (smoothAll c s).stream = s.stream := rfl
@[simp] theorem smoothAll_lifecycle (c : Config) (s : State) : (smoothAll c s).lifecycle = s.lifecycle := rfl
@[simp] theorem smoothAll_status (c : Config) (s : State) : (smoothAll c s).status = s.status := rfl
@[simp] theorem smoothAll_lastErr (c : Config) (s : State) : (smoothAll c s).lastErr = s.lastErr := rfl
@[simp] theorem smoothAll_resp (c : Config) (s : State) : (smoothAll c s).resp = s.resp := rfl
@[simp] theorem smoothAll_fs (c : Config) (s : State) : (smoothAll c s).fs = s.fs := rfl
@[simp] theorem smoothAll_xoLo (c : Config) (s : State) : (smoothAll c s).xoLo = s.xoLo := rfl
@[simp] theorem smoothAll_xoHi (c : Config) (s : State) : (smoothAll c s).xoHi = s.xoHi := rfl
@[simp] theorem smoothAll_params (c : Config) (s : State) : (smoothAll c s).params = s.params := rfl
@[simp] theorem smoothAll_ratioUp (c : Config) (s : State) : (smoothAll c s).ratioUp = s.ratioUp := rfl
@[simp] theorem smoothAll_ratioDn (c : Config) (s : State) : (smoothAll c s).ratioDn = s.ratioDn := rfl
@[simp] theorem smoothAll_gain2 (c : Config) (s : State) : (smoothAll c s).gain2 = s.gain2 := rfl
@[simp] theorem smoothAll_sv (c : Config) (s : State) :
    (smoothAll c s).sv = three fun k => smoothValue c s.sv[k] s.sc[k] (smootherTarget c s k) := rfl
@[simp] theorem smoothAll_sc (c : Config) (s : State) : (smoothAll c s).sc = s.sc := rfl
@[simp] theorem smoothAll_pk (c : Config) (s : State) : (smoothAll c s).pk = s.pk := rfl
@[simp] theorem smoothAll_filters (c : Config) (s : State) : (smoothAll c s).filters = s.filters := rfl
@[simp] theorem smoothAll_comps (c : Config) (s : State) : (smoothAll c s).comps = s.comps := rfl
@[simp] theorem smoothAll_mgr (c : Config) (s : State) : (smoothAll c s).mgr = s.mgr := rfl
@[simp] theorem smoothAll_mrms (c : Config) (s : State) : (smoothAll c s).mrms = s.mrms := rfl
@[simp] theorem smoothAll_wcur (c : Config) (s : State) : (smoothAll c s).wcur = s.wcur := rfl
@[simp] theorem smoothAll_rcur (c : Config) (s : State) : (smoothAll c s).rcur = s.rcur := rfl
@[simp] theorem smoothAll_ring (c : Config) (s : State) : (smoothAll c s).ring = s.ring := rfl
@[simp] theorem smoothAll_io (c : Config) (s : State) : (smoothAll c s).io = s.io := rfl
@[simp] theorem smoothAll_paramSet (c : Config) (s : State) : (smoothAll c s).paramSet = s.paramSet := rfl
@[simp] theorem smoothAll_initDone (c : Config) (s : State) : (smoothAll c s).initDone = s.initDone := rfl
@[simp] theorem smoothAll_undefRead (c : Config) (s : State) : (smoothAll c s).undefRead = s.undefRead := rfl

/-! ## peakSample -/

@[simp] theorem peakSample_cp (c : Config) (w : Word × Word) (s : State) : (peakSample c w s).cp = s.cp := rfl
@[simp] theorem peakSample_stream (c : Config) (w : Word × Word) (s : State) :
    (peakSample c w s).stream = s.stream := rfl
@[simp] theorem peakSample_lifecycle (c : Config) (w : Word × Word) (s : State) :
    (peakSample c w s).lifecycle = s.lifecycle := rfl
@[simp] theorem peakSample_status (c : Config) (w : Word × Word) (s : State) :
    (peakSample c w s).status = s.status := rfl
@[simp] theorem peakSample_lastErr (c : Config) (w : Word × Word) (s : State) :
    (peakSample c w s).lastErr = s.lastErr := rfl
@[simp] theorem peakSample_resp (c : Config) (w : Word × Word) (s : State) : (peakSample c w s).resp = s.resp := rfl
@[simp] theorem peakSample_fs (c : Config) (w : Word × Word) (s : State) : (peakSample c w s).fs = s.fs := rfl
@[simp] theorem peakSample_xoLo (c : Config) (w : Word × Word) (s : State) : (peakSample c w s).xoLo = s.xoLo := rfl
@[simp] theorem peakSample_xoHi (c : Config) (w : Word × Word) (s : State) : (peakSample c w s).xoHi = s.xoHi := rfl
@[simp] theorem peakSample_params (c : Config) (w : Word × Word) (s : State) :
    (peakSample c w s).params = s.params := rfl
@[simp] theorem peakSample_ratioUp (c : Config) (w : Word × Word) (s : State) :
    (peakSample c w s).ratioUp = s.ratioUp := rfl
@[simp] theorem peakSample_ratioDn (c : Config) (w : Word × Word) (s : State) :
    (peakSample c w s).ratioDn = s.ratioDn := rfl
@[simp] theorem peakSample_gain2 (c : Config) (w : Word × Word) (s : State) :
    (peakSample c w s).gain2 = s.gain2 := rfl
@[simp] theorem peakSample_sv (c : Config) (w : Word × Word) (s : State) : (peakSample c w s).sv = s.sv := rfl
@[simp] theorem peakSample_sc (c : Config) (w : Word × Word) (s : State) : (peakSample c w s).sc = s.sc := rfl
@[simp] theorem peakSample_pk (c : Config) (w : Word × Word) (s : State) :
    (peakSample c w s).pk = #v[peakValue c s.pk[0] (widen c w.1), peakValue c s.pk[1] (widen c w.2)] := rfl
@[simp] theorem peakSample_filters (c : Config) (w : Word × Word) (s : State) :
    (peakSample c w s).filters = s.filters := rfl
@[simp] theorem peakSample_comps (c : Config) (w : Word × Word) (s : State) :
    (peakSample c w s).comps = s.comps := rfl
@[simp] theorem peakSample_mgr (c : Config) (w : Word × Word) (s : State) : (peakSample c w s).mgr = s.mgr := rfl
@[simp] theorem peakSample_mrms (c : Config) (w : Word × Word) (s : State) : (peakSample c w s).mrms = s.mrms := rfl
@[simp] theorem peakSample_wcur (c : Config) (w : Word × Word) (s : State) : (peakSample c w s).wcur = s.wcur := rfl
@[simp] theorem peakSample_rcur (c : Config) (w : Word × Word) (s : State) : (peakSample c w s).rcur = s.rcur := rfl
@[simp] theorem peakSample_ring (c : Config) (w : Word × Word) (s : State) : (peakSample c w s).ring = s.ring := rfl
@[simp] theorem peakSample_io (c : Config) (w : Word × Word) (s : State) : (peakSample c w s).io = s.io := rfl
@[simp] theorem peakSample_paramSet (c : Config) (w : Word × Word) (s : State) :
    (peakSample c w s).paramSet = s.paramSet := rfl
@[simp] theorem peakSample_initDone (c : Config) (w : Word × Word) (s : State) :
    (peakSample c w s).initDone = s.initDone := rfl
@[simp] theorem peakSample_undefRead (c : Config) (w : Word × Word) (s : State) :
    (peakSample c w s).undefRead = s.undefRead := rfl

/-! ## advanceWcur -/

@[simp] theorem advanceWcur_cp (s : State) : (advanceWcur s).cp = s.cp := rfl
@[simp] theorem advanceWcur_stream (s : State) : (advanceWcur s).stream = s.stream := rfl
@[simp] theorem advanceWcur_lifecycle (s : State) : (advanceWcur s).lifecycle = s.lifecycle := rfl
@[simp] theorem advanceWcur_status (s : State) : (advanceWcur s).status = s.status := rfl
@[simp] theorem advanceWcur_lastErr (s : State) : (advanceWcur s).lastErr = s.lastErr := rfl
@[simp] theorem advanceWcur_resp (s : State) : (advanceWcur s).resp = s.resp := rfl
@[simp] theorem advanceWcur_fs (s : State) : (advanceWcur s).fs = s.fs := rfl
@[simp] theorem advanceWcur_xoLo (s : State) : (advanceWcur s).xoLo = s.xoLo := rfl
@[simp] theorem advanceWcur_xoHi (s : State) : (advanceWcur s).xoHi = s.xoHi := rfl
@[simp] theorem advanceWcur_params (s : State) : (advanceWcur s).params = s.params := rfl
@[simp] theorem advanceWcur_ratioUp (s : State) : (advanceWcur s).ratioUp = s.ratioUp := rfl
@[simp] theorem advanceWcur_ratioDn (s : State) : (advanceWcur s).ratioDn = s.ratioDn := rfl
@[simp] theorem advanceWcur_gain2 (s : State) : (advanceWcur s).gain2 = s.gain2 := rfl
@[simp] theorem advanceWcur_sv (s : State) : (advanceWcur s).sv = s.sv := rfl
@[simp] theorem advanceWcur_sc (s : State) : (advanceWcur s).sc = s.sc := rfl
@[simp] theorem advanceWcur_pk (s : State) : (advanceWcur s).pk = s.pk := rfl
@[simp] theorem advanceWcur_filters (s : State) : (advanceWcur s).filters = s.filters := rfl
@[simp] theorem advanceWcur_comps (s : State) : (advanceWcur s).comps = s.comps := rfl
@[simp] theorem advanceWcur_mgr (s : State) : (advanceWcur s).mgr = s.mgr := rfl
@[simp] theorem advanceWcur_mrms (s : State) : (advanceWcur s).mrms = s.mrms := rfl
@[simp] theorem advanceWcur_wcur (s : State) : (advanceWcur s).wcur = s.wcur + 1#15 := rfl
@[simp] theorem advanceWcur_rcur (s : State) : (advanceWcur s).rcur = s.rcur := rfl
@[simp] theorem advanceWcur_ring (s : State) : (advanceWcur s).ring = s.ring := rfl
@[simp] theorem advanceWcur_io (s : State) : (advanceWcur s).io = s.io := rfl
@[simp] theorem advanceWcur_paramSet (s : State) : (advanceWcur s).paramSet = s.paramSet := rfl
@[simp] theorem advanceWcur_initDone (s : State) : (advanceWcur s).initDone = s.initDone := rfl
@[simp] theorem advanceWcur_undefRead (s : State) : (advanceWcur s).undefRead = s.undefRead := rfl

/-! ## deriveAll -/

@[simp] theorem deriveAll_cp (c : Config) (s : State) : (deriveAll c s).cp = s.cp := rfl
@[simp] theorem deriveAll_stream (c : Config) (s : State) : (deriveAll c s).stream = s.stream := rfl
@[simp] theorem deriveAll_lifecycle (c : Config) (s : State) : (deriveAll c s).lifecycle = s.lifecycle := rfl
@[simp] theorem deriveAll_status (c : Config) (s : State) : (deriveAll c s).status = s.status := rfl
@[simp] theorem deriveAll_lastErr (c : Config) (s : State) : (deriveAll c s).lastErr = s.lastErr := rfl
@[simp] theorem deriveAll_resp (c : Config) (s : State) : (deriveAll c s).resp = s.resp := rfl
@[simp] theorem deriveAll_fs (c : Config) (s : State) : (deriveAll c s).fs = s.fs := rfl
@[simp] theorem deriveAll_xoLo (c : Config) (s : State) : (deriveAll c s).xoLo = s.xoLo := rfl
@[simp] theorem deriveAll_xoHi (c : Config) (s : State) : (deriveAll c s).xoHi = s.xoHi := rfl
@[simp] theorem deriveAll_params (c : Config) (s : State) : (deriveAll c s).params = s.params := rfl
@[simp] theorem deriveAll_ratioUp (c : Config) (s : State) : (deriveAll c s).ratioUp = s.ratioUp := rfl
@[simp] theorem deriveAll_ratioDn (c : Config) (s : State) : (deriveAll c s).ratioDn = s.ratioDn := rfl
@[simp] theorem deriveAll_gain2 (c : Config) (s : State) : (deriveAll c s).gain2 = s.gain2 := rfl
@[simp] theorem deriveAll_sv (c : Config) (s : State) : (deriveAll c s).sv = s.sv := rfl
@[simp] theorem deriveAll_sc (c : Config) (s : State) : (deriveAll c s).sc = s.sc := rfl
@[simp] theorem deriveAll_pk (c : Config) (s : State) : (deriveAll c s).pk = s.pk := rfl
@[simp] theorem deriveAll_filters (c : Config) (s : State) :
    (deriveAll c s).filters = six fun i => xoCoef c (crossoverOf s.xoLo s.xoHi i) s.fs s.filters[i] := rfl
@[simp] theorem deriveAll_comps (c : Config) (s : State) : (deriveAll c s).comps = s.comps := rfl
@[simp] theorem deriveAll_mgr (c : Config) (s : State) : (deriveAll c s).mgr = s.mgr := rfl
@[simp] theorem deriveAll_mrms (c : Config) (s : State) : (deriveAll c s).mrms = s.mrms := rfl
@[simp] theorem deriveAll_wcur (c : Config) (s : State) : (deriveAll c s).wcur = s.wcur := rfl
@[simp] theorem deriveAll_rcur (c : Config) (s : State) : (deriveAll c s).rcur = s.rcur := rfl
@[simp] theorem deriveAll_ring (c : Config) (s : State) : (deriveAll c s).ring = s.ring := rfl
@[simp] theorem deriveAll_io (c : Config) (s : State) : (deriveAll c s).io = s.io := rfl
@[simp] theorem deriveAll_paramSet (c : Config) (s : State) : (deriveAll c s).paramSet = s.paramSet := rfl
@[simp] theorem deriveAll_initDone (c : Config) (s : State) : (deriveAll c s).initDone = s.initDone := rfl
@[simp] theorem deriveAll_undefRead (c : Config) (s : State) : (deriveAll c s).undefRead = s.undefRead := rfl

/-! ## deriveLow -/

@[simp] theorem deriveLow_cp (c : Config) (s : State) : (deriveLow c s).cp = s.cp := rfl
@[simp] theorem deriveLow_stream (c : Config) (s : State) : (deriveLow c s).stream = s.stream := rfl
@[simp] theorem deriveLow_lifecycle (c : Config) (s : State) : (deriveLow c s).lifecycle = s.lifecycle := rfl
@[simp] theorem deriveLow_status (c : Config) (s : State) : (deriveLow c s).status = s.status := rfl
@[simp] theorem deriveLow_lastErr (c : Config) (s : State) : (deriveLow c s).lastErr = s.lastErr := rfl
@[simp] theorem deriveLow_resp (c : Config) (s : State) : (deriveLow c s).resp = s.resp := rfl
@[simp] theorem deriveLow_fs (c : Config) (s : State) : (deriveLow c s).fs = s.fs := rfl
@[simp] theorem deriveLow_xoLo (c : Config) (s : State) : (deriveLow c s).xoLo = s.xoLo := rfl
@[simp] theorem deriveLow_xoHi (c : Config) (s : State) : (deriveLow c s).xoHi = s.xoHi := rfl
@[simp] theorem deriveLow_params (c : Config) (s : State) : (deriveLow c s).params = s.params := rfl
@[simp] theorem deriveLow_ratioUp (c : Config) (s : State) : (deriveLow c s).ratioUp = s.ratioUp := rfl
@[simp] theorem deriveLow_ratioDn (c : Config) (s : State) : (deriveLow c s).ratioDn = s.ratioDn := rfl
@[simp] theorem deriveLow_gain2 (c : Config) (s : State) : (deriveLow c s).gain2 = s.gain2 := rfl
@[simp] theorem deriveLow_sv (c : Config) (s : State) : (deriveLow c s).sv = s.sv := rfl
@[simp] theorem deriveLow_sc (c : Config) (s : State) : (deriveLow c s).sc = s.sc := rfl
@[simp] theorem deriveLow_pk (c : Config) (s : State) : (deriveLow c s).pk = s.pk := rfl
@[simp] theorem deriveLow_filters (c : Config) (s : State) :
    (deriveLow c s).filters = six fun i => if i.val ≤ 3 then xoCoef c s.xoLo s.fs s.filters[i] else s.filters[i] := rfl
@[simp] theorem deriveLow_comps (c : Config) (s : State) : (deriveLow c s).comps = s.comps := rfl
@[simp] theorem deriveLow_mgr (c : Config) (s : State) : (deriveLow c s).mgr = s.mgr := rfl
@[simp] theorem deriveLow_mrms (c : Config) (s : State) : (deriveLow c s).mrms = s.mrms := rfl
@[simp] theorem deriveLow_wcur (c : Config) (s : State) : (deriveLow c s).wcur = s.wcur := rfl
@[simp] theorem deriveLow_rcur (c : Config) (s : State) : (deriveLow c s).rcur = s.rcur := rfl
@[simp] theorem deriveLow_ring (c : Config) (s : State) : (deriveLow c s).ring = s.ring := rfl
@[simp] theorem deriveLow_io (c : Config) (s : State) : (deriveLow c s).io = s.io := rfl
@[simp] theorem deriveLow_paramSet (c : Config) (s : State) : (deriveLow c s).paramSet = s.paramSet := rfl
@[simp] theorem deriveLow_initDone (c : Config) (s : State) : (deriveLow c s).initDone = s.initDone := rfl
@[simp] theorem deriveLow_undefRead (c : Config) (s : State) : (deriveLow c s).undefRead = s.undefRead := rfl

/-! ## deriveHigh -/

@[simp] theorem deriveHigh_cp (c : Config) (s : State) : (deriveHigh c s).cp = s.cp := rfl
@[simp] theorem deriveHigh_stream (c : Config) (s : State) : (deriveHigh c s).stream = s.stream := rfl
@[simp] theorem deriveHigh_lifecycle (c : Config) (s : State) : (deriveHigh c s).lifecycle = s.lifecycle := rfl
@[simp] theorem deriveHigh_status (c : Config) (s : State) : (deriveHigh c s).status = s.status := rfl
@[simp] theorem deriveHigh_lastErr (c : Config) (s : State) : (deriveHigh c s).lastErr = s.lastErr := rfl
@[simp] theorem deriveHigh_resp (c : Config) (s : State) : (deriveHigh c s).resp = s.resp := rfl
@[simp] theorem deriveHigh_fs (c : Config) (s : State) : (deriveHigh c s).fs = s.fs := rfl
@[simp] theorem deriveHigh_xoLo (c : Config) (s : State) : (deriveHigh c s).xoLo = s.xoLo := rfl
@[simp] theorem deriveHigh_xoHi (c : Config) (s : State) : (deriveHigh c s).xoHi = s.xoHi := rfl
@[simp] theorem deriveHigh_params (c : Config) (s : State) : (deriveHigh c s).params = s.params := rfl
@[simp] theorem deriveHigh_ratioUp (c : Config) (s : State) : (deriveHigh c s).ratioUp = s.ratioUp := rfl
@[simp] theorem deriveHigh_ratioDn (c : Config) (s : State) : (deriveHigh c s).ratioDn = s.ratioDn := rfl
@[simp] theorem deriveHigh_gain2 (c : Config) (s : State) : (deriveHigh c s).gain2 = s.gain2 := rfl
@[simp] theorem deriveHigh_sv (c : Config) (s : State) : (deriveHigh c s).sv = s.sv := rfl
@[simp] theorem deriveHigh_sc (c : Config) (s : State) : (deriveHigh c s).sc = s.sc := rfl
@[simp] theorem deriveHigh_pk (c : Config) (s : State) : (deriveHigh c s).pk = s.pk := rfl
@[simp] theorem deriveHigh_filters (c : Config) (s : State) :
    (deriveHigh c s).filters = six fun i => if i.val ≤ 3 then s.filters[i] else xoCoef c s.xoHi s.fs s.filters[i] := rfl
@[simp] theorem deriveHigh_comps (c : Config) (s : State) : (deriveHigh c s).comps = s.comps := rfl
@[simp] theorem deriveHigh_mgr (c : Config) (s : State) : (deriveHigh c s).mgr = s.mgr := rfl
@[simp] theorem deriveHigh_mrms (c : Config) (s : State) : (deriveHigh c s).mrms = s.mrms := rfl
@[simp] theorem deriveHigh_wcur (c : Config) (s : State) : (deriveHigh c s).wcur = s.wcur := rfl
@[simp] theorem deriveHigh_rcur (c : Config) (s : State) : (deriveHigh c s).rcur = s.rcur := rfl
@[simp] theorem deriveHigh_ring (c : Config) (s : State) : (deriveHigh c s).ring = s.ring := rfl
@[simp] theorem deriveHigh_io (c : Config) (s : State) : (deriveHigh c s).io = s.io := rfl
@[simp] theorem deriveHigh_paramSet (c : Config) (s : State) : (deriveHigh c s).paramSet = s.paramSet := rfl
@[simp] theorem deriveHigh_initDone (c : Config) (s : State) : (deriveHigh c s).initDone = s.initDone := rfl
@[simp] theorem deriveHigh_undefRead (c : Config) (s : State) : (deriveHigh c s).undefRead = s.undefRead := rfl

/-! ## neutralState -/

@[simp] theorem neutralState_cp (s : State) : (neutralState s).cp = s.cp := rfl
@[simp] theorem neutralState_stream (s : State) : (neutralState s).stream = s.stream := rfl
@[simp] theorem neutralState_lifecycle (s : State) : (neutralState s).lifecycle = s.lifecycle := rfl
@[simp] theorem neutralState_status (s : State) : (neutralState s).status = s.status := rfl
@[simp] theorem neutralState_lastErr (s : State) : (neutralState s).lastErr = s.lastErr := rfl
@[simp] theorem neutralState_resp (s : State) : (neutralState s).resp = s.resp := rfl
@[simp] theorem neutralState_fs (s : State) : (neutralState s).fs = s.fs := rfl
@[simp] theorem neutralState_xoLo (s : State) : (neutralState s).xoLo = s.xoLo := rfl
@[simp] theorem neutralState_xoHi (s : State) : (neutralState s).xoHi = s.xoHi := rfl
@[simp] theorem neutralState_params (s : State) : (neutralState s).params = s.params := rfl
@[simp] theorem neutralState_ratioUp (s : State) : (neutralState s).ratioUp = s.ratioUp := rfl
@[simp] theorem neutralState_ratioDn (s : State) : (neutralState s).ratioDn = s.ratioDn := rfl
@[simp] theorem neutralState_gain2 (s : State) : (neutralState s).gain2 = s.gain2 := rfl
@[simp] theorem neutralState_sv (s : State) : (neutralState s).sv = s.sv := rfl
@[simp] theorem neutralState_sc (s : State) : (neutralState s).sc = s.sc := rfl
@[simp] theorem neutralState_pk (s : State) : (neutralState s).pk = #v[zeroF, zeroF] := rfl
@[simp] theorem neutralState_filters (s : State) :
    (neutralState s).filters = six fun i => clearFilter s.filters[i] := rfl
@[simp] theorem neutralState_comps (s : State) : (neutralState s).comps = three fun b => clearComp s.comps[b] := rfl
@[simp] theorem neutralState_mgr (s : State) : (neutralState s).mgr = three fun _ => zeroF := rfl
@[simp] theorem neutralState_mrms (s : State) : (neutralState s).mrms = three fun _ => zeroF := rfl
@[simp] theorem neutralState_wcur (s : State) : (neutralState s).wcur = 0#15 := rfl
@[simp] theorem neutralState_rcur (s : State) : (neutralState s).rcur = 0#15 := rfl
@[simp] theorem neutralState_ring (s : State) : (neutralState s).ring = Memory.filled zeroF := rfl
@[simp] theorem neutralState_io (s : State) : (neutralState s).io = s.io := rfl
@[simp] theorem neutralState_paramSet (s : State) : (neutralState s).paramSet = s.paramSet := rfl
@[simp] theorem neutralState_initDone (s : State) : (neutralState s).initDone = s.initDone := rfl
@[simp] theorem neutralState_undefRead (s : State) : (neutralState s).undefRead = s.undefRead := rfl

/-! ## storeParam -/

@[simp] theorem storeParam_cp (i : Nat) (h : i < 20) (v : F32) (s : State) : (storeParam i h v s).cp = s.cp := rfl
@[simp] theorem storeParam_stream (i : Nat) (h : i < 20) (v : F32) (s : State) :
    (storeParam i h v s).stream = s.stream := rfl
@[simp] theorem storeParam_lifecycle (i : Nat) (h : i < 20) (v : F32) (s : State) :
    (storeParam i h v s).lifecycle = s.lifecycle := rfl
@[simp] theorem storeParam_status (i : Nat) (h : i < 20) (v : F32) (s : State) :
    (storeParam i h v s).status = s.status := rfl
@[simp] theorem storeParam_lastErr (i : Nat) (h : i < 20) (v : F32) (s : State) :
    (storeParam i h v s).lastErr = s.lastErr := rfl
@[simp] theorem storeParam_resp (i : Nat) (h : i < 20) (v : F32) (s : State) :
    (storeParam i h v s).resp = s.resp := rfl
@[simp] theorem storeParam_fs (i : Nat) (h : i < 20) (v : F32) (s : State) : (storeParam i h v s).fs = s.fs := rfl
@[simp] theorem storeParam_xoLo (i : Nat) (h : i < 20) (v : F32) (s : State) :
    (storeParam i h v s).xoLo = s.xoLo := rfl
@[simp] theorem storeParam_xoHi (i : Nat) (h : i < 20) (v : F32) (s : State) :
    (storeParam i h v s).xoHi = s.xoHi := rfl
@[simp] theorem storeParam_params (i : Nat) (h : i < 20) (v : F32) (s : State) :
    (storeParam i h v s).params = s.params.set i v h := rfl
@[simp] theorem storeParam_ratioUp (i : Nat) (h : i < 20) (v : F32) (s : State) :
    (storeParam i h v s).ratioUp = s.ratioUp := rfl
@[simp] theorem storeParam_ratioDn (i : Nat) (h : i < 20) (v : F32) (s : State) :
    (storeParam i h v s).ratioDn = s.ratioDn := rfl
@[simp] theorem storeParam_gain2 (i : Nat) (h : i < 20) (v : F32) (s : State) :
    (storeParam i h v s).gain2 = s.gain2 := rfl
@[simp] theorem storeParam_sv (i : Nat) (h : i < 20) (v : F32) (s : State) : (storeParam i h v s).sv = s.sv := rfl
@[simp] theorem storeParam_sc (i : Nat) (h : i < 20) (v : F32) (s : State) : (storeParam i h v s).sc = s.sc := rfl
@[simp] theorem storeParam_pk (i : Nat) (h : i < 20) (v : F32) (s : State) : (storeParam i h v s).pk = s.pk := rfl
@[simp] theorem storeParam_filters (i : Nat) (h : i < 20) (v : F32) (s : State) :
    (storeParam i h v s).filters = s.filters := rfl
@[simp] theorem storeParam_comps (i : Nat) (h : i < 20) (v : F32) (s : State) :
    (storeParam i h v s).comps = s.comps := rfl
@[simp] theorem storeParam_mgr (i : Nat) (h : i < 20) (v : F32) (s : State) : (storeParam i h v s).mgr = s.mgr := rfl
@[simp] theorem storeParam_mrms (i : Nat) (h : i < 20) (v : F32) (s : State) :
    (storeParam i h v s).mrms = s.mrms := rfl
@[simp] theorem storeParam_wcur (i : Nat) (h : i < 20) (v : F32) (s : State) :
    (storeParam i h v s).wcur = s.wcur := rfl
@[simp] theorem storeParam_rcur (i : Nat) (h : i < 20) (v : F32) (s : State) :
    (storeParam i h v s).rcur = s.rcur := rfl
@[simp] theorem storeParam_ring (i : Nat) (h : i < 20) (v : F32) (s : State) :
    (storeParam i h v s).ring = s.ring := rfl
@[simp] theorem storeParam_io (i : Nat) (h : i < 20) (v : F32) (s : State) : (storeParam i h v s).io = s.io := rfl
@[simp] theorem storeParam_paramSet (i : Nat) (h : i < 20) (v : F32) (s : State) :
    (storeParam i h v s).paramSet = s.paramSet.set i true h := rfl
@[simp] theorem storeParam_initDone (i : Nat) (h : i < 20) (v : F32) (s : State) :
    (storeParam i h v s).initDone = s.initDone := rfl
@[simp] theorem storeParam_undefRead (i : Nat) (h : i < 20) (v : F32) (s : State) :
    (storeParam i h v s).undefRead = s.undefRead := rfl

/-! ## compStep -/

@[simp] theorem compStep_cp (c : Config) (b : Fin 3) (p g gain : F64) (s : State) :
    (compStep c b p g gain s).1.cp = s.cp := rfl
@[simp] theorem compStep_stream (c : Config) (b : Fin 3) (p g gain : F64) (s : State) :
    (compStep c b p g gain s).1.stream = s.stream := rfl
@[simp] theorem compStep_lifecycle (c : Config) (b : Fin 3) (p g gain : F64) (s : State) :
    (compStep c b p g gain s).1.lifecycle = s.lifecycle := rfl
@[simp] theorem compStep_status (c : Config) (b : Fin 3) (p g gain : F64) (s : State) :
    (compStep c b p g gain s).1.status = s.status := rfl
@[simp] theorem compStep_lastErr (c : Config) (b : Fin 3) (p g gain : F64) (s : State) :
    (compStep c b p g gain s).1.lastErr = s.lastErr := rfl
@[simp] theorem compStep_resp (c : Config) (b : Fin 3) (p g gain : F64) (s : State) :
    (compStep c b p g gain s).1.resp = s.resp := rfl
@[simp] theorem compStep_fs (c : Config) (b : Fin 3) (p g gain : F64) (s : State) :
    (compStep c b p g gain s).1.fs = s.fs := rfl
@[simp] theorem compStep_xoLo (c : Config) (b : Fin 3) (p g gain : F64) (s : State) :
    (compStep c b p g gain s).1.xoLo = s.xoLo := rfl
@[simp] theorem compStep_xoHi (c : Config) (b : Fin 3) (p g gain : F64) (s : State) :
    (compStep c b p g gain s).1.xoHi = s.xoHi := rfl
@[simp] theorem compStep_params (c : Config) (b : Fin 3) (p g gain : F64) (s : State) :
    (compStep c b p g gain s).1.params = s.params := rfl
@[simp] theorem compStep_ratioUp (c : Config) (b : Fin 3) (p g gain : F64) (s : State) :
    (compStep c b p g gain s).1.ratioUp = s.ratioUp := rfl
@[simp] theorem compStep_ratioDn (c : Config) (b : Fin 3) (p g gain : F64) (s : State) :
    (compStep c b p g gain s).1.ratioDn = s.ratioDn := rfl
@[simp] theorem compStep_gain2 (c : Config) (b : Fin 3) (p g gain : F64) (s : State) :
    (compStep c b p g gain s).1.gain2 = s.gain2 := rfl
@[simp] theorem compStep_sv (c : Config) (b : Fin 3) (p g gain : F64) (s : State) :
    (compStep c b p g gain s).1.sv = s.sv := rfl
@[simp] theorem compStep_sc (c : Config) (b : Fin 3) (p g gain : F64) (s : State) :
    (compStep c b p g gain s).1.sc = s.sc := rfl
@[simp] theorem compStep_pk (c : Config) (b : Fin 3) (p g gain : F64) (s : State) :
    (compStep c b p g gain s).1.pk = s.pk := rfl
@[simp] theorem compStep_filters (c : Config) (b : Fin 3) (p g gain : F64) (s : State) :
    (compStep c b p g gain s).1.filters = s.filters := rfl
@[simp] theorem compStep_comps (c : Config) (b : Fin 3) (p g gain : F64) (s : State) :
    (compStep c b p g gain s).1.comps = s.comps.set b (compNext c b p s.comps[b]) := rfl
@[simp] theorem compStep_mgr (c : Config) (b : Fin 3) (p g gain : F64) (s : State) :
    (compStep c b p g gain s).1.mgr = s.mgr.set b (fmul c (compNext c b p s.comps[b]).red gain) := rfl
@[simp] theorem compStep_mrms (c : Config) (b : Fin 3) (p g gain : F64) (s : State) :
    (compStep c b p g gain s).1.mrms = s.mrms.set b (compNext c b p s.comps[b]).rms := rfl
@[simp] theorem compStep_wcur (c : Config) (b : Fin 3) (p g gain : F64) (s : State) :
    (compStep c b p g gain s).1.wcur = s.wcur := rfl
@[simp] theorem compStep_rcur (c : Config) (b : Fin 3) (p g gain : F64) (s : State) :
    (compStep c b p g gain s).1.rcur = s.rcur := rfl
@[simp] theorem compStep_ring (c : Config) (b : Fin 3) (p g gain : F64) (s : State) :
    (compStep c b p g gain s).1.ring = s.ring := rfl
@[simp] theorem compStep_io (c : Config) (b : Fin 3) (p g gain : F64) (s : State) :
    (compStep c b p g gain s).1.io = s.io := rfl
@[simp] theorem compStep_paramSet (c : Config) (b : Fin 3) (p g gain : F64) (s : State) :
    (compStep c b p g gain s).1.paramSet = s.paramSet := rfl
@[simp] theorem compStep_initDone (c : Config) (b : Fin 3) (p g gain : F64) (s : State) :
    (compStep c b p g gain s).1.initDone = s.initDone := rfl
@[simp] theorem compStep_undefRead (c : Config) (b : Fin 3) (p g gain : F64) (s : State) :
    (compStep c b p g gain s).1.undefRead = s.undefRead := rfl

/-! ## What a compressor path reads (10_state.md R40, R41; 43_compressor.md R150) -/

@[simp] theorem pathRegs_env (k : Comp) : (pathRegs k).env = k.env := rfl
@[simp] theorem pathRegs_gr (k : Comp) : (pathRegs k).gr = k.gr := rfl
@[simp] theorem pathRegs_sel (k : Comp) : (pathRegs k).sel = k.sel := rfl
@[simp] theorem pathRegs_cAtt (k : Comp) : (pathRegs k).cAtt = k.cAtt := rfl
@[simp] theorem pathRegs_cRel (k : Comp) : (pathRegs k).cRel = k.cRel := rfl
@[simp] theorem pathRegs_thr (k : Comp) : (pathRegs k).thr = k.thr := rfl
@[simp] theorem pathRegs_upr (k : Comp) : (pathRegs k).upr = k.upr := rfl
@[simp] theorem pathRegs_auxLin (k : Comp) : (pathRegs k).auxLin = k.auxLin := rfl
@[simp] theorem pathRegs_auxKnee (k : Comp) : (pathRegs k).auxKnee = k.auxKnee := rfl

/-- PATH and RED as they stood do not influence a compressor step, whatever the path functions (10_state.md R40, R41). -/
theorem compNext_path_red (c : Config) (b : Fin 3) (p : F64) (k : Comp) (path : Bool) (red : F64) :
    compNext c b p { k with path := path, red := red } = compNext c b p k := rfl

/-- Applying a sample rate again changes nothing, wherever the stream has come to (46_lifecycle_commands.md R223). -/
theorem applyRate_again (c : Config) (fs : F64) (s : State) (n : Nat) (ws : List Word) :
    applyRate c fs { applyRate c fs s with cp := n, stream := ws } =
      { applyRate c fs s with cp := n, stream := ws } := rfl

/-! ## The recursive state of a filter and a compressor -/

@[simp] theorem clearFilter_a1 (u : Filter) : (clearFilter u).a1 = u.a1 := rfl
@[simp] theorem clearFilter_a2 (u : Filter) : (clearFilter u).a2 = u.a2 := rfl
@[simp] theorem clearFilter_b0 (u : Filter) : (clearFilter u).b0 = u.b0 := rfl
@[simp] theorem clearFilter_b1 (u : Filter) : (clearFilter u).b1 = u.b1 := rfl
@[simp] theorem clearFilter_b2 (u : Filter) : (clearFilter u).b2 = u.b2 := rfl
@[simp] theorem clearFilter_freq (u : Filter) : (clearFilter u).freq = u.freq := rfl
@[simp] theorem xoTick_a1 (c : Config) (u : Filter) (x : F64) : (xoTick c u x).a1 = u.a1 := rfl
@[simp] theorem xoTick_a2 (c : Config) (u : Filter) (x : F64) : (xoTick c u x).a2 = u.a2 := rfl
@[simp] theorem xoTick_b0 (c : Config) (u : Filter) (x : F64) : (xoTick c u x).b0 = u.b0 := rfl
@[simp] theorem xoTick_b1 (c : Config) (u : Filter) (x : F64) : (xoTick c u x).b1 = u.b1 := rfl
@[simp] theorem xoTick_b2 (c : Config) (u : Filter) (x : F64) : (xoTick c u x).b2 = u.b2 := rfl
@[simp] theorem xoTick_freq (c : Config) (u : Filter) (x : F64) : (xoTick c u x).freq = u.freq := rfl
@[simp] theorem xoCoef_b0 (c : Config) (f fs : F64) (u : Filter) : (xoCoef c f fs u).b0 = oneF := rfl
@[simp] theorem xoCoef_freq (c : Config) (f fs : F64) (u : Filter) : (xoCoef c f fs u).freq = f := rfl
@[simp] theorem xoCoef_w1 (c : Config) (f fs : F64) (u : Filter) : (xoCoef c f fs u).w1 = u.w1 := rfl
@[simp] theorem xoCoef_w2 (c : Config) (f fs : F64) (u : Filter) : (xoCoef c f fs u).w2 = u.w2 := rfl
@[simp] theorem xoCoef_lp (c : Config) (f fs : F64) (u : Filter) : (xoCoef c f fs u).lp = u.lp := rfl
@[simp] theorem xoCoef_hp (c : Config) (f fs : F64) (u : Filter) : (xoCoef c f fs u).hp = u.hp := rfl

end Sys2Proof.Machine
end

