-- ==== Sys2Proof/Laws/Memory.lean ====
section
/-! SUPPORT. The laws of the cell memories: a read after a write, the canonical form kept by every operation, and the places
of ring cells and I/O words. -/

namespace Sys2Proof.Machine

open Sys2Proof

variable {w : Nat}

/-! ## Lists of cells -/

theorem cellsFind_insert_same (l : List (Nat × BitVec w)) (a : Nat) (v : BitVec w) :
    cellsFind (cellsInsert l a v) a = some v := by
  induction l with
  | nil => simp [cellsInsert, cellsFind]
  | cons p l ih =>
    obtain ⟨b, u⟩ := p
    simp only [cellsInsert]
    split_ifs with h1 h2
    · simp [cellsFind]
    · simp [cellsFind]
    · simp [cellsFind, h2, ih]

theorem cellsFind_insert_other (l : List (Nat × BitVec w)) (a x : Nat) (v : BitVec w) (h : x ≠ a) :
    cellsFind (cellsInsert l a v) x = cellsFind l x := by
  induction l with
  | nil => simp [cellsInsert, cellsFind, h]
  | cons p l ih =>
    obtain ⟨b, u⟩ := p
    simp only [cellsInsert]
    split_ifs with h1 h2
    · simp [cellsFind, h]
    · subst h2
      simp [cellsFind, h]
    · simp [cellsFind, ih]

theorem cellsFind_erase_same (l : List (Nat × BitVec w)) (a : Nat) : cellsFind (cellsErase l a) a = none := by
  induction l with
  | nil => rfl
  | cons p l ih =>
    obtain ⟨b, u⟩ := p
    simp only [cellsErase]
    split_ifs with h1
    · exact ih
    · simp [cellsFind, h1, ih]

theorem cellsFind_erase_other (l : List (Nat × BitVec w)) (a x : Nat) (h : x ≠ a) :
    cellsFind (cellsErase l a) x = cellsFind l x := by
  induction l with
  | nil => rfl
  | cons p l ih =>
    obtain ⟨b, u⟩ := p
    simp only [cellsErase]
    split_ifs with h1
    · subst h1
      simp [cellsFind, h, ih]
    · simp [cellsFind, ih]

theorem cellsRising_mono (l : List (Nat × BitVec w)) {lo lo' : Nat} (h : lo' ≤ lo) (hl : cellsRising lo l = true) :
    cellsRising lo' l = true := by
  cases l with
  | nil => rfl
  | cons p l =>
    simp only [cellsRising, Bool.and_eq_true, decide_eq_true_eq] at hl ⊢
    exact ⟨h.trans hl.1, hl.2⟩

theorem cellsRising_insert (l : List (Nat × BitVec w)) (lo a : Nat) (v : BitVec w) (h : lo ≤ a)
    (hl : cellsRising lo l = true) : cellsRising lo (cellsInsert l a v) = true := by
  induction l generalizing lo with
  | nil => simp [cellsInsert, cellsRising, h]
  | cons p l ih =>
    obtain ⟨b, u⟩ := p
    simp only [cellsRising, Bool.and_eq_true, decide_eq_true_eq] at hl
    simp only [cellsInsert]
    split_ifs with h1 h2
    · simp only [cellsRising, Bool.and_eq_true, decide_eq_true_eq]
      exact ⟨h, h1, hl.2⟩
    · subst h2
      simp only [cellsRising, Bool.and_eq_true, decide_eq_true_eq]
      exact ⟨h, hl.2⟩
    · simp only [cellsRising, Bool.and_eq_true, decide_eq_true_eq]
      exact ⟨hl.1, ih (b + 1) (by omega) hl.2⟩

theorem cellsRising_erase (l : List (Nat × BitVec w)) (lo a : Nat) (hl : cellsRising lo l = true) :
    cellsRising lo (cellsErase l a) = true := by
  induction l generalizing lo with
  | nil => rfl
  | cons p l ih =>
    obtain ⟨b, u⟩ := p
    simp only [cellsRising, Bool.and_eq_true, decide_eq_true_eq] at hl
    simp only [cellsErase]
    split_ifs with h1
    · exact cellsRising_mono _ (by omega) (ih (b + 1) hl.2)
    · simp only [cellsRising, Bool.and_eq_true, decide_eq_true_eq]
      exact ⟨hl.1, ih (b + 1) hl.2⟩

theorem mem_cellsInsert {l : List (Nat × BitVec w)} {a : Nat} {v : BitVec w} {p : Nat × BitVec w}
    (h : p ∈ cellsInsert l a v) : p = (a, v) ∨ p ∈ l := by
  induction l with
  | nil => simpa [cellsInsert] using h
  | cons q l ih =>
    obtain ⟨b, u⟩ := q
    simp only [cellsInsert] at h
    split_ifs at h with h1 h2
    · simpa using h
    · rcases List.mem_cons.1 h with h | h
      · exact .inl h
      · exact .inr (List.mem_cons_of_mem _ h)
    · rcases List.mem_cons.1 h with h | h
      · exact .inr (h ▸ List.mem_cons_self)
      · exact (ih h).imp_right (List.mem_cons_of_mem _)

theorem mem_cellsErase {l : List (Nat × BitVec w)} {a : Nat} {p : Nat × BitVec w} (h : p ∈ cellsErase l a) : p ∈ l := by
  induction l with
  | nil => exact h
  | cons q l ih =>
    obtain ⟨b, u⟩ := q
    simp only [cellsErase] at h
    split_ifs at h with h1
    · exact List.mem_cons_of_mem _ (ih h)
    · rcases List.mem_cons.1 h with h | h
      · exact h ▸ List.mem_cons_self
      · exact List.mem_cons_of_mem _ (ih h)

/-! ## Memories -/

/-- A read after a write to the same cell gives the value written. -/
@[simp] theorem Memory.read_write_same (m : Memory w) (a : Nat) (v : BitVec w) : (m.write a v).read a = some v := by
  unfold Memory.write Memory.read
  split_ifs with h
  · simp [cellsFind_erase_same, h]
  · simp [cellsFind_insert_same]

/-- A write leaves every other cell alone. -/
theorem Memory.read_write_other (m : Memory w) (a x : Nat) (v : BitVec w) (h : x ≠ a) :
    (m.write a v).read x = m.read x := by
  unfold Memory.write Memory.read
  split_ifs with hf
  · simp [cellsFind_erase_other _ _ _ h]
  · simp [cellsFind_insert_other _ _ _ _ h]

/-- What unlisted cells hold is not changed by a write. -/
@[simp] theorem Memory.write_fill (m : Memory w) (a : Nat) (v : BitVec w) : (m.write a v).fill = m.fill := by
  unfold Memory.write
  split_ifs <;> rfl

/-- A memory whose unlisted cells hold a value has no UNDEF cell. -/
theorem Memory.read_defined (m : Memory w) (a : Nat) (h : m.fill.isSome = true) : (m.read a).isSome = true := by
  unfold Memory.read
  split <;> simp_all

theorem Memory.wf_iff (size : Nat) (m : Memory w) :
    m.wf size = true ↔ cellsRising 0 m.cells = true ∧ ∀ p ∈ m.cells, some p.2 ≠ m.fill ∧ p.1 < size := by
  simp [Memory.wf, List.all_eq_true]

/-- A write inside the space keeps the canonical form. -/
theorem Memory.write_wf (size : Nat) (m : Memory w) (a : Nat) (v : BitVec w) (h : m.wf size = true) (ha : a < size) :
    (m.write a v).wf size = true := by
  rw [Memory.wf_iff] at h ⊢
  unfold Memory.write
  split_ifs with hf
  · exact ⟨cellsRising_erase _ _ _ h.1, fun p hp => h.2 p (mem_cellsErase hp)⟩
  · refine ⟨cellsRising_insert _ _ _ _ (Nat.zero_le a) h.1, fun p hp => ?_⟩
    rcases mem_cellsInsert hp with rfl | hp
    · exact ⟨fun e => hf e.symm, ha⟩
    · exact h.2 p hp

@[simp] theorem Memory.filled_wf (size : Nat) (v : BitVec w) : (Memory.filled v).wf size = true := rfl
@[simp] theorem Memory.undef_wf (size : Nat) : (Memory.undef w).wf size = true := rfl
@[simp] theorem Memory.filled_read (v : BitVec w) (a : Nat) : (Memory.filled v).read a = some v := rfl
@[simp] theorem Memory.undef_read (a : Nat) : (Memory.undef w).read a = none := rfl
@[simp] theorem Memory.filled_fill (v : BitVec w) : (Memory.filled v).fill = some v := rfl
@[simp] theorem Memory.undef_fill : (Memory.undef w).fill = none := rfl

/-! ## Places -/

theorem ringAddr_lt (ch : BitVec 3) (p : RingPos) : ringAddr ch p < ringCells := by
  have h1 := ch.isLt
  have h2 := p.isLt
  simp only [ringAddr, ringCells, Config.ringChannels, Config.bufLen]
  omega

theorem ioAddr_lt (buf : BitVec 2) (i : BitVec 15) : ioAddr buf i < ioWords := by
  have h1 := buf.isLt
  have h2 := i.isLt
  simp only [ioAddr, ioWords, Config.ioBuffers, Config.bufLen]
  omega

theorem ringAddr_inj {ch ch' : BitVec 3} {p p' : RingPos} (h : ringAddr ch p = ringAddr ch' p') : ch = ch' ∧ p = p' := by
  have h1 := p.isLt
  have h2 := p'.isLt
  simp only [ringAddr, Config.bufLen] at h
  exact ⟨BitVec.eq_of_toNat_eq (by omega), BitVec.eq_of_toNat_eq (by omega)⟩

theorem ioAddr_inj {b b' : BitVec 2} {i i' : BitVec 15} (h : ioAddr b i = ioAddr b' i') : b = b' ∧ i = i' := by
  have h1 := i.isLt
  have h2 := i'.isLt
  simp only [ioAddr, Config.bufLen] at h
  exact ⟨BitVec.eq_of_toNat_eq (by omega), BitVec.eq_of_toNat_eq (by omega)⟩

@[simp] theorem ringCell_setRingCell_same (s : State) (ch : BitVec 3) (p : RingPos) (v : F64) :
    (s.setRingCell ch p v).ringCell ch p = some v := Memory.read_write_same _ _ _

theorem ringCell_setRingCell_other (s : State) (ch ch' : BitVec 3) (p p' : RingPos) (v : F64)
    (h : ch' ≠ ch ∨ p' ≠ p) : (s.setRingCell ch p v).ringCell ch' p' = s.ringCell ch' p' :=
  Memory.read_write_other _ _ _ _ fun e => by
    have := ringAddr_inj e
    tauto

@[simp] theorem ioWord_setIoWord_same (s : State) (b : BitVec 2) (i : BitVec 15) (v : Word) :
    (s.setIoWord b i v).ioWord b i = some v := Memory.read_write_same _ _ _

theorem ioWord_setIoWord_other (s : State) (b b' : BitVec 2) (i i' : BitVec 15) (v : Word)
    (h : b' ≠ b ∨ i' ≠ i) : (s.setIoWord b i v).ioWord b' i' = s.ioWord b' i' :=
  Memory.read_write_other _ _ _ _ fun e => by
    have := ioAddr_inj e
    tauto

end Sys2Proof.Machine
end

