-- ==== Sys2Proof/Laws/Commands.lean ====
section
/-! SUPPORT. What each shared operation and each command can do, said once: inversion lemmas for the fetch, the commands and
the passes of PROCESS. Later proofs cite these and unfold no meaning. -/

namespace Sys2Proof.Machine

open Sys2Proof Host

/-! ## Fetch and decode -/

theorem fetchCommand_cases (ws : List Word) :
    (ws = [] ∧ fetchCommand ws = .ended) ∨
    fetchCommand ws = .truncated ∨
    ∃ w w1 w2 rest, fetchCommand ws = .command w w1 w2 rest ∧ rest = ws.drop (commandLength w) ∧
      commandLength w ≤ ws.length ∧ ws.head? = some w := by
  match ws with
  | [] => exact .inl ⟨rfl, rfl⟩
  | w :: rest =>
    refine .inr ?_
    unfold fetchCommand
    by_cases h : isFormatL w
    · simp only [h, if_true]
      match rest with
      | [] => exact .inl rfl
      | [_] => exact .inl rfl
      | a :: b :: r => exact .inr ⟨w, a, b, r, rfl, by simp [commandLength, h], by simp [commandLength, h], rfl⟩
    · simp only [h]
      exact .inr ⟨w, 0#32, 0#32, rest, rfl, by simp [commandLength, h], by simp [commandLength, h], rfl⟩

theorem checkReserved_ok {z : Bool} {i j : Instr} (h : checkReserved z i = .ok j) : z = true ∧ i = j := by
  unfold checkReserved at h
  split_ifs at h with hz
  exact ⟨hz, Except.ok.inj h⟩

/-- What a decoded command is: one of the thirteen forms, with the opcode of its word. -/
theorem decode_ok {w w1 w2 : Word} {i : Instr} (h : decode w w1 w2 = .ok i) :
    opField w = i.opcode ∧ i.wellFormed = true := by
  simp only [decode] at h
  have fin : ∀ {z : Bool} {j : Instr}, checkReserved z j = .ok i → opField w = j.opcode → j.wellFormed = true →
      opField w = i.opcode ∧ i.wellFormed = true := by
    intro z j hc ho hw
    obtain ⟨-, rfl⟩ := checkReserved_ok hc
    exact ⟨ho, hw⟩
  have h1 := BitVec.le_toInt w1
  have h2 := BitVec.toInt_lt (x := w1)
  norm_num at h1 h2
  by_cases h0 : opField w = 0x00#8
  · rw [if_pos h0] at h; exact fin h h0 rfl
  rw [if_neg h0] at h
  by_cases h0 : opField w = 0x01#8
  · rw [if_pos h0] at h; exact fin h h0 rfl
  rw [if_neg h0] at h
  by_cases h0 : opField w = 0x02#8
  · rw [if_pos h0] at h; exact fin h h0 rfl
  rw [if_neg h0] at h
  by_cases h0 : opField w = 0x10#8
  · rw [if_pos h0] at h; exact fin h h0 rfl
  rw [if_neg h0] at h
  by_cases h0 : opField w = 0x20#8
  · rw [if_pos h0] at h; exact fin h h0 rfl
  rw [if_neg h0] at h
  by_cases h0 : opField w = 0x21#8
  · rw [if_pos h0] at h; exact fin h h0 rfl
  rw [if_neg h0] at h
  by_cases h0 : opField w = 0x22#8
  · rw [if_pos h0] at h; exact fin h h0 rfl
  rw [if_neg h0] at h
  by_cases h0 : opField w = 0x81#8
  · rw [if_pos h0] at h; exact fin h h0 rfl
  rw [if_neg h0] at h
  by_cases h0 : opField w = 0x82#8
  · rw [if_pos h0] at h; exact fin h h0 rfl
  rw [if_neg h0] at h
  by_cases h0 : opField w = 0x90#8
  · rw [if_pos h0] at h; exact fin h h0 rfl
  rw [if_neg h0] at h
  by_cases h0 : opField w = 0xA0#8
  · rw [if_pos h0] at h; exact fin h h0 rfl
  rw [if_neg h0] at h
  by_cases h0 : opField w = 0xA2#8
  · rw [if_pos h0] at h; exact fin h h0 rfl
  rw [if_neg h0] at h
  by_cases h0 : opField w = 0xC0#8
  · rw [if_pos h0] at h
    refine fin h h0 ?_
    simp only [Instr.wellFormed, inInt32, Bool.and_eq_true, decide_eq_true_eq]
    omega
  rw [if_neg h0] at h
  cases h

/-- A decoded command carries the opcode of its word. -/
theorem decode_opcode {w w1 w2 : Word} {i : Instr} (h : decode w w1 w2 = .ok i) : opField w = i.opcode :=
  (decode_ok h).1

/-- A decoded command is well formed. -/
theorem decode_wellFormed {w w1 w2 : Word} {i : Instr} (h : decode w w1 w2 = .ok i) : i.wellFormed = true :=
  (decode_ok h).2

theorem pendingFault_eq_none {s : State} : s.pendingFault = none ↔ s.undefRead = false := by
  unfold State.pendingFault
  cases s.undefRead <;> simp

/-- A run that has read an UNDEF register or parameter stops. -/
theorem step_of_undefRead {s : State} (h : s.undefRead = true) : step s = .fault .undefRead := by
  simp [step, State.pendingFault, h]

/-- A step that completes starts from a run that has not faulted. -/
theorem step_next_undefRead {s t : State} (h : step s = .next t) : s.undefRead = false := by
  cases hu : s.undefRead
  · rfl
  · rw [step_of_undefRead hu] at h
    cases h

/-- What one step can do. -/
theorem step_next_cases {s t : State} (h : step s = .next t) :
    (s.stream = [] ∧ t = s) ∨
    ∃ w w1 w2 rest, fetchCommand s.stream = .command w w1 w2 rest ∧
      ((∃ i, decode w w1 w2 = .ok i ∧ exec i (s.consume (commandLength w) rest) = .next t) ∨
       (∃ e, decode w w1 w2 = .error e ∧ t = illegalCommand w (s.consume (commandLength w) rest))) := by
  have hp := pendingFault_eq_none.mpr (step_next_undefRead h)
  unfold step at h
  rw [hp] at h
  simp only at h
  rcases fetchCommand_cases s.stream with ⟨hs, hf⟩ | hf | ⟨w, w1, w2, rest, hf, -⟩
  · rw [hf] at h
    exact .inl ⟨hs, (Outcome.next.inj h).symm⟩
  · rw [hf] at h
    cases h
  · rw [hf] at h
    simp only at h
    refine .inr ⟨w, w1, w2, rest, hf, ?_⟩
    cases hd : decode w w1 w2 with
    | ok i =>
      rw [hd] at h
      exact .inl ⟨i, rfl, h⟩
    | error e =>
      rw [hd] at h
      exact .inr ⟨e, rfl, (Outcome.next.inj h).symm⟩

/-! ## The parameter commands -/

/-- DERIVE touches the derived values only. -/
theorem derive_only (c : Config) (idx : Nat) (v : F32) (s : State) :
    ∃ up dn g2 ks, derive c idx v s = { s with ratioUp := up, ratioDn := dn, gain2 := g2, comps := ks } := by
  unfold derive
  split_ifs
  · exact ⟨_, _, _, _, rfl⟩
  · exact ⟨_, _, _, _, rfl⟩
  · exact ⟨_, _, _, _, rfl⟩
  · exact ⟨s.ratioUp, s.ratioDn, s.gain2, s.comps, rfl⟩

/-- SETP touches the parameter file, its marks and the derived values only. -/
theorem setParam_only (c : Config) (idx : BitVec 8) (v : F32) (s : State) :
    ∃ ps ms up dn g2 ks,
      setParam c idx v s =
        { s with params := ps, paramSet := ms, ratioUp := up, ratioDn := dn, gain2 := g2, comps := ks } := by
  unfold setParam
  split_ifs with h
  · obtain ⟨up, dn, g2, ks, e⟩ := derive_only c idx.toNat (clamp01 v) (storeParam idx.toNat h (clamp01 v) s)
    exact ⟨s.params.set idx.toNat (clamp01 v), s.paramSet.set idx.toNat true, up, dn, g2, ks, e⟩
  · exact ⟨s.params, s.paramSet, s.ratioUp, s.ratioDn, s.gain2, s.comps, rfl⟩

/-- What GETP does: RESP takes a value, and the mark is set exactly when the parameter is UNDEF. It always completes. -/
theorem execGetp_cases (idx : BitVec 8) (s : State) :
    (∃ v, execGetp idx s = .next (s.setResp v)) ∨
    ∃ (h : idx.toNat < 20) (v : F32), s.paramSet[idx.toNat] = false ∧
      execGetp idx s = .next (s.respondUndef (v.zeroExtend 64)) := by
  unfold execGetp
  split_ifs with h hs
  · exact .inl ⟨_, rfl⟩
  · exact .inr ⟨h, _, by simpa using hs, rfl⟩
  · exact .inl ⟨_, rfl⟩

theorem execGetp_next {idx : BitVec 8} {s t : State} (h : execGetp idx s = .next t) :
    ∃ v, t = s.setResp v ∨ t = s.respondUndef v := by
  rcases execGetp_cases idx s with ⟨v, e⟩ | ⟨-, v, -, e⟩
  · exact ⟨v, .inl (Outcome.next.inj (h.symm.trans e))⟩
  · exact ⟨_, .inr (Outcome.next.inj (h.symm.trans e))⟩

/-! ## The access commands -/

/-- What RDREG does: it completes with the register's value, with an unspecified one and the mark where the register is
UNDEF, or with ERR_REG at a reserved address. -/
theorem execRdreg_cases (a : RegAddr) (s : State) :
    (∃ r, regAt a = some r ∧ s.regDefined r = true ∧ execRdreg a s = .next (s.setResp (s.regValue r))) ∨
    (∃ r v, regAt a = some r ∧ s.regDefined r = false ∧ execRdreg a s = .next (s.respondUndef (r.fit v))) ∨
    (regAt a = none ∧ execRdreg a s = .next (raiseError .reg 0x20#8 s)) := by
  unfold execRdreg State.readReg
  cases hr : regAt a with
  | none => exact .inr (.inr ⟨rfl, rfl⟩)
  | some r =>
    by_cases hd : s.regDefined r = true
    · exact .inl ⟨r, rfl, hd, by simp [hd]⟩
    · exact .inr (.inl ⟨r, _, rfl, by simpa using hd, by simp [hd]; rfl⟩)

theorem execRdreg_next {a : RegAddr} {s t : State} (h : execRdreg a s = .next t) :
    (∃ r, regAt a = some r ∧ s.regDefined r = true ∧ t = s.setResp (s.regValue r)) ∨
    (∃ r v, regAt a = some r ∧ s.regDefined r = false ∧ t = s.respondUndef (r.fit v)) ∨
    (regAt a = none ∧ t = raiseError .reg 0x20#8 s) := by
  rcases execRdreg_cases a s with ⟨r, hr, hd, e⟩ | ⟨r, v, hr, hd, e⟩ | ⟨hr, e⟩
  · exact .inl ⟨r, hr, hd, Outcome.next.inj (h.symm.trans e)⟩
  · exact .inr (.inl ⟨r, v, hr, hd, Outcome.next.inj (h.symm.trans e)⟩)
  · exact .inr (.inr ⟨hr, Outcome.next.inj (h.symm.trans e)⟩)

theorem execRdring_next {ch : BitVec 3} {p : RingPos} {s t : State} (h : execRdring ch p s = .next t) :
    ∃ v, s.ringCell ch p = some v ∧ t = s.setResp v := by
  unfold execRdring at h
  cases hr : s.ringCell ch p with
  | none => simp [hr] at h
  | some v =>
    rw [hr] at h
    exact ⟨v, rfl, (Outcome.next.inj h).symm⟩

theorem execRdio_next {b : BitVec 2} {i : BitVec 15} {s t : State} (h : execRdio b i s = .next t) :
    ∃ v, s.ioWord b i = some v ∧ t = s.setResp (v.zeroExtend 64) := by
  unfold execRdio at h
  cases hr : s.ioWord b i with
  | none => simp [hr] at h
  | some v =>
    rw [hr] at h
    exact ⟨v, rfl, (Outcome.next.inj h).symm⟩

/-- What WRITE_EFFECT can do. -/
theorem writeEffect_cases (c : Config) (r : Reg) (v : BitVec 64) (s : State) :
    writeEffect c r v s = s ∨
    writeEffect c r v s = raiseError .rate 0xA0#8 s ∨
    (r = .xoLo ∧ crossoverOk c v s.fs = true ∧ writeEffect c r v s = deriveLow c { s with xoLo := v }) ∨
    (r = .xoHi ∧ crossoverOk c v s.fs = true ∧ writeEffect c r v s = deriveHigh c { s with xoHi := v }) ∨
    ∃ b k, writeEffect c r v s = s.setComp b k := by
  cases r <;> try exact .inl rfl
  · unfold writeEffect
    by_cases h : crossoverOk c v s.fs = true
    · exact .inr (.inr (.inl ⟨rfl, h, by simp [h]⟩))
    · exact .inr (.inl (by simp [h]))
  · unfold writeEffect
    by_cases h : crossoverOk c v s.fs = true
    · exact .inr (.inr (.inr (.inl ⟨rfl, h, by simp [h]⟩)))
    · exact .inr (.inl (by simp [h]))
  · rename_i b f
    exact .inr (.inr (.inr (.inr (by cases f <;> exact ⟨b, _, rfl⟩))))

/-- What WRREG can do. -/
theorem execWrreg_next {a : RegAddr} {v : BitVec 64} {s t : State} (h : execWrreg a v s = .next t) :
    (s.lifecycle = .uninit ∧ t = raiseError .uninit 0xA0#8 s) ∨
    (s.lifecycle = .ready ∧ t = raiseError .reg 0xA0#8 s) ∨
    (s.lifecycle = .ready ∧ ∃ r, regAt a = some r ∧ r.writable = true ∧
      t = writeEffect Config.current r v s) := by
  unfold execWrreg at h
  split_ifs at h with hl
  · exact .inl ⟨hl, (Outcome.next.inj h).symm⟩
  · have hl' : s.lifecycle = .ready := by cases hc : s.lifecycle <;> simp_all
    refine .inr ?_
    cases hr : regAt a with
    | none =>
      rw [hr] at h
      exact .inl ⟨hl', (Outcome.next.inj h).symm⟩
    | some r =>
      rw [hr] at h
      simp only at h
      split_ifs at h with hw
      · exact .inr ⟨hl', r, rfl, hw, (Outcome.next.inj h).symm⟩
      · exact .inl ⟨hl', (Outcome.next.inj h).symm⟩

/-! ## The lifecycle commands -/

theorem execInit_next {fs : F64} {s t : State} (h : execInit fs s = .next t) :
    (rateOk Config.current fs Config.xoLoDefault Config.xoHiDefault = true ∧
      t = initState Config.current fs s) ∨
    t = raiseError .rate 0x81#8 s := by
  unfold execInit at h
  split_ifs at h with hr
  · exact .inl ⟨hr, (Outcome.next.inj h).symm⟩
  · exact .inr (Outcome.next.inj h).symm

theorem execSetrate_next {fs : F64} {s t : State} (h : execSetrate fs s = .next t) :
    (s.lifecycle = .ready ∧ rateOk Config.current fs s.xoLo s.xoHi = true ∧
      t = applyRate Config.current fs s) ∨
    (s.lifecycle = .uninit ∧ t = raiseError .uninit 0x82#8 s) ∨
    t = raiseError .rate 0x82#8 s := by
  unfold execSetrate at h
  split_ifs at h with hl hr
  · exact .inr (.inl ⟨hl, (Outcome.next.inj h).symm⟩)
  · have hl' : s.lifecycle = .ready := by cases hc : s.lifecycle <;> simp_all
    exact .inl ⟨hl', hr, (Outcome.next.inj h).symm⟩
  · exact .inr (.inr (Outcome.next.inj h).symm)

theorem execReset_next {s t : State} (h : execReset s = .next t) :
    (s.lifecycle = .ready ∧ t = neutralState s) ∨ (s.lifecycle = .uninit ∧ t = raiseError .uninit 0x01#8 s) := by
  unfold execReset at h
  split_ifs at h with hl
  · exact .inr ⟨hl, (Outcome.next.inj h).symm⟩
  · exact .inl ⟨by cases hc : s.lifecycle <;> simp_all, (Outcome.next.inj h).symm⟩

/-! ## The passes of PROCESS -/

/-- The peak pass touches PK only. -/
theorem peakPass_only (c : Config) (ws : List (Word × Word)) (s : State) :
    ∃ pk, peakPass c ws s = { s with pk := pk } := by
  induction ws generalizing s with
  | nil => exact ⟨s.pk, rfl⟩
  | cons w ws ih =>
    obtain ⟨pk, e⟩ := ih (peakSample c w s)
    exact ⟨pk, e⟩

/-- RING_WRITE touches the ring only. -/
theorem ringWrite_only (bands : Vector F64 6) (l r : F64) (s : State) :
    ringWrite bands l r s = { s with ring := (ringWrite bands l r s).ring } := by
  simp only [ringWrite, State.setRingCell]

/-- A sample of the split pass touches SV, the filters, WCUR and the ring only, and advances WCUR by one. -/
theorem splitSample_only (c : Config) (adv : Bool) (w : Word × Word) (s : State) :
    ∃ sv fl rg, splitSample c adv w s = { s with sv := sv, filters := fl, wcur := s.wcur + 1#15, ring := rg } := by
  simp only [splitSample, smoothAll, advanceWcur]
  rw [ringWrite_only]
  exact ⟨_, _, _, rfl⟩

/-- The split pass touches SV, the filters, WCUR and the ring only, and advances WCUR by the number of samples. -/
theorem splitPass_only (c : Config) (adv : Bool) (ws : List (Word × Word)) (s : State) :
    ∃ sv fl rg, splitPass c adv ws s =
      { s with sv := sv, filters := fl, wcur := s.wcur + BitVec.ofNat 15 ws.length, ring := rg } := by
  induction ws generalizing s with
  | nil => exact ⟨s.sv, s.filters, s.ring, by simp [splitPass]⟩
  | cons w ws ih =>
    obtain ⟨sv, fl, rg, e⟩ := ih (splitSample c adv w s)
    obtain ⟨sv1, fl1, rg1, e1⟩ := splitSample_only c adv w s
    refine ⟨sv, fl, rg, ?_⟩
    simp only [splitPass]
    rw [e, e1]
    have : s.wcur + 1#15 + BitVec.ofNat 15 ws.length = s.wcur + BitVec.ofNat 15 (w :: ws).length := by
      rw [BitVec.add_assoc]
      congr 1
      apply BitVec.eq_of_toNat_eq
      simp [Nat.add_comm]
    simp [this]

/-- COMP_STEP touches the compressors and the meters only. -/
theorem compStep_only (c : Config) (b : Fin 3) (p g gain : F64) (s : State) :
    ∃ ks mg mr, (compStep c b p g gain s).1 = { s with comps := ks, mgr := mg, mrms := mr } := by
  simp only [compStep]
  exact ⟨_, _, _, rfl⟩

/-- A sample of the remix pass touches the compressors, the meters and the I/O memory only. -/
theorem remixSample_only (c : Config) (g go : F64) (outR : BitVec 2) (i : Nat) (v : Vector F64 6) (s : State) :
    ∃ ks mg mr io, remixSample c g go outR i v s = { s with comps := ks, mgr := mg, mrms := mr, io := io } := by
  simp only [remixSample]
  obtain ⟨k0, g0, m0, e0⟩ := compStep_only c 0 (power c v[0] v[1]) g s.gain2[0] s
  generalize compStep c 0 (power c v[0] v[1]) g s.gain2[0] s = r0 at *
  obtain ⟨k1, g1, m1, e1⟩ := compStep_only c 1 (power c v[2] v[3]) g s.gain2[1] r0.1
  generalize compStep c 1 (power c v[2] v[3]) g s.gain2[1] r0.1 = r1 at *
  obtain ⟨k2, g2, m2, e2⟩ := compStep_only c 2 (power c v[4] v[5]) g s.gain2[2] r1.1
  generalize compStep c 2 (power c v[4] v[5]) g s.gain2[2] r1.1 = r2 at *
  rw [e2, e1, e0]
  simp only [outWrite, State.setIoWord]
  exact ⟨_, _, _, _, rfl⟩

/-- The remix pass touches the compressors, the meters, the I/O memory and RCUR only; RCUR ends at the last cursor. -/
theorem remixLoop_only {c : Config} {g go : F64} {outR : BitVec 2} {n i : Nat} {rc : RingPos} {s t : State}
    (h : remixLoop c g go outR n i rc s = some t) :
    ∃ ks mg mr io, t = { s with comps := ks, mgr := mg, mrms := mr, io := io, rcur := rc + BitVec.ofNat 15 n } := by
  induction n generalizing i rc s with
  | zero =>
    simp only [remixLoop, Option.some.injEq] at h
    exact ⟨s.comps, s.mgr, s.mrms, s.io, by rw [← h]; simp⟩
  | succ n ih =>
    simp only [remixLoop] at h
    cases hb : readBands s rc with
    | none => simp [hb] at h
    | some v =>
      rw [hb] at h
      obtain ⟨ks, mg, mr, io, e⟩ := ih h
      obtain ⟨ks1, mg1, mr1, io1, e1⟩ := remixSample_only c g go outR i v s
      refine ⟨ks, mg, mr, io, ?_⟩
      rw [e, e1]
      have : rc + 1#15 + BitVec.ofNat 15 n = rc + BitVec.ofNat 15 (n + 1) := by
        rw [BitVec.add_assoc]
        congr 1
        apply BitVec.eq_of_toNat_eq
        simp [Nat.add_comm]
      rw [this]

/-- The three passes together: what a PROCESS that is not bypassed can change (44_process.md R180). -/
theorem pipeline_only {c : Config} {adv : Bool} {outR : BitVec 2} {ws : List (Word × Word)} {s t : State}
    (h : pipeline c adv outR ws s = some t) :
    ∃ pk sv fl rg ks mg mr io,
      t = { s with
        pk := pk, sv := sv, filters := fl, ring := rg, comps := ks, mgr := mg, mrms := mr, io := io
        wcur := s.wcur + BitVec.ofNat 15 ws.length, rcur := s.wcur + BitVec.ofNat 15 ws.length } := by
  unfold pipeline remixPass at h
  obtain ⟨pk, e1⟩ := peakPass_only c ws s
  obtain ⟨sv, fl, rg, e2⟩ := splitPass_only c adv ws (peakPass c ws s)
  obtain ⟨ks, mg, mr, io, e3⟩ := remixLoop_only h
  refine ⟨pk, sv, fl, rg, ks, mg, mr, io, ?_⟩
  rw [e3, e2, e1]
  simp

/-- A block of words written to a buffer touches the I/O memory only. -/
theorem writeBlock_only (buf : BitVec 2) (vs : List Word) (i : Nat) (s : State) :
    ∃ io, writeBlock buf vs i s = { s with io := io } := by
  induction vs generalizing i s with
  | nil => exact ⟨s.io, rfl⟩
  | cons v vs ih =>
    obtain ⟨io, e⟩ := ih (i + 1) (s.setIoWord buf (BitVec.ofNat 15 i) v)
    exact ⟨io, e⟩

theorem readBlock_length {s : State} {buf : BitVec 2} {n i : Nat} {vs : List Word}
    (h : readBlock s buf n i = some vs) : vs.length = n := by
  induction n generalizing i vs with
  | zero =>
    simp only [readBlock, Option.some.injEq] at h
    simp [← h]
  | succ n ih =>
    simp only [readBlock] at h
    split at h
    · rename_i v rest _ hr
      rw [← Option.some.inj h]
      simp [ih hr]
    · cases h

/-- What PROCESS can do. -/
theorem execProcess_next {in0 in1 out0 out1 : Bool} {n : Int} {s t : State}
    (h : execProcess in0 in1 out0 out1 n s = .next t) :
    t = s ∨ t = raiseError .uninit 0xC0#8 s ∨ t = raiseError .block 0xC0#8 s ∨
    (s.lifecycle = .ready ∧ 0 < n ∧ n ≤ 32768 ∧ bypassBlock in1 out1 n.toNat s = .next t) ∨
    (s.lifecycle = .ready ∧ 0 < n ∧ n ≤ 32768 ∧ ∃ ls rs,
      readBlock s 0#2 n.toNat 0 = some ls ∧ readBlock s (rightIn in1) n.toNat 0 = some rs ∧
      pipeline Config.current (boolParam Config.current s.params[4]) (rightOut out1) (ls.zip rs) s =
        some t) := by
  unfold execProcess at h
  split_ifs at h with h1 h2 h3 h4
  · exact .inl (Outcome.next.inj h).symm
  · exact .inr (.inl (Outcome.next.inj h).symm)
  · exact .inr (.inr (.inl (Outcome.next.inj h).symm))
  all_goals
    have hl : s.lifecycle = .ready := by cases hc : s.lifecycle <;> simp_all
    have hn : 0 < n := by simp at h1; omega
    have hm : n ≤ 32768 := by unfold Config.maxBlock at h3; omega
  · exact .inr (.inr (.inr (.inl ⟨hl, hn, hm, h⟩)))
  · refine .inr (.inr (.inr (.inr ⟨hl, hn, hm, ?_⟩)))
    unfold processBlock at h
    split at h
    · rename_i ls rs e1 e2
      split at h
      · rename_i u e3
        exact ⟨ls, rs, e1, e2, by rw [e3, Outcome.next.inj h]⟩
      · cases h
    · cases h

/-- What a bypassed PROCESS can do. -/
theorem bypassBlock_next {in1 out1 : Bool} {n : Nat} {s t : State} (h : bypassBlock in1 out1 n s = .next t) :
    ∃ ls, readBlock s 0#2 n 0 = some ls ∧
      ((out1 = false ∧ t = writeBlock 2#2 ls 0 s) ∨
       (out1 = true ∧ ∃ rs, readBlock s (rightIn in1) n 0 = some rs ∧
         t = writeBlock 3#2 rs 0 (writeBlock 2#2 ls 0 s))) := by
  unfold bypassBlock at h
  split at h
  · cases h
  · rename_i ls e1
    refine ⟨ls, e1, ?_⟩
    split_ifs at h with ho
    · split at h
      · cases h
      · rename_i rs e2
        exact .inr ⟨ho, rs, e2, (Outcome.next.inj h).symm⟩
    · exact .inl ⟨by simpa using ho, (Outcome.next.inj h).symm⟩

end Sys2Proof.Machine
end

