-- ==== Sys2Proof/Laws/PerInstr.lean ====
section
/-! SUPPORT. Statements about every command as syntax, one lemma per constructor. -/

namespace Sys2Proof.Laws

open Sys2Proof

/-- The encoding of a command has as many words as its opcode's bit 7 asks for, and its first word holds the opcode
(30_encoding.md R81, R82). -/
def EncodeLength.Statement (i : Instr) : Prop :=
  (encode i).length = (if i.opcode.getLsbD 7 then 3 else 1) ∧ (encode i).head?.map opField = some i.opcode

/-- The opcode is the low byte of the command word (30_encoding.md R81). -/
theorem opField_commandWord (op x : BitVec 8) (y : BitVec 16) : opField (commandWord op x y) = op := by
  apply BitVec.eq_of_getLsbD_eq
  intro k hk
  simp only [opField, commandWord, BitVec.getLsbD_extractLsb', BitVec.getLsbD_append]
  simp [show k < 16 by omega, hk]

theorem EncodeLength.nop : EncodeLength.Statement .nop := by constructor <;> simp [encode, opField_commandWord, Instr.opcode]

theorem EncodeLength.reset : EncodeLength.Statement .reset := by constructor <;> simp [encode, opField_commandWord, Instr.opcode]

theorem EncodeLength.cleanup : EncodeLength.Statement .cleanup := by
  constructor <;> simp [encode, opField_commandWord, Instr.opcode]

theorem EncodeLength.getp (idx : BitVec 8) : EncodeLength.Statement (.getp idx) := by
  constructor <;> simp [encode, opField_commandWord, Instr.opcode]

theorem EncodeLength.rdreg (addr : RegAddr) : EncodeLength.Statement (.rdreg addr) := by
  constructor <;> simp [encode, opField_commandWord, Instr.opcode]

theorem EncodeLength.rdring (ch : BitVec 3) (pos : RingPos) : EncodeLength.Statement (.rdring ch pos) := by
  constructor <;> simp [encode, opField_commandWord, Instr.opcode]

theorem EncodeLength.rdio (buf : BitVec 2) (idx : BitVec 15) : EncodeLength.Statement (.rdio buf idx) := by
  constructor <;> simp [encode, opField_commandWord, Instr.opcode]

theorem EncodeLength.init (fs : F64) : EncodeLength.Statement (.init fs) := by
  constructor <;> simp [encode, formatL, opField_commandWord, Instr.opcode]

theorem EncodeLength.setrate (fs : F64) : EncodeLength.Statement (.setrate fs) := by
  constructor <;> simp [encode, formatL, opField_commandWord, Instr.opcode]

theorem EncodeLength.setp (idx : BitVec 8) (v : F32) : EncodeLength.Statement (.setp idx v) := by
  constructor <;> simp [encode, formatL, opField_commandWord, Instr.opcode]

theorem EncodeLength.wrreg (addr : RegAddr) (val : BitVec 64) : EncodeLength.Statement (.wrreg addr val) := by
  constructor <;> simp [encode, formatL, opField_commandWord, Instr.opcode]

theorem EncodeLength.wrio (buf : BitVec 2) (idx : BitVec 15) (word : Word) : EncodeLength.Statement (.wrio buf idx word) := by
  constructor <;> simp [encode, formatL, opField_commandWord, Instr.opcode]

theorem EncodeLength.process (in0 in1 out0 out1 : Bool) (n : Int) :
    EncodeLength.Statement (.process in0 in1 out0 out1 n) := by
  constructor <;> simp [encode, formatL, opField_commandWord, Instr.opcode]

end Sys2Proof.Laws
end

