-- ==== Sys2Proof/Laws/Process.lean ====
section
/-! SUPPORT. What the passes of PROCESS do (44_process.md): blocks of words, ring positions, the split and the remix with and
without the ring, and what they leave alone. -/

namespace Sys2Proof.Machine

open Sys2Proof Host

/-- Indices below 32768 are told apart by their 15-bit word (20_memory.md R68). -/
theorem ofNat15_inj {i j : Nat} (hi : i < 32768) (hj : j < 32768) (h : BitVec.ofNat 15 i = BitVec.ofNat 15 j) : i = j := by
  have := congrArg BitVec.toNat h
  simp at this; omega

/-- A block of at most 32768 samples meets no ring position twice (20_memory.md R74). -/
theorem add_ofNat15_inj {w : RingPos} {i j : Nat} (hi : i < 32768) (hj : j < 32768) (h : w + BitVec.ofNat 15 i = w + BitVec.ofNat 15 j) : i = j := by
  have := congrArg BitVec.toNat h
  have hw := w.isLt
  simp at this; omega

/-- A block that was read holds the words that stand in the buffer. -/
theorem readBlock_some {s : State} {buf n i vs} (h : readBlock s buf n i = some vs) (j : Nat) (hj : j < n) :
    s.ioWord buf (BitVec.ofNat 15 (i + j)) = vs[j]? ∧ (vs[j]?).isSome := by
  induction n generalizing i vs j with
  | zero => omega
  | succ n ih =>
    simp only [readBlock] at h
    split at h
    · rename_i v rest hv hr
      cases h
      cases j with
      | zero => simpa using hv
      | succ j =>
        have := ih hr j (by omega)
        rw [show i + (j+1) = i + 1 + j by omega]
        simpa using this
    · cases h

/-- A block that cannot be read has an UNDEF word. -/
theorem readBlock_none {s : State} {buf n i} (h : readBlock s buf n i = none) : ∃ j, i ≤ j ∧ j < i + n ∧ s.ioWord buf (BitVec.ofNat 15 j) = none := by
  induction n generalizing i with
  | zero => simp [readBlock] at h
  | succ n ih =>
    simp only [readBlock] at h
    cases hw : s.ioWord buf (BitVec.ofNat 15 i) with
    | none => exact ⟨i, le_refl _, by omega, hw⟩
    | some v =>
      rw [hw] at h
      cases hr : readBlock s buf n (i+1) with
      | none => obtain ⟨j, h1, h2, h3⟩ := ih hr; exact ⟨j, by omega, by omega, h3⟩
      | some r => rw [hr] at h; cases h

/-- A block whose words are all written can be read. -/
theorem readBlock_of_written {s : State} {buf n i} (h : ∀ j < n, (s.ioWord buf (BitVec.ofNat 15 (i+j))).isSome = true) :
    readBlock s buf n i = some ((List.range n).map fun j => ioWordD s buf (i+j)) := by
  induction n generalizing i with
  | zero => rfl
  | succ n ih =>
    have h0 := h 0 (by omega)
    obtain ⟨v, hv⟩ := Option.isSome_iff_exists.1 h0
    have := ih (i := i+1) (fun j hj => by have := h (j+1) (by omega); rwa [show i + (j+1) = i + 1 + j by omega] at this)
    simp only [readBlock]
    rw [show i + 0 = i by omega] at hv
    rw [hv, this]
    simp only [List.range_succ_eq_map, List.map_cons, List.map_map]
    congr 2
    · simp [ioWordD, hv]
    · apply List.map_congr_left; intro j _; simp; congr 1; omega

/-- What stands in the I/O memory after a block was written. -/
theorem writeBlock_io (buf : BitVec 2) (vs : List Word) (i : Nat) (s : State) (hl : i + vs.length ≤ 32768) (b : BitVec 2) (k : BitVec 15) :
    (writeBlock buf vs i s).ioWord b k =
      if b = buf ∧ i ≤ k.toNat ∧ k.toNat < i + vs.length then vs[k.toNat - i]? else s.ioWord b k := by
  induction vs generalizing i s with
  | nil => 
    simp only [writeBlock, List.length_nil]; rw [if_neg]; omega
  | cons v vs ih =>
    simp only [writeBlock]
    simp only [List.length_cons] at hl ⊢
    rw [ih _ _ (by omega)]
    by_cases hb : b = buf
    · subst hb
      simp only [true_and]
      by_cases h1 : i + 1 ≤ k.toNat ∧ k.toNat < i + 1 + vs.length
      · rw [if_pos h1, if_pos (by omega)]
        rw [show k.toNat - i = (k.toNat - (i+1)) + 1 by omega]; simp
      · rw [if_neg h1]
        by_cases h2 : k.toNat = i
        · rw [if_pos (by omega)]
          have : k = BitVec.ofNat 15 i := BitVec.eq_of_toNat_eq (by simp; omega)
          rw [← this, ioWord_setIoWord_same, h2]; simp
        · rw [if_neg (by omega), ioWord_setIoWord_other]
          right; intro e; apply h2; rw [e]; simp; omega
    · rw [if_neg (by tauto), if_neg (by tauto), ioWord_setIoWord_other _ _ _ _ _ _ (.inl hb)]

/-- What stands in the ring after RING_WRITE (44_process.md R176). -/
theorem ringWrite_cell (bands : Vector F64 6) (l r : F64) (s : State) (ch : BitVec 3) (p : RingPos) :
    (ringWrite bands l r s).ringCell ch p =
      if p = s.wcur then
        (if h : ch.toNat < 6 then some bands[ch.toNat] else if ch = 6#3 then some l else some r)
      else s.ringCell ch p := by
  simp only [ringWrite]
  by_cases hp : p = s.wcur
  · subst hp
    rw [if_pos rfl]
    have hc : ch = 0#3 ∨ ch = 1#3 ∨ ch = 2#3 ∨ ch = 3#3 ∨ ch = 4#3 ∨ ch = 5#3 ∨ ch = 6#3 ∨ ch = 7#3 := by
      revert ch; decide
    rcases hc with rfl | rfl | rfl | rfl | rfl | rfl | rfl | rfl
    all_goals
      repeat' first
        | rw [ringCell_setRingCell_same]
        | rw [ringCell_setRingCell_other _ _ _ _ _ _ (.inl (by decide))]
      simp
  · rw [if_neg hp]
    simp only [ringCell_setRingCell_other _ _ _ _ _ _ (.inr hp)]

/-- A ring cell depends on the ring only. -/
theorem ringCell_congr {s t : State} (h : t.ring = s.ring) (ch p) : t.ringCell ch p = s.ringCell ch p := by
  simp only [State.ringCell, h]

/-- A sample of the split writes at the write cursor only. -/
theorem splitSample_cell (c adv w) (s : State) (ch p) (h : p ≠ s.wcur) : (splitSample c adv w s).ringCell ch p = s.ringCell ch p := by
  simp only [splitSample]
  have : ∀ x : State, (advanceWcur x).ringCell ch p = x.ringCell ch p := fun _ => rfl
  rw [this, ringWrite_cell]
  exact if_neg h

/-- The split pass writes at the positions of its block only. -/
theorem splitPass_cell_other (c adv ws) (s : State) (ch p) (h : ∀ i < ws.length, p ≠ s.wcur + BitVec.ofNat 15 i) : (splitPass c adv ws s).ringCell ch p = s.ringCell ch p := by
  induction ws generalizing s with
  | nil => rfl
  | cons w ws ih =>
    simp only [splitPass]
    obtain ⟨_, _, _, e⟩ := splitSample_only c adv w s
    rw [ih, splitSample_cell]
    · have := h 0 (by simp); simpa using this
    · intro i hi
      have := h (i+1) (by simp; omega)
      rw [e]; simp only
      intro hh; apply this; rw [hh, BitVec.add_assoc]; congr 1
      apply BitVec.eq_of_toNat_eq; simp; omega

/-- RING_WRITE keeps what an unlisted ring cell holds. -/
theorem ringWrite_fill (b l r) (s : State) : (ringWrite b l r s).ring.fill = s.ring.fill := by
  simp [ringWrite, State.setRingCell]

/-- The split pass keeps what an unlisted ring cell holds. -/
theorem splitPass_fill (c adv ws) (s : State) : (splitPass c adv ws s).ring.fill = s.ring.fill := by
  induction ws generalizing s with
  | nil => rfl
  | cons w ws ih => 
    simp only [splitPass]; rw [ih]; simp only [splitSample, advanceWcur]; rw [ringWrite_fill]; simp [smoothAll]

/-- In a ring with no UNDEF cell the bands can be read back. -/
theorem readBands_some {s : State} (h : s.ring.fill.isSome = true) (rc) : ∃ v, readBands s rc = some v := by
  have hc : ∀ ch, ∃ v, s.ringCell ch rc = some v := fun ch => Option.isSome_iff_exists.1 (Memory.read_defined _ _ h)
  obtain ⟨a0, h0⟩ := hc 0#3; obtain ⟨a1, h1⟩ := hc 1#3; obtain ⟨a2, h2⟩ := hc 2#3
  obtain ⟨a3, h3⟩ := hc 3#3; obtain ⟨a4, h4⟩ := hc 4#3; obtain ⟨a5, h5⟩ := hc 5#3
  exact ⟨_, by simp only [readBands, h0, h1, h2, h3, h4, h5]; rfl⟩

/-- In a ring with no UNDEF cell the remix pass meets no UNDEF cell. -/
theorem remixLoop_some {c g go outR n i rc} {s : State} (h : s.ring.fill.isSome = true) : ∃ t, remixLoop c g go outR n i rc s = some t := by
  induction n generalizing i rc s with
  | zero => exact ⟨_, rfl⟩
  | succ n ih =>
    obtain ⟨v, hv⟩ := readBands_some h rc
    simp only [remixLoop, hv]
    apply ih
    obtain ⟨_, _, _, _, e⟩ := remixSample_only c g go outR i v s
    rw [e]; exact h

/-- The peak pass leaves the ring alone. -/
theorem peakPass_ring (c ws) (s : State) : (peakPass c ws s).ring = s.ring := by
  obtain ⟨_, e⟩ := peakPass_only c ws s; rw [e]

/-- In a ring with no UNDEF cell the three passes complete (20_memory.md R75). -/
theorem pipeline_some {c adv outR ws} {s : State} (h : s.ring.fill.isSome = true) : ∃ t, pipeline c adv outR ws s = some t := by
  unfold pipeline remixPass
  apply remixLoop_some
  rw [splitPass_fill, peakPass_ring]; exact h

/-- Two states that differ in the ring and its write cursor only. -/
def sameButRing (s t : State) : Prop := t = { s with ring := t.ring, wcur := t.wcur }

/-- The split without a ring does not look at the ring. -/
theorem directSplit_congr (c adv ws) (s t : State) (h : sameButRing s t) :
    sameButRing (directSplit c adv ws s).1 (directSplit c adv ws t).1 ∧ (directSplit c adv ws t).2 = (directSplit c adv ws s).2 := by
  induction ws generalizing s t with
  | nil => exact ⟨h, rfl⟩
  | cons w ws ih =>
    unfold sameButRing at h
    have hs : smoothAll c t = { smoothAll c s with ring := t.ring, wcur := t.wcur } := by rw [h]; rfl
    simp only [directSplit]
    rw [hs]
    simp only
    generalize hr : bank c adv _ _ _ = r
    have := ih { smoothAll c s with filters := r.1 } { smoothAll c s with ring := t.ring, wcur := t.wcur, filters := r.1 } rfl
    exact ⟨this.1, by rw [this.2]⟩

/-- What the split pass leaves: the state of the split without a ring, and its bands in the ring (44_process.md R182). -/
theorem splitPass_direct (c adv ws) (s : State) (hN : ws.length ≤ 32768) :
    sameButRing (directSplit c adv ws s).1 (splitPass c adv ws s) ∧
    (splitPass c adv ws s).wcur = s.wcur + BitVec.ofNat 15 ws.length ∧
    (directSplit c adv ws s).2.length = ws.length ∧
    ∀ i (v : Vector F64 6) w, (directSplit c adv ws s).2[i]? = some v → ws[i]? = some w →
      (∀ ch : Fin 6, (splitPass c adv ws s).ringCell (BitVec.ofNat 3 ch.val) (s.wcur + BitVec.ofNat 15 i) = some v[ch]) ∧
      (splitPass c adv ws s).ringCell 6#3 (s.wcur + BitVec.ofNat 15 i) = some (widen c w.1) ∧
      (splitPass c adv ws s).ringCell 7#3 (s.wcur + BitVec.ofNat 15 i) = some (widen c w.2) := by
  induction ws generalizing s with
  | nil => refine ⟨rfl, by simp [splitPass], rfl, ?_⟩; intro i v w h; simp [directSplit] at h
  | cons w ws ih =>
    simp only [List.length_cons] at hN
    obtain ⟨h1, h2, h3, h4⟩ := ih (splitSample c adv w s) (by omega)
    obtain ⟨_, _, _, e⟩ := splitSample_only c adv w s
    have hw : (splitSample c adv w s).wcur = s.wcur + 1#15 := by rw [e]
    simp only [splitPass, directSplit]
    generalize hs1 : smoothAll c s = s1
    generalize hr : bank c adv s1.filters _ _ = r
    have hd : sameButRing { s1 with filters := r.1 } (splitSample c adv w s) := by
      unfold sameButRing
      simp only [splitSample, advanceWcur]
      rw [ringWrite_only, hs1, hr]
    obtain ⟨g1, g2⟩ := directSplit_congr c adv ws _ _ hd
    refine ⟨?_, ?_, ?_, ?_⟩
    · unfold sameButRing at *
      rw [h1, g1]
    · rw [h2, hw, BitVec.add_assoc]; congr 1
      apply BitVec.eq_of_toNat_eq; simp; omega
    · simp; rw [← g2, h3]
    · intro i v w' hv hw'
      cases i with
      | zero =>
        simp only [List.getElem?_cons_zero, Option.some.injEq] at hv hw'
        subst hv hw'
        have hne : ∀ i < ws.length, (s.wcur + BitVec.ofNat 15 0) ≠ (splitSample c adv w s).wcur + BitVec.ofNat 15 i := by
          intro i hi hh
          rw [hw, BitVec.add_assoc] at hh
          have : (1#15 + BitVec.ofNat 15 i) = BitVec.ofNat 15 (i+1) := by
            apply BitVec.eq_of_toNat_eq; simp; omega
          rw [this] at hh
          have := add_ofNat15_inj (by omega) (by omega) hh
          omega
        rw [splitPass_cell_other _ _ _ _ _ _ hne, splitPass_cell_other _ _ _ _ _ _ hne]
        have hz : s.wcur + BitVec.ofNat 15 0 = s.wcur := by simp
        rw [hz]
        have key : ∀ ch, (splitSample c adv w s).ringCell ch s.wcur = (ringWrite r.2 (widen c w.1) (widen c w.2) { s1 with filters := r.1 }).ringCell ch s.wcur := by
          intro ch
          simp only [splitSample]
          rw [hs1, hr]; rfl
        have hsw : s1.wcur = s.wcur := by rw [← hs1]; rfl
        refine ⟨?_, ?_, ?_⟩
        · intro ch
          rw [splitPass_cell_other _ _ _ _ _ _ (by rw [← hz]; exact hne)]
          rw [key, ringWrite_cell]
          simp only [hsw, if_true]
          have hch : (BitVec.ofNat 3 ch.val).toNat = ch.val := by simp; omega
          rw [dif_pos (by rw [hch]; exact ch.isLt)]
          simp only [hch]; rfl
        · rw [key, ringWrite_cell]; simp [hsw]
        · rw [key, ringWrite_cell]; simp [hsw]
      | succ i =>
        simp only [List.getElem?_cons_succ] at hv hw'
        rw [← g2] at hv
        have := h4 i v w' hv hw'
        rw [hw, BitVec.add_assoc] at this
        have e2 : (1#15 + BitVec.ofNat 15 i) = BitVec.ofNat 15 (i+1) := by
          apply BitVec.eq_of_toNat_eq; simp; omega
        rwa [e2] at this

/-- A sample of the remix leaves the ring and the read cursor alone. -/
theorem remixSample_ring (c g go outR i v) (s : State) : (remixSample c g go outR i v s).ring = s.ring ∧ (remixSample c g go outR i v s).rcur = s.rcur := by
  obtain ⟨_, _, _, _, e⟩ := remixSample_only c g go outR i v s
  rw [e]; exact ⟨rfl, rfl⟩

/-- The remix pass over bands that stand in the ring is the remix on these bands (44_process.md R182). -/
theorem remixLoop_direct (c g go outR) (vs : List (Vector F64 6)) (i : Nat) (rc : RingPos) (s : State)
    (h : ∀ j v, vs[j]? = some v → ∀ ch : Fin 6, s.ringCell (BitVec.ofNat 3 ch.val) (rc + BitVec.ofNat 15 j) = some v[ch]) :
    remixLoop c g go outR vs.length i rc s = some { directRemix c g go outR vs i s with rcur := rc + BitVec.ofNat 15 vs.length } := by
  induction vs generalizing i rc s with
  | nil => simp [remixLoop, directRemix]
  | cons v vs ih =>
    have h0 := h 0 v rfl
    have hb : readBands s rc = some v := by
      have e : rc + BitVec.ofNat 15 0 = rc := by simp
      rw [e] at h0
      have a0 := h0 0; have a1 := h0 1; have a2 := h0 2; have a3 := h0 3; have a4 := h0 4; have a5 := h0 5
      simp at a0 a1 a2 a3 a4 a5
      simp only [readBands, a0, a1, a2, a3, a4, a5]
      congr 1
      ext k hk
      interval_cases k <;> rfl
    simp only [List.length_cons, remixLoop, hb, directRemix]
    rw [ih]
    · have e : rc + 1#15 + BitVec.ofNat 15 vs.length = rc + BitVec.ofNat 15 (vs.length + 1) := by
        rw [BitVec.add_assoc]; congr 1
        apply BitVec.eq_of_toNat_eq; simp; omega
      rw [e]
    · intro j u hu ch
      have := h (j+1) u (by simpa using hu) ch
      rw [ringCell_congr (remixSample_ring _ _ _ _ _ _ _).1, BitVec.add_assoc]
      rw [← this]; congr 2
      apply BitVec.eq_of_toNat_eq; simp; omega

/-- A sample of the remix does not look at the ring. -/
theorem remixSample_swap (c g go outR i v) (s : State) (rg w) : remixSample c g go outR i v { s with ring := rg, wcur := w } = { remixSample c g go outR i v s with ring := rg, wcur := w } := by
  simp only [remixSample, compStep, outWrite, State.setIoWord]

/-- The remix without a ring does not look at the ring. -/
theorem directRemix_swap (c g go outR vs i) (s : State) (rg w) : directRemix c g go outR vs i { s with ring := rg, wcur := w } = { directRemix c g go outR vs i s with ring := rg, wcur := w } := by
  induction vs generalizing i s with
  | nil => rfl
  | cons v vs ih => simp only [directRemix]; rw [remixSample_swap, ih]

/-- The three passes in terms of the passes without a ring. -/
theorem pipeline_direct (c adv outR) (ws : List (Word × Word)) (s : State) (hN : ws.length ≤ 32768) :
    let r := directSplit c adv ws (peakPass c ws s)
    let u := directRemix c r.1.sv[c.gCmpSrc] r.1.sv[c.gOutSrc] outR r.2 0 r.1
    ∃ t, pipeline c adv outR ws s = some t ∧ t.ring = (splitPass c adv ws (peakPass c ws s)).ring ∧
      t = { u with ring := t.ring, wcur := s.wcur + BitVec.ofNat 15 ws.length, rcur := s.wcur + BitVec.ofNat 15 ws.length } := by
  intro r u
  obtain ⟨pk, ep⟩ := peakPass_only c ws s
  obtain ⟨h1, h2, h3, h4⟩ := splitPass_direct c adv ws (peakPass c ws s) hN
  have hw : (peakPass c ws s).wcur = s.wcur := by rw [ep]
  rw [hw] at h2 h4
  generalize hq : splitPass c adv ws (peakPass c ws s) = q at *
  have hsv : q.sv = r.1.sv := by unfold sameButRing at h1; rw [h1]
  have hl : r.2.length = ws.length := h3
  have rl := remixLoop_direct c r.1.sv[c.gCmpSrc] r.1.sv[c.gOutSrc] outR r.2 0 s.wcur q (by
    intro j v hv ch
    have : j < ws.length := by rw [← hl]; exact (List.getElem?_eq_some_iff.1 hv).1
    exact (h4 j v ws[j] hv (by simp [this])).1 ch)
  refine ⟨{ directRemix c r.1.sv[c.gCmpSrc] r.1.sv[c.gOutSrc] outR r.2 0 q with rcur := s.wcur + BitVec.ofNat 15 r.2.length }, ?_, ?_, ?_⟩
  · unfold pipeline remixPass
    rw [hq, hsv, h2, ← hl]
    rw [show s.wcur + BitVec.ofNat 15 r.2.length - BitVec.ofNat 15 r.2.length = s.wcur by simp]
    exact rl
  · unfold sameButRing at h1; rw [h1, directRemix_swap]
  · unfold sameButRing at h1
    rw [h1, directRemix_swap, hl, h2]

/-- A PROCESS that passes its checks and is not bypassed runs the passes (44_process.md R170, R171). -/
theorem exec_process {in1 out1 : Bool} {n : Int} {s : State} (hr : s.lifecycle = .ready) (hn : 0 < n) (hm : n ≤ 32768)
    (hb : boolParam Config.current s.params[19] = false) :
    exec (.process true in1 true out1 n) s = processBlock Config.current in1 out1 n.toNat s := by
  have a1 : ¬ n ≤ 0 := by omega
  have a2 : ¬ Config.maxBlock < n := by unfold Config.maxBlock; omega
  simp [exec, execProcess, a1, hr, a2, hb]

/-- The words of a block whose inputs are written. -/
theorem readBlock_blockWords {s : State} {in1 n} (h0 : inputsWritten s 0#2 n) (h1 : inputsWritten s (rightIn in1) n) :
    ∃ ls rs, readBlock s 0#2 n 0 = some ls ∧ readBlock s (rightIn in1) n 0 = some rs ∧ ls.zip rs = blockWords s in1 n := by
  refine ⟨_, _, readBlock_of_written (i := 0) (fun j hj => by simpa using h0 j hj), readBlock_of_written (i := 0) (fun j hj => by simpa using h1 j hj), ?_⟩
  simp only [blockWords, List.zip_map', Nat.zero_add]

/-- What the remix without a ring may write. -/
theorem directRemix_only (c g go outR vs i) (s : State) : ∃ ks mg mr io, directRemix c g go outR vs i s = { s with comps := ks, mgr := mg, mrms := mr, io := io } := by
  induction vs generalizing i s with
  | nil => exact ⟨s.comps, s.mgr, s.mrms, s.io, rfl⟩
  | cons v vs ih =>
    obtain ⟨_, _, _, _, e⟩ := ih (i+1) (remixSample c g go outR i v s)
    obtain ⟨_, _, _, _, e1⟩ := remixSample_only c g go outR i v s
    simp only [directRemix]; rw [e, e1]; exact ⟨_, _, _, _, rfl⟩

/-- What the split without a ring may write. -/
theorem directSplit_only (c adv ws) (s : State) : ∃ sv fl, (directSplit c adv ws s).1 = { s with sv := sv, filters := fl } := by
  induction ws generalizing s with
  | nil => exact ⟨s.sv, s.filters, rfl⟩
  | cons w ws ih =>
    simp only [directSplit]
    generalize hr : bank c adv _ _ _ = r
    obtain ⟨_, _, e⟩ := ih { smoothAll c s with filters := r.1 }
    rw [e]; exact ⟨_, _, rfl⟩

/-- The smoothers after the split: one SMOOTH step per sample. -/
theorem directSplit_sv (c adv ws) (s : State) (k : Fin 3) :
    (directSplit c adv ws s).1.sv[k] = (fun x => smoothValue c x s.sc[k] (smootherTarget c s k))^[ws.length] s.sv[k] := by
  induction ws generalizing s with
  | nil => rfl
  | cons w ws ih =>
    simp only [directSplit]
    refine (ih _).trans ?_
    have e : (smoothAll c s).sv[k] = smoothValue c s.sv[k] s.sc[k] (smootherTarget c s k) := by simp [smoothAll]
    rw [List.length_cons, Function.iterate_succ_apply, ← e]
    rfl

/-- What stands in the I/O memory after OUT_WRITE (44_process.md R179). -/
theorem outWrite_io (c : Config) (outR : BitVec 2) (i : Nat) (l r : F64) (s : State) (b k) :
    (outWrite c outR i l r s).ioWord b k = if k = BitVec.ofNat 15 i ∧ b = outR then some (narrow c r) else if k = BitVec.ofNat 15 i ∧ b = 2#2 then some (narrow c l) else s.ioWord b k := by
  simp only [outWrite]
  by_cases hk : k = BitVec.ofNat 15 i
  · subst hk
    by_cases hb : b = outR
    · subst hb; simp
    · rw [ioWord_setIoWord_other _ _ _ _ _ _ (.inl hb)]
      by_cases h2 : b = 2#2
      · subst h2; simp [hb]
      · rw [ioWord_setIoWord_other _ _ _ _ _ _ (.inl h2)]; simp [hb, h2]
  · rw [ioWord_setIoWord_other _ _ _ _ _ _ (.inr hk), ioWord_setIoWord_other _ _ _ _ _ _ (.inr hk)]; simp [hk]

/-- An I/O word depends on the I/O memory only. -/
theorem ioWord_congr {s t : State} (h : t.io = s.io) (b k) : t.ioWord b k = s.ioWord b k := by
  simp only [State.ioWord, h]

/-- A sample of the remix writes the output words of its own index only. -/
theorem remixSample_io (c g go outR i v) (s : State) (b k) : 
    (∃ l r, (remixSample c g go outR i v s).ioWord b k = (outWrite c outR i l r s).ioWord b k ∧ (v[0] = v[1] → v[2] = v[3] → v[4] = v[5] → l = r)) := by
  simp only [remixSample]
  generalize h0 : compStep c 0 (power c v[0] v[1]) g s.gain2[0] s = r0
  generalize h1 : compStep c 1 (power c v[2] v[3]) g s.gain2[1] r0.1 = r1
  generalize h2 : compStep c 2 (power c v[4] v[5]) g s.gain2[2] r1.1 = r2
  refine ⟨remixSum c v[0] v[2] v[4] r0.2 r1.2 r2.2 go, remixSum c v[1] v[3] v[5] r0.2 r1.2 r2.2 go, ?_, ?_⟩
  · have : r2.1.io = s.io := by rw [← h2, compStep_io, ← h1, compStep_io, ← h0, compStep_io]
    rw [outWrite_io, outWrite_io, ioWord_congr this]
  · intro a b c; rw [a, b, c]

/-- The remix writes no word but the block's output words. -/
theorem directRemix_io_other (c g go outR vs i) (s : State) (b : BitVec 2) (k : BitVec 15) (hi : i + vs.length ≤ 32768)
    (h : (b ≠ 2#2 ∧ b ≠ outR) ∨ k.toNat < i ∨ i + vs.length ≤ k.toNat) : (directRemix c g go outR vs i s).ioWord b k = s.ioWord b k := by
  induction vs generalizing i s with
  | nil => rfl
  | cons v vs ih =>
    simp only [List.length_cons] at hi h
    simp only [directRemix]
    rw [ih _ _ (by omega) (by rcases h with h | h | h; exact .inl h; exact .inr (.inl (by omega)); exact .inr (.inr (by omega)))]
    obtain ⟨l, r, e, _⟩ := remixSample_io c g go outR i v s b k
    rw [e, outWrite_io]
    have : ∀ x, k = BitVec.ofNat 15 i ∧ b = x → x = outR ∨ x = 2#2 → False := by
      rintro x ⟨rfl, rfl⟩ hx
      simp at h
      rcases h with h | h | h
      · rcases hx with rfl | rfl
        · exact h.2 rfl
        · exact h.1 rfl
      · omega
      · omega
    rw [if_neg (fun hh => this _ hh (.inl rfl)), if_neg (fun hh => this _ hh (.inr rfl))]

/-- The remix writes every output word of the block. -/
theorem directRemix_io_same (c g go outR vs i) (s : State) (j : Nat) (hi : i + vs.length ≤ 32768) (hj : j < vs.length) (ho : outR = 2#2 ∨ outR = 3#2) :
    ((directRemix c g go outR vs i s).ioWord 2#2 (BitVec.ofNat 15 (i+j))).isSome = true ∧
    (outR = 3#2 → ((directRemix c g go outR vs i s).ioWord 3#2 (BitVec.ofNat 15 (i+j))).isSome = true ∧
      ((∀ v ∈ vs, v[0] = v[1] ∧ v[2] = v[3] ∧ v[4] = v[5]) → (directRemix c g go outR vs i s).ioWord 2#2 (BitVec.ofNat 15 (i+j)) = (directRemix c g go outR vs i s).ioWord 3#2 (BitVec.ofNat 15 (i+j)))) := by
  induction vs generalizing i s j with
  | nil => simp at hj
  | cons v vs ih =>
    simp only [List.length_cons] at hi hj
    simp only [directRemix]
    cases j with
    | zero =>
      have hk : (BitVec.ofNat 15 (i+0)).toNat < i + 1 := by simp; omega
      rw [directRemix_io_other _ _ _ _ _ _ _ _ _ (by omega) (.inr (.inl hk)), directRemix_io_other _ _ _ _ _ _ _ _ _ (by omega) (.inr (.inl hk))]
      simp only [remixSample]
      rw [outWrite_io, outWrite_io]
      rcases ho with rfl | rfl
      · simp
      · simp
        intro h1 h2 h3 _; rw [h1, h2, h3]
    | succ j =>
      have := ih (i+1) (remixSample c g go outR i v s) j (by omega) (by omega)
      rw [show i + (j+1) = i + 1 + j by omega]
      refine ⟨this.1, fun h => ⟨(this.2 h).1, fun hv => (this.2 h).2 fun u hu => hv u (List.mem_cons_of_mem _ hu)⟩⟩

/-- The peak trackers after the peak pass: one PEAK step per sample (41_peak_envelope.md R112). -/
theorem peakPass_pk (c : Config) (ws : List (Word × Word)) (s : State) :
    (peakPass c ws s).pk[0] = ws.foldl (fun x w => peakValue c x (widen c w.1)) s.pk[0] ∧
    (peakPass c ws s).pk[1] = ws.foldl (fun x w => peakValue c x (widen c w.2)) s.pk[1] := by
  induction ws generalizing s with
  | nil => exact ⟨rfl, rfl⟩
  | cons w ws ih =>
    have := ih (peakSample c w s)
    simpa [peakPass, peakSample] using this

/-- Two filter banks that differ in their recursive state only. -/
def sameCoefs (f g : Vector Filter 6) : Prop := ∀ k : Fin 6, f[k] = { g[k] with w1 := f[k].w1, w2 := f[k].w2, lp := f[k].lp, hp := f[k].hp }

/-- Two compressor banks that differ in their recursive state only. -/
def sameConf (f g : Vector Comp 3) : Prop := ∀ b : Fin 3, f[b] = { g[b] with rms := f[b].rms, env := f[b].env, gr := f[b].gr, path := f[b].path, red := f[b].red }

/-- A filter bank has its own coefficients. -/
theorem sameCoefs_refl (f) : sameCoefs f f := fun _ => rfl

/-- A compressor bank has its own configuration. -/
theorem sameConf_refl (f) : sameConf f f := fun _ => rfl

/-- Equal coefficients carry over. -/
theorem sameCoefs_trans {f g h} (a : sameCoefs f g) (b : sameCoefs g h) : sameCoefs f h := by
  intro k; rw [a k, b k]

/-- Equal configurations carry over. -/
theorem sameConf_trans {f g h} (a : sameConf f g) (b : sameConf g h) : sameConf f h := by
  intro k; rw [a k, b k]

/-- A filter bank step keeps every coefficient (42_crossover_filterbank.md R124). -/
theorem bank_coefs (c adv fl xL xR) : sameCoefs (bank c adv fl xL xR).1 fl := by
  unfold bank
  split_ifs
  · intro k; fin_cases k <;> rfl
  · intro k; fin_cases k <;> rfl

/-- The split pass keeps every coefficient. -/
theorem splitPass_coefs (c adv ws) (s : State) : sameCoefs (splitPass c adv ws s).filters s.filters := by
  induction ws generalizing s with
  | nil => exact sameCoefs_refl _
  | cons w ws ih =>
    simp only [splitPass]
    refine sameCoefs_trans (ih _) ?_
    simp only [splitSample, advanceWcur]
    rw [ringWrite_only]
    exact bank_coefs _ _ _ _ _

/-- Replacing one compressor by one of the same configuration. -/
theorem set_conf (v : Vector Comp 3) (b : Fin 3) (k : Comp) (h : k = { v[b] with rms := k.rms, env := k.env, gr := k.gr, path := k.path, red := k.red }) : sameConf (v.set b.val k) v := by
  intro j
  by_cases e : j = b
  · subst e; simpa using h
  · have : (v.set b.val k)[j] = v[j] := by
      simp only [Fin.getElem_fin]
      exact Vector.getElem_set_ne _ _ (by intro hh; exact e (Fin.ext hh.symm))
    rw [this]

/-- A compressor step keeps the configuration (43_compressor.md R144). -/
theorem compStep_conf (c b p g gain) (s : State) : sameConf (compStep c b p g gain s).1.comps s.comps := by
  simp only [compStep]
  apply set_conf
  simp only [compNext]

/-- A sample of the remix keeps the configuration. -/
theorem remixSample_conf (c g go outR i v) (s : State) : sameConf (remixSample c g go outR i v s).comps s.comps := by
  simp only [remixSample]
  have h0 := compStep_conf c 0 (power c v[0] v[1]) g s.gain2[0] s
  generalize compStep c 0 (power c v[0] v[1]) g s.gain2[0] s = r0 at *
  have h1 := compStep_conf c 1 (power c v[2] v[3]) g s.gain2[1] r0.1
  generalize compStep c 1 (power c v[2] v[3]) g s.gain2[1] r0.1 = r1 at *
  have h2 := compStep_conf c 2 (power c v[4] v[5]) g s.gain2[2] r1.1
  generalize compStep c 2 (power c v[4] v[5]) g s.gain2[2] r1.1 = r2 at *
  simp only [outWrite, State.setIoWord]
  exact sameConf_trans h2 (sameConf_trans h1 h0)

/-- The remix pass keeps the configuration. -/
theorem remixLoop_conf {c g go outR n i rc} {s t : State} (h : remixLoop c g go outR n i rc s = some t) : sameConf t.comps s.comps := by
  induction n generalizing i rc s with
  | zero => simp only [remixLoop, Option.some.injEq] at h; rw [← h]; exact sameConf_refl _
  | succ n ih =>
    simp only [remixLoop] at h
    split at h
    · exact sameConf_trans (ih h) (remixSample_conf _ _ _ _ _ _ _)
    · cases h

/-- The remix pass leaves the filters alone. -/
theorem remixLoop_filters {c g go outR n i rc} {s t : State} (h : remixLoop c g go outR n i rc s = some t) : t.filters = s.filters := by
  obtain ⟨_, _, _, _, rfl⟩ := remixLoop_only h; rfl

/-- The three passes keep coefficients and configuration. -/
theorem pipeline_coefs {c adv outR ws} {s t : State} (h : pipeline c adv outR ws s = some t) : sameCoefs t.filters s.filters ∧ sameConf t.comps s.comps := by
  unfold pipeline remixPass at h
  obtain ⟨pk, e1⟩ := peakPass_only c ws s
  constructor
  · rw [remixLoop_filters h]; refine sameCoefs_trans (splitPass_coefs _ _ _ _) ?_; rw [e1]; exact sameCoefs_refl _
  · refine sameConf_trans (remixLoop_conf h) ?_
    obtain ⟨_, _, _, e⟩ := splitPass_only c adv ws (peakPass c ws s)
    rw [e, e1]; exact sameConf_refl _

/-- A bypassed PROCESS writes the I/O memory only (44_process.md R173). -/
theorem bypass_only {in1 out1 n} {s t : State} (hb : bypassBlock in1 out1 n s = .next t) : ∃ io, t = { s with io := io } := by
  obtain ⟨ls, _, ⟨_, rfl⟩ | ⟨_, rs, _, rfl⟩⟩ := bypassBlock_next hb
  · obtain ⟨io, e⟩ := writeBlock_only 2#2 ls 0 s
    exact ⟨io, e⟩
  · obtain ⟨io, e⟩ := writeBlock_only 2#2 ls 0 s
    obtain ⟨io', e'⟩ := writeBlock_only 3#2 rs 0 (writeBlock 2#2 ls 0 s)
    rw [e', e]; exact ⟨_, rfl⟩

/-- What a PROCESS that completes can have done. -/
theorem process_sum {in0 in1 out0 out1 n} {s t : State} (h : exec (.process in0 in1 out0 out1 n) s = .next t) :
    t = s ∨ t = raiseError .uninit 0xC0#8 s ∨ t = raiseError .block 0xC0#8 s ∨
    (s.lifecycle = .ready ∧ ∃ io, t = { s with io := io }) ∨
    (s.lifecycle = .ready ∧ ∃ pk sv fl rg ks mg mr io w, t = { s with pk := pk, sv := sv, filters := fl, ring := rg, comps := ks, mgr := mg, mrms := mr, io := io, wcur := w, rcur := w } ∧ sameCoefs fl s.filters ∧ sameConf ks s.comps) := by
  rcases execProcess_next h with rfl | rfl | rfl | ⟨hr, _, _, hb⟩ | ⟨hr, _, _, ls, rs, _, _, hp⟩
  · exact .inl rfl
  · exact .inr (.inl rfl)
  · exact .inr (.inr (.inl rfl))
  · exact .inr (.inr (.inr (.inl ⟨hr, bypass_only hb⟩)))
  · have hc := pipeline_coefs hp
    obtain ⟨pk, sv, fl, rg, ks, mg, mr, io, rfl⟩ := pipeline_only hp
    exact .inr (.inr (.inr (.inr ⟨hr, pk, sv, fl, rg, ks, mg, mr, io, _, rfl, hc.1, hc.2⟩)))

/-- A completed PROCESS past its checks read its block and ran the passes. -/
theorem process_full {in1 out1 n} {s t : State} (hr : s.lifecycle = .ready) (hn : 0 < n) (hm : n ≤ 32768)
    (hb : boolParam Config.current s.params[19] = false)
    (h : exec (.process true in1 true out1 n) s = .next t) :
    ∃ ls rs, readBlock s 0#2 n.toNat 0 = some ls ∧ readBlock s (rightIn in1) n.toNat 0 = some rs ∧ (ls.zip rs).length = n.toNat ∧
      pipeline Config.current (boolParam Config.current s.params[4]) (rightOut out1) (ls.zip rs) s = some t := by
  rw [exec_process hr hn hm hb] at h
  unfold processBlock at h
  split at h
  · rename_i ls rs e1 e2
    split at h
    · rename_i u e3
      cases h
      exact ⟨ls, rs, e1, e2, by simp [readBlock_length e1, readBlock_length e2], e3⟩
    · cases h
  · cases h

/-- A property that consuming a command, raising an error and executing a command keep is kept by every step. -/
theorem step_lift (P : State → Prop) (hcons : ∀ s n r, P s → P (s.consume n r))
    (hraise : ∀ s e op, P s → P (raiseError e op s)) (hexec : ∀ i s t, P s → exec i s = .next t → P t) :
    ∀ s t, P s → step s = .next t → P t := by
  intro s t hp h
  rcases step_next_cases h with ⟨_, rfl⟩ | ⟨w, w1, w2, rest, _, ⟨i, _, he⟩ | ⟨e, _, rfl⟩⟩
  · exact hp
  · exact hexec _ _ _ (hcons _ _ _ hp) he
  · exact hraise _ _ _ (hcons _ _ _ hp)

/-- In READY an INIT has run and every unlisted ring cell holds +0.0 (10_state.md R42). -/
theorem ready_ring {s : State} (h : lifecycleOk s) (hr : s.lifecycle = .ready) :
    s.initDone = true ∧ s.ring.fill = some zeroF := by
  unfold lifecycleOk at h
  rw [hr] at h
  exact h

end Sys2Proof.Machine
end

