-- ==== Sys2Proof/Machine/Assembly.lean ====
section
/-! DEFINITION. The assembly language of 30_encoding.md R90, as the text of each command, and the pseudo-commands of R91, as
the commands they expand to. Numbers are written as decimal integers and as raw patterns, which R90 admits everywhere
(log 14). No rule of the machine reads this file. -/

namespace Sys2Proof.Machine

open Sys2Proof

/-- One hexadecimal digit. -/
def hexDigit (n : Nat) : Char := "0123456789ABCDEF".toList.getD (n % 16) '0'

/-- The last `k` hexadecimal digits of a number. -/
def hexDigits : Nat → Nat → List Char
  | 0, _ => []
  | k + 1, n => hexDigits k (n / 16) ++ [hexDigit n]

/-- A raw binary64 pattern, `f64:0x` and 16 digits (30_encoding.md R90). -/
def asmF64 (x : F64) : String := "f64:0x" ++ String.ofList (hexDigits 16 x.toNat)

/-- A raw binary32 pattern, `f32:0x` and 8 digits (30_encoding.md R90). -/
def asmF32 (x : F32) : String := "f32:0x" ++ String.ofList (hexDigits 8 x.toNat)

/-- The name of a filter register after the unit's (30_encoding.md R90; 10_state.md R26). -/
def filterFieldName : FilterField → String
  | .b0 => "B0"
  | .b1 => "B1"
  | .a1 => "A1"
  | .a2 => "A2"
  | .b2 => "B2"
  | .w1 => "W1"
  | .w2 => "W2"
  | .lp => "LP"
  | .hp => "HP"
  | .freq => "FREQ"

/-- The name of a compressor register after the unit's (30_encoding.md R90; 10_state.md R26). -/
def compFieldName : CompField → String
  | .rms => "RMS"
  | .env => "ENV"
  | .gr => "GR"
  | .sel => "SEL"
  | .cAtt => "C_ATT"
  | .cRel => "C_REL"
  | .thr => "THR"
  | .upr => "UPR"
  | .relTc => "REL_TC"
  | .auxLin => "AUX_LIN"
  | .auxKnee => "AUX_KNEE"
  | .path => "PATH"
  | .red => "RED"

/-- The name of a register: F_i.field is written Fi.field, C_b.field Cb.field, MGR_b MGRb, MRMS_b MRMSb
(30_encoding.md R90). -/
def regName : Reg → String
  | .id => "ID"
  | .state => "STATE"
  | .status => "STATUS"
  | .lastErr => "LAST_ERR"
  | .fs => "FS"
  | .xoLo => "XO_LO"
  | .xoHi => "XO_HI"
  | .wcur => "WCUR"
  | .rcur => "RCUR"
  | .sv 0 => "SV_DEPTH"
  | .sv 1 => "SV_UP"
  | .sv 2 => "SV_OUT"
  | .sc 0 => "SC_DEPTH"
  | .sc 1 => "SC_UP"
  | .sc 2 => "SC_OUT"
  | .pk 0 => "PK_L"
  | .pk 1 => "PK_R"
  | .ratioUp => "RATIO_UP"
  | .ratioDn => "RATIO_DN"
  | .gain2 b => "GAIN2_" ++ toString b.val
  | .filter i f => "F" ++ toString i.val ++ "." ++ filterFieldName f
  | .comp b f => "C" ++ toString b.val ++ "." ++ compFieldName f
  | .mgr b => "MGR" ++ toString b.val
  | .mrms b => "MRMS" ++ toString b.val

/-- A register address: the register's name, or the number of a reserved address (30_encoding.md R90). -/
def asmAddr (a : RegAddr) : String :=
  match regAt a with
  | some r => regName r
  | none => "0x" ++ String.ofList (hexDigits 4 a.toNat)

/-- A buffer's name (30_encoding.md R90). -/
def asmBuf (b : BitVec 2) : String := ["IN0", "IN1", "OUT0", "OUT1"].getD b.toNat "IN0"

/-- The presence bits as a list joined by + (30_encoding.md R90). -/
def asmPresence (in0 in1 out0 out1 : Bool) : String :=
  let names := (if in0 then ["in0"] else []) ++ (if in1 then ["in1"] else []) ++ (if out0 then ["out0"] else [])
    ++ (if out1 then ["out1"] else [])
  if names.isEmpty then "none" else String.intercalate "+" names

/-- A command in assembly (30_encoding.md R90). -/
def assembly : Instr → String
  | .nop => "NOP"
  | .reset => "RESET"
  | .cleanup => "CLEANUP"
  | .getp idx => "GETP " ++ toString idx.toNat
  | .rdreg a => "RDREG " ++ asmAddr a
  | .rdring ch pos => "RDRING " ++ toString ch.toNat ++ ", " ++ toString pos.toNat
  | .rdio buf idx => "RDIO " ++ asmBuf buf ++ ", " ++ toString idx.toNat
  | .init fs => "INIT " ++ asmF64 fs
  | .setrate fs => "SETRATE " ++ asmF64 fs
  | .setp idx v => "SETP " ++ toString idx.toNat ++ ", " ++ asmF32 v
  | .wrreg a v => "WRREG " ++ asmAddr a ++ ", " ++ asmF64 v
  | .wrio buf idx v => "WRIO " ++ asmBuf buf ++ ", " ++ toString idx.toNat ++ ", " ++ asmF32 v
  | .process in0 in1 out0 out1 n => "PROCESS " ++ toString n ++ ", " ++ asmPresence in0 in1 out0 out1

/-- BYPASS v (30_encoding.md R91). -/
def pseudoBypass (v : F32) : List Instr := [.setp 19#8 v]

/-- ADVMODE v (30_encoding.md R91). -/
def pseudoAdvmode (v : F32) : List Instr := [.setp 4#8 v]

/-- SETXO lo, hi (30_encoding.md R91). -/
def pseudoSetxo (lo hi : F64) : List Instr := [.wrreg 0x0005#16 lo, .wrreg 0x0006#16 hi]

/-- SETSEL b, v: address 0x0203 + 0x10·b (30_encoding.md R91). -/
def pseudoSetsel (b : Fin 3) (v : F64) : List Instr := [.wrreg (0x0203#16 + BitVec.ofNat 16 (16 * b.val)) v]

/-- PSTEREO n (30_encoding.md R91). -/
def pseudoPstereo (n : Int) : List Instr := [.process true true true true n]

/-- PMONO n (30_encoding.md R91). -/
def pseudoPmono (n : Int) : List Instr := [.process true false true false n]

/-- RDSTATUS (30_encoding.md R91). -/
def pseudoRdstatus : List Instr := [.rdreg 0x0002#16]

/-- LOADIN buf, idx, v0, v1, …, vk (30_encoding.md R91). DESIGN CHOICE (log 14): an index idx + k past 32767 wraps to 0; R91
gives no expansion for it. -/
def pseudoLoadin (buf : BitVec 2) : BitVec 15 → List Word → List Instr
  | _, [] => []
  | idx, v :: vs => .wrio buf idx v :: pseudoLoadin buf (idx + 1#15) vs

end Sys2Proof.Machine
end

