-- ==== Sys2Proof/Tests/Slice0.lean ====
section
/-! SUPPORT. Tests of the model, with expected values from spec/95_test_vectors.md and 30_encoding.md R92, and a witness for
the hypotheses of every statement that has some. -/

namespace Sys2Proof.Tests

-- One theorem at a time: many kernel evaluations at once would wait for each other, a thread each.
set_option Elab.async false

open Sys2Proof Sys2Proof.Machine Host

/-! ## Helpers -/

/-- The outcome is a next state with a property. -/
def got (o : Outcome State Fault Refusal) (p : State → Bool) : Bool :=
  match o with
  | .next t => p t
  | _ => false

/-- The outcome is a given fault. -/
def faults (o : Outcome State Fault Refusal) (f : Fault) : Bool :=
  match o with
  | .fault g => decide (g = f)
  | _ => false

/-- A state with words presented to it. -/
def given (s : State) (ws : List Word) : State := { s with stream := ws }

/-- A filter unit with the coefficients of 95_test_vectors.md §XO_COEF, 48000 and 200. -/
def low : Filter :=
  { Filter.powerOn with
    b0 := oneF, a1 := 0x405318F5E99D1DBF#64, b1 := 0x3FDFFF4C52FF0B9B#64
    a2 := 0x3F7ACEB7C5860D11#64, b2 := 0x3F1675A01E8C9323#64, freq := 0x4069000000000000#64 }

/-- A filter unit with the coefficients of 95_test_vectors.md §XO_COEF, 48000 and 2000. -/
def high : Filter :=
  { Filter.powerOn with
    b0 := oneF, a1 := 0x401E620D5DBA72B6#64, b1 := 0x3FDFB99DD4C0457E#64
    a2 := 0x3FB0B4ECA58EBF00#64, b2 := 0x3F81988ACFEEA09E#64, freq := 0x409F400000000000#64 }

/-- A compressor after INIT at 48000 (95_test_vectors.md §COMP_COEF, §COMP_STEP). -/
def neutral : Comp :=
  { Comp.powerOn with
    gr := oneF, red := oneF, sel := oneF, upr := oneF, cAtt := 0xBF7107FA21792A00#64, cRel := 0xBF3B4D0CEE719800#64
    thr := 0xC03E000000000000#64, relTc := 0x3FA999999999999A#64, auxLin := oneF }

/-- The block after INIT 48000.0, as 10_state.md R42 lists it. -/
def ready : State :=
  { State.reset with
    lifecycle := .ready, initDone := true, paramSet := Vector.replicate 20 true
    fs := 0x40E7700000000000#64, xoLo := 0x4069000000000000#64, xoHi := 0x409F400000000000#64
    params := Config.paramDefaults, ratioUp := oneF, ratioDn := oneF, gain2 := #v[oneF, oneF, oneF]
    sv := #v[oneF, oneF, oneF], sc := #v[0x3F847AE147AE147B#64, 0x3F847AE147AE147B#64, 0x3F747AE147AE147B#64]
    filters := #v[low, low, low, low, high, high], comps := #v[neutral, neutral, neutral]
    ring := Memory.filled zeroF }

/-- The block after INIT with every I/O word written. -/
def fed : State := { ready with io := Memory.filled 0x3F000000#32 }

/-- `fed` with bypass on (SETP 19, 1.0). -/
def bypassed : State := { fed with params := Config.paramDefaults.set 19 0x3F800000#32 }

/-- An OPEN configuration at the defaults of 00_scope.md R6, with the values of glibc that the tests below need. -/
def rows : Config.OpenRows :=
  { (default : Config.OpenRows) with
    tan := fun _ => 0x3F8ACF4E4E159DF1#64
    ln := fun _ => 0xBFE62E42FEFA39EF#64
    exp := fun x => if fltEq x zeroF then oneF else 0x3FB600DBB0864C5A#64 }

/-- The configuration of the datapath tests. -/
def cfg : Config := ⟨rows⟩

/-! ## Well-formedness: each check refuses an ill-formed term -/

theorem test_wellFormed_process_above : (Instr.process true true true true 2147483648).wellFormed = false := by decide
theorem test_wellFormed_process_below : (Instr.process true true true true (-2147483649)).wellFormed = false := by decide
theorem test_wellFormed_process_ends :
    (Instr.process true true true true 2147483647).wellFormed = true ∧
    (Instr.process true true true true (-2147483648)).wellFormed = true := by decide

/-! ## Decoding: words written out from 30_encoding.md R81 to R84 and 95_test_vectors.md §DEC -/

theorem test_decode_nop : decode 0x00000000#32 0#32 0#32 = .ok .nop := by decide
theorem test_decode_reset : decode 0x00000001#32 0#32 0#32 = .ok .reset := by decide
theorem test_decode_cleanup : decode 0x00000002#32 0#32 0#32 = .ok .cleanup := by decide
theorem test_decode_getp : decode 0x0000FF10#32 0#32 0#32 = .ok (.getp 255#8) := by decide
theorem test_decode_rdreg : decode 0x02030020#32 0#32 0#32 = .ok (.rdreg 0x0203#16) := by decide
theorem test_decode_rdring : decode 0x7FFF0721#32 0#32 0#32 = .ok (.rdring 7#3 32767#15) := by decide
theorem test_decode_rdio : decode 0x7FFF0322#32 0#32 0#32 = .ok (.rdio 3#2 32767#15) := by decide
theorem test_decode_init :
    decode 0x00000081#32 0x00000000#32 0x40E77000#32 = .ok (.init 0x40E7700000000000#64) := by decide
theorem test_decode_setrate :
    decode 0x00000082#32 0x89ABCDEF#32 0x01234567#32 = .ok (.setrate 0x0123456789ABCDEF#64) := by decide
theorem test_decode_setp :
    decode 0x00001390#32 0x3F800000#32 0xFFFFFFFF#32 = .ok (.setp 19#8 0x3F800000#32) := by decide
theorem test_decode_wrreg :
    decode 0x020300A0#32 0x00000000#32 0xBFF00000#32 = .ok (.wrreg 0x0203#16 0xBFF0000000000000#64) := by decide
theorem test_decode_wrio : decode 0x000101A2#32 0xFF800000#32 7#32 = .ok (.wrio 1#2 1#15 0xFF800000#32) := by decide
theorem test_decode_process :
    decode 0x000005C0#32 0xFFFFFFFF#32 0#32 = .ok (.process true false true false (-1)) := by decide

/-- The illegal words of 95_test_vectors.md §DEC. -/
theorem test_decode_illegal :
    [0x00000100#32, 0x00140010#32, 0x00000120#32, 0x00000821#32, 0x80000021#32, 0x00000422#32, 0x00001FC0#32, 0x000100C0#32,
      0x000004A2#32, 0x00010081#32].all (fun w => decide (decode w 0#32 0#32 = .error .reservedField)) = true ∧
    [0x00000003#32, 0x00000083#32, 0x000000A1#32, 0x000000FF#32].all
      (fun w => decide (decode w 0#32 0#32 = .error .reservedOpcode)) = true := by decide

/-- A row of the opcode table as the host numbers its bits (opcode_table.json). -/
theorem test_decodeTableWord :
    decodeTableWord 96 (0x81 + 0x40E77000 * 2 ^ 64) = some (.init 0x40E7700000000000#64) ∧
    decodeTableWord 32 0x00050621 = some (.rdring 6#3 5#15) ∧ decodeTableWord 32 0x3 = none := by decide +kernel

/-! ## One step of each command -/

/-- 95_test_vectors.md §DEC, first row: one word, nothing else. -/
theorem test_nop_step :
    got (step (given ready [0x00000000#32])) (fun t => decide (t = { ready with cp := 1 })) = true := by decide +kernel

/-- §DEC: 0x00000083 is illegal and consumes three words; LAST_ERR = 0x8301. -/
theorem test_illegal_long :
    got (step (given ready [0x00000083#32, 0#32, 0#32]))
      (fun t => decide (t = { ready with cp := 3, status := 1#64, lastErr := 0x8301#64 })) = true := by decide +kernel

/-- §DEC: 0x00000100 is illegal and consumes one word; LAST_ERR = 0x0001. -/
theorem test_illegal_short :
    got (step (given ready [0x00000100#32, 7#32]))
      (fun t => decide (t = { ready with cp := 1, stream := [7#32], status := 1#64, lastErr := 0x0001#64 })) = true := by
  decide +kernel

/-- 70_reset_and_hazards.md R291: a stream that ends inside a format-L command is stuck. -/
theorem test_truncated : faults (step (given ready [0x000005C0#32, 4#32])) .truncatedCommand = true := by decide

/-- §LIFE: RESET returns the gain to 1.0 and the cursor to 0, and keeps THR. -/
theorem test_reset_neutral :
    got (exec .reset { ready with wcur := 9#15, comps := #v[{ neutral with gr := halfF, thr := twoF }, neutral, neutral] })
      (fun t => decide (t.wcur = 0#15 ∧ t.comps[0].gr = oneF ∧ t.comps[0].thr = twoF)) = true := by decide +kernel

/-- §LIFE: RESET before INIT raises ERR_UNINIT. -/
theorem test_reset_uninit :
    got (exec .reset State.reset) (fun t => decide (t.status = 2#64 ∧ t.lastErr = 0x0102#64)) = true := by decide

/-- §LIFE: after CLEANUP a ring read faults and registers survive. -/
theorem test_cleanup_ring :
    got (exec .cleanup ready) (fun t => faults (exec (.rdring 0#3 0#15) t) .undefRingCell &&
      got (exec (.rdreg 0x0102#16) t) (fun u => decide (u.resp = 0x405318F5E99D1DBF#64))) = true := by decide +kernel

/-- §SETP: SETP 3, 1.0 before INIT is readable before INIT. -/
theorem test_setp_before_init :
    got (exec (.setp 3#8 0x3F800000#32) State.reset) (fun t =>
      got (exec (.getp 3#8) t) (fun u => decide (u.resp = 0x3F800000#64))) = true := by decide +kernel

/-- §SETP: SETP 3, 0.75 gives RATIO_DN = SEL = 5.0. -/
theorem test_setp_ratio :
    got (exec (.setp 3#8 0x3F400000#32) ready) (fun t =>
      decide (t.ratioDn = 0x4014000000000000#64 ∧ t.comps[2].sel = 0x4014000000000000#64)) = true := by decide +kernel

/-- §DEC: GETP 255 is legal and silent, RESP = 0. -/
theorem test_getp_out_of_range :
    got (exec (.getp 255#8) { ready with resp := 5#64 }) (fun t => decide (t = ready)) = true := by decide +kernel

/-- §RDREG: FS after INIT; before INIT FS is UNDEF and the run faults, at the step after the read (log 4). -/
theorem test_rdreg_fs :
    got (exec (.rdreg 0x0004#16) ready) (fun t => decide (t.resp = 0x40E7700000000000#64)) = true ∧
    got (exec (.rdreg 0x0004#16) State.reset) (fun t => decide (t.status = 0#64) && faults (step t) .undefRead) = true := by decide +kernel

/-- §DEC: RDREG 0xFFFF raises ERR_REG. -/
theorem test_rdreg_reserved :
    got (exec (.rdreg 0xFFFF#16) ready) (fun t => decide (t.status = 16#64 ∧ t.lastErr = 0x2005#64)) = true := by
  decide +kernel

/-- §DEC: RDRING 7, 32767 after INIT gives 0. -/
theorem test_rdring_ready :
    got (exec (.rdring 7#3 32767#15) { ready with resp := 5#64 }) (fun t => decide (t.resp = 0#64)) = true := by
  decide +kernel

/-- §DEC: RDIO OUT1, 32767 of a word nothing wrote faults. -/
theorem test_rdio_undef : faults (exec (.rdio 3#2 32767#15) ready) .undefIoWord = true := by decide +kernel

/-- Program P1: a word that WRIO wrote is read back zero-extended. -/
theorem test_wrio_rdio :
    got (exec (.wrio 1#2 1#15 0xFF800000#32) ready) (fun t =>
      got (exec (.rdio 1#2 1#15) t) (fun u => decide (u.resp = 0x00000000FF800000#64))) = true := by decide +kernel

/-- §LIFE: INIT 48000.0 from power-on gives STATE = 1 with no error. -/
theorem test_init_ready :
    got (step (given State.reset [0x00000081#32, 0x00000000#32, 0x40E77000#32])) (fun t =>
      decide (t.lifecycle = .ready ∧ t.status = 0#64 ∧ t.cp = 3 ∧ t.xoHi = 0x409F400000000000#64)) = true := by
  decide +kernel

/-- §LIFE: INIT 4000.0 raises ERR_RATE with LAST_ERR = 0x8104 and STATE stays 0. -/
theorem test_init_rate :
    got (exec (.init 0x40AF400000000000#64) State.reset) (fun t =>
      decide (t.lifecycle = .uninit ∧ t.status = 8#64 ∧ t.lastErr = 0x8104#64)) = true := by decide +kernel

/-- §LIFE: SETRATE 4000.5 with XO_LO = 2500 raises ERR_RATE; FS stays. -/
theorem test_setrate_rate :
    got (exec (.setrate 0x40AF410000000000#64) { ready with xoLo := 0x40A3880000000000#64 }) (fun t =>
      decide (t.lastErr = 0x8204#64 ∧ t.fs = 0x40E7700000000000#64)) = true := by decide +kernel

/-- §LIFE: SETRATE 44100.0 after INIT is accepted. -/
theorem test_setrate_accepted :
    got (exec (.setrate 0x40E5888000000000#64) ready) (fun t =>
      decide (t.status = 0#64 ∧ t.fs = 0x40E5888000000000#64)) = true := by decide +kernel

/-- §RDREG: WRREG XO_LO, 24000.0 is not below FS/2: ERR_RATE. -/
theorem test_wrreg_crossover :
    got (exec (.wrreg 0x0005#16 0x40D7700000000000#64) ready) (fun t =>
      decide (t.lastErr = 0xA004#64 ∧ t.xoLo = 0x4069000000000000#64)) = true := by decide +kernel

/-- §RDREG: WRREG FS is read-only: ERR_REG; WRREG C0.SEL is accepted. -/
theorem test_wrreg_access :
    got (exec (.wrreg 0x0004#16 0x40E5888000000000#64) ready) (fun t => decide (t.lastErr = 0xA005#64)) = true ∧
    got (exec (.wrreg 0x0203#16 0xBFF0000000000000#64) ready) (fun t =>
      decide (t.comps[0].sel = 0xBFF0000000000000#64 ∧ t.comps[1].sel = oneF ∧ t.status = 0#64)) = true := by
  decide +kernel

/-- §PROCESS: bypass with out1 absent copies OUT0 from IN0 and leaves OUT1 untouched. -/
theorem test_process_bypass :
    got (exec (.process true true true false 1)
        { bypassed with io := ⟨none, [(0, 0x3E800000#32), (32768, 0x3F400000#32)]⟩ }) (fun t =>
      decide (t.ioWord 2#2 0#15 = some 0x3E800000#32 ∧ t.ioWord 3#2 0#15 = none)) = true := by decide +kernel

/-- §PROCESS: the first row, in the simple topology. -/
theorem test_process_simple :
    got (processBlock cfg true true 1 { ready with io := ⟨none, [(0, 0x3F800000#32), (32768, 0x3F000000#32)]⟩ })
      (fun t => decide (t.ioWord 2#2 0#15 = some 0x3F7584D8#32 ∧ t.ioWord 3#2 0#15 = some 0x3EF584D8#32 ∧
        t.ringCell 7#3 0#15 = some 0x3FE0000000000000#64 ∧ t.pk = #v[oneF, halfF] ∧ t.rcur = 1#15)) = true := by
  decide +kernel

/-! ## The shared operations of the datapath (95_test_vectors.md) -/

/-- §SMOOTH. -/
theorem test_smooth :
    smoothValue cfg halfF 0x3F747AE147AE147B#64 zeroF = 0x3FDFD70A3D70A3D7#64 ∧
    smoothValue cfg oneF 0x3F847AE147AE147B#64 0x4022000000000000#64 = 0x3FF147AE147AE148#64 := by decide +kernel

/-- §PEAK: the decay, the floor and the snap to −0.0. -/
theorem test_peak :
    peakValue cfg halfF 0x3FD0000000000000#64 = 0x3FDFFE5C91D14E3C#64 ∧
    peakValue cfg 0x3F0A36E2EB1C432D#64 zeroF = zeroF ∧
    peakValue cfg zeroF 0x8000000000000000#64 = 0x8000000000000000#64 := by decide +kernel

/-- §XO_COEF, first row. -/
theorem test_xoCoef : xoCoef cfg 0x4069000000000000#64 0x40E7700000000000#64 Filter.powerOn = low := by decide +kernel

/-- §XO_TICK: the DOC 200 table, the tick of the unit impulse and the next one. -/
theorem test_xoTick :
    (xoTick cfg low oneF).lp = 0x3F1675A01E8C9323#64 ∧ (xoTick cfg low oneF).hp = 0x3FEFE47E31BEC7E5#64 ∧
    (xoTick cfg (xoTick cfg low oneF) zeroF).w1 = 0x3FFFC9AC895EF624#64 ∧
    (xoTick cfg (xoTick cfg low oneF) zeroF).hp = 0xBFE001662323DA94#64 := by decide +kernel

/-- §BANK: the band vectors of a unit impulse in both topologies. -/
theorem test_bank :
    (bank cfg false ready.filters oneF oneF).2 = #v[0x3E3F86D91003BFBE#64, 0x3E3F86D91003BFBE#64, 0#64, 0#64,
      0x3FEEB09AFACC8DFB#64, 0x3FEEB09AFACC8DFB#64] ∧
    (bank cfg true ready.filters oneF oneF).2 = #v[0x3F1675A01E8C9323#64, 0x3F1675A01E8C9323#64, 0x3FEFE47E31BEC7E5#64,
      0x3FEFE47E31BEC7E5#64, 0x3FEEB09AFACC8DFB#64, 0x3FEEB09AFACC8DFB#64] := by decide +kernel

/-- §POWER. -/
theorem test_power :
    power cfg halfF 0xBFD0000000000000#64 = 0x3FD4000000000000#64 ∧
    power cfg zeroF 0x8000000000000000#64 = 0x39B4484BFEEBC2A0#64 := by decide +kernel

/-- §COMP_STEP, vector V3: the downward path. -/
theorem test_compNext :
    (compNext cfg 0 0x3FD0000000000000#64
        { neutral with sel := 0x4022000000000000#64, rms := 0x3FD0000000000000#64, env := 0xC018151824C7587F#64 }).gr =
      0x3FEFE0DD87F5F14B#64 := by decide +kernel

/-- §RATIO. -/
theorem test_ratio :
    ratioOf cfg 0x3E800000#32 = 0x3FE0000000000000#64 ∧ ratioOf cfg 0x3F000001#32 = 0x3FF0000100000000#64 ∧
    ratioOf cfg 0x3F800000#32 = 0x4022000000000000#64 ∧ ratioOf cfg 0x80000000#32 = 0x8000000000000000#64 := by
  decide +kernel

/-- §RATIO: CLAMP01 and bool. -/
theorem test_clamp_bool :
    clamp01 0x3FC00000#32 = 0x3F800000#32 ∧ clamp01 0x7FC00000#32 = 0#32 ∧ clamp01 0x80000000#32 = 0x80000000#32 ∧
    boolParam cfg 0x3F000000#32 = true ∧ boolParam cfg 0x3EFFFFFF#32 = false ∧ boolParam cfg 0x7FC00000#32 = false := by
  decide +kernel

/-! ## Witnesses: a concrete state and operands that meet the hypotheses of each statement -/

/-- `ready` is as STATE says. -/
theorem ready_lifecycleOk : lifecycleOk ready := by
  show _ ∧ _
  exact ⟨rfl, rfl⟩

/-- `fed` is as STATE says. -/
theorem fed_lifecycleOk : lifecycleOk fed := by
  show _ ∧ _
  exact ⟨rfl, rfl⟩

/-- The power-on state is as STATE says. -/
theorem reset_lifecycleOk : lifecycleOk State.reset := by
  show _ = _
  rfl

/-- Every input word of `fed` is written. -/
theorem fed_inputs (b : BitVec 2) (n : Nat) : inputsWritten fed b n := fun _ _ => rfl

/-- `fed` is not bypassed and in the simple topology. -/
theorem fed_flags :
    boolParam Config.current fed.params[19] = false ∧ boolParam Config.current fed.params[4] = false :=
  ⟨rfl, rfl⟩

/-- A PROCESS of any legal count completes on `fed`. -/
theorem fed_completes (in1 out1 : Bool) (n : Int) (h0 : 0 < n) (h1 : n ≤ 32768) :
    ∃ t, exec (.process true in1 true out1 n) fed = .next t := by
  obtain ⟨ls, rs, e1, e2, _⟩ := readBlock_blockWords (s := fed) (in1 := in1) (n := n.toNat) (fed_inputs _ _) (fed_inputs _ _)
  obtain ⟨t, ht⟩ := pipeline_some (c := Config.current) (adv := boolParam Config.current fed.params[4])
    (outR := rightOut out1) (ws := ls.zip rs) (s := fed) rfl
  refine ⟨t, ?_⟩
  rw [exec_process rfl h0 h1 fed_flags.1]
  unfold processBlock
  rw [e1, e2]
  simp only
  rw [ht]

theorem witness_DecodeInvertsEncode : (Instr.process true false true false (-2147483648)).wellFormed = true := by decide

theorem witness_DecodeAcceptsTableRows :
    decode 0x000005C0#32 4#32 0#32 = .ok (.process true false true false 4) ∧
    (⟨"PROCESS", 0xFFFFF0FF#32, 0x000000C0#32⟩ : OpcodeRow) ∈ opcodeTable ∧
    (⟨"PROCESS", 0xFFFFF0FF#32, 0x000000C0#32⟩ : OpcodeRow).matchesWord 0x000005C0#32 = true ∧
    opField 0x000005C0#32 = 0xC0#8 := by decide

theorem witness_OperandsFromFields :
    decode 0x000101A2#32 0xFF800000#32 7#32 = .ok (.wrio 1#2 1#15 0xFF800000#32) := by decide

theorem witness_StepRunsDecodedCommand :
    ({ ready with undefRead := true } : State).undefRead = true ∧ (given ready [0x000005C0#32]).undefRead = false ∧
    fetchCommand (given ready [0x000005C0#32, 4#32, 0#32, 9#32]).stream = .command 0x000005C0#32 4#32 0#32 [9#32] ∧
    decode 0x000005C0#32 4#32 0#32 = .ok (.process true false true false 4) := by decide

theorem witness_IllegalCommandOnlyRecordsError :
    (given ready [0x00000083#32, 0#32, 0#32]).undefRead = false ∧
    fetchCommand (given ready [0x00000083#32, 0#32, 0#32]).stream = .command 0x00000083#32 0#32 0#32 [] ∧
    decode 0x00000083#32 0#32 0#32 = .error .reservedOpcode := by decide

theorem witness_CpAdvancesByLength :
    (∃ t, step (given ready [0x00000083#32, 0#32, 0#32]) = .next t) ∧ ∃ t, step (given ready [0x00000000#32]) = .next t :=
  ⟨⟨_, rfl⟩, ⟨_, rfl⟩⟩

theorem witness_StreamEndAndTruncation :
    State.reset.undefRead = false ∧ State.reset.stream = [] ∧
    (given ready [0x000005C0#32, 4#32]).stream = [0x000005C0#32, 4#32] ∧ (0x000005C0#32).getLsbD 7 = true := by decide

theorem witness_FaultsAreUndefReads :
    (lifecycleOk State.reset ∧ lifecycleOk ready) ∧
    (∃ t, exec (.rdreg 0x0004#16) State.reset = .next t ∧ t.undefRead = true) ∧
    (∃ t, exec (.getp 19#8) State.reset = .next t ∧ t.undefRead = true) ∧
    exec (.rdring 7#3 32767#15) State.reset = .fault .undefRingCell ∧ exec (.rdio 3#2 0#15) ready = .fault .undefIoWord ∧
    exec (.process true true true true 1) ready = .fault .undefIoWord :=
  ⟨⟨reset_lifecycleOk, ready_lifecycleOk⟩, ⟨_, rfl, rfl⟩, ⟨_, rfl, rfl⟩, rfl, rfl, rfl⟩

theorem witness_ErrorsArePrecise :
    (∃ t, step (given State.reset [0x00000001#32]) = .next t ∧ t.lastErr = 0x0102#64) ∧
    ∃ t, step (given State.reset [0x00000000#32]) = .next t ∧ t.lastErr = 0#64 := ⟨⟨_, rfl, rfl⟩, ⟨_, rfl, rfl⟩⟩

theorem witness_StatusStickyOverRuns :
    (∃ t, runSteps 2 (given State.reset [0x00000001#32, 0x00000000#32]) = .next t ∧ t.status = 2#64) ∧
    ∃ t, runSteps 1 (given State.reset [0x00000000#32]) = .next t ∧ t.status = 0#64 := ⟨⟨_, rfl, rfl⟩, ⟨_, rfl, rfl⟩⟩

theorem witness_NeedsReadyRaisesUninit :
    State.reset.lifecycle = .uninit ∧ (0 : Int) < 1 ∧
    Instr.nop.opcode ∉ [0xA0#8, 0x82#8, 0x01#8, 0xC0#8] ∧ exec .nop State.reset = .next State.reset :=
  ⟨rfl, by decide, by decide, rfl⟩

theorem witness_ReadsWriteRespOnly :
    (∃ t, exec (.rdreg 0x0000#16) ready = .next t ∧ t.resp = 1#64) ∧
    (∃ t, exec (.rdreg 0xFFFF#16) ready = .next t ∧ t.lastErr = 0x2005#64) ∧ ∃ t, exec .cleanup ready = .next t :=
  ⟨⟨_, rfl, rfl⟩, ⟨_, rfl, rfl⟩, ⟨_, rfl⟩⟩

theorem witness_ConfigurationWriters :
    (∃ t, exec (.wrio 3#2 32767#15 1#32) ready = .next t) ∧
    (Instr.wrio 3#2 32767#15 1#32).opcode ∉ [0x81#8, 0x02#8, 0x82#8, 0xA0#8, 0x90#8] := ⟨⟨_, rfl⟩, by decide⟩

theorem witness_DatapathWriters :
    (∃ t, exec (.setp 2#8 0x3F800000#32) ready = .next t) ∧
    (Instr.setp 2#8 0x3F800000#32).opcode ∉ [0x81#8, 0xC0#8, 0x01#8, 0x02#8, 0xA2#8] := ⟨⟨_, rfl⟩, by decide⟩

theorem witness_NopDoesNothing :
    (given ready [0x00000000#32]).undefRead = false ∧ (given ready [0x80000000#32]).undefRead = false ∧
    (given ready [0x00000000#32]).stream = [0x00000000#32] ∧ (given ready [0x80000000#32]).stream = [0x80000000#32] ∧
    (0x80000000#32).extractLsb' 0 8 = 0x00#8 ∧ (0x80000000#32).extractLsb' 16 16 ≠ 0#16 := by decide

theorem witness_ResetRestoresNeutral : ready.lifecycle = .ready := rfl

theorem witness_InitSetsEveryElement :
    rateOk Config.current 0x40AF400000000001#64 0x4069000000000000#64 0x409F400000000000#64 = true := by decide +kernel

theorem witness_InitAcceptsRatesAbove4000 :
    rateOk cfg 0x40AF400000000001#64 0x4069000000000000#64 0x409F400000000000#64 = true ∧
    rateOk cfg 0x7FEFFFFFFFFFFFFF#64 0x4069000000000000#64 0x409F400000000000#64 = true ∧
    rateOk cfg 0x7FF8000000000000#64 0x4069000000000000#64 0x409F400000000000#64 = false := by decide +kernel

theorem witness_InvalidRateRaisesErrRate :
    rateOk Config.current 0x40AF400000000000#64 0x4069000000000000#64 0x409F400000000000#64 = false ∧
    ready.lifecycle = .ready ∧ rateOk Config.current 0x40AF400000000000#64 ready.xoLo ready.xoHi = false := by
  decide +kernel

theorem witness_SetrateRederives :
    ready.lifecycle = .ready ∧ rateOk Config.current 0x40AF400000000001#64 ready.xoLo ready.xoHi = true := by
  decide +kernel

theorem witness_SetpStoresClampedAndDerives :
    (0#8).toNat < 20 ∧ (2#8).toNat < 20 ∧ (3#8).toNat < 20 ∧ (8#8).toNat < 20 ∧ (19#8).toNat < 20 := by decide

theorem witness_GetpReturnsRawBits :
    ready.paramSet[19] = true ∧ State.reset.paramSet[19] = false ∧ 20 ≤ (20#8).toNat := by decide

theorem witness_ParameterRoundTrip :
    (19#8).toNat < 20 ∧ paramInUnit 0x80000000#32 = true ∧ paramInUnit 0x3F800000#32 = true := by decide +kernel

theorem witness_ClampKeepsUnitInterval :
    isNaN32 0x7FC00000#32 = true ∧ fltLt32 0x80000001#32 0x00000000#32 = true ∧
    fltLt32 0x3F800000#32 0x3F800001#32 = true ∧ paramInUnit 0x3F800000#32 = true := by decide +kernel

theorem witness_RegisterMap :
    regAt 0x0159#16 = some (.filter 5 .freq) ∧ regAt 0x022C#16 = some (.comp 2 .red) ∧ regAt 0x015A#16 = none ∧
    regAt 0x022D#16 = none := by decide

theorem witness_RdregReturnsRegister :
    regAt 0x022C#16 = some (.comp 2 .red) ∧ ready.regDefined (.comp 2 .red) = true ∧
    State.reset.regDefined (.comp 2 .red) = false ∧ regAt 0x022D#16 = none ∧ ready.initDone = true ∧
    ready.paramSet[2] = true ∧ ready.paramSet[3] = true ∧ ready.paramSet[8 + 2] = true := by decide

theorem witness_WrregCrossover :
    ready.lifecycle = .ready ∧
    (fltLt zeroF 0x40D76FFFFFFFFFFF#64 = true ∧
      fltLt 0x40D76FFFFFFFFFFF#64 (fmul Config.current ready.fs halfF) = true) ∧
    ¬(fltLt zeroF 0x40D7700000000000#64 = true ∧
      fltLt 0x40D7700000000000#64 (fmul Config.current ready.fs halfF) = true) := by decide +kernel

theorem witness_WrregCompressor : ready.lifecycle = .ready := rfl

theorem witness_WrregReadOnlyRaisesErrReg :
    ready.lifecycle = .ready ∧ regAt 0x0009#16 = none ∧ regAt 0x0004#16 = some .fs ∧ Reg.fs.writable = false := by decide

theorem witness_WrregThenRdreg :
    ready.initDone = true ∧ marksOk ready ∧ regAt 0x022A#16 = some (.comp 2 .auxKnee) ∧
    (Reg.comp 2 .auxKnee).writable = true ∧ ready.lifecycle = .ready ∧
    (∃ t, exec (.wrreg 0x022A#16 0x7FF0000000000001#64) ready = .next t) ∧
    (Reg.comp 2 .auxKnee = .xoLo ∨ Reg.comp 2 .auxKnee = .xoHi →
      crossoverOk Config.current 0x7FF0000000000001#64 ready.fs = true) :=
  ⟨rfl, fun _ => by decide, by decide, rfl, rfl, ⟨_, rfl⟩, by decide⟩

theorem witness_WrregThenRdreg_crossover :
    (∃ t, exec (.wrreg 0x0006#16 0x4062C00000000000#64) ready = .next t) ∧
    crossoverOk Config.current 0x4062C00000000000#64 ready.fs = true := by
  exact ⟨⟨_, rfl⟩, by decide +kernel⟩

theorem witness_RdringReturnsCell :
    ready.ringCell 7#3 32767#15 = some zeroF ∧ State.reset.ringCell 7#3 32767#15 = none ∧
    lifecycleOk ready ∧ lifecycleOk State.reset := ⟨rfl, rfl, ready_lifecycleOk, reset_lifecycleOk⟩

theorem witness_WrioThenRdio :
    fed.ioWord 3#2 32767#15 = some 0x3F000000#32 ∧ ready.ioWord 3#2 32767#15 = none ∧ (2#2 ≠ 3#2 ∨ 0#15 ≠ 32767#15) :=
  ⟨rfl, rfl, by decide⟩

/-- A state in which a bypassed PROCESS writes two words. -/
def twoWords : State := { bypassed with io := ⟨none, [(0, 1#32), (32768, 2#32)]⟩ }

theorem witness_ProcessChecksInOrder :
    (given ready [0x00001FC0#32, 1#32, 0#32]).undefRead = false ∧
    (given ready [0x00001FC0#32, 1#32, 0#32]).stream = [0x00001FC0#32, 1#32, 0#32] ∧
    ((0x00001FC0#32).extractLsb' 0 8 = 0xC0#8 ∧ (0x00001FC0#32).extractLsb' 12 4 ≠ 0#4) ∧
    State.reset.lifecycle = .uninit ∧ (32768 : Int) < 32769 ∧ ready.lifecycle = .ready ∧
    got (exec (.process true true true true 1) twoWords) (fun t =>
      decide (t ≠ twoWords ∧ t.status = twoWords.status ∧ t.lastErr = twoWords.lastErr)) = true := by decide +kernel

theorem witness_BypassCopiesWords :
    bypassed.lifecycle = .ready ∧ (0 : Int) < 32768 ∧ (32768 : Int) ≤ 32768 ∧
    boolParam Config.current bypassed.params[19] = true ∧
    inputsWritten bypassed 0#2 32768 ∧ inputsWritten bypassed 1#2 32768 :=
  ⟨rfl, by decide, by decide, rfl, fun _ _ => rfl, fun _ _ => rfl⟩

theorem witness_ProcessBlockCompletes :
    fed.lifecycle = .ready ∧ lifecycleOk fed ∧ (0 : Int) < 32768 ∧ (32768 : Int) ≤ 32768 ∧
    boolParam Config.current fed.params[19] = false ∧ inputsWritten fed 0#2 32768 ∧
    inputsWritten fed 1#2 32768 :=
  ⟨rfl, fed_lifecycleOk, by decide, by decide, rfl, fed_inputs _ _, fed_inputs _ _⟩

theorem witness_ProcessWritesOnly : ∃ t, exec (.process true true true false 32768) fed = .next t :=
  fed_completes _ _ _ (by decide) (by decide)

theorem witness_ProcessIsRingFreePipeline :
    fed.lifecycle = .ready ∧ lifecycleOk fed ∧ (0 : Int) < 32768 ∧ (32768 : Int) ≤ 32768 ∧
    boolParam Config.current fed.params[19] = false ∧ inputsWritten fed 0#2 32768 ∧
    inputsWritten fed 1#2 32768 :=
  ⟨rfl, fed_lifecycleOk, by decide, by decide, rfl, fed_inputs _ _, fed_inputs _ _⟩

theorem witness_RingHistoryInvisible :
    fed.ring.fill.isSome = true ∧ (Memory.filled oneF).fill.isSome = true ∧
    ∃ t, exec (.process true true true true 32768) fed = .next t :=
  ⟨rfl, rfl, fed_completes _ _ _ (by decide) (by decide)⟩

theorem witness_SimpleTopologySilencesMidBand :
    fed.lifecycle = .ready ∧ boolParam Config.current fed.params[19] = false ∧
    boolParam Config.current fed.params[4] = false ∧ ∃ t, exec (.process true true true true 32768) fed = .next t :=
  ⟨rfl, rfl, rfl, fed_completes _ _ _ (by decide) (by decide)⟩

theorem witness_MonoInputKeepsLanesEqual :
    lanesEqual fed ∧ ∃ t, exec (.process true false true true 32768) fed = .next t :=
  ⟨⟨rfl, rfl, rfl, rfl⟩, fed_completes _ _ _ (by decide) (by decide)⟩

theorem witness_InertParametersHaveNoEffect :
    agreeButInert fed { fed with params := fed.params.set 18 0x3F800000#32 } ∧
    ∀ idx, Instr.process true true true true 32768 = .getp idx → inertParam idx.toNat = false :=
  ⟨⟨rfl, by decide⟩, fun _ h => by cases h⟩

theorem witness_MetersAffectNothing :
    agreeButMeters fed { fed with
      pk := #v[oneF, oneF], mgr := #v[oneF, oneF, oneF], mrms := #v[oneF, oneF, oneF], rcur := 5#15
      filters := fed.filters.set 5 { high with lp := oneF, hp := oneF }
      comps := fed.comps.set 2 { neutral with path := true, red := halfF } } ∧
    ∀ a, Instr.process true true true true 32768 ≠ .rdreg a :=
  ⟨⟨rfl, by decide, by decide⟩, fun _ h => by cases h⟩

theorem witness_SmoothStepAndFixedPoint :
    isFinite64 0x7FEFFFFFFFFFFFFF#64 = true ∧ (0x7FEFFFFFFFFFFFFF#64 : F64) ≠ 0x8000000000000000#64 ∧
    fltLt zeroF 0x0000000000000001#64 = true ∧ fltLe oneF oneF = true := by decide +kernel

theorem witness_PeakDecaysSnapsAndFloors :
    fltLt oneF oneF = false ∧ (fltLt zeroF 0x0000000000000001#64 = true ∧
      fltLt (fsub cfg 0x0000000000000001#64 cfg.decayRate) zeroF = true) ∧
    (fltLt zeroF oneF = true ∧ fltLt (fsub cfg oneF cfg.decayRate) zeroF = false) ∧
    isNaN64 0x7FF0000000000001#64 = true ∧ fltLe zeroF zeroF = true := by decide +kernel

theorem witness_SilenceKeepsFilterAtZero :
    low.w1 = 0#64 ∧ low.w2 = 0#64 ∧ fltEq 0x8000000000000000#64 zeroF = true ∧ isFinite64 low.a1 = true ∧
    isFinite64 low.a2 = true ∧ isFinite64 low.b1 = true ∧ isFinite64 low.b2 = true ∧ low.a1.getLsbD 63 = false := by
  decide +kernel

theorem witness_ParametersNeverSelectPrimary :
    (∃ t, exec (.setp 3#8 0x00000000#32) ready = .next t) ∧ isNaN64 0x7FF0000000000001#64 = true :=
  ⟨⟨_, rfl⟩, by decide +kernel⟩

theorem witness_GainStaysInRangeOrNaN :
    cfg.rows.pathPrimary = none ∧ cfg.rows.pathAlt = none ∧ cfg.rows.gainFloor = none := ⟨rfl, rfl, rfl⟩

theorem witness_RatioOneIsTransparent :
    let k := pathRegs neutral
    cfg.rows.log2db = none ∧ cfg.rows.gainFloor = none ∧ cfg.exp 0x0000000000000000#64 = oneF ∧
    cfg.exp 0x8000000000000000#64 = oneF ∧ k.upr = oneF ∧ k.sel = oneF ∧ k.gr = oneF ∧
    isFinite64 (fsub cfg k.thr 0xC018151824C7587F#64) = true ∧ isFinite64 k.cAtt = true ∧
    isFinite64 k.cRel = true ∧ cfg.rows.pathPrimary = none ∧ cfg.rows.pathAlt = none ∧
    isFinite64 (fsub cfg k.thr (compNext cfg 2 0x3FD0000000000000#64 neutral).env) = true :=
  ⟨rfl, rfl, by decide +kernel, by decide +kernel, rfl, rfl, rfl, by decide +kernel, by decide +kernel, by decide +kernel,
    rfl, rfl, by decide +kernel⟩

theorem witness_OrderedComparison :
    isNaN64 0xFFF0000000000001#64 = true ∧ isNaN64 0x7FF0000000000000#64 = false ∧
    unpack64 0x0000000000000001#64 = .fin false 1 (-1074) ∧ unpack64 0xFFF0000000000000#64 = .inf true := by
  decide +kernel

theorem witness_RoundingIsNearestEvenAndExact :
    2 * (2 ^ 1 * roundShift 5 1) + 2 ^ 1 = 2 * 5 ∧ unpack64 0x0000000000000001#64 = .fin false 1 (-1074) ∧
    unpack32 0x80000001#32 = .fin true 1 (-149) ∧ unpack64 0x8000000000000000#64 = .fin true 0 (-1074) := by decide +kernel

/-- The conditions on the operands' numbers in the clauses on division and the root. -/
theorem witness_RoundingIsNearestEvenAndExact_operands :
    finValue false 1 (-1074) ≠ 0 ∧ finValue true 0 (-1074) = 0 ∧ 0 ≤ finValue true 0 (-1074) ∧
    finValue true 1 (-1074) < 0 := by
  refine ⟨?_, ?_, ?_, ?_⟩ <;> simp [finValue]

/-- 2 / 3 and the root of 2 round to nearest (the values of IEEE 754 binary64). -/
theorem test_div_sqrt :
    fdiv cfg twoF 0x4008000000000000#64 = 0x3FE5555555555555#64 ∧ fsqrt cfg twoF = 0x3FF6A09E667F3BCD#64 := by
  decide +kernel

theorem witness_WidenThenNarrow :
    unpack32 0x80000001#32 = .fin true 1 (-149) ∧ unpack32 0x00800000#32 = .fin false (2 ^ 23) (-149) ∧
    unpack32 0xFF800000#32 = .inf true ∧
    isNaN32 0xFF800000#32 = false ∧ isNaN32 0x00000001#32 = false ∧ isNaN32 0x7F800001#32 = true := by decide +kernel

theorem witness_PowerOnState :
    exec (.rdring 7#3 32767#15) State.reset = .fault .undefRingCell ∧
    exec (.rdio 3#2 32767#15) State.reset = .fault .undefIoWord := ⟨rfl, rfl⟩

/-- The state for the invariants: INIT stands next in the stream of a block that was initialised before. -/
def due : State := given ready [0x00000081#32, 0x00000000#32, 0x40E77000#32]

/-- The next step of `due` completes. -/
theorem due_steps : ∃ t, step due = .next t := by
  have h : rateOk Config.current 0x40E7700000000000#64 Config.xoLoDefault Config.xoHiDefault = true := by decide +kernel
  have e : step due = execInit 0x40E7700000000000#64 (due.consume 3 []) := rfl
  rw [e, execInit]
  exact ⟨_, if_pos h⟩

theorem witness_StepKeepsMemoriesCanonical : memoriesWf due = true ∧ ∃ t, step due = .next t := ⟨rfl, due_steps⟩

theorem witness_StepKeepsLifecycle : (lifecycleOk due ∧ marksOk due) ∧ ∃ t, step due = .next t :=
  ⟨⟨ready_lifecycleOk, fun _ => by decide⟩, due_steps⟩

theorem witness_StepKeepsErrorRegisters : errorRegsOk due ∧ ∃ t, step due = .next t :=
  ⟨⟨by decide, .inl ⟨rfl, rfl⟩⟩, due_steps⟩

/-- Half of 48000 under every configuration. -/
theorem half_rate (c : Config) : fmul c 0x40E7700000000000#64 halfF = 0x40D7700000000000#64 := rfl

/-- Both crossovers of `ready` are in their domain under every configuration. -/
theorem ready_crossovers (c : Config) : crossoverOk c due.xoLo due.fs = true ∧ crossoverOk c due.xoHi due.fs = true := by
  show crossoverOk c 0x4069000000000000#64 0x40E7700000000000#64 = true ∧
    crossoverOk c 0x409F400000000000#64 0x40E7700000000000#64 = true
  unfold crossoverOk
  rw [half_rate]
  decide +kernel

theorem witness_StepKeepsRatesAndCoefficients : (ratesOk due ∧ filtersOk due) ∧ ∃ t, step due = .next t :=
  ⟨⟨fun _ => ⟨by decide +kernel, by decide +kernel, ready_crossovers⟩, fun _ => ⟨by decide, by decide⟩⟩, due_steps⟩

theorem witness_StepKeepsParametersAndSmoothers :
    ((paramsOk due ∧ derivedOk due) ∧ smoothersOk due ∧ cursorsOk due) ∧ ∃ t, step due = .next t := by
  refine ⟨⟨⟨by unfold paramsOk; decide +kernel, fun _ => rfl, fun _ => rfl, fun b _ => ?_⟩, fun _ => ?_, rfl⟩, due_steps⟩
  · fin_cases b <;> rfl
  · decide +kernel

end Sys2Proof.Tests
end

section
/-! SUPPORT. The values of a binary format as a grid (00_scope.md R11, R12, R14). The magnitude bits of a finite pattern, read
as a number p, stand for a number of units 2^emin that rises with p; the grid goes on past the largest finite value, where the
infinity stands at the place `fpInfBits`. Comparison and rounding are facts about this grid. -/

namespace Sys2Proof.Machine

open Sys2Proof

/-! ## The grid -/

/-- What the magnitude bits `p` stand for in units of 2^emin, for F fraction bits and an exponent field of any size. -/
def fpGrid (F p : Nat) : Nat :=
  if p < 2 ^ F then p else (p % 2 ^ F + 2 ^ F) * 2 ^ (p / 2 ^ F - 1)

/-- The grid in scaled form: K is the number of binades above the subnormals, n the significand. The end n = 2^(F+1) of a
binade is the start of the next. -/
theorem fpGrid_scaled {F K n : Nat} (hn : n ≤ 2 ^ (F + 1)) (hK : K = 0 ∨ 2 ^ F ≤ n) :
    fpGrid F (K * 2 ^ F + n) = n * 2 ^ K := by
  have hpos : 0 < 2 ^ F := by positivity
  rw [pow_succ] at hn
  rcases lt_or_ge n (2 ^ F) with hlt | hge
  · obtain rfl : K = 0 := by omega
    simp [fpGrid, hlt]
  · have hbig : ¬ K * 2 ^ F + n < 2 ^ F := by
      have := Nat.zero_le (K * 2 ^ F)
      omega
    rcases hn.lt_or_eq with hlt | rfl
    · have hsum : K * 2 ^ F + n = (n - 2 ^ F) + (K + 1) * 2 ^ F := by
        rw [Nat.add_mul]
        omega
      have hmod : (K * 2 ^ F + n) % 2 ^ F = n - 2 ^ F := by
        rw [hsum, Nat.add_mul_mod_self_right, Nat.mod_eq_of_lt (by omega)]
      have hdiv : (K * 2 ^ F + n) / 2 ^ F = K + 1 := by
        rw [hsum, Nat.add_mul_div_right _ _ hpos, Nat.div_eq_of_lt (by omega), Nat.zero_add]
      rw [fpGrid, if_neg hbig, hmod, hdiv, Nat.sub_add_cancel hge, Nat.add_sub_cancel]
    · have hsum : K * 2 ^ F + 2 ^ F * 2 = (K + 2) * 2 ^ F := by ring
      rw [fpGrid, if_neg hbig, hsum, Nat.mul_mod_left, Nat.mul_div_cancel _ hpos]
      simp only [Nat.zero_add, Nat.add_succ_sub_one]
      ring

/-- Every place on the grid has a scaled form. -/
theorem exists_scaled (F p : Nat) :
    ∃ K n, p = K * 2 ^ F + n ∧ n < 2 ^ (F + 1) ∧ (K = 0 ∨ 2 ^ F ≤ n) := by
  have hmod : p % 2 ^ F < 2 ^ F := Nat.mod_lt _ (by positivity)
  have hdm := Nat.div_add_mod' p (2 ^ F)
  rw [pow_succ]
  rcases Nat.eq_zero_or_pos (p / 2 ^ F) with h0 | h0
  · exact ⟨0, p, by omega, by rw [h0] at hdm; omega, .inl rfl⟩
  · refine ⟨p / 2 ^ F - 1, p % 2 ^ F + 2 ^ F, ?_, by omega, .inr (by omega)⟩
    obtain ⟨k, hk⟩ := Nat.exists_eq_succ_of_ne_zero h0.ne'
    rw [hk, Nat.succ_mul] at hdm
    rw [hk, Nat.succ_sub_one]
    omega

theorem fpGrid_strictMono (F : Nat) : StrictMono (fpGrid F) := by
  refine strictMono_nat_of_lt_succ fun p => ?_
  obtain ⟨K, n, rfl, hn, hK⟩ := exists_scaled F p
  rw [Nat.add_assoc, fpGrid_scaled hn.le hK, fpGrid_scaled (by omega) (by omega)]
  exact Nat.mul_lt_mul_of_pos_right (Nat.lt_succ_self n) (by positivity)

@[simp] theorem fpGrid_zero (F : Nat) : fpGrid F 0 = 0 := by simp [fpGrid]

/-! ## Patterns -/

/-- The magnitude bits of a pattern. -/
def fpMag (f : FpFormat) (b : Nat) : Nat := b % 2 ^ (f.expBits + f.fracBits)

/-- The sign bit of a pattern. -/
def fpNeg (f : FpFormat) (b : Nat) : Bool := b.testBit (f.expBits + f.fracBits)

theorem fpInfBits_eq (f : FpFormat) : fpInfBits f = (2 ^ f.expBits - 1) * 2 ^ f.fracBits := Nat.shiftLeft_eq _ _

theorem fpInfBits_lt (f : FpFormat) : fpInfBits f < 2 ^ (f.expBits + f.fracBits) := by
  rw [fpInfBits_eq, pow_add]
  exact Nat.mul_lt_mul_of_pos_right (Nat.sub_lt (by positivity) Nat.one_pos) (by positivity)

theorem fpSign_eq (f : FpFormat) (neg : Bool) : fpSign f neg = neg.toNat * 2 ^ (f.expBits + f.fracBits) :=
  Nat.shiftLeft_eq _ _

theorem fpMag_sign_add {f : FpFormat} (neg : Bool) {p : Nat} (hp : p ≤ fpInfBits f) : fpMag f (fpSign f neg + p) = p := by
  rw [fpMag, fpSign_eq, Nat.add_comm, Nat.add_mul_mod_self_right]
  exact Nat.mod_eq_of_lt (hp.trans_lt (fpInfBits_lt f))

theorem fpNeg_sign_add {f : FpFormat} (neg : Bool) {p : Nat} (hp : p ≤ fpInfBits f) : fpNeg f (fpSign f neg + p) = neg := by
  rw [fpNeg, fpSign_eq, Nat.testBit_eq_decide_div_mod_eq, Nat.add_comm, Nat.add_mul_div_right _ _ (by positivity),
    Nat.div_eq_of_lt (hp.trans_lt (fpInfBits_lt f))]
  cases neg <;> rfl

/-- A pattern of the format's width is its sign above its magnitude bits. -/
theorem fpSign_add_fpMag {f : FpFormat} {b : Nat} (hb : b < 2 ^ (f.expBits + f.fracBits + 1)) :
    fpSign f (fpNeg f b) + fpMag f b = b := by
  have hq : b / 2 ^ (f.expBits + f.fracBits) < 2 := by
    rw [Nat.div_lt_iff_lt_mul (by positivity)]
    rwa [pow_succ, Nat.mul_comm] at hb
  have hneg : (fpNeg f b).toNat = b / 2 ^ (f.expBits + f.fracBits) := by
    rw [fpNeg, Nat.testBit_eq_decide_div_mod_eq]
    rcases Nat.lt_succ_iff_lt_or_eq.1 hq with h | h
    · simp [Nat.lt_one_iff.1 h]
    · simp [h]
  rw [fpSign_eq, hneg, fpMag, Nat.div_add_mod']

/-- Unpacking reads the exponent field and the fraction off the magnitude bits. -/
theorem fpUnpack_eq (f : FpFormat) (b : Nat) :
    fpUnpack f b =
      if fpMag f b / 2 ^ f.fracBits = 2 ^ f.expBits - 1 then
        (if fpMag f b % 2 ^ f.fracBits = 0 then .inf (fpNeg f b) else .nan)
      else if fpMag f b / 2 ^ f.fracBits = 0 then .fin (fpNeg f b) (fpMag f b % 2 ^ f.fracBits) (fpEmin f)
      else .fin (fpNeg f b) (fpMag f b % 2 ^ f.fracBits + 2 ^ f.fracBits)
        (((fpMag f b / 2 ^ f.fracBits : Nat) : Int) - 1 + fpEmin f) := by
  have hex : b >>> f.fracBits % 2 ^ f.expBits = fpMag f b / 2 ^ f.fracBits := by
    rw [fpMag, Nat.shiftRight_eq_div_pow, pow_add, Nat.mul_comm, Nat.mod_mul_right_div_self]
  have hfr : b % 2 ^ f.fracBits = fpMag f b % 2 ^ f.fracBits := by
    rw [fpMag, pow_add, Nat.mod_mul_left_mod]
  rw [← hex, ← hfr]
  rfl

/-- What the bit pattern `b` stands for, by the place of its magnitude bits: past the infinity it is a NaN, at it an
infinity, and below it a finite value whose significand and exponent are those of the grid. -/
theorem fpUnpack_cases (f : FpFormat) (b : Nat) :
    (fpInfBits f < fpMag f b ∧ fpUnpack f b = .nan) ∨
    (fpMag f b = fpInfBits f ∧ fpUnpack f b = .inf (fpNeg f b)) ∨
    (fpMag f b < fpInfBits f ∧ ∃ K m : Nat, fpUnpack f b = .fin (fpNeg f b) m (fpEmin f + K) ∧
      fpMag f b = K * 2 ^ f.fracBits + m ∧ m < 2 ^ (f.fracBits + 1) ∧ (K = 0 ∨ 2 ^ f.fracBits ≤ m)) := by
  have hpos : 0 < 2 ^ f.fracBits := by positivity
  have hlt : fpMag f b < 2 ^ f.expBits * 2 ^ f.fracBits := by
    rw [← pow_add]
    exact Nat.mod_lt _ (by positivity)
  rw [fpUnpack_eq, fpInfBits_eq, pow_succ]
  generalize fpMag f b = p at *
  have hx := (Nat.div_lt_iff_lt_mul hpos).2 hlt
  have hmod : p % 2 ^ f.fracBits < 2 ^ f.fracBits := Nat.mod_lt _ hpos
  have hdm := Nat.div_add_mod' p (2 ^ f.fracBits)
  generalize p / 2 ^ f.fracBits = x at *
  by_cases htop : x = 2 ^ f.expBits - 1
  · rw [if_pos htop, ← htop]
    by_cases h0 : p % 2 ^ f.fracBits = 0
    · exact .inr (.inl ⟨by omega, if_pos h0⟩)
    · exact .inl ⟨by omega, if_neg h0⟩
  · have hbelow : (x + 1) * 2 ^ f.fracBits ≤ (2 ^ f.expBits - 1) * 2 ^ f.fracBits := Nat.mul_le_mul_right _ (by omega)
    rw [Nat.succ_mul] at hbelow
    rw [if_neg htop]
    refine .inr (.inr ⟨by omega, ?_⟩)
    by_cases h0 : x = 0
    · subst h0
      exact ⟨0, p % 2 ^ f.fracBits, by simp, by omega, by omega, .inl rfl⟩
    · obtain ⟨k, rfl⟩ := Nat.exists_eq_succ_of_ne_zero h0
      rw [Nat.succ_mul] at hdm
      refine ⟨k, p % 2 ^ f.fracBits + 2 ^ f.fracBits, ?_, by omega, by omega, .inr (by omega)⟩
      rw [if_neg h0]
      congr 1
      push_cast
      ring

theorem fpUnpack_nan_iff {f : FpFormat} {b : Nat} : fpUnpack f b = .nan ↔ fpInfBits f < fpMag f b := by
  rcases fpUnpack_cases f b with ⟨hp, hu⟩ | ⟨hp, hu⟩ | ⟨hp, K, m, hu, -⟩ <;> simp [hu] <;> omega

theorem fpUnpack_inf_iff {f : FpFormat} {b : Nat} {s : Bool} :
    fpUnpack f b = .inf s ↔ fpMag f b = fpInfBits f ∧ fpNeg f b = s := by
  rcases fpUnpack_cases f b with ⟨hp, hu⟩ | ⟨hp, hu⟩ | ⟨hp, K, m, hu, -⟩ <;> simp [hu] <;> omega

/-- The scaled form of a finite pattern. -/
theorem fpUnpack_fin {f : FpFormat} {b : Nat} {s : Bool} {m : Nat} {e : Int} (h : fpUnpack f b = .fin s m e) :
    fpNeg f b = s ∧ fpMag f b < fpInfBits f ∧ ∃ K : Nat, e = fpEmin f + K ∧ fpMag f b = K * 2 ^ f.fracBits + m ∧
      m < 2 ^ (f.fracBits + 1) ∧ (K = 0 ∨ 2 ^ f.fracBits ≤ m) := by
  rcases fpUnpack_cases f b with ⟨-, hu⟩ | ⟨-, hu⟩ | ⟨hp, K, m', hu, hmag, hm, hK⟩
  · rw [hu] at h; cases h
  · rw [hu] at h; cases h
  · rw [hu] at h
    cases h
    exact ⟨rfl, hp, K, rfl, hmag, hm, hK⟩

/-! ## The number of a finite pattern -/

/-- The sign of a value as a factor. -/
def signOf (neg : Bool) : ℚ := if neg then -1 else 1

theorem finValue_eq (neg : Bool) (m : Nat) (e : Int) : finValue neg m e = signOf neg * ((m : ℚ) * 2 ^ e) := by
  rw [finValue, signOf, mul_assoc]

/-- A finite pattern's number is its place on the grid, times the unit 2^emin, with its sign. -/
theorem finValue_of_fpUnpack {f : FpFormat} {b : Nat} {s : Bool} {m : Nat} {e : Int} (h : fpUnpack f b = .fin s m e) :
    finValue s m e = signOf s * (fpGrid f.fracBits (fpMag f b) * 2 ^ fpEmin f) := by
  obtain ⟨-, -, K, rfl, hmag, hm, hK⟩ := fpUnpack_fin h
  rw [finValue_eq, hmag, fpGrid_scaled hm.le hK, zpow_add₀ two_ne_zero, zpow_natCast]
  push_cast
  ring

/-- Below the infinity a pattern stands for a finite value of its sign. -/
theorem exists_fin_of_fpMag_lt {f : FpFormat} {b : Nat} (h : fpMag f b < fpInfBits f) :
    ∃ m e, fpUnpack f b = .fin (fpNeg f b) m e := by
  rcases fpUnpack_cases f b with ⟨hp, -⟩ | ⟨hp, -⟩ | ⟨-, K, m, hu, -⟩
  · omega
  · omega
  · exact ⟨m, _, hu⟩

end Sys2Proof.Machine
end

section
/-! SUPPORT. Ordered comparison (00_scope.md R14): the comparisons of the model compare places on the grid of a format, and the
numbers the patterns stand for rise with the place, the infinities at the ends. -/

namespace Sys2Proof.Machine

open Sys2Proof

/-- The grid on both sides of zero. -/
def signedGrid (F : Nat) (k : Int) : Int := k.sign * fpGrid F k.natAbs

theorem signedGrid_natCast (F n : Nat) : signedGrid F n = fpGrid F n := by
  rcases Nat.eq_zero_or_pos n with rfl | h
  · simp [signedGrid]
  · rw [signedGrid, Int.sign_natCast_of_ne_zero h.ne', Int.natAbs_natCast, one_mul]

theorem signedGrid_neg (F : Nat) (k : Int) : signedGrid F (-k) = -signedGrid F k := by
  simp [signedGrid]

theorem signedGrid_strictMono (F : Nat) : StrictMono (signedGrid F) := by
  refine strictMono_of_odd_strictMonoOn_nonneg (signedGrid_neg F) fun a ha b hb hab => ?_
  lift a to Nat using ha
  lift b to Nat using hb
  rw [signedGrid_natCast, signedGrid_natCast]
  exact_mod_cast fpGrid_strictMono F (by exact_mod_cast hab)

/-- The place of a pattern on the number line. -/
def fpKey (f : FpFormat) (b : Nat) : Int := if fpNeg f b then -(fpMag f b : Int) else (fpMag f b : Int)

/-- The value `v` stands at the place `k` of the number line: an infinity at an end, a finite value within, where its number is
that of the grid. -/
def valueAt (f : FpFormat) : FpValue → Int → Prop
  | .nan, _ => False
  | .inf s, k => k = if s then -(fpInfBits f : Int) else (fpInfBits f : Int)
  | .fin s m e, k =>
    -(fpInfBits f : Int) < k ∧ k < fpInfBits f ∧ finValue s m e = signedGrid f.fracBits k * 2 ^ fpEmin f

/-- A pattern that is no NaN stands at its place. -/
theorem valueAt_fpKey {f : FpFormat} {b : Nat} (h : fpMag f b ≤ fpInfBits f) : valueAt f (fpUnpack f b) (fpKey f b) := by
  rcases fpUnpack_cases f b with ⟨hp, hu⟩ | ⟨hp, hu⟩ | ⟨hp, K, m, hu, -⟩
  · omega
  · rw [hu]
    simp only [valueAt, fpKey, hp]
  · have hv := finValue_of_fpUnpack hu
    rw [hu]
    simp only [valueAt, hv, fpKey]
    cases fpNeg f b
    · simp [signedGrid_natCast, signOf]
      omega
    · simp [signedGrid_natCast, signedGrid_neg, signOf]
      omega

section
variable {f : FpFormat} {u v : FpValue} {j k : Int}

/-- An infinity stands away from zero. -/
theorem fpInfBits_pos (hE : 1 ≤ f.expBits) : 0 < fpInfBits f := by
  rw [fpInfBits_eq]
  have : 2 ^ 1 ≤ 2 ^ f.expBits := Nat.pow_le_pow_right (by norm_num) hE
  exact Nat.mul_pos (by omega) (by positivity)

/-- Values compare as their places do. -/
theorem compare_of_valueAt (hE : 1 ≤ f.expBits) (hu : valueAt f u j) (hv : valueAt f v k) :
    valueLt u v = decide (j < k) ∧ valueEq u v = decide (j = k) := by
  have hI := fpInfBits_pos hE
  have hunit : (0 : ℚ) < 2 ^ fpEmin f := by positivity
  match u, v, hu, hv with
  | .inf s, .inf t, hu, hv =>
    subst hu hv
    cases s <;> cases t <;> simp [valueLt, valueEq] <;> omega
  | .inf s, .fin t m e, hu, ⟨hlo, hhi, _⟩ =>
    subst hu
    cases s <;> simp [valueLt, valueEq] <;> omega
  | .fin s m e, .inf t, ⟨hlo, hhi, _⟩, hv =>
    subst hv
    cases t <;> simp [valueLt, valueEq] <;> omega
  | .fin s m e, .fin t n d, ⟨_, _, hj⟩, ⟨_, _, hk⟩ =>
    rw [valueLt, valueEq, hj, hk, decide_eq_decide, decide_eq_decide, mul_lt_mul_iff_left₀ hunit, mul_left_inj' hunit.ne',
      Int.cast_lt, Int.cast_inj, (signedGrid_strictMono _).lt_iff_lt, (signedGrid_strictMono _).injective.eq_iff]
    exact ⟨Iff.rfl, Iff.rfl⟩

end

/-- A NaN is below nothing, above nothing and equal to nothing. -/
theorem valueLt_nan_right (u : FpValue) : valueLt u .nan = false := by cases u <;> rfl

theorem valueEq_nan_right (u : FpValue) : valueEq u .nan = false := by cases u <;> rfl

/-! ## The two formats -/

theorem isNaN64_iff {x : F64} : isNaN64 x = true ↔ unpack64 x = .nan := by
  rw [unpack64, fpUnpack_nan_iff]
  exact decide_eq_true_iff

theorem isNaN32_iff {x : F32} : isNaN32 x = true ↔ unpack32 x = .nan := by
  rw [unpack32, fpUnpack_nan_iff]
  exact decide_eq_true_iff

/-- A binary64 pattern that is no NaN stands at its key. -/
theorem valueAt_fpKey64 {x : F64} (h : isNaN64 x = false) : valueAt binary64 (unpack64 x) (fpKey64 x) :=
  valueAt_fpKey (Nat.not_lt.1 fun hlt => by simp [isNaN64_iff.2 (fpUnpack_nan_iff.2 hlt)] at h)

/-- A binary32 pattern that is no NaN stands at its key. -/
theorem valueAt_fpKey32 {x : F32} (h : isNaN32 x = false) : valueAt binary32 (unpack32 x) (fpKey32 x) :=
  valueAt_fpKey (Nat.not_lt.1 fun hlt => by simp [isNaN32_iff.2 (fpUnpack_nan_iff.2 hlt)] at h)

/-- No comparison with a NaN holds (00_scope.md R14). -/
theorem flt_of_nan {a b : F64} (h : isNaN64 a = true ∨ isNaN64 b = true) :
    fltLt a b = false ∧ fltLe a b = false ∧ fltEq a b = false := by
  rcases h with h | h <;> simp [fltLt, fltLe, fltEq, h]

theorem fltLt_eq_valueLt (a b : F64) : fltLt a b = valueLt (unpack64 a) (unpack64 b) := by
  cases ha : isNaN64 a
  · cases hb : isNaN64 b
    · rw [(compare_of_valueAt (by decide) (valueAt_fpKey64 ha) (valueAt_fpKey64 hb)).1]
      simp [fltLt, ha, hb]
    · rw [(flt_of_nan (.inr hb)).1, isNaN64_iff.1 hb, valueLt_nan_right]
  · rw [(flt_of_nan (.inl ha)).1, isNaN64_iff.1 ha]
    rfl

theorem fltEq_eq_valueEq (a b : F64) : fltEq a b = valueEq (unpack64 a) (unpack64 b) := by
  cases ha : isNaN64 a
  · cases hb : isNaN64 b
    · rw [(compare_of_valueAt (by decide) (valueAt_fpKey64 ha) (valueAt_fpKey64 hb)).2]
      simp [fltEq, ha, hb]
    · rw [(flt_of_nan (.inr hb)).2.2, isNaN64_iff.1 hb, valueEq_nan_right]
  · rw [(flt_of_nan (.inl ha)).2.2, isNaN64_iff.1 ha]
    rfl

theorem fltLt32_eq_valueLt (a b : F32) : fltLt32 a b = valueLt (unpack32 a) (unpack32 b) := by
  cases ha : isNaN32 a
  · cases hb : isNaN32 b
    · rw [(compare_of_valueAt (by decide) (valueAt_fpKey32 ha) (valueAt_fpKey32 hb)).1]
      simp [fltLt32, ha, hb]
    · rw [isNaN32_iff.1 hb, valueLt_nan_right]
      simp [fltLt32, hb]
  · rw [isNaN32_iff.1 ha]
    simp [fltLt32, ha, valueLt]

theorem fltLe_eq_or (a b : F64) : fltLe a b = (fltLt a b || fltEq a b) := by
  simp only [fltLe, fltLt, fltEq, ← Bool.and_or_distrib_left, ← Bool.decide_or, le_iff_lt_or_eq]

/-- The order of patterns that are no NaNs is total. -/
theorem fltLt_iff_not_fltLe {a b : F64} (ha : isNaN64 a = false) (hb : isNaN64 b = false) :
    fltLt a b = true ↔ fltLe b a = false := by
  simp [fltLt, fltLe, ha, hb]

/-- Settles O51: the comparisons compare places on the number line, and the numbers rise with the place. -/
theorem orderedComparison : Obligations.OrderedComparison := by
  refine ⟨fun a b => ⟨fltLt_eq_valueLt a b, fltEq_eq_valueEq a b, ?_⟩, fltLt32_eq_valueLt, fun a b h => ?_,
    by decide, by decide, fun a b ha hb => ⟨?_, fltLt_iff_not_fltLe ha hb⟩, fun a b => ⟨rfl, rfl⟩, fun x lo hi => rfl,
    fun a b lo hi h => ?_⟩
  · rw [fltLe_eq_or, fltLt_eq_valueLt, fltEq_eq_valueEq]
  · obtain ⟨hlt, hle, heq⟩ := flt_of_nan h
    obtain ⟨hlt', hle', -⟩ := flt_of_nan h.symm
    exact ⟨hlt, hle, heq, hlt', hle'⟩
  · rw [fltLe_eq_or, Bool.or_eq_true]
  · have hlt : ∀ y, fltLt a y = false := fun y => (flt_of_nan (.inl h)).1
    have hgt : ∀ y, fltLt y a = false := fun y => (flt_of_nan (.inr h)).1
    simp [max2, min2, clampf, hlt, hgt]

end Sys2Proof.Machine
end

section
/-! SUPPORT. Correct rounding (00_scope.md R11, R12): `fpRound` gives the place on the grid of a format that is nearest to a
number, of two as near the even one, also where its significand ends in a sticky bit for a longer number. -/

namespace Sys2Proof.Machine

open Sys2Proof

/-! ## To the nearest integer -/

/-- `n` is the integer nearest to `u`, of two as near the even one. -/
def nearestInt (u : ℝ) (n : Nat) : Prop :=
  2 * (n : ℝ) ≤ 2 * u + 1 ∧ 2 * u ≤ 2 * n + 1 ∧ (2 * (n : ℝ) = 2 * u + 1 ∨ 2 * u = 2 * n + 1 → n % 2 = 0)

theorem nearestInt_self (n : Nat) : nearestInt n n :=
  ⟨by linarith, by linarith, fun h => by rcases h with h | h <;> linarith⟩

/-- `roundShift` is within half a unit, and a tie goes to the even integer. -/
theorem roundShift_spec (m k : Nat) :
    2 * (2 ^ k * roundShift m k) ≤ 2 * m + 2 ^ k ∧ 2 * m ≤ 2 * (2 ^ k * roundShift m k) + 2 ^ k ∧
    (2 * (2 ^ k * roundShift m k) = 2 * m + 2 ^ k ∨ 2 * m = 2 * (2 ^ k * roundShift m k) + 2 ^ k →
      roundShift m k % 2 = 0) := by
  have hdm := Nat.div_add_mod m (2 ^ k)
  have hmod : m % 2 ^ k < 2 ^ k := Nat.mod_lt _ (by positivity)
  simp only [roundShift, Nat.shiftRight_eq_div_pow]
  split_ifs with h
  · rw [Nat.mul_add, Nat.mul_one]
    omega
  · omega

/-- `m` stands for the number `z`: exactly, or, where m has at least two bits more than the F + 1 the format keeps, with an odd
last bit that says that z lies strictly between the two even neighbours of m. -/
def standsFor (F : Nat) (z : ℝ) (m : Nat) : Prop :=
  z = m ∨ (F + 2 ≤ m.log2 ∧ m % 2 = 1 ∧ (m : ℝ) - 1 < z ∧ z < m + 1)

/-- A number and what stands for it lie between the same powers of two. -/
theorem standsFor_bounds {F m : Nat} {z : ℝ} (h : standsFor F z m) (hm : m ≠ 0) :
    (2 : ℝ) ^ m.log2 ≤ z ∧ z < 2 ^ (m.log2 + 1) := by
  have hlo := Nat.log2_self_le hm
  have hhi := Nat.lt_log2_self (n := m)
  rcases h with rfl | ⟨hlog, hodd, hz, hz'⟩
  · exact ⟨by exact_mod_cast hlo, by exact_mod_cast hhi⟩
  · obtain ⟨l, hl⟩ : ∃ l, m.log2 = l + 1 := ⟨m.log2 - 1, by omega⟩
    rw [hl] at hlo hhi ⊢
    rw [pow_succ] at hlo hhi
    have hlo' : 2 ^ l * 2 + 1 ≤ m := by omega
    have hhi' : m + 1 ≤ 2 ^ (l + 1) * 2 := by omega
    have hloR : (2 : ℝ) ^ l * 2 + 1 ≤ m := by exact_mod_cast hlo'
    have hhiR : (m : ℝ) + 1 ≤ 2 ^ (l + 1) * 2 := by exact_mod_cast hhi'
    exact ⟨by rw [pow_succ]; linarith, by rw [pow_succ]; linarith⟩

/-- Rounding what stands for a number rounds the number: a sticky bit that is cut off together with another bit decides no
comparison with a halfway point. -/
theorem nearestInt_roundShift {F m k : Nat} {z : ℝ} (h : standsFor F z m) (hk : F + 2 ≤ m.log2 → 2 ≤ k) :
    nearestInt (z / 2 ^ k) (roundShift m k) := by
  obtain ⟨hlo, hhi, htie⟩ := roundShift_spec m k
  have hP : (0 : ℝ) < 2 ^ k := by positivity
  obtain ⟨u, rfl⟩ : ∃ u, z = 2 ^ k * u := ⟨z / 2 ^ k, by field_simp⟩
  rw [mul_div_cancel_left₀ _ hP.ne']
  generalize roundShift m k = r at *
  rcases h with hz | ⟨hlog, hodd, hz, hz'⟩
  · have hloR : 2 * ((2 : ℝ) ^ k * r) ≤ 2 * m + 2 ^ k := by exact_mod_cast hlo
    have hhiR : 2 * (m : ℝ) ≤ 2 * (2 ^ k * r) + 2 ^ k := by exact_mod_cast hhi
    rw [← hz] at hloR hhiR
    refine ⟨le_of_mul_le_mul_left (by linarith) hP, le_of_mul_le_mul_left (by linarith) hP, fun heq => htie ?_⟩
    rcases heq with heq | heq
    · have : 2 * ((2 : ℝ) ^ k * r) = 2 * m + 2 ^ k := by rw [← hz]; linear_combination (2 : ℝ) ^ k * heq
      exact .inl (by exact_mod_cast this)
    · have : 2 * (m : ℝ) = 2 * (2 ^ k * r) + 2 ^ k := by rw [← hz]; linear_combination (2 : ℝ) ^ k * heq
      exact .inr (by exact_mod_cast this)
  · obtain ⟨j, rfl⟩ := Nat.exists_eq_add_of_le (hk hlog)
    rw [show 2 ^ (2 + j) = 4 * 2 ^ j by rw [pow_add]; norm_num, Nat.mul_assoc] at hlo hhi
    have hlo' : 4 * (2 ^ j * r) + 1 ≤ m + 2 * 2 ^ j := by omega
    have hhi' : m + 1 ≤ 4 * (2 ^ j * r) + 2 * 2 ^ j := by omega
    have hloR : 4 * ((2 : ℝ) ^ j * r) + 1 ≤ m + 2 * 2 ^ j := by exact_mod_cast hlo'
    have hhiR : (m : ℝ) + 1 ≤ 4 * (2 ^ j * r) + 2 * 2 ^ j := by exact_mod_cast hhi'
    rw [show (2 : ℝ) ^ (2 + j) = 4 * 2 ^ j by rw [pow_add]; norm_num] at hz hz' hP
    have hl : 2 * (r : ℝ) < 2 * u + 1 := lt_of_mul_lt_mul_left (by linarith) hP.le
    have hr : 2 * u < 2 * (r : ℝ) + 1 := lt_of_mul_lt_mul_left (by linarith) hP.le
    exact ⟨hl.le, hr.le, fun heq => by rcases heq with heq | heq <;> linarith⟩

/-! ## To the nearest place on the grid -/

/-- `p` is the place on the grid nearest to `y`, of two as near the even one: y is on p's side of the halfway point to every
other place, and on a halfway point only if p is even. -/
def gridNearest (F : Nat) (y : ℝ) (p : Nat) : Prop :=
  ∀ q : Nat,
    (q < p → (fpGrid F q : ℝ) + fpGrid F p ≤ 2 * y ∧ ((fpGrid F q : ℝ) + fpGrid F p = 2 * y → p % 2 = 0)) ∧
    (p < q → 2 * y ≤ (fpGrid F p : ℝ) + fpGrid F q ∧ (2 * y = (fpGrid F p : ℝ) + fpGrid F q → p % 2 = 0))

theorem fpGrid_cast_lt {F p q : Nat} (h : p < q) : (fpGrid F p : ℝ) < fpGrid F q :=
  Nat.cast_lt.2 (fpGrid_strictMono F h)

theorem fpGrid_cast_le {F p q : Nat} (h : p ≤ q) : (fpGrid F p : ℝ) ≤ fpGrid F q :=
  Nat.cast_le.2 ((fpGrid_strictMono F).monotone h)

theorem fpGrid_cast_scaled {F K n : Nat} (hn : n ≤ 2 ^ (F + 1)) (hK : K = 0 ∨ 2 ^ F ≤ n) :
    (fpGrid F (K * 2 ^ F + n) : ℝ) = n * 2 ^ K := by
  rw [fpGrid_scaled hn hK]
  push_cast
  rfl

section
variable {F K n q : Nat} {u : ℝ}

/-- The integer nearest to a significand of a binade is a significand of the binade, or the start of the next. -/
theorem nearestInt_binade (hn : nearestInt u n) (hK : K = 0 ∨ (2 : ℝ) ^ F ≤ u) (hu : u < 2 ^ (F + 1)) :
    n ≤ 2 ^ (F + 1) ∧ (K = 0 ∨ 2 ^ F ≤ n) := by
  obtain ⟨hlo, hhi, -⟩ := hn
  constructor
  · have h : 2 * (n : ℝ) < 2 * 2 ^ (F + 1) + 1 := by linarith
    have h' : 2 * n < 2 * 2 ^ (F + 1) + 1 := by exact_mod_cast h
    omega
  · refine hK.imp_right fun h => ?_
    have h : 2 * (2 : ℝ) ^ F ≤ 2 * n + 1 := by linarith
    have h' : 2 * 2 ^ F ≤ 2 * n + 1 := by exact_mod_cast h
    omega

/-- A number of a binade is not below the halfway point to any place before its nearest integer's. -/
theorem halfway_below (hn : nearestInt u n) (hK : K = 0 ∨ (2 : ℝ) ^ F ≤ u) (hu : u < 2 ^ (F + 1))
    (hq : q < K * 2 ^ F + n) :
    (fpGrid F q : ℝ) + n * 2 ^ K ≤ 2 * (u * 2 ^ K) ∧
    ((fpGrid F q : ℝ) + n * 2 ^ K = 2 * (u * 2 ^ K) → 2 * (n : ℝ) = 2 * u + 1) := by
  obtain ⟨hn2, hK'⟩ := nearestInt_binade hn hK hu
  have hP : (0 : ℝ) < 2 ^ K := by positivity
  by_cases hstart : 0 < K ∧ n = 2 ^ F
  · have hlt := fpGrid_cast_lt (F := F) hq
    rw [fpGrid_cast_scaled hn2 hK'] at hlt
    have hnu : (n : ℝ) ≤ u := by
      rw [hstart.2]
      push_cast
      exact hK.resolve_left (by omega)
    have hge := mul_le_mul_of_nonneg_right hnu hP.le
    exact ⟨by linarith, fun h => by linarith⟩
  · have hn0 : 0 < n := by
      rcases hK' with rfl | h
      · omega
      · exact lt_of_lt_of_le (by positivity) h
    obtain ⟨j, rfl⟩ := Nat.exists_eq_add_of_le' hn0
    have hle := fpGrid_cast_le (F := F) (show q ≤ K * 2 ^ F + j by omega)
    rw [fpGrid_cast_scaled (by omega) (by omega)] at hle
    have hlo := hn.1
    push_cast at hlo ⊢
    have hmul := mul_le_mul_of_nonneg_right hlo hP.le
    exact ⟨by linarith, fun h => le_antisymm hlo (le_of_mul_le_mul_right (by linarith) hP)⟩

/-- A number of a binade is not above the halfway point to any place after its nearest integer's. -/
theorem halfway_above (hn : nearestInt u n) (hK : K = 0 ∨ (2 : ℝ) ^ F ≤ u) (hu : u < 2 ^ (F + 1))
    (hq : K * 2 ^ F + n < q) :
    2 * (u * 2 ^ K) ≤ (n : ℝ) * 2 ^ K + fpGrid F q ∧
    (2 * (u * 2 ^ K) = (n : ℝ) * 2 ^ K + fpGrid F q → 2 * u = 2 * n + 1) := by
  obtain ⟨hn2, hK'⟩ := nearestInt_binade hn hK hu
  have hP : (0 : ℝ) < 2 ^ K := by positivity
  by_cases hend : n = 2 ^ (F + 1)
  · have hlt := fpGrid_cast_lt (F := F) hq
    rw [fpGrid_cast_scaled hn2 hK'] at hlt
    have hun : u < n := by
      rw [hend]
      push_cast
      exact hu
    have hle := mul_lt_mul_of_pos_right hun hP
    exact ⟨by linarith, fun h => by linarith⟩
  · have hle := fpGrid_cast_le (F := F) (show K * 2 ^ F + (n + 1) ≤ q by omega)
    rw [fpGrid_cast_scaled (by omega) (by omega)] at hle
    push_cast at hle
    have hmul := mul_le_mul_of_nonneg_right hn.2.1 hP.le
    exact ⟨by linarith, fun h => le_antisymm hn.2.1 (le_of_mul_le_mul_right (by linarith) hP)⟩

/-- Within a binade, the nearest place on the grid is the nearest integer of the binade's unit. -/
theorem gridNearest_scaled (hF : 1 ≤ F) (hn : nearestInt u n) (hK : K = 0 ∨ (2 : ℝ) ^ F ≤ u) (hu : u < 2 ^ (F + 1)) :
    gridNearest F (u * 2 ^ K) (K * 2 ^ F + n) := by
  have hpar : (K * 2 ^ F + n) % 2 = n % 2 := by
    obtain ⟨j, rfl⟩ := Nat.exists_eq_add_of_le' hF
    rw [pow_succ, ← Nat.mul_assoc, Nat.add_comm, Nat.add_mul_mod_self_right]
  obtain ⟨hn2, hK'⟩ := nearestInt_binade hn hK hu
  rw [gridNearest, hpar, fpGrid_cast_scaled hn2 hK']
  refine fun q => ⟨fun hq => ?_, fun hq => ?_⟩
  · obtain ⟨hle, htie⟩ := halfway_below hn hK hu hq
    exact ⟨hle, fun h => hn.2.2 (.inl (htie h))⟩
  · obtain ⟨hle, htie⟩ := halfway_above hn hK hu hq
    exact ⟨hle, fun h => hn.2.2 (.inr (htie h))⟩

end

/-- The nearest place is no farther than any other, and as far as another only if it is even. -/
theorem gridNearest_abs_le {F p : Nat} {y : ℝ} (h : gridNearest F y p) (q : Nat) :
    |(fpGrid F p : ℝ) - y| ≤ |(fpGrid F q : ℝ) - y| ∧
    (|(fpGrid F p : ℝ) - y| = |(fpGrid F q : ℝ) - y| → p ≠ q → p % 2 = 0) := by
  obtain ⟨hbelow, habove⟩ := h q
  rw [← sq_le_sq, ← sq_eq_sq_iff_abs_eq_abs]
  rcases lt_trichotomy q p with hq | rfl | hq
  · have hlt := fpGrid_cast_lt (F := F) hq
    obtain ⟨hle, htie⟩ := hbelow hq
    refine ⟨by nlinarith, fun heq _ => htie ?_⟩
    have hprod : ((fpGrid F p : ℝ) - fpGrid F q) * (fpGrid F q + fpGrid F p - 2 * y) = 0 := by linear_combination heq
    linarith [(mul_eq_zero.1 hprod).resolve_left (by linarith)]
  · exact ⟨le_rfl, fun _ hne => absurd rfl hne⟩
  · have hlt := fpGrid_cast_lt (F := F) hq
    obtain ⟨hle, htie⟩ := habove hq
    refine ⟨by nlinarith, fun heq _ => htie ?_⟩
    have hprod : ((fpGrid F q : ℝ) - fpGrid F p) * (fpGrid F p + fpGrid F q - 2 * y) = 0 := by linear_combination -heq
    linarith [(mul_eq_zero.1 hprod).resolve_left (by linarith)]

/-- A number has one nearest place. -/
theorem gridNearest_unique {F p p' : Nat} {y : ℝ} (h : gridNearest F y p) (h' : gridNearest F y p') : p = p' := by
  by_contra hne
  wlog hlt : p < p' generalizing p p'
  · exact this h' h (Ne.symm hne) (by omega)
  obtain ⟨hle, htie⟩ := (h p').2 hlt
  obtain ⟨hle', htie'⟩ := (h' p).1 hlt
  have heven := htie (le_antisymm hle hle')
  have heven' := htie' (le_antisymm hle' hle)
  have hnext := ((h (p + 1)).2 p.lt_succ_self).1
  have hfar := fpGrid_cast_lt (F := F) (show p + 1 < p' by omega)
  linarith

/-- A place is the nearest to its own number. -/
theorem gridNearest_self (F p : Nat) : gridNearest F (fpGrid F p) p := by
  refine fun q => ⟨fun hq => ?_, fun hq => ?_⟩
  all_goals
    have hlt := fpGrid_cast_lt (F := F) hq
    exact ⟨by linarith, fun h => by linarith⟩

/-- The nearest place is from an even place I on exactly when the number is from the halfway point below I on. -/
theorem le_gridNearest_iff {F I p : Nat} {y : ℝ} (hI : (I + 1) % 2 = 0) (h : gridNearest F y p) :
    I + 1 ≤ p ↔ (fpGrid F I : ℝ) + fpGrid F (I + 1) ≤ 2 * y := by
  constructor
  · intro hp
    have hmid := ((h I).1 hp).1
    have hle := fpGrid_cast_le (F := F) hp
    linarith
  · intro hy
    by_contra hp
    obtain ⟨hmid, htie⟩ := (h (I + 1)).2 (by omega)
    have hle := fpGrid_cast_le (F := F) (show p ≤ I by omega)
    have heven := htie (by linarith)
    have hlt := fpGrid_cast_lt (F := F) (show p < I by omega)
    linarith

/-! ## What `fpRound` does -/

/-- The significand `fpRound` keeps in units of 2^top is the integer nearest to the number, for every unit that leaves at most
F + 1 bits. -/
theorem nearestInt_significand {F m : Nat} {z : ℝ} {e top : Int} (h : standsFor F z m) (htop : e + m.log2 - F ≤ top) :
    nearestInt (z * 2 ^ (e - top)) (if top ≤ e then m <<< (e - top).toNat else roundShift m (top - e).toNat) := by
  split_ifs with hcase
  · have hz : z = m := h.resolve_right fun hs => by omega
    obtain ⟨j, hj⟩ := Int.eq_ofNat_of_zero_le (sub_nonneg.2 hcase)
    have hu : z * 2 ^ (e - top) = ((m <<< j : Nat) : ℝ) := by
      rw [hz, hj, Nat.shiftLeft_eq, zpow_natCast]
      push_cast
      rfl
    rw [hu, hj, Int.toNat_natCast]
    exact nearestInt_self _
  · obtain ⟨j, hj⟩ := Int.eq_ofNat_of_zero_le (show 0 ≤ top - e by omega)
    have hu : z * 2 ^ (e - top) = z / 2 ^ j := by
      rw [← neg_sub, hj, zpow_neg, zpow_natCast, div_eq_mul_inv]
    rw [hu, hj, Int.toNat_natCast]
    exact nearestInt_roundShift h fun hs => by omega

/-- `fpRound` gives the sign and the nearest place of the number its significand stands for, the infinity at most. -/
theorem fpRound_nearest {f : FpFormat} (hF : 1 ≤ f.fracBits) (neg : Bool) {z : ℝ} {m : Nat} (e : Int)
    (h : standsFor f.fracBits z m) :
    ∃ p, fpRound f neg m e = fpSign f neg + min p (fpInfBits f) ∧
      gridNearest f.fracBits (z * 2 ^ (e - fpEmin f)) p := by
  by_cases hm : m = 0
  · subst hm
    have hz : z = 0 := by simpa [standsFor] using h
    refine ⟨0, by simp [fpRound], ?_⟩
    simpa [hz] using gridNearest_self f.fracBits 0
  obtain ⟨hlo, hhi⟩ := standsFor_bounds h hm
  rw [fpRound, if_neg hm]
  generalize htop : max (e + (m.log2 : Int) - (f.fracBits : Int)) (fpEmin f) = top
  obtain ⟨K, hK⟩ := Int.eq_ofNat_of_zero_le (show 0 ≤ top - fpEmin f by omega)
  have hscale : z * 2 ^ (e - fpEmin f) = z * 2 ^ (e - top) * 2 ^ K := by
    rw [mul_assoc, ← zpow_natCast, ← zpow_add₀ two_ne_zero, ← hK, sub_add_sub_cancel]
  dsimp only
  refine ⟨_, by rw [hK, Int.toNat_natCast, Nat.shiftLeft_eq], ?_⟩
  rw [hscale]
  refine gridNearest_scaled hF (nearestInt_significand h (by omega)) ?_ ?_
  · refine or_iff_not_imp_left.2 fun hsub => ?_
    calc (2 : ℝ) ^ f.fracBits = 2 ^ m.log2 * 2 ^ (e - top) := by
          rw [← zpow_natCast, ← zpow_natCast, ← zpow_add₀ two_ne_zero]
          congr 1
          omega
      _ ≤ z * 2 ^ (e - top) := mul_le_mul_of_nonneg_right hlo (by positivity)
  · calc z * 2 ^ (e - top) < 2 ^ (m.log2 + 1) * 2 ^ (e - top) := mul_lt_mul_of_pos_right hhi (by positivity)
      _ = 2 ^ (((m.log2 + 1 : Nat) : Int) + (e - top)) := by rw [← zpow_natCast, ← zpow_add₀ two_ne_zero]
      _ ≤ 2 ^ ((f.fracBits + 1 : Nat) : Int) := zpow_le_zpow_right₀ one_le_two (by omega)
      _ = 2 ^ (f.fracBits + 1) := zpow_natCast _ _

/-- Rounding depends on the number only. -/
theorem fpRound_congr {f : FpFormat} (hF : 1 ≤ f.fracBits) (neg : Bool) {m m' : Nat} {e e' : Int}
    (h : (m : ℝ) * 2 ^ e = m' * 2 ^ e') : fpRound f neg m e = fpRound f neg m' e' := by
  obtain ⟨p, hr, hp⟩ := fpRound_nearest hF neg e (.inl rfl : standsFor f.fracBits m m)
  obtain ⟨p', hr', hp'⟩ := fpRound_nearest hF neg e' (.inl rfl : standsFor f.fracBits m' m')
  have hy : (m : ℝ) * 2 ^ (e - fpEmin f) = m' * 2 ^ (e' - fpEmin f) := by
    rw [zpow_sub₀ two_ne_zero, zpow_sub₀ two_ne_zero, ← mul_div_assoc, ← mul_div_assoc, h]
  rw [hr, hr', gridNearest_unique hp (hy ▸ hp')]

/-- The number of a place below the infinity is rounded to that place. -/
theorem fpRound_of_grid {f : FpFormat} (hF : 1 ≤ f.fracBits) (neg : Bool) {m p : Nat} {e : Int} (hp : p ≤ fpInfBits f)
    (h : (m : ℝ) * 2 ^ e = fpGrid f.fracBits p * 2 ^ fpEmin f) : fpRound f neg m e = fpSign f neg + p := by
  obtain ⟨p', hr, hp'⟩ := fpRound_nearest hF neg e (.inl rfl : standsFor f.fracBits m m)
  have hy : (m : ℝ) * 2 ^ (e - fpEmin f) = fpGrid f.fracBits p := by
    rw [zpow_sub₀ two_ne_zero, ← mul_div_assoc, h, mul_div_cancel_right₀ _ (by positivity)]
  rw [hr, gridNearest_unique hp' (hy ▸ gridNearest_self f.fracBits p), Nat.min_eq_left hp]

/-- A finite pattern is the rounding of its own value. -/
theorem fpRound_fpUnpack {f : FpFormat} (hF : 1 ≤ f.fracBits) {b : Nat} (hb : b < 2 ^ (f.expBits + f.fracBits + 1))
    {s : Bool} {m : Nat} {e : Int} (h : fpUnpack f b = .fin s m e) : fpRound f s m e = b := by
  obtain ⟨hs, hlt, K, rfl, hmag, hm, hK⟩ := fpUnpack_fin h
  rw [fpRound_of_grid hF s hlt.le, ← hs, fpSign_add_fpMag hb]
  rw [hmag, fpGrid_cast_scaled hm.le hK, zpow_add₀ two_ne_zero, zpow_natCast]
  ring

end Sys2Proof.Machine
end

section
/-! SUPPORT. The nearest place on the grid is the correctly rounded value of the statements (`isNearestEven`), in both formats:
the overflow bound, the sign, and the candidates of either sign (00_scope.md R11, R12). -/

namespace Sys2Proof.Machine

open Sys2Proof

/-- A format with at least two exponent bits and one fraction bit: its last place before the infinity is odd and normal. -/
def FpFormat.regular (f : FpFormat) : Prop := 2 ≤ f.expBits ∧ 1 ≤ f.fracBits

theorem binary64_regular : binary64.regular := by unfold FpFormat.regular; decide

theorem binary32_regular : binary32.regular := by unfold FpFormat.regular; decide

/-- The halfway point between the largest finite value and the next power of two. -/
noncomputable def fpBound (f : FpFormat) : ℝ := (2 ^ (f.fracBits + 2) - 1) * 2 ^ ((2 : Int) ^ f.expBits - 4 + fpEmin f)

theorem fpBound_binary64 : fpBound binary64 = (2 ^ 54 - 1) * 2 ^ 970 := by
  have h : (2 : Int) ^ binary64.expBits - 4 + fpEmin binary64 = (970 : Nat) := by decide
  rw [fpBound, h, zpow_natCast]
  rfl

theorem fpBound_binary32 : fpBound binary32 = (2 ^ 25 - 1) * 2 ^ 103 := by
  have h : (2 : Int) ^ binary32.expBits - 4 + fpEmin binary32 = (103 : Nat) := by decide
  rw [fpBound, h, zpow_natCast]
  rfl

/-- `isNearestEven` for the pattern `b` of any format, against every pattern. -/
def fpRoundsTo (f : FpFormat) (x : ℝ) (neg : Bool) (b : Nat) : Prop :=
  isNearestEven x neg (fpUnpack f b) (b % 2 = 0) (fpBound f) fun v => ∃ b', fpUnpack f b' = v

/-- Fewer candidates and an equivalent parity make no difference. -/
theorem isNearestEven_mono {x : ℝ} {neg : Bool} {r : FpValue} {even : Prop} {bound : ℝ} {cand cand' : FpValue → Prop}
    (hc : ∀ v, cand' v → cand v) (h : isNearestEven x neg r even bound cand) : isNearestEven x neg r even bound cand' := by
  match r, h with
  | .inf _, h => exact h
  | .fin _ _ _, ⟨hs, hlt, hall⟩ => exact ⟨hs, hlt, fun s2 m2 e2 hv => hall s2 m2 e2 (hc _ hv)⟩

/-- The infinity stands where the binade of the largest finite values ends. -/
theorem fpInfBits_scaled {f : FpFormat} (hE : 2 ≤ f.expBits) :
    fpInfBits f = (2 ^ f.expBits - 3) * 2 ^ f.fracBits + 2 ^ (f.fracBits + 1) := by
  obtain ⟨i, hi⟩ := Nat.exists_eq_add_of_le' (show 4 ≤ 2 ^ f.expBits from Nat.pow_le_pow_right (n := 2) (by norm_num) hE)
  rw [fpInfBits_eq, hi, show i + 4 - 1 = i + 3 by omega, show i + 4 - 3 = i + 1 by omega]
  ring

/-- The infinity stands at an even place, after the odd place of the largest finite value; the halfway point between them is
the overflow bound. -/
theorem fpInfBits_pred {f : FpFormat} (hf : f.regular) :
    ∃ I, fpInfBits f = I + 1 ∧ (I + 1) % 2 = 0 ∧
      ((fpGrid f.fracBits I : ℝ) + fpGrid f.fracBits (I + 1)) * 2 ^ fpEmin f = 2 * fpBound f := by
  obtain ⟨hE, hF⟩ := hf
  obtain ⟨i, hi⟩ := Nat.exists_eq_add_of_le' (show 4 ≤ 2 ^ f.expBits from Nat.pow_le_pow_right (n := 2) (by norm_num) hE)
  obtain ⟨j, hj⟩ := Nat.exists_eq_succ_of_ne_zero (show 2 ^ f.fracBits ≠ 0 by positivity)
  have htop : fpInfBits f = (i + 1) * 2 ^ f.fracBits + 2 ^ (f.fracBits + 1) := by
    rw [fpInfBits_scaled hE, hi, show i + 4 - 3 = i + 1 by omega]
  have heven : fpInfBits f % 2 = 0 := by
    obtain ⟨k, hk⟩ := Nat.exists_eq_add_of_le' hF
    rw [fpInfBits_eq, hk, pow_succ, ← Nat.mul_assoc, Nat.mul_mod_left]
  have hsucc : (i + 1) * 2 ^ f.fracBits + (2 ^ (f.fracBits + 1) - 1) + 1 = fpInfBits f := by
    rw [htop]
    have : 0 < 2 ^ (f.fracBits + 1) := by positivity
    omega
  have hsig : ((2 ^ (f.fracBits + 1) - 1 : Nat) : ℝ) = 2 ^ (f.fracBits + 1) - 1 := by
    rw [Nat.cast_sub Nat.one_le_two_pow]
    push_cast
    rfl
  have hexp : (2 : Int) ^ f.expBits - 4 = i := by
    have : (2 : Int) ^ f.expBits = (i : Int) + 4 := by exact_mod_cast hi
    omega
  refine ⟨_, hsucc.symm, hsucc ▸ heven, ?_⟩
  rw [hsucc, htop, fpGrid_cast_scaled (Nat.sub_le _ _) (.inr (by rw [pow_succ]; omega)),
    fpGrid_cast_scaled le_rfl (.inr (by rw [pow_succ]; omega)), hsig, fpBound, hexp, zpow_add₀ two_ne_zero, zpow_natCast]
  push_cast
  ring

theorem abs_signOf_mul (neg : Bool) (a : ℝ) : |(signOf neg : ℝ) * a| = |a| := by
  cases neg <;> simp [signOf]

theorem finValue_cast (neg : Bool) (m : Nat) (e : Int) : (finValue neg m e : ℝ) = signOf neg * ((m : ℝ) * 2 ^ e) := by
  rw [finValue_eq]
  push_cast
  rfl

/-- Among the places of one sign there is one that is no farther from a number of the sign `neg` than any finite pattern, and
only that pattern's value is as near. -/
theorem exists_place_of_candidate {f : FpFormat} {b : Nat} {s : Bool} {m : Nat} {e : Int} (h : fpUnpack f b = .fin s m e)
    (neg : Bool) {y : ℝ} (hy : 0 ≤ y) :
    ∃ q, |(fpGrid f.fracBits q : ℝ) - y| * 2 ^ fpEmin f ≤ |(finValue s m e : ℝ) - signOf neg * (y * 2 ^ fpEmin f)| ∧
      (|(fpGrid f.fracBits q : ℝ) - y| * 2 ^ fpEmin f = |(finValue s m e : ℝ) - signOf neg * (y * 2 ^ fpEmin f)| →
        finValue s m e = signOf neg * (fpGrid f.fracBits q * 2 ^ fpEmin f)) := by
  have hU : (0 : ℝ) < 2 ^ fpEmin f := by positivity
  have hv := finValue_of_fpUnpack h
  generalize fpMag f b = q at hv
  have hg : (0 : ℝ) ≤ fpGrid f.fracBits q := Nat.cast_nonneg _
  rw [hv]
  push_cast
  rcases eq_or_ne s neg with rfl | hne
  · refine ⟨q, le_of_eq ?_, fun _ => rfl⟩
    rw [← mul_sub, abs_signOf_mul, ← sub_mul, abs_mul, abs_of_pos hU]
  · have hopp : (signOf s : ℝ) = -signOf neg := by cases s <;> cases neg <;> simp_all [signOf]
    have hdist : |(signOf s : ℝ) * (fpGrid f.fracBits q * 2 ^ fpEmin f) - signOf neg * (y * 2 ^ fpEmin f)| =
        (fpGrid f.fracBits q + y) * 2 ^ fpEmin f := by
      have hsum : (signOf s : ℝ) * (fpGrid f.fracBits q * 2 ^ fpEmin f) - signOf neg * (y * 2 ^ fpEmin f) =
          signOf neg * -((fpGrid f.fracBits q + y) * 2 ^ fpEmin f) := by
        rw [hopp]
        ring
      rw [hsum, abs_signOf_mul, abs_neg, abs_of_nonneg (by positivity)]
    have hzero : |((fpGrid f.fracBits 0 : Nat) : ℝ) - y| = y := by simp [abs_of_nonneg hy]
    refine ⟨0, ?_, fun heq => ?_⟩
    · rw [hdist, hzero]
      exact mul_le_mul_of_nonneg_right (by linarith) hU.le
    · rw [hdist, hzero] at heq
      have hq : (fpGrid f.fracBits q : ℝ) = 0 := by linarith [mul_right_cancel₀ hU.ne' heq]
      have hq' : fpGrid f.fracBits q = 0 := by exact_mod_cast hq
      simp [hq']

/-- The value of the nearest place is no farther than any finite pattern, and as far as another value only from an even
place. -/
theorem gridNearest_candidate {f : FpFormat} {neg : Bool} {y : ℝ} (hy : 0 ≤ y) {p : Nat} (h : gridNearest f.fracBits y p)
    {v : ℚ} (hv : v = signOf neg * (fpGrid f.fracBits p * 2 ^ fpEmin f)) {b : Nat} {s : Bool} {m : Nat} {e : Int}
    (hb : fpUnpack f b = .fin s m e) :
    |(v : ℝ) - signOf neg * (y * 2 ^ fpEmin f)| ≤ |(finValue s m e : ℝ) - signOf neg * (y * 2 ^ fpEmin f)| ∧
    (|(v : ℝ) - signOf neg * (y * 2 ^ fpEmin f)| = |(finValue s m e : ℝ) - signOf neg * (y * 2 ^ fpEmin f)| →
      v ≠ finValue s m e → p % 2 = 0) := by
  have hU : (0 : ℝ) < 2 ^ fpEmin f := by positivity
  obtain ⟨q, hle, heq⟩ := exists_place_of_candidate hb neg hy
  obtain ⟨hnear, htie⟩ := gridNearest_abs_le h q
  have hnear' := mul_le_mul_of_nonneg_right hnear hU.le
  have hdist : |(v : ℝ) - signOf neg * (y * 2 ^ fpEmin f)| = |(fpGrid f.fracBits p : ℝ) - y| * 2 ^ fpEmin f := by
    rw [hv]
    push_cast
    rw [← mul_sub, abs_signOf_mul, ← sub_mul, abs_mul, abs_of_pos hU]
  rw [hdist]
  refine ⟨hnear'.trans hle, fun hboth hne => ?_⟩
  have hpq : p ≠ q := by
    rintro rfl
    exact hne (hv.trans (heq hboth).symm)
  exact htie (mul_right_cancel₀ hU.ne' (le_antisymm hnear' (hle.trans hboth.ge))) hpq

/-- The sign bit does not change the parity of a pattern. -/
theorem fpSign_add_mod_two {f : FpFormat} (hF : 1 ≤ f.fracBits) (neg : Bool) (p : Nat) : (fpSign f neg + p) % 2 = p % 2 := by
  obtain ⟨k, hk⟩ := Nat.exists_eq_add_of_le' hF
  rw [fpSign_eq, hk, ← Nat.add_assoc, pow_succ, ← Nat.mul_assoc, Nat.add_comm, Nat.add_mul_mod_self_right]

/-- The pattern of the nearest place, the infinity at most, is the correctly rounded value. -/
theorem fpRoundsTo_of_gridNearest {f : FpFormat} (hf : f.regular) (neg : Bool) {y : ℝ} (hy : 0 ≤ y) {p : Nat}
    (h : gridNearest f.fracBits y p) :
    fpRoundsTo f (signOf neg * (y * 2 ^ fpEmin f)) neg (fpSign f neg + min p (fpInfBits f)) := by
  obtain ⟨I, hI, heven, hbound⟩ := fpInfBits_pred hf
  have hU : (0 : ℝ) < 2 ^ fpEmin f := by positivity
  have habs : |(signOf neg : ℝ) * (y * 2 ^ fpEmin f)| = y * 2 ^ fpEmin f := by
    rw [abs_signOf_mul, abs_of_nonneg (by positivity)]
  have hover : fpInfBits f ≤ p ↔ fpBound f ≤ |(signOf neg : ℝ) * (y * 2 ^ fpEmin f)| := by
    rw [hI, le_gridNearest_iff heven h, habs, ← mul_le_mul_iff_left₀ hU, hbound, mul_assoc,
      mul_le_mul_iff_right₀ two_pos]
  unfold fpRoundsTo
  by_cases hp : fpInfBits f ≤ p
  · rw [Nat.min_eq_right hp, fpUnpack_inf_iff.2 ⟨fpMag_sign_add neg le_rfl, fpNeg_sign_add neg le_rfl⟩]
    exact ⟨rfl, hover.1 hp⟩
  · have hle : p ≤ fpInfBits f := by omega
    have hmag := fpMag_sign_add neg hle
    rw [Nat.min_eq_left hle, fpSign_add_mod_two hf.2]
    obtain ⟨m, e, hu⟩ := exists_fin_of_fpMag_lt (hmag.trans_lt (Nat.lt_of_not_le hp))
    rw [fpNeg_sign_add neg hle] at hu
    have hv := finValue_of_fpUnpack hu
    rw [hmag] at hv
    rw [hu]
    exact ⟨rfl, lt_of_not_ge fun hge => hp (hover.2 hge), fun s2 m2 e2 ⟨b', hb'⟩ => gridNearest_candidate hy h hv hb'⟩

/-- `fpRound` is correct rounding of the number its significand stands for. -/
theorem fpRound_roundsTo {f : FpFormat} (hf : f.regular) (neg : Bool) {z : ℝ} {m : Nat} (e : Int) (hz : 0 ≤ z)
    (h : standsFor f.fracBits z m) : fpRoundsTo f (signOf neg * (z * 2 ^ e)) neg (fpRound f neg m e) := by
  obtain ⟨p, hr, hp⟩ := fpRound_nearest hf.2 neg e h
  have hround := fpRoundsTo_of_gridNearest hf neg (by positivity) hp
  rwa [← hr, mul_assoc, ← zpow_add₀ two_ne_zero, sub_add_cancel] at hround

/-! ## The two formats -/

theorem fpRound_lt {f : FpFormat} (hF : 1 ≤ f.fracBits) (neg : Bool) (m : Nat) (e : Int) :
    fpRound f neg m e < 2 ^ (f.expBits + f.fracBits + 1) := by
  obtain ⟨p, hr, -⟩ := fpRound_nearest hF neg e (.inl rfl : standsFor f.fracBits m m)
  have hI := fpInfBits_lt f
  have hmin : min p (fpInfBits f) ≤ fpInfBits f := Nat.min_le_right _ _
  have hsign : neg.toNat ≤ 1 := Bool.toNat_le neg
  rw [hr, fpSign_eq, pow_succ]
  nlinarith

@[simp] theorem toNat_round64 (neg : Bool) (m : Nat) (e : Int) : (round64 neg m e).toNat = fpRound binary64 neg m e :=
  Nat.mod_eq_of_lt (fpRound_lt binary64_regular.2 neg m e)

@[simp] theorem toNat_round32 (neg : Bool) (m : Nat) (e : Int) : (round32 neg m e).toNat = fpRound binary32 neg m e :=
  Nat.mod_eq_of_lt (fpRound_lt binary32_regular.2 neg m e)

/-- `round64` is correct rounding of the number its significand stands for. -/
theorem round64_roundsTo {neg : Bool} {z x : ℝ} {m : Nat} {e : Int} (hz : 0 ≤ z) (h : standsFor 52 z m)
    (hx : x = signOf neg * (z * 2 ^ e)) : roundsTo64 x neg (round64 neg m e) := by
  have hround := fpRound_roundsTo binary64_regular neg e hz h
  rw [← hx, ← toNat_round64, fpRoundsTo, fpBound_binary64] at hround
  exact isNearestEven_mono (fun v ⟨y, hy⟩ => ⟨y.toNat, hy⟩) hround

/-- `round32` is correct rounding of the number its significand stands for. -/
theorem round32_roundsTo {neg : Bool} {z x : ℝ} {m : Nat} {e : Int} (hz : 0 ≤ z) (h : standsFor 23 z m)
    (hx : x = signOf neg * (z * 2 ^ e)) : roundsTo32 x neg (round32 neg m e) := by
  have hround := fpRound_roundsTo binary32_regular neg e hz h
  rw [← hx, ← toNat_round32, fpRoundsTo, fpBound_binary32] at hround
  exact isNearestEven_mono (fun v ⟨y, hy⟩ => ⟨y.toNat, hy⟩) hround

/-- Rounding a number given exactly. -/
theorem round64_roundsTo_finValue (neg : Bool) (m : Nat) (e : Int) : roundsTo64 (finValue neg m e) neg (round64 neg m e) :=
  round64_roundsTo (Nat.cast_nonneg m) (.inl rfl) (finValue_cast neg m e)

theorem round32_roundsTo_finValue (neg : Bool) (m : Nat) (e : Int) : roundsTo32 (finValue neg m e) neg (round32 neg m e) :=
  round32_roundsTo (Nat.cast_nonneg m) (.inl rfl) (finValue_cast neg m e)

/-- Every finite binary64 pattern is the rounding of its own value. -/
theorem round64_unpack64 {x : F64} {s : Bool} {m : Nat} {e : Int} (h : unpack64 x = .fin s m e) : round64 s m e = x :=
  BitVec.eq_of_toNat_eq ((toNat_round64 s m e).trans (fpRound_fpUnpack binary64_regular.2 x.isLt h))

/-- Every finite binary32 pattern is the rounding of its own value. -/
theorem round32_unpack32 {x : F32} {s : Bool} {m : Nat} {e : Int} (h : unpack32 x = .fin s m e) : round32 s m e = x :=
  BitVec.eq_of_toNat_eq ((toNat_round32 s m e).trans (fpRound_fpUnpack binary32_regular.2 x.isLt h))

theorem toNat_inf64 (s : Bool) : (inf64 s).toNat = fpSign binary64 s + fpInfBits binary64 := by
  cases s <;> decide

theorem toNat_inf32 (s : Bool) : (inf32 s).toNat = fpSign binary32 s + fpInfBits binary32 := by
  cases s <;> decide

@[simp] theorem unpack64_inf64 (s : Bool) : unpack64 (inf64 s) = .inf s := by
  rw [unpack64, toNat_inf64]
  exact fpUnpack_inf_iff.2 ⟨fpMag_sign_add s le_rfl, fpNeg_sign_add s le_rfl⟩

/-- An infinite binary32 pattern is the infinity of its sign. -/
theorem inf32_of_unpack32 {x : F32} {s : Bool} (h : unpack32 x = .inf s) : inf32 s = x := by
  obtain ⟨hmag, hneg⟩ := fpUnpack_inf_iff.1 h
  apply BitVec.eq_of_toNat_eq
  rw [toNat_inf32, ← hmag, ← hneg]
  exact fpSign_add_fpMag x.isLt

end Sys2Proof.Machine
end

section
/-! SUPPORT. The operations on finite operands are the exact results correctly rounded (00_scope.md R11, R13; log 17). -/

namespace Sys2Proof.Machine

open Sys2Proof

@[simp] theorem isNaN64_nan64 (c : Config) (op : FpOp) (a b : F64) : isNaN64 (c.nan64 op a b) = true := by
  rw [Config.nan64, someNaN64]
  split_ifs with h
  · exact h
  · decide

@[simp] theorem isNaN32_nan32 (c : Config) (x : F64) : isNaN32 (c.nan32 x) = true := by
  rw [Config.nan32, someNaN32]
  split_ifs with h
  · exact h
  · decide

theorem signOf_ne_zero (neg : Bool) : signOf neg ≠ 0 := by cases neg <;> simp [signOf]

theorem signOf_xor (s t : Bool) : signOf (s ^^ t) = signOf s * signOf t := by
  cases s <;> cases t <;> simp [signOf]

theorem signOf_not (s : Bool) : signOf (!s) = -signOf s := by cases s <;> simp [signOf]

theorem finValue_not (s : Bool) (m : Nat) (e : Int) : finValue (!s) m e = -finValue s m e := by
  rw [finValue_eq, finValue_eq, signOf_not, neg_mul]

theorem finValue_eq_zero_iff {s : Bool} {m : Nat} {e : Int} : finValue s m e = 0 ↔ m = 0 := by
  have h2 : (2 : ℚ) ^ e ≠ 0 := by positivity
  simp [finValue_eq, signOf_ne_zero, h2]

theorem finValue_neg_iff {s : Bool} {m : Nat} {e : Int} : finValue s m e < 0 ↔ s = true ∧ m ≠ 0 := by
  have h2 : (0 : ℚ) < 2 ^ e := by positivity
  rw [finValue_eq]
  cases s <;> simp [signOf, h2, Nat.pos_iff_ne_zero]

/-! ## Addition and subtraction -/

/-- The signed significand of an addend in the common unit 2^e. -/
theorem finValue_shiftLeft (s : Bool) (m : Nat) {e d : Int} (hd : d ≤ e) :
    finValue s m e = (((if s then -(m <<< (e - d).toNat : Nat) else (m <<< (e - d).toNat : Nat)) : Int) : ℚ) * 2 ^ d := by
  obtain ⟨j, hj⟩ := Int.eq_ofNat_of_zero_le (sub_nonneg.2 hd)
  obtain rfl : e = d + j := by omega
  rw [finValue_eq, hj, Int.toNat_natCast, Nat.shiftLeft_eq, zpow_add₀ two_ne_zero, zpow_natCast]
  cases s
  all_goals
    simp only [signOf]
    push_cast
    ring

/-- The exact sum is t units 2^e for an integer t, and the model rounds it; an exact zero keeps a common sign. -/
theorem addFinite_roundsTo (n1 n2 : Bool) (m1 m2 : Nat) (e1 e2 : Int) :
    roundsTo64 (finValue n1 m1 e1 + finValue n2 m2 e2 : ℚ)
      (if finValue n1 m1 e1 + finValue n2 m2 e2 = 0 then n1 && n2 else decide (finValue n1 m1 e1 + finValue n2 m2 e2 < 0))
      (addFinite n1 m1 e1 n2 m2 e2) := by
  have hU : (0 : ℚ) < 2 ^ min e1 e2 := by positivity
  rw [finValue_shiftLeft n1 m1 (min_le_left e1 e2), finValue_shiftLeft n2 m2 (min_le_right e1 e2), ← add_mul, addFinite]
  norm_cast
  generalize (if n1 then _ else _ : Int) + (if n2 then _ else _ : Int) = t
  by_cases ht : t = 0
  · subst ht
    simpa [finValue] using round64_roundsTo_finValue (n1 && n2) 0 0
  · have hsum : (t : ℚ) * 2 ^ min e1 e2 = finValue (decide (t < 0)) t.natAbs (min e1 e2) := by
      rw [finValue_eq, ← mul_assoc, signOf]
      congr 1
      rcases lt_or_gt_of_ne ht with h | h
      · simp [h, abs_of_neg]
      · simp [h.le, abs_of_pos, h]
    have hneg : (t : ℚ) * 2 ^ min e1 e2 < 0 ↔ t < 0 := by
      simp [mul_neg_iff, hU, hU.le]
    have hne : ¬ (t : ℚ) * 2 ^ min e1 e2 = 0 := mul_ne_zero (by exact_mod_cast ht) hU.ne'
    rw [if_neg ht, if_neg hne]
    simp only [hneg]
    rw [hsum]
    exact round64_roundsTo_finValue _ _ _

/-! ## Multiplication and division -/

theorem finValue_mul (s t : Bool) (m1 m2 : Nat) (e1 e2 : Int) :
    finValue s m1 e1 * finValue t m2 e2 = finValue (s ^^ t) (m1 * m2) (e1 + e2) := by
  rw [finValue_eq, finValue_eq, finValue_eq, signOf_xor, zpow_add₀ two_ne_zero]
  push_cast
  ring

/-- A significand with a sticky bit stands for twice the number it truncates. -/
theorem standsFor_sticky {F q : Nat} {z : ℝ} {whole : Prop} [Decidable whole] (hwhole : whole → z = q)
    (hlo : ¬ whole → (q : ℝ) < z) (hhi : z < q + 1) (hq : ¬ whole → 2 ^ (F + 1) ≤ q) :
    standsFor F (2 * z) (2 * q + if whole then 0 else 1) := by
  split_ifs with h
  · left
    rw [hwhole h]
    push_cast
    ring
  · have hbig := hq h
    have hlow := hlo h
    refine .inr ⟨(Nat.le_log2 (by omega)).2 ?_, by omega, ?_, ?_⟩
    · rw [pow_succ]
      omega
    · push_cast
      linarith
    · push_cast
      linarith

/-- The quotient has at least 59 bits, for significands of a binary64 pattern, and its sticky bit stands for the remainder. -/
theorem standsFor_quotient {m1 m2 : Nat} (hm2 : 0 < m2) (hlt : m2 < 2 ^ 53) :
    standsFor 52 (2 * (((m1 * 2 ^ 112 : Nat) : ℝ) / m2))
      (2 * (m1 * 2 ^ 112 / m2) + if m1 * 2 ^ 112 % m2 = 0 then 0 else 1) := by
  generalize hnum : m1 * 2 ^ 112 = num
  have hpos : (0 : ℝ) < m2 := by exact_mod_cast hm2
  have hdm : (m2 : ℝ) * (num / m2 : Nat) + (num % m2 : Nat) = num := by exact_mod_cast Nat.div_add_mod num m2
  have hmod : ((num % m2 : Nat) : ℝ) < m2 := by exact_mod_cast Nat.mod_lt _ hm2
  refine standsFor_sticky (fun h => ?_) (fun h => ?_) ?_ fun h => ?_
  · rw [h, Nat.cast_zero, add_zero] at hdm
    rw [div_eq_iff hpos.ne', ← hdm, mul_comm]
  · have hrem : (0 : ℝ) < (num % m2 : Nat) := by exact_mod_cast Nat.pos_of_ne_zero h
    rw [lt_div_iff₀ hpos]
    linarith
  · rw [div_lt_iff₀ hpos]
    linarith
  · have hm1 : 1 ≤ m1 := by
      by_contra h0
      obtain rfl : m1 = 0 := by omega
      simp [← hnum] at h
    rw [Nat.le_div_iff_mul_le hm2, ← hnum]
    calc 2 ^ (52 + 1) * m2 ≤ 2 ^ (52 + 1) * 2 ^ 53 := Nat.mul_le_mul_left _ hlt.le
      _ ≤ 1 * 2 ^ 112 := by norm_num
      _ ≤ m1 * 2 ^ 112 := Nat.mul_le_mul_right _ hm1

/-- The quotient of two finite values is the quotient of the significands, scaled. -/
theorem finValue_div (s t : Bool) (m1 m2 : Nat) (e1 e2 : Int) :
    ((finValue s m1 e1 / finValue t m2 e2 : ℚ) : ℝ) =
      signOf (s ^^ t) * (2 * (((m1 * 2 ^ 112 : Nat) : ℝ) / m2) * 2 ^ (e1 - e2 - 113)) := by
  have hs : signOf s = signOf (s ^^ t) * signOf t := by cases s <;> cases t <;> simp [signOf]
  have ht : (signOf t : ℝ) ≠ 0 := by exact_mod_cast signOf_ne_zero t
  have hexp : (2 : ℝ) ^ (e1 - e2 - 113) = 2 ^ e1 / (2 ^ e2 * 2 ^ 113) := by
    rw [zpow_sub₀ two_ne_zero, zpow_sub₀ two_ne_zero, div_div]
    norm_cast
  rw [Rat.cast_div, finValue_cast, finValue_cast, hexp, hs]
  push_cast
  field_simp
  ring

theorem divFinite_roundsTo (s t : Bool) {m1 m2 : Nat} (e1 e2 : Int) (hm2 : m2 ≠ 0) (hlt : m2 < 2 ^ 53) :
    roundsTo64 (finValue s m1 e1 / finValue t m2 e2 : ℚ) (s ^^ t) (divFinite (s ^^ t) m1 e1 m2 e2) := by
  rw [divFinite, Nat.shiftLeft_eq]
  exact round64_roundsTo (by positivity) (standsFor_quotient (Nat.pos_of_ne_zero hm2) hlt) (finValue_div s t m1 m2 e1 e2)

/-! ## The square root -/

/-- Digit by digit the root grows to the largest integer whose square is at most n. -/
theorem sqrtDigits_spec (n k acc : Nat) (hlo : acc * acc ≤ n) (hhi : n < (acc + 2 ^ k) * (acc + 2 ^ k)) :
    sqrtDigits n k acc * sqrtDigits n k acc ≤ n ∧ n < (sqrtDigits n k acc + 1) * (sqrtDigits n k acc + 1) := by
  induction k generalizing acc with
  | zero => exact ⟨hlo, hhi⟩
  | succ k ih =>
    rw [sqrtDigits]
    split_ifs with h
    · refine ih _ h ?_
      rwa [Nat.add_assoc, ← Nat.two_mul, ← pow_succ']
    · exact ih _ hlo (Nat.lt_of_not_le h)

/-- The integer root of a number of at least 113 bits stands, with its sticky bit, for twice the root. -/
theorem standsFor_root {n r : Nat} (hn : 2 ^ 112 ≤ n) (hlo : r * r ≤ n) (hhi : n < (r + 1) * (r + 1)) :
    standsFor 52 (2 * Real.sqrt n) (2 * r + if r * r = n then 0 else 1) := by
  have hloR : (r : ℝ) * r ≤ n := by exact_mod_cast hlo
  have hhiR : (n : ℝ) < (r + 1) * (r + 1) := by exact_mod_cast hhi
  refine standsFor_sticky (fun h => ?_) (fun h => ?_) ?_ fun _ => ?_
  · rw [← h]
    push_cast
    exact Real.sqrt_mul_self (Nat.cast_nonneg r)
  · refine Real.lt_sqrt_of_sq_lt ?_
    rw [pow_two]
    exact lt_of_le_of_ne hloR (by exact_mod_cast h)
  · rw [Real.sqrt_lt' (by positivity), pow_two]
    exact hhiR
  · by_contra hlow
    have hsq : (r + 1) * (r + 1) ≤ 2 ^ (52 + 1) * 2 ^ (52 + 1) := Nat.mul_le_mul (by omega) (by omega)
    norm_num at hsq hn
    omega

/-- The root of a positive value of an even shifted exponent. -/
theorem sqrt_finValue (m k : Nat) (j : Int) :
    Real.sqrt (finValue false m (k + 2 * j) : ℚ) =
      signOf false * (2 * Real.sqrt ((m * 2 ^ k : Nat) : ℝ) * 2 ^ (j - 1)) := by
  have hsq : ((finValue false m (k + 2 * j) : ℚ) : ℝ) = (m * 2 ^ k : Nat) * (2 ^ j) ^ 2 := by
    rw [finValue_cast, zpow_add₀ two_ne_zero, zpow_natCast, ← zpow_natCast (_ ^ j), ← zpow_mul, mul_comm j]
    simp [signOf]
    ring
  rw [hsq, Real.sqrt_mul (Nat.cast_nonneg _), Real.sqrt_sq (by positivity), zpow_sub₀ two_ne_zero]
  simp [signOf]
  ring

/-- A significand of a binary64 pattern shifted by 112 or 113 has between 113 and 166 bits. -/
theorem shifted_bounds {m k : Nat} (hm : m ≠ 0) (hlt : m < 2 ^ 53) (hk : 112 ≤ k) (hk' : k ≤ 113) :
    2 ^ 112 ≤ m * 2 ^ k ∧ m * 2 ^ k < 2 ^ 84 * 2 ^ 84 := by
  constructor
  · calc 2 ^ 112 = 1 * 2 ^ 112 := (Nat.one_mul _).symm
      _ ≤ m * 2 ^ k := Nat.mul_le_mul (Nat.pos_of_ne_zero hm) (Nat.pow_le_pow_right two_pos hk)
  · calc m * 2 ^ k ≤ 2 ^ 53 * 2 ^ 113 := Nat.mul_le_mul hlt.le (Nat.pow_le_pow_right two_pos hk')
      _ < 2 ^ 84 * 2 ^ 84 := by norm_num

theorem sqrtFinite_roundsTo {m : Nat} (e : Int) (hm : m ≠ 0) (hlt : m < 2 ^ 53) :
    roundsTo64 (Real.sqrt (finValue false m e : ℚ)) false (sqrtFinite m e) := by
  rw [sqrtFinite]
  generalize hk : (if e % 2 = 0 then 112 else 113 : Nat) = k
  obtain ⟨hk1, hk2, j, rfl⟩ : 112 ≤ k ∧ k ≤ 113 ∧ ∃ j : Int, e = k + 2 * j := by
    split_ifs at hk <;> exact ⟨by omega, by omega, (e - k) / 2, by omega⟩
  have hhalf : ((k : Int) + 2 * j - k) / 2 - 1 = j - 1 := by omega
  obtain ⟨hnlo, hnhi⟩ := shifted_bounds hm hlt hk1 hk2
  obtain ⟨hrlo, hrhi⟩ := sqrtDigits_spec (m * 2 ^ k) 84 0 (Nat.zero_le _) (by rwa [Nat.zero_add])
  rw [hhalf, Nat.shiftLeft_eq]
  exact round64_roundsTo (by positivity) (standsFor_root hnlo hrlo hrhi) (sqrt_finValue m k j)

/-! ## The operations of the model -/

section
variable {a b : F64} {n1 n2 : Bool} {m1 m2 : Nat} {e1 e2 : Int}

/-- A finite binary64 pattern has a significand of at most 53 bits. -/
theorem significand_lt (ha : unpack64 a = .fin n1 m1 e1) : m1 < 2 ^ 53 := by
  obtain ⟨-, -, K, -, -, hm, -⟩ := fpUnpack_fin ha
  exact hm

theorem fadd_roundsTo (c : Config) (ha : unpack64 a = .fin n1 m1 e1) (hb : unpack64 b = .fin n2 m2 e2) :
    roundsTo64 (finValue n1 m1 e1 + finValue n2 m2 e2 : ℚ)
      (if finValue n1 m1 e1 + finValue n2 m2 e2 = 0 then n1 && n2 else decide (finValue n1 m1 e1 + finValue n2 m2 e2 < 0))
      (fadd c a b) := by
  rw [fadd, ha, hb]
  exact addFinite_roundsTo n1 n2 m1 m2 e1 e2

/-- Subtraction is the addition of the operand with its sign changed. -/
theorem fsub_roundsTo (c : Config) (ha : unpack64 a = .fin n1 m1 e1) (hb : unpack64 b = .fin n2 m2 e2) :
    roundsTo64 (finValue n1 m1 e1 - finValue n2 m2 e2 : ℚ)
      (if finValue n1 m1 e1 - finValue n2 m2 e2 = 0 then n1 && !n2
        else decide (finValue n1 m1 e1 - finValue n2 m2 e2 < 0)) (fsub c a b) := by
  rw [fsub, ha, hb, sub_eq_add_neg, ← finValue_not]
  exact addFinite_roundsTo n1 (!n2) m1 m2 e1 e2

theorem fmul_roundsTo (c : Config) (ha : unpack64 a = .fin n1 m1 e1) (hb : unpack64 b = .fin n2 m2 e2) :
    roundsTo64 (finValue n1 m1 e1 * finValue n2 m2 e2 : ℚ) (n1 ^^ n2) (fmul c a b) := by
  rw [fmul, ha, hb, finValue_mul]
  exact round64_roundsTo_finValue _ _ _

/-- The three cases of a division of finite values. -/
theorem fdiv_fin (c : Config) (ha : unpack64 a = .fin n1 m1 e1) (hb : unpack64 b = .fin n2 m2 e2) :
    fdiv c a b = if m2 = 0 then (if m1 = 0 then c.nan64 .div a b else inf64 (n1 ^^ n2))
      else divFinite (n1 ^^ n2) m1 e1 m2 e2 := by
  rw [fdiv, ha, hb]

/-- The three cases of the root of a finite value. -/
theorem fsqrt_fin (c : Config) (ha : unpack64 a = .fin n1 m1 e1) :
    fsqrt c a = if m1 = 0 then a else if n1 then c.nan64 .sqrt a zeroF else sqrtFinite m1 e1 := by
  rw [fsqrt, ha]

/-- The root of a number that is not negative; the root of a zero is that zero. -/
theorem fsqrt_roundsTo (c : Config) (ha : unpack64 a = .fin n1 m1 e1) (hx : 0 ≤ finValue n1 m1 e1) :
    roundsTo64 (Real.sqrt (finValue n1 m1 e1 : ℚ)) n1 (fsqrt c a) := by
  rw [fsqrt_fin c ha]
  split_ifs with hm hn
  · have hzero := finValue_eq_zero_iff (s := n1) (e := e1).2 hm
    have hround := round64_roundsTo_finValue n1 m1 e1
    rw [round64_unpack64 ha] at hround
    rw [hzero] at hround ⊢
    simpa using hround
  · exact absurd (finValue_neg_iff.2 ⟨hn, hm⟩) (not_lt.2 hx)
  · obtain rfl : n1 = false := by simpa using hn
    exact sqrtFinite_roundsTo e1 hm (significand_lt ha)

end

/-- Settles O52: the grid's nearest place for one rounding, and the exact value, or a significand with a sticky bit for it, for
each operation. -/
theorem roundingIsNearestEvenAndExact : Obligations.RoundingIsNearestEvenAndExact := by
  refine ⟨fun neg m e => ⟨round64_roundsTo_finValue neg m e, round32_roundsTo_finValue neg m e⟩, ?_, roundShift_spec,
    fun x n m e h => round64_unpack64 h, fun x n m e h => round32_unpack32 h⟩
  intro c a b n1 n2 m1 m2 e1 e2 ha hb x y
  refine ⟨fadd_roundsTo c ha hb, fsub_roundsTo c ha hb, fmul_roundsTo c ha hb, fun hy => ?_, fun hy hx => ?_, fun hy hx => ?_,
    fsqrt_roundsTo c ha, fun hx => ?_⟩
  · have hm2 : m2 ≠ 0 := fun h => hy (finValue_eq_zero_iff.2 h)
    rw [fdiv_fin c ha hb, if_neg hm2]
    exact divFinite_roundsTo n1 n2 e1 e2 hm2 (significand_lt hb)
  · have hm1 : m1 ≠ 0 := fun h => hx (finValue_eq_zero_iff.2 h)
    rw [fdiv_fin c ha hb, if_pos (finValue_eq_zero_iff.1 hy), if_neg hm1, unpack64_inf64]
  · rw [fdiv_fin c ha hb, if_pos (finValue_eq_zero_iff.1 hy), if_pos (finValue_eq_zero_iff.1 hx), isNaN64_nan64]
  · obtain ⟨hn, hm⟩ := finValue_neg_iff.1 hx
    rw [fsqrt_fin c ha, if_neg hm, if_pos hn, isNaN64_nan64]

end Sys2Proof.Machine
end

section
/-! SUPPORT. Widening and narrowing (00_scope.md R12): the values of binary32 are among those of binary64, and rounding depends
on the number only. -/

namespace Sys2Proof.Machine

open Sys2Proof

/-- Every significand the format keeps, in every unit of the format, stands on the grid. -/
theorem exists_fpGrid_eq {F m : Nat} (j : Nat) (hm : m < 2 ^ (F + 1)) : ∃ p, fpGrid F p = m * 2 ^ j := by
  induction j generalizing m with
  | zero => exact ⟨0 * 2 ^ F + m, fpGrid_scaled hm.le (.inl rfl)⟩
  | succ j ih =>
    by_cases h : 2 ^ F ≤ m
    · exact ⟨(j + 1) * 2 ^ F + m, fpGrid_scaled hm.le (.inr h)⟩
    · obtain ⟨p, hp⟩ := ih (m := m * 2) (by rw [pow_succ]; omega)
      exact ⟨p, by rw [hp, pow_succ', Nat.mul_assoc]⟩

/-- A significand the format keeps, in a unit of a finite value, is rounded to a finite pattern of the same number. -/
theorem fpRound_exact {f : FpFormat} (hf : f.regular) (s : Bool) {m j : Nat} (hm : m < 2 ^ (f.fracBits + 1))
    (hj : j + 3 ≤ 2 ^ f.expBits) :
    ∃ m' e', fpUnpack f (fpRound f s m (fpEmin f + j)) = .fin s m' e' ∧
      finValue s m' e' = finValue s m (fpEmin f + j) := by
  obtain ⟨p, hp⟩ := exists_fpGrid_eq j hm
  have hlt : p < fpInfBits f := by
    rw [← (fpGrid_strictMono f.fracBits).lt_iff_lt, hp, fpInfBits_scaled hf.1,
      fpGrid_scaled le_rfl (.inr (Nat.pow_le_pow_right two_pos (Nat.le_succ _)))]
    exact Nat.mul_lt_mul_of_lt_of_le hm (Nat.pow_le_pow_right two_pos (by omega)) (by positivity)
  have hval : (m : ℚ) * 2 ^ (fpEmin f + j) = fpGrid f.fracBits p * 2 ^ fpEmin f := by
    rw [hp, zpow_add₀ two_ne_zero, zpow_natCast]
    push_cast
    ring
  have hmag := fpMag_sign_add s hlt.le
  obtain ⟨m', e', hu⟩ := exists_fin_of_fpMag_lt (hmag.trans_lt hlt)
  rw [fpNeg_sign_add s hlt.le] at hu
  have hvalR := congrArg (Rat.cast : ℚ → ℝ) hval
  push_cast at hvalR
  rw [fpRound_of_grid hf.2 s hlt.le hvalR]
  exact ⟨m', e', hu, by rw [finValue_of_fpUnpack hu, hmag, finValue_eq, hval]⟩

/-- Widening a finite value keeps its sign and its number: the 24 bits and the units of binary32 are among those of binary64
(00_scope.md R12). -/
theorem widen_fin (c : Config) {x : F32} {s : Bool} {m : Nat} {e : Int} (h : unpack32 x = .fin s m e) :
    ∃ m' e', unpack64 (widen c x) = .fin s m' e' ∧ finValue s m' e' = finValue s m e := by
  obtain ⟨-, hlt, K, he, hmag, hm, -⟩ := fpUnpack_fin h
  have hI : fpInfBits binary32 = 255 * 2 ^ 23 := by decide
  rw [hI] at hlt
  change m < 2 ^ 24 at hm
  change _ = K * 2 ^ 23 + m at hmag
  have hunit : e = fpEmin binary64 + ((925 + K : Nat) : Int) := by
    have : fpEmin binary32 = fpEmin binary64 + 925 := by decide
    omega
  have hexact := fpRound_exact binary64_regular s (m := m) (j := 925 + K) (hm.trans (by decide))
    (by change 925 + K + 3 ≤ 2 ^ 11; omega)
  rw [← hunit, ← toNat_round64] at hexact
  rw [widen, h]
  exact hexact

theorem widen_inf (c : Config) {x : F32} {s : Bool} (h : unpack32 x = .inf s) : unpack64 (widen c x) = .inf s := by
  rw [widen, h, unpack64_inf64]

theorem isNaN64_widen (c : Config) {x : F32} (h : unpack32 x = .nan) : isNaN64 (widen c x) = true := by
  rw [widen, h, isNaN64_nan64]

theorem isNaN32_narrow (c : Config) {x : F64} (h : unpack64 x = .nan) : isNaN32 (narrow c x) = true := by
  rw [narrow, h, isNaN32_nan32]

/-- Equal numbers of one sign have equal magnitudes. -/
theorem magnitude_eq_of_finValue_eq {s : Bool} {m m' : Nat} {e e' : Int} (h : finValue s m e = finValue s m' e') :
    (m : ℝ) * 2 ^ e = m' * 2 ^ e' := by
  rw [finValue_eq, finValue_eq] at h
  have hR := congrArg (Rat.cast : ℚ → ℝ) (mul_left_cancel₀ (signOf_ne_zero s) h)
  push_cast at hR
  exact hR

/-- Narrowing gives back a widened value that is no NaN: a finite one is rounded to the pattern of its number. -/
theorem narrow_widen (c : Config) {x : F32} (h : unpack32 x ≠ .nan) : narrow c (widen c x) = x := by
  match hx : unpack32 x with
  | .nan => exact absurd hx h
  | .inf s => rw [narrow, widen_inf c hx]; exact inf32_of_unpack32 hx
  | .fin s m e =>
    obtain ⟨m', e', hu, hv⟩ := widen_fin c hx
    have hround : round32 s m' e' = round32 s m e := by
      rw [round32, round32, fpRound_congr binary32_regular.2 s (magnitude_eq_of_finValue_eq hv)]
    rw [narrow, hu]
    exact hround.trans (round32_unpack32 hx)

/-- A widened value is a NaN exactly if the value is one. -/
theorem isNaN64_widen_iff (c : Config) (x : F32) : isNaN64 (widen c x) = isNaN32 x := by
  rw [Bool.eq_iff_iff, isNaN32_iff]
  match hx : unpack32 x with
  | .nan => simp [isNaN64_widen c hx]
  | .inf s => simp [isNaN64_iff, widen_inf c hx]
  | .fin s m e =>
    obtain ⟨m', e', hu, -⟩ := widen_fin c hx
    simp [isNaN64_iff, hu]

/-- Settles O53: a widened finite value stands on the finer grid with the same number, and rounding depends on the number
only. -/
theorem widenThenNarrow : Obligations.WidenThenNarrow := by
  intro c x
  refine ⟨fun n m e h => widen_fin c h, fun n h => widen_inf c h, fun h => ⟨narrow_widen c ?_, ?_⟩, fun h => ?_⟩
  · rw [ne_eq, ← isNaN32_iff, h]
    decide
  · rw [isNaN64_widen_iff, h]
  · have hw := (isNaN64_widen_iff c x).trans h
    exact ⟨hw, isNaN32_narrow c (isNaN64_iff.1 hw)⟩

end Sys2Proof.Machine
end

section
/-! SUPPORT. How a command can stop (00_scope.md R10; 60_exceptions.md R268; 20_memory.md R75), and which commands leave the
mark of an UNDEF read (log 4). -/

namespace Sys2Proof.Machine

open Sys2Proof Host

/-! ## Which commands complete -/

/-- A word of the block a PROCESS reads is UNDEF, in the left buffer or in the one the right channel resolves to. -/
def inputUndef (s : State) (in1 : Bool) (n : Int) : Prop :=
  ∃ j < n.toNat, s.ioWord 0#2 (BitVec.ofNat 15 j) = none ∨ s.ioWord (rightIn in1) (BitVec.ofNat 15 j) = none

theorem inputUndef_of_left {s : State} {in1 : Bool} {n : Int} (h : readBlock s 0#2 n.toNat 0 = none) :
    inputUndef s in1 n := by
  obtain ⟨j, -, hj, hw⟩ := readBlock_none h
  exact ⟨j, by omega, .inl hw⟩

theorem inputUndef_of_right {s : State} {in1 : Bool} {n : Int} (h : readBlock s (rightIn in1) n.toNat 0 = none) :
    inputUndef s in1 n := by
  obtain ⟨j, -, hj, hw⟩ := readBlock_none h
  exact ⟨j, by omega, .inr hw⟩

/-- A bypassed PROCESS completes or meets an UNDEF input word. -/
theorem bypassBlock_cases (in1 out1 : Bool) (n : Int) (s : State) :
    (∃ t, bypassBlock in1 out1 n.toNat s = .next t) ∨
    (inputUndef s in1 n ∧ bypassBlock in1 out1 n.toNat s = .fault .undefIoWord) := by
  unfold bypassBlock
  cases hl : readBlock s 0#2 n.toNat 0 with
  | none => exact .inr ⟨inputUndef_of_left hl, rfl⟩
  | some ls =>
    cases out1 with
    | false => exact .inl ⟨_, rfl⟩
    | true =>
      cases hr : readBlock s (rightIn in1) n.toNat 0 with
      | none => exact .inr ⟨inputUndef_of_right hr, rfl⟩
      | some rs => exact .inl ⟨_, rfl⟩

/-- A PROCESS that runs the passes completes, meets an UNDEF input word, or finds a ring with UNDEF cells. -/
theorem processBlock_cases (c : Config) (in1 out1 : Bool) (n : Int) (s : State) :
    (∃ t, processBlock c in1 out1 n.toNat s = .next t) ∨
    (inputUndef s in1 n ∧ processBlock c in1 out1 n.toNat s = .fault .undefIoWord) ∨
    (s.ring.fill.isSome = false ∧ processBlock c in1 out1 n.toNat s = .fault .undefRingCell) := by
  unfold processBlock
  cases hl : readBlock s 0#2 n.toNat 0 with
  | none => exact .inr (.inl ⟨inputUndef_of_left hl, rfl⟩)
  | some ls =>
    cases hr : readBlock s (rightIn in1) n.toNat 0 with
    | none => exact .inr (.inl ⟨inputUndef_of_right hr, rfl⟩)
    | some rs =>
      dsimp only
      cases hp : pipeline c (boolParam c s.params[4]) (rightOut out1) (ls.zip rs) s with
      | some t => exact .inl ⟨t, rfl⟩
      | none =>
        refine .inr (.inr ⟨Bool.eq_false_iff.2 fun hfill => ?_, rfl⟩)
        obtain ⟨t, ht⟩ := pipeline_some (c := c) (adv := boolParam c s.params[4]) (outR := rightOut out1)
          (ws := ls.zip rs) hfill
        rw [ht] at hp
        cases hp

/-- What PROCESS can answer: only one with both channels 0 present in READY can stop. -/
theorem execProcess_cases (in0 in1 out0 out1 : Bool) (n : Int) (s : State) :
    (∃ t, execProcess in0 in1 out0 out1 n s = .next t) ∨
    (in0 = true ∧ out0 = true ∧ inputUndef s in1 n ∧ execProcess in0 in1 out0 out1 n s = .fault .undefIoWord) ∨
    (s.lifecycle = .ready ∧ s.ring.fill.isSome = false ∧ execProcess in0 in1 out0 out1 n s = .fault .undefRingCell) := by
  unfold execProcess
  split_ifs with hsilent huninit hblock hbypass
  · exact .inl ⟨_, rfl⟩
  · exact .inl ⟨_, rfl⟩
  · exact .inl ⟨_, rfl⟩
  all_goals
    obtain ⟨⟨hin, hout⟩, -⟩ : (in0 = true ∧ out0 = true) ∧ 0 < n := by simpa using hsilent
    have hready : s.lifecycle = .ready := by cases hl : s.lifecycle <;> simp_all
  · exact (bypassBlock_cases in1 out1 n s).imp_right fun ⟨hw, e⟩ => .inl ⟨hin, hout, hw, e⟩
  · rcases processBlock_cases Config.current in1 out1 n s with h | ⟨hw, e⟩ | ⟨hf, e⟩
    · exact .inl h
    · exact .inr (.inl ⟨hin, hout, hw, e⟩)
    · exact .inr (.inr ⟨hready, hf, e⟩)

theorem execWrreg_completes (a : RegAddr) (v : BitVec 64) (s : State) : ∃ t, execWrreg a v s = .next t := by
  unfold execWrreg
  split_ifs
  · exact ⟨_, rfl⟩
  · cases regAt a with
    | none => exact ⟨_, rfl⟩
    | some r =>
      dsimp only
      split_ifs
      · exact ⟨_, rfl⟩
      · exact ⟨_, rfl⟩

/-- A choice between two next states is a next state. -/
theorem ite_next_completes {p : Prop} [Decidable p] {t u : State} :
    ∃ v, (if p then .next t else .next u : Outcome State Fault Refusal) = .next v :=
  ⟨if p then t else u, by split_ifs <;> rfl⟩

/-- What a command can answer: it completes, or it stops on a memory cell that is UNDEF. -/
theorem exec_cases (i : Instr) (s : State) :
    (∃ t, exec i s = .next t) ∨
    (∃ ch pos, i = .rdring ch pos ∧ s.ringCell ch pos = none ∧ exec i s = .fault .undefRingCell) ∨
    (∃ b k, i = .rdio b k ∧ s.ioWord b k = none ∧ exec i s = .fault .undefIoWord) ∨
    (∃ in1 out1 n, i = .process true in1 true out1 n ∧ inputUndef s in1 n ∧ exec i s = .fault .undefIoWord) ∨
    (s.lifecycle = .ready ∧ s.ring.fill.isSome = false ∧ exec i s = .fault .undefRingCell) := by
  cases i with
  | nop => exact .inl ⟨s, rfl⟩
  | reset => exact .inl ite_next_completes
  | cleanup => exact .inl ⟨_, rfl⟩
  | getp idx =>
    rcases execGetp_cases idx s with ⟨v, e⟩ | ⟨-, v, -, e⟩
    · exact .inl ⟨_, e⟩
    · exact .inl ⟨_, e⟩
  | rdreg a =>
    rcases execRdreg_cases a s with ⟨r, -, -, e⟩ | ⟨r, v, -, -, e⟩ | ⟨-, e⟩
    · exact .inl ⟨_, e⟩
    · exact .inl ⟨_, e⟩
    · exact .inl ⟨_, e⟩
  | rdring ch pos =>
    cases h : s.ringCell ch pos with
    | none => exact .inr (.inl ⟨ch, pos, rfl, h, by simp only [exec, execRdring, h]⟩)
    | some v => exact .inl ⟨s.setResp v, by simp only [exec, execRdring, h]⟩
  | rdio b k =>
    cases h : s.ioWord b k with
    | none => exact .inr (.inr (.inl ⟨b, k, rfl, h, by simp only [exec, execRdio, h]⟩))
    | some v => exact .inl ⟨s.setResp (v.zeroExtend 64), by simp only [exec, execRdio, h]⟩
  | init fs => exact .inl ite_next_completes
  | setrate fs =>
    simp only [exec, execSetrate]
    split_ifs
    · exact .inl ⟨_, rfl⟩
    · exact .inl ⟨_, rfl⟩
    · exact .inl ⟨_, rfl⟩
  | setp idx v => exact .inl ⟨_, rfl⟩
  | wrreg a v => exact .inl (execWrreg_completes a v s)
  | wrio b k w => exact .inl ⟨_, rfl⟩
  | process in0 in1 out0 out1 n =>
    rcases execProcess_cases in0 in1 out0 out1 n s with h | ⟨rfl, rfl, hw, e⟩ | h
    · exact .inl h
    · exact .inr (.inr (.inr (.inl ⟨in1, out1, n, rfl, hw, e⟩)))
    · exact .inr (.inr (.inr (.inr h)))

/-- No command refuses, and none stops with the fault of the mark. -/
theorem exec_answer (i : Instr) (s : State) :
    (∀ r, exec i s ≠ .refused r) ∧ exec i s ≠ .fault .undefRead := by
  rcases exec_cases i s with ⟨t, e⟩ | ⟨_, _, -, -, e⟩ | ⟨_, _, -, -, e⟩ | ⟨_, _, _, -, -, e⟩ | ⟨-, -, e⟩ <;>
    simp [e]

/-- What a step answers: the fault of the mark or of a cut-off command, a next state, or what its command answers. -/
theorem step_cases (s : State) :
    (s.undefRead = true ∧ step s = .fault .undefRead) ∨
    (s.undefRead = false ∧ (step s = .fault .truncatedCommand ∨ (∃ t, step s = .next t) ∨ ∃ i t, step s = exec i t)) := by
  cases hu : s.undefRead with
  | true => exact .inl ⟨rfl, step_of_undefRead hu⟩
  | false =>
    refine .inr ⟨rfl, ?_⟩
    unfold step
    rw [pendingFault_eq_none.2 hu]
    dsimp only
    cases fetchCommand s.stream with
    | ended => exact .inr (.inl ⟨s, rfl⟩)
    | truncated => exact .inl rfl
    | command w w1 w2 rest =>
      dsimp only
      cases decode w w1 w2 with
      | ok i => exact .inr (.inr ⟨i, _, rfl⟩)
      | error e => exact .inr (.inl ⟨_, rfl⟩)

/-- A step refuses nothing, and stops for the mark exactly if it is set. -/
theorem step_answer (s : State) :
    (∀ r, step s ≠ .refused r) ∧ (step s = .fault .undefRead ↔ s.undefRead = true) := by
  rcases step_cases s with ⟨hu, e⟩ | ⟨hu, e | ⟨t, e⟩ | ⟨i, t, e⟩⟩
  · simp [hu, e]
  · simp [hu, e]
  · simp [hu, e]
  · obtain ⟨hr, hf⟩ := exec_answer i t
    simp [hu, e, hr, hf]

/-! ## The mark of an UNDEF read -/

/-- GETP sets the mark exactly if its parameter is UNDEF. -/
theorem execGetp_undefRead {idx : BitVec 8} {s t : State} (h : execGetp idx s = .next t) :
    t.undefRead = true ↔ s.undefRead = true ∨ ∃ h : idx.toNat < 20, s.paramSet[idx.toNat] = false := by
  unfold execGetp at h
  split_ifs at h with hidx hset
  · rw [← Outcome.next.inj h]
    simp [hset]
  · rw [← Outcome.next.inj h]
    simp [hidx, hset]
  · rw [← Outcome.next.inj h]
    simp [hidx]

/-- RDREG sets the mark exactly if its register is UNDEF. -/
theorem execRdreg_undefRead {a : RegAddr} {s t : State} (h : execRdreg a s = .next t) :
    t.undefRead = true ↔ s.undefRead = true ∨ ∃ r, regAt a = some r ∧ s.regDefined r = false := by
  rcases execRdreg_next h with ⟨r, hr, hd, rfl⟩ | ⟨r, v, hr, hd, rfl⟩ | ⟨hr, rfl⟩
  · simp [hr, hd]
  · simp [hr, hd]
  · simp [hr]

theorem writeEffect_undefRead (c : Config) (r : Reg) (v : BitVec 64) (s : State) :
    (writeEffect c r v s).undefRead = s.undefRead := by
  rcases writeEffect_cases c r v s with e | e | ⟨-, -, e⟩ | ⟨-, -, e⟩ | ⟨b, k, e⟩ <;> rw [e] <;> rfl

/-- No command but GETP and RDREG touches the mark. -/
theorem exec_undefRead_of_other {i : Instr} {s t : State} (hg : ∀ idx, i ≠ .getp idx) (hr : ∀ a, i ≠ .rdreg a)
    (h : exec i s = .next t) : t.undefRead = s.undefRead := by
  cases i with
  | nop => cases h; rfl
  | reset => rcases execReset_next h with ⟨-, rfl⟩ | ⟨-, rfl⟩ <;> rfl
  | cleanup => cases h; rfl
  | getp idx => exact absurd rfl (hg idx)
  | rdreg a => exact absurd rfl (hr a)
  | rdring ch pos => obtain ⟨v, -, rfl⟩ := execRdring_next h; rfl
  | rdio b k => obtain ⟨v, -, rfl⟩ := execRdio_next h; rfl
  | init fs => rcases execInit_next h with ⟨-, rfl⟩ | rfl <;> rfl
  | setrate fs => rcases execSetrate_next h with ⟨-, -, rfl⟩ | ⟨-, rfl⟩ | rfl <;> rfl
  | setp idx v =>
    cases h
    obtain ⟨_, _, _, _, _, _, e⟩ := setParam_only Config.current idx v s
    rw [e]
  | wrreg a v =>
    rcases execWrreg_next h with ⟨-, rfl⟩ | ⟨-, rfl⟩ | ⟨-, r, -, -, rfl⟩
    · rfl
    · rfl
    · exact writeEffect_undefRead _ _ _ _
  | wrio b k w => cases h; rfl
  | process in0 in1 out0 out1 n =>
    rcases process_sum h with rfl | rfl | rfl | ⟨-, _, rfl⟩ | ⟨-, _, _, _, _, _, _, _, _, _, rfl, -, -⟩ <;> rfl

/-- A completed command leaves the mark set exactly if it was set or the command read an UNDEF register or parameter. -/
theorem exec_undefRead {i : Instr} {s t : State} (h : exec i s = .next t) :
    t.undefRead = true ↔ s.undefRead = true ∨
      (∃ a r, i = .rdreg a ∧ regAt a = some r ∧ s.regDefined r = false) ∨
      ∃ (idx : BitVec 8) (h : idx.toNat < 20), i = .getp idx ∧ s.paramSet[idx.toNat] = false := by
  by_cases hg : ∃ idx, i = .getp idx
  · obtain ⟨idx, rfl⟩ := hg
    rw [execGetp_undefRead h]
    simp
  by_cases hr : ∃ a, i = .rdreg a
  · obtain ⟨a, rfl⟩ := hr
    rw [execRdreg_undefRead h]
    simp
  · push Not at hg hr
    rw [exec_undefRead_of_other hg hr h]
    simp [hg, hr]

/-! ## The statement -/

/-- Settles O9: what a command, and a step, can answer, and in READY the ring has no UNDEF cell for a PROCESS to meet. -/
theorem faultsAreUndefReads : Obligations.FaultsAreUndefReads := by
  refine ⟨fun s => (step_answer s).1, fun s => (step_answer s).2, fun i s t h => exec_undefRead h, fun i s f hs h => ?_⟩
  rcases exec_cases i s with ⟨t, e⟩ | ⟨ch, pos, hi, hc, e⟩ | ⟨b, k, hi, hw, e⟩ | ⟨in1, out1, n, hi, ⟨j, hj, hw⟩, e⟩ |
      ⟨hready, hfill, e⟩
  · cases h.symm.trans e
  · cases h.symm.trans e
    exact .inl ⟨rfl, ch, pos, hi, hc⟩
  · cases h.symm.trans e
    exact .inr ⟨rfl, .inl ⟨b, k, hi, hw⟩⟩
  · cases h.symm.trans e
    exact .inr ⟨rfl, .inr ⟨in1, out1, n, j, hi, hj, hw⟩⟩
  · rw [(ready_ring hs hready).2] at hfill
    cases hfill

end Sys2Proof.Machine
end

section
/-! SUPPORT. What a completed command, and a step, can have done, said once: every claim about who writes an element, and
every invariant, is a case analysis of `ExecEffect`. -/

namespace Sys2Proof.Machine

open Sys2Proof Host

/-- The states a command can complete in from `s`: one constructor per effect, with what the effect leaves open as
arguments. -/
inductive ExecEffect (s : State) : Instr → State → Prop where
  /-- NOP, a silent SETP or PROCESS: nothing happens. -/
  | unchanged {i : Instr} (hi : isReadCommand i = false) : ExecEffect s i s
  /-- A command other than a read raises an error (60_exceptions.md R264). -/
  | error {i : Instr} (e : ErrorCode) (hi : isReadCommand i = false) : ExecEffect s i (raiseError e i.opcode s)
  /-- RDREG of a reserved address (47_register_access.md R240). -/
  | errorOfRead (a : RegAddr) (ha : regAt a = none) : ExecEffect s (.rdreg a) (raiseError .reg 0x20#8 s)
  /-- A read command returns a value (10_state.md R25). -/
  | respond {i : Instr} (v : BitVec 64) (hi : isReadCommand i = true) : ExecEffect s i (s.setResp v)
  /-- A read of an UNDEF register or parameter (log 4). -/
  | respondUndef {i : Instr} (v : BitVec 64) (hi : isReadCommand i = true) : ExecEffect s i (s.respondUndef v)
  /-- RESET in READY (46_lifecycle_commands.md R224). -/
  | reset (hready : s.lifecycle = .ready) : ExecEffect s .reset (neutralState s)
  /-- CLEANUP (46_lifecycle_commands.md R225). -/
  | cleanup : ExecEffect s .cleanup { s with lifecycle := .uninit, ring := Memory.undef 64 }
  /-- INIT with a valid rate (46_lifecycle_commands.md R221). -/
  | init (fs : F64) (hrate : rateOk Config.current fs Config.xoLoDefault Config.xoHiDefault = true) :
      ExecEffect s (.init fs) (initState Config.current fs s)
  /-- SETRATE in READY with a valid rate (46_lifecycle_commands.md R223). -/
  | setrate (fs : F64) (hready : s.lifecycle = .ready) (hrate : rateOk Config.current fs s.xoLo s.xoHi = true) :
      ExecEffect s (.setrate fs) (applyRate Config.current fs s)
  /-- SETP (45_parameter_commands.md R201, R204). -/
  | setp (idx : BitVec 8) (v : F32) {ps : Vector F32 20} {ms : Vector Bool 20} {up dn : F64} {g2 : Vector F64 3}
      {ks : Vector Comp 3}
      (e : setParam Config.current idx v s =
        { s with params := ps, paramSet := ms, ratioUp := up, ratioDn := dn, gain2 := g2, comps := ks }) :
      ExecEffect s (.setp idx v)
        { s with params := ps, paramSet := ms, ratioUp := up, ratioDn := dn, gain2 := g2, comps := ks }
  /-- WRREG of XO_LO in its domain (47_register_access.md R242). -/
  | xoLo (a : RegAddr) (v : BitVec 64) (hready : s.lifecycle = .ready) (hv : crossoverOk Config.current v s.fs = true) :
      ExecEffect s (.wrreg a v) (deriveLow Config.current { s with xoLo := v })
  /-- WRREG of XO_HI in its domain (47_register_access.md R242). -/
  | xoHi (a : RegAddr) (v : BitVec 64) (hready : s.lifecycle = .ready) (hv : crossoverOk Config.current v s.fs = true) :
      ExecEffect s (.wrreg a v) (deriveHigh Config.current { s with xoHi := v })
  /-- WRREG of a compressor register (47_register_access.md R242). -/
  | comp (a : RegAddr) (v : BitVec 64) (b : Fin 3) (k : Comp) (hready : s.lifecycle = .ready) :
      ExecEffect s (.wrreg a v) (s.setComp b k)
  /-- WRIO (47_register_access.md R245). -/
  | wrio (b : BitVec 2) (k : BitVec 15) (w : Word) : ExecEffect s (.wrio b k w) (s.setIoWord b k w)
  /-- A bypassed PROCESS (44_process.md R173). -/
  | bypass {in0 in1 out0 out1 : Bool} {n : Int} {io : Memory 32} (hready : s.lifecycle = .ready) :
      ExecEffect s (.process in0 in1 out0 out1 n) { s with io := io }
  /-- A PROCESS that runs the passes (44_process.md R180). -/
  | passes {in0 in1 out0 out1 : Bool} {n : Int} {pk : Vector F64 2} {sv : Vector F64 3} {fl : Vector Filter 6}
      {rg : Memory 64} {ks : Vector Comp 3} {mg mr : Vector F64 3} {io : Memory 32} {w : RingPos}
      (hready : s.lifecycle = .ready) (hfill : rg.fill = s.ring.fill) (hfl : sameCoefs fl s.filters)
      (hks : sameConf ks s.comps) :
      ExecEffect s (.process in0 in1 out0 out1 n)
        { s with
          pk := pk, sv := sv, filters := fl, ring := rg, comps := ks, mgr := mg, mrms := mr, io := io, wcur := w, rcur := w }

/-- The three passes keep what an unlisted ring cell holds. -/
theorem pipeline_fill {c : Config} {adv : Bool} {outR : BitVec 2} {ws : List (Word × Word)} {s t : State}
    (h : pipeline c adv outR ws s = some t) : t.ring.fill = s.ring.fill := by
  unfold pipeline remixPass at h
  obtain ⟨ks, mg, mr, io, rfl⟩ := remixLoop_only h
  exact (splitPass_fill c adv ws _).trans (by rw [peakPass_ring])

theorem execWrreg_effect {a : RegAddr} {v : BitVec 64} {s t : State} (h : execWrreg a v s = .next t) :
    ExecEffect s (.wrreg a v) t := by
  rcases execWrreg_next h with ⟨-, rfl⟩ | ⟨-, rfl⟩ | ⟨hready, r, -, -, rfl⟩
  · exact .error .uninit rfl
  · exact .error .reg rfl
  · rcases writeEffect_cases Config.current r v s with e | e | ⟨-, hv, e⟩ | ⟨-, hv, e⟩ | ⟨b, k, e⟩ <;> rw [e]
    · exact .unchanged rfl
    · exact .error .rate rfl
    · exact .xoLo a v hready hv
    · exact .xoHi a v hready hv
    · exact .comp a v b k hready

theorem execProcess_effect {in0 in1 out0 out1 : Bool} {n : Int} {s t : State}
    (h : execProcess in0 in1 out0 out1 n s = .next t) : ExecEffect s (.process in0 in1 out0 out1 n) t := by
  rcases execProcess_next h with rfl | rfl | rfl | ⟨hready, -, -, hb⟩ | ⟨hready, -, -, ls, rs, -, -, hp⟩
  · exact .unchanged rfl
  · exact .error .uninit rfl
  · exact .error .block rfl
  · obtain ⟨io, rfl⟩ := bypass_only hb
    exact .bypass hready
  · have hfill := pipeline_fill hp
    obtain ⟨hfl, hks⟩ := pipeline_coefs hp
    obtain ⟨pk, sv, fl, rg, ks, mg, mr, io, rfl⟩ := pipeline_only hp
    exact .passes hready hfill hfl hks

/-- Every command that completes has one of the effects. -/
theorem exec_effect {i : Instr} {s t : State} (h : exec i s = .next t) : ExecEffect s i t := by
  cases i with
  | nop => cases h; exact .unchanged rfl
  | reset =>
    rcases execReset_next h with ⟨hready, rfl⟩ | ⟨-, rfl⟩
    · exact .reset hready
    · exact .error .uninit rfl
  | cleanup => cases h; exact .cleanup
  | getp idx =>
    obtain ⟨v, rfl | rfl⟩ := execGetp_next h
    · exact .respond v rfl
    · exact .respondUndef v rfl
  | rdreg a =>
    rcases execRdreg_next h with ⟨r, -, -, rfl⟩ | ⟨r, v, -, -, rfl⟩ | ⟨ha, rfl⟩
    · exact .respond _ rfl
    · exact .respondUndef _ rfl
    · exact .errorOfRead a ha
  | rdring ch pos => obtain ⟨v, -, rfl⟩ := execRdring_next h; exact .respond v rfl
  | rdio b k => obtain ⟨v, -, rfl⟩ := execRdio_next h; exact .respond _ rfl
  | init fs =>
    rcases execInit_next h with ⟨hrate, rfl⟩ | rfl
    · exact .init fs hrate
    · exact .error .rate rfl
  | setrate fs =>
    rcases execSetrate_next h with ⟨hready, hrate, rfl⟩ | ⟨-, rfl⟩ | rfl
    · exact .setrate fs hready hrate
    · exact .error .uninit rfl
    · exact .error .rate rfl
  | setp idx v =>
    cases h
    obtain ⟨ps, ms, up, dn, g2, ks, e⟩ := setParam_only Config.current idx v s
    rw [e]
    exact .setp idx v e
  | wrreg a v => exact execWrreg_effect h
  | wrio b k w => cases h; exact .wrio b k w
  | process in0 in1 out0 out1 n => exact execProcess_effect h

/-- A step on a whole command of the map is that command on the state with its words consumed (10_state.md R29). -/
theorem step_of_command {s : State} {w w1 w2 : Word} {rest : List Word} {i : Instr} (hu : s.undefRead = false)
    (hf : fetchCommand s.stream = .command w w1 w2 rest) (hd : decode w w1 w2 = .ok i) :
    step s = exec i (s.consume (commandLength w) rest) := by
  simp only [step, pendingFault_eq_none.2 hu, hf, hd]

/-- Settles O5: `decode` gives well-formed commands, and consuming one moves CP by the length its OP[7] gives. -/
theorem stepRunsDecodedCommand : Obligations.StepRunsDecodedCommand :=
  ⟨fun _ hu => step_of_undefRead hu, fun _ _ _ _ _ _ hu hf hd => ⟨decode_wellFormed hd, step_of_command hu hf hd⟩⟩

end Sys2Proof.Machine
end

section
/-! SUPPORT. The error registers (10_state.md R22, R23): a command, a step and a run change them by raising errors only. -/

namespace Sys2Proof.Machine

open Sys2Proof Host

/-- STATUS and LAST_ERR go from `s` to `t` as 60_exceptions.md R264 lets them: both stay, or an error sets its bit and its
word. -/
def errorRegsStep (s t : State) : Prop :=
  (t.status = s.status ∧ t.lastErr = s.lastErr) ∨
  ∃ (e : ErrorCode) (op : BitVec 8), t.status = s.status ||| statusBit e ∧ t.lastErr = lastErrWord e op

theorem exec_errorRegs {i : Instr} {s t : State} (h : exec i s = .next t) : errorRegsStep s t := by
  cases exec_effect h with
  | error e hi => exact .inr ⟨e, _, rfl, rfl⟩
  | errorOfRead a ha => exact .inr ⟨.reg, _, rfl, rfl⟩
  | _ => exact .inl ⟨rfl, rfl⟩

theorem step_errorRegs {s t : State} (h : step s = .next t) : errorRegsStep s t := by
  rcases step_next_cases h with ⟨-, rfl⟩ | ⟨w, w1, w2, rest, -, ⟨i, -, he⟩ | ⟨-, -, rfl⟩⟩
  · exact .inl ⟨rfl, rfl⟩
  · exact (exec_errorRegs he :)
  · exact .inr ⟨.illegal, _, rfl, rfl⟩

/-- Every STATUS bit of an error lies below bit 5 (10_state.md R22). -/
theorem statusBit_lt (e : ErrorCode) : (statusBit e).toNat < 32 := by cases e <;> decide

theorem statusBit_ne_zero (e : ErrorCode) : statusBit e ≠ 0#64 := by cases e <;> decide

/-- A bit that is set stays set under OR. -/
theorem and_or_cancel {w : Nat} (a b : BitVec w) : a &&& (a ||| b) = a := by
  ext i hi
  simpa using .inl

/-- Settles O58: a raised error sets a STATUS bit below bit 5 and names it in LAST_ERR. -/
theorem stepKeepsErrorRegisters : Obligations.StepKeepsErrorRegisters := by
  rintro s t ⟨hlt, hagree⟩ h
  rcases step_errorRegs h with ⟨hstatus, hlast⟩ | ⟨e, op, hstatus, hlast⟩
  · unfold errorRegsOk
    rw [hstatus, hlast]
    exact ⟨hlt, hagree⟩
  · refine ⟨?_, .inr ⟨e, op, hlast, ?_⟩⟩
    · rw [hstatus, BitVec.toNat_or]
      exact Nat.or_lt_two_pow (n := 5) hlt (statusBit_lt e)
    · rw [hstatus, BitVec.or_comm, BitVec.and_comm, and_or_cancel]

/-- A step clears no STATUS bit. -/
theorem step_status_sticky {s t : State} (h : step s = .next t) : s.status &&& t.status = s.status := by
  rcases step_errorRegs h with ⟨e, -⟩ | ⟨_, _, e, -⟩ <;> rw [e]
  · exact BitVec.and_self
  · exact and_or_cancel _ _

/-- A step that ends with STATUS = 0 raised no error. -/
theorem step_status_zero {s t : State} (h : step s = .next t) (ht : t.status = 0#64) :
    s.status = 0#64 ∧ t.lastErr = s.lastErr := by
  rcases step_errorRegs h with ⟨e, hl⟩ | ⟨err, _, e, -⟩
  · exact ⟨e.symm.trans ht, hl⟩
  · exact absurd (BitVec.or_eq_zero_iff.1 (e.symm.trans ht)).2 (statusBit_ne_zero err)

theorem coreRun_of_step (M : Core) {s u : M.State} (h : M.step s = .next u) (k : Nat) : M.run (k + 1) s = M.run k u := by
  simp only [Core.run, h]

theorem runSteps_of_step {s u : State} (h : step s = .next u) (k : Nat) : runSteps (k + 1) s = runSteps k u :=
  coreRun_of_step core h k

/-- A run of one more step is a step and a run from where it leads. -/
theorem runSteps_succ {k : Nat} {s t : State} (h : runSteps (k + 1) s = .next t) :
    ∃ u, step s = .next u ∧ runSteps k u = .next t := by
  cases hs : step s with
  | next u => exact ⟨u, rfl, (runSteps_of_step hs k).symm.trans h⟩
  | fault f =>
    have hcore : core.step s = .fault f := hs
    simp [runSteps, Core.run, hcore] at h
  | refused r => exact absurd hs ((step_answer s).1 r)

/-- Settles O11, by induction on the number of steps: a step clears no bit, and one that ends with STATUS = 0 raised
nothing. -/
theorem statusStickyOverRuns : Obligations.StatusStickyOverRuns := by
  intro k
  induction k with
  | zero =>
    intro s t h
    cases h
    refine ⟨BitVec.and_self, fun hs j hj => ?_⟩
    obtain rfl : j = 0 := Nat.le_zero.1 hj
    exact ⟨s, rfl, hs, rfl⟩
  | succ k ih =>
    intro s t h
    obtain ⟨u, hstep, hrun⟩ := runSteps_succ h
    obtain ⟨hsticky, hzero⟩ := ih u t hrun
    refine ⟨?_, fun ht j hj => ?_⟩
    · rw [← step_status_sticky hstep, BitVec.and_assoc, hsticky]
    · have hu : u.status = 0#64 := by simpa [ht] using hsticky.symm
      obtain ⟨hs, hlast⟩ := step_status_zero hstep hu
      cases j with
      | zero => exact ⟨s, rfl, hs, rfl⟩
      | succ j =>
        obtain ⟨v, hv, hv0, hvl⟩ := hzero ht j (Nat.le_of_succ_le_succ hj)
        exact ⟨v, (runSteps_of_step hstep j).trans hv, hv0, hvl.trans hlast⟩

end Sys2Proof.Machine
end

section
/-! SUPPORT. SETP element by element (45_parameter_commands.md R201, R204): what each parameter, mark, derived value and
compressor is afterwards. -/

namespace Sys2Proof.Machine

open Sys2Proof

theorem derive_params (c : Config) (n : Nat) (v : F32) (s : State) : (derive c n v s).params = s.params := by
  obtain ⟨_, _, _, _, e⟩ := derive_only c n v s
  rw [e]

theorem derive_paramSet (c : Config) (n : Nat) (v : F32) (s : State) : (derive c n v s).paramSet = s.paramSet := by
  obtain ⟨_, _, _, _, e⟩ := derive_only c n v s
  rw [e]

/-- DERIVE by index: parameter 2 drives RATIO_UP and UPR, 3 drives RATIO_DN and SEL, 8 to 10 the gain of their band. -/
theorem derive_cases (c : Config) (n : Nat) (v : F32) (s : State) :
    (n = 2 ∧ derive c n v s = { s with ratioUp := ratioOf c v, comps := setAllUpr (ratioOf c v) s.comps }) ∨
    (n = 3 ∧ derive c n v s = { s with ratioDn := ratioOf c v, comps := setAllSel (ratioOf c v) s.comps }) ∨
    (∃ b : Fin 3, n = 8 + b.val ∧ derive c n v s = { s with gain2 := s.gain2.set b (doubledGain c v) }) ∨
    (n ≠ 2 ∧ n ≠ 3 ∧ (∀ b : Fin 3, n ≠ 8 + b.val) ∧ derive c n v s = s) := by
  unfold derive
  split_ifs with h2 h3 hb
  · exact .inl ⟨h2, rfl⟩
  · exact .inr (.inl ⟨h3, rfl⟩)
  · exact .inr (.inr (.inl ⟨⟨n - 8, by omega⟩, by dsimp only; omega, rfl⟩))
  · exact .inr (.inr (.inr ⟨h2, h3, fun b => by omega, rfl⟩))

theorem derive_ratioUp (c : Config) (n : Nat) (v : F32) (s : State) :
    (derive c n v s).ratioUp = if n = 2 then ratioOf c v else s.ratioUp := by
  rcases derive_cases c n v s with ⟨rfl, e⟩ | ⟨rfl, e⟩ | ⟨b, rfl, e⟩ | ⟨h2, -, -, e⟩ <;> rw [e]
  · rfl
  · rfl
  · rw [if_neg (by omega)]
  · rw [if_neg h2]

theorem derive_ratioDn (c : Config) (n : Nat) (v : F32) (s : State) :
    (derive c n v s).ratioDn = if n = 3 then ratioOf c v else s.ratioDn := by
  rcases derive_cases c n v s with ⟨rfl, e⟩ | ⟨rfl, e⟩ | ⟨b, rfl, e⟩ | ⟨-, h3, -, e⟩ <;> rw [e]
  · rfl
  · rfl
  · rw [if_neg (by omega)]
  · rw [if_neg h3]

theorem derive_gain2_get (c : Config) (n : Nat) (v : F32) (s : State) (b : Fin 3) :
    (derive c n v s).gain2[b] = if n = 8 + b.val then doubledGain c v else s.gain2[b] := by
  rcases derive_cases c n v s with ⟨rfl, e⟩ | ⟨rfl, e⟩ | ⟨b', rfl, e⟩ | ⟨-, -, hb, e⟩ <;> rw [e]
  · rw [if_neg (by omega)]
  · rw [if_neg (by omega)]
  · simp only [Fin.getElem_fin, Vector.getElem_set, Nat.add_left_cancel_iff]
  · rw [if_neg (hb b)]

theorem derive_comps_get (c : Config) (n : Nat) (v : F32) (s : State) (b : Fin 3) :
    (derive c n v s).comps[b] = { s.comps[b] with
      upr := if n = 2 then ratioOf c v else s.comps[b].upr
      sel := if n = 3 then ratioOf c v else s.comps[b].sel } := by
  rcases derive_cases c n v s with ⟨rfl, e⟩ | ⟨rfl, e⟩ | ⟨b', rfl, e⟩ | ⟨h2, h3, -, e⟩ <;> rw [e]
  · exact three_get _ b
  · exact three_get _ b
  · rw [if_neg (by omega), if_neg (by omega)]
  · rw [if_neg h2, if_neg h3]

theorem setParam_params_getElem (c : Config) (idx : BitVec 8) (v : F32) (s : State) (j : Nat) (hj : j < 20) :
    (setParam c idx v s).params[j] = if idx.toNat = j then clamp01 v else s.params[j] := by
  unfold setParam
  by_cases h : idx.toNat < 20
  · rw [dif_pos h]
    simp only [derive_params, storeParam_params, Vector.getElem_set]
  · rw [dif_neg h, if_neg (by omega)]

theorem setParam_paramSet_getElem (c : Config) (idx : BitVec 8) (v : F32) (s : State) (j : Nat) (hj : j < 20) :
    (setParam c idx v s).paramSet[j] = if idx.toNat = j then true else s.paramSet[j] := by
  unfold setParam
  by_cases h : idx.toNat < 20
  · rw [dif_pos h]
    simp only [derive_paramSet, storeParam_paramSet, Vector.getElem_set]
  · rw [dif_neg h, if_neg (by omega)]

theorem setParam_ratioUp (c : Config) (idx : BitVec 8) (v : F32) (s : State) :
    (setParam c idx v s).ratioUp = if idx.toNat = 2 then ratioOf c (clamp01 v) else s.ratioUp := by
  unfold setParam
  by_cases h : idx.toNat < 20
  · rw [dif_pos h, derive_ratioUp, storeParam_ratioUp]
  · rw [dif_neg h, if_neg (by omega)]

theorem setParam_ratioDn (c : Config) (idx : BitVec 8) (v : F32) (s : State) :
    (setParam c idx v s).ratioDn = if idx.toNat = 3 then ratioOf c (clamp01 v) else s.ratioDn := by
  unfold setParam
  by_cases h : idx.toNat < 20
  · rw [dif_pos h, derive_ratioDn, storeParam_ratioDn]
  · rw [dif_neg h, if_neg (by omega)]

theorem setParam_gain2_get (c : Config) (idx : BitVec 8) (v : F32) (s : State) (b : Fin 3) :
    (setParam c idx v s).gain2[b] = if idx.toNat = 8 + b.val then doubledGain c (clamp01 v) else s.gain2[b] := by
  unfold setParam
  by_cases h : idx.toNat < 20
  · rw [dif_pos h, derive_gain2_get, storeParam_gain2]
  · rw [dif_neg h, if_neg (by omega)]

theorem setParam_comps_get (c : Config) (idx : BitVec 8) (v : F32) (s : State) (b : Fin 3) :
    (setParam c idx v s).comps[b] = { s.comps[b] with
      upr := if idx.toNat = 2 then ratioOf c (clamp01 v) else s.comps[b].upr
      sel := if idx.toNat = 3 then ratioOf c (clamp01 v) else s.comps[b].sel } := by
  unfold setParam
  by_cases h : idx.toNat < 20
  · rw [dif_pos h, derive_comps_get, storeParam_comps]
  · rw [dif_neg h, if_neg (by omega), if_neg (by omega)]

/-! ## Values -/

/-- CLAMP01 gives a value of [0, 1] (45_parameter_commands.md R202). -/
theorem paramInUnit_clamp01 (v : F32) : paramInUnit (clamp01 v) = true := by
  unfold clamp01
  split_ifs with hnan hneg hbig
  · decide
  · decide
  · decide
  · simp [paramInUnit, hnan, hneg, hbig]

end Sys2Proof.Machine
end

section
/-! SUPPORT. The invariants of STATE, the marks, the parameters and the smoothers (10_state.md R21, R30, R31, R42). -/

namespace Sys2Proof.Machine

open Sys2Proof Host

/-! ## STATE, the ring and the marks -/

theorem exec_keeps_lifecycleOk {i : Instr} {s t : State} (hs : lifecycleOk s) (h : exec i s = .next t) :
    lifecycleOk t := by
  cases exec_effect h with
  | reset hready =>
    unfold lifecycleOk
    rw [neutralState_lifecycle, hready]
    exact ⟨(ready_ring hs hready).1, rfl⟩
  | cleanup => exact rfl
  | init fs hrate => exact ⟨rfl, rfl⟩
  | passes hready hfill hfl hks =>
    unfold lifecycleOk
    simp only [hready, hfill]
    exact ready_ring hs hready
  | _ => exact hs

theorem exec_keeps_marksOk {i : Instr} {s t : State} (hs : marksOk s) (h : exec i s = .next t) : marksOk t := by
  cases exec_effect h with
  | init fs hrate => exact fun _ j => Vector.getElem_replicate _
  | setp idx v e =>
    intro hdone j
    rw [← e, Fin.getElem_fin, setParam_paramSet_getElem]
    split_ifs
    · rfl
    · exact hs hdone j
  | _ => exact hs

/-- Settles O57: INIT fills ring and marks, CLEANUP empties the ring, and no other command changes STATE, the fill of the
ring or a mark back. -/
theorem stepKeepsLifecycle : Obligations.StepKeepsLifecycle :=
  step_lift (fun s => lifecycleOk s ∧ marksOk s) (fun _ _ _ hs => hs) (fun _ _ _ hs => hs)
    fun _ _ _ ⟨hl, hm⟩ h => ⟨exec_keeps_lifecycleOk hl h, exec_keeps_marksOk hm h⟩

/-! ## Parameters and derived values -/

theorem exec_keeps_paramsOk {i : Instr} {s t : State} (hs : paramsOk s) (h : exec i s = .next t) : paramsOk t := by
  cases exec_effect h with
  | init fs hrate => exact (by decide : ∀ j : Fin 20, paramInUnit Config.paramDefaults[j] = true)
  | setp idx v e =>
    intro j
    rw [← e, Fin.getElem_fin, setParam_params_getElem]
    split_ifs
    · exact paramInUnit_clamp01 v
    · exact hs j
  | _ => exact hs

/-- A value that SETP of parameter `j` takes from it, and SETP of another parameter leaves alone, is that of the parameter
afterwards, if it was before. -/
theorem setParam_derived {c : Config} {idx : BitVec 8} {v : F32} {s : State} {j : Nat} {hj : j < 20} {f : F32 → F64}
    {old : F64} (hold : s.paramSet[j] = true → old = f s.params[j]) (hm : (setParam c idx v s).paramSet[j] = true) :
    (if idx.toNat = j then f (clamp01 v) else old) = f (setParam c idx v s).params[j] := by
  rw [setParam_paramSet_getElem] at hm
  rw [setParam_params_getElem]
  split_ifs at hm ⊢
  · rfl
  · exact hold hm

theorem setParam_keeps_derivedOk {s : State} (hs : derivedOk s) (idx : BitVec 8) (v : F32) :
    derivedOk (setParam Config.current idx v s) := by
  obtain ⟨hup, hdn, hgain⟩ := hs
  refine ⟨fun hm => ?_, fun hm => ?_, fun b hm => ?_⟩
  · rw [setParam_ratioUp]
    exact setParam_derived hup hm
  · rw [setParam_ratioDn]
    exact setParam_derived hdn hm
  · rw [setParam_gain2_get]
    exact setParam_derived (hgain b) hm

@[simp] theorem initState_params (c : Config) (fs : F64) (s : State) :
    (initState c fs s).params = Config.paramDefaults := rfl

@[simp] theorem initState_ratioUp (c : Config) (fs : F64) (s : State) :
    (initState c fs s).ratioUp = ratioOf c Config.paramDefaults[2] := by
  simp only [initState, neutralState_ratioUp, deriveAll_ratioUp, initParams]

@[simp] theorem initState_ratioDn (c : Config) (fs : F64) (s : State) :
    (initState c fs s).ratioDn = ratioOf c Config.paramDefaults[3] := by
  simp only [initState, neutralState_ratioDn, deriveAll_ratioDn, initParams]

@[simp] theorem initState_gain2_get (c : Config) (fs : F64) (s : State) (b : Fin 3) :
    (initState c fs s).gain2[b] = doubledGain c Config.paramDefaults[8 + b.val] := by
  match b with
  | 0 => rfl
  | 1 => rfl
  | 2 => rfl

theorem initState_derivedOk (fs : F64) (s : State) : derivedOk (initState Config.current fs s) :=
  ⟨fun _ => initState_ratioUp _ fs s, fun _ => initState_ratioDn _ fs s, fun b _ => initState_gain2_get _ fs s b⟩

theorem exec_keeps_derivedOk {i : Instr} {s t : State} (hs : derivedOk s) (h : exec i s = .next t) : derivedOk t := by
  cases exec_effect h with
  | init fs hrate => exact initState_derivedOk fs s
  | setp idx v e =>
    rw [← e]
    exact setParam_keeps_derivedOk hs idx v
  | _ => exact hs

/-! ## Smoother coefficients and cursors -/

/-- A row that must meet a condition meets it, if its default does (log 11). -/
theorem acceptOr_ok {ok : F64 → Bool} {dflt : F64} (hd : ok dflt = true) (row : Option F64) :
    ok (Config.acceptOr ok dflt row) = true := by
  unfold Config.acceptOr
  cases row with
  | none => exact hd
  | some v =>
    dsimp only
    split_ifs with hv
    · exact hv
    · exact hd

/-- The three smoother coefficients lie in (0, 1] (40_parameter_smoother.md R104). -/
theorem smCoefs_ok (c : Config) :
    Config.coefOk c.smCoefDepth = true ∧ Config.coefOk c.smCoefUp = true ∧ Config.coefOk c.smCoefOut = true :=
  ⟨acceptOr_ok (by decide) _, acceptOr_ok (by decide) _, acceptOr_ok (by decide) _⟩

theorem coefOk_iff {v : F64} : Config.coefOk v = true ↔ fltLt zeroF v = true ∧ fltLe v oneF = true := by
  rw [Config.coefOk, Bool.and_eq_true]

theorem exec_keeps_smoothersOk {i : Instr} {s t : State} (hs : smoothersOk s) (h : exec i s = .next t) :
    smoothersOk t := by
  cases exec_effect h with
  | init fs hrate =>
    obtain ⟨hdepth, hup, hout⟩ := smCoefs_ok Config.current
    intro _ k
    refine coefOk_iff.1 ?_
    fin_cases k
    · exact hdepth
    · exact hup
    · exact hout
  | _ => exact hs

theorem exec_keeps_cursorsOk {i : Instr} {s t : State} (hs : cursorsOk s) (h : exec i s = .next t) : cursorsOk t := by
  cases exec_effect h with
  | reset hready => exact rfl
  | init fs hrate => exact rfl
  | passes => exact rfl
  | _ => exact hs

/-- Settles O60: INIT and SETP write parameters with their derived values, INIT alone the smoother coefficients, and a pass
leaves both cursors at one place. -/
theorem stepKeepsParametersAndSmoothers : Obligations.StepKeepsParametersAndSmoothers :=
  step_lift (fun s => (paramsOk s ∧ derivedOk s) ∧ smoothersOk s ∧ cursorsOk s) (fun _ _ _ hs => hs)
    (fun _ _ _ hs => hs) fun _ _ _ ⟨⟨hp, hd⟩, hsm, hc⟩ h =>
      ⟨⟨exec_keeps_paramsOk hp h, exec_keeps_derivedOk hd h⟩, exec_keeps_smoothersOk hsm h, exec_keeps_cursorsOk hc h⟩

end Sys2Proof.Machine
end

section
/-! SUPPORT. Who writes what: each element with the commands that may change it (10_state.md R21, R25, R31 to R33;
42_crossover_filterbank.md R124; 43_compressor.md R143). -/

namespace Sys2Proof.Machine

open Sys2Proof Host

/-! ## The read commands -/

/-- Settles O13: a read answers in RESP or, at a reserved address, with ERR_REG; no other effect touches RESP or the mark. -/
theorem readsWriteRespOnly : Obligations.ReadsWriteRespOnly := by
  refine fun i s t h => ⟨fun hread => ?_, fun hother => ?_⟩
  · cases exec_effect h with
    | respond v _ => exact .inl rfl
    | respondUndef v _ => exact .inl rfl
    | errorOfRead a ha => exact .inr ⟨rfl, a, rfl, ha⟩
    | unchanged hi => exact absurd hread (Bool.eq_false_iff.1 hi)
    | error e hi => exact absurd hread (Bool.eq_false_iff.1 hi)
    | _ => cases hread
  · cases exec_effect h with
    | respond v hi => exact absurd hi (Bool.eq_false_iff.1 hother)
    | respondUndef v hi => exact absurd hi (Bool.eq_false_iff.1 hother)
    | _ => exact ⟨rfl, rfl⟩

/-! ## The configuration -/

/-- No command changes CP or the stream it stands in (30_encoding.md R89). -/
theorem exec_stream {i : Instr} {s t : State} (h : exec i s = .next t) : t.cp = s.cp ∧ t.stream = s.stream := by
  cases exec_effect h with
  | _ => exact ⟨rfl, rfl⟩

theorem exec_lifecycle {i : Instr} {s t : State} (h : exec i s = .next t) (hi : i.opcode ∉ [0x81#8, 0x02#8]) :
    t.lifecycle = s.lifecycle := by
  cases exec_effect h with
  | init => simp [Instr.opcode] at hi
  | cleanup => simp [Instr.opcode] at hi
  | _ => rfl

theorem exec_fs {i : Instr} {s t : State} (h : exec i s = .next t) (hi : i.opcode ∉ [0x81#8, 0x82#8]) : t.fs = s.fs := by
  cases exec_effect h with
  | init => simp [Instr.opcode] at hi
  | setrate => simp [Instr.opcode] at hi
  | _ => rfl

theorem exec_crossovers {i : Instr} {s t : State} (h : exec i s = .next t) (hi : i.opcode ∉ [0x81#8, 0xA0#8]) :
    t.xoLo = s.xoLo ∧ t.xoHi = s.xoHi := by
  cases exec_effect h with
  | init => simp [Instr.opcode] at hi
  | xoLo => simp [Instr.opcode] at hi
  | xoHi => simp [Instr.opcode] at hi
  | _ => exact ⟨rfl, rfl⟩

theorem exec_params {i : Instr} {s t : State} (h : exec i s = .next t) (hi : i.opcode ∉ [0x81#8, 0x90#8]) :
    t.params = s.params ∧ t.ratioUp = s.ratioUp ∧ t.ratioDn = s.ratioDn ∧ t.gain2 = s.gain2 := by
  cases exec_effect h with
  | init => simp [Instr.opcode] at hi
  | setp => simp [Instr.opcode] at hi
  | _ => exact ⟨rfl, rfl, rfl, rfl⟩

theorem exec_sc {i : Instr} {s t : State} (h : exec i s = .next t) (hi : i.opcode ≠ 0x81#8) : t.sc = s.sc := by
  cases exec_effect h with
  | init => exact absurd rfl hi
  | _ => rfl

/-- RESET keeps every coefficient of the filters (46_lifecycle_commands.md R224). -/
theorem neutralState_coefs (s : State) : sameCoefs (neutralState s).filters s.filters := fun k => by
  rw [neutralState_filters, six_get]
  rfl

/-- RESET keeps the configuration of the compressors (46_lifecycle_commands.md R224). -/
theorem neutralState_conf (s : State) : sameConf (neutralState s).comps s.comps := fun b => by
  rw [neutralState_comps, three_get]
  rfl

/-- The registers of a filter that hold coefficients are those that its recursive state leaves. -/
theorem coefs_of_sameCoefs {f g : Vector Filter 6} (h : sameCoefs f g) (k : Fin 6) :
    f[k].b0 = g[k].b0 ∧ f[k].b1 = g[k].b1 ∧ f[k].a1 = g[k].a1 ∧ f[k].a2 = g[k].a2 ∧ f[k].b2 = g[k].b2 ∧
      f[k].freq = g[k].freq := by
  rw [h k]
  exact ⟨rfl, rfl, rfl, rfl, rfl, rfl⟩

theorem exec_coefs {i : Instr} {s t : State} (h : exec i s = .next t) (hi : i.opcode ∉ [0x81#8, 0x82#8, 0xA0#8]) :
    sameCoefs t.filters s.filters := by
  cases exec_effect h with
  | init => simp [Instr.opcode] at hi
  | setrate => simp [Instr.opcode] at hi
  | xoLo => simp [Instr.opcode] at hi
  | xoHi => simp [Instr.opcode] at hi
  | reset => exact neutralState_coefs s
  | passes _ _ hfl _ => exact hfl
  | _ => exact sameCoefs_refl _

/-- SETRATE writes the two time coefficients of a compressor only (43_compressor.md R143). -/
theorem applyRate_comps_get (c : Config) (fs : F64) (s : State) (b : Fin 3) :
    (applyRate c fs s).comps[b] = { s.comps[b] with
      cAtt := timeCoef c c.tAtt fs, cRel := timeCoef c s.comps[b].relTc fs } := three_get _ b

/-- What a command other than INIT and WRREG does to the configuration of a compressor: SETRATE writes the time coefficients,
SETP the two ratios, and every other command keeps it. -/
theorem exec_comp_cases {i : Instr} {s t : State} (h : exec i s = .next t) (hi : i.opcode ∉ [0x81#8, 0xA0#8]) :
    (i.opcode = 0x82#8 ∧ ∀ b : Fin 3, ∃ att rel, t.comps[b] = { s.comps[b] with cAtt := att, cRel := rel }) ∨
    (i.opcode = 0x90#8 ∧ ∀ b : Fin 3, ∃ up dn, t.comps[b] = { s.comps[b] with upr := up, sel := dn }) ∨
    sameConf t.comps s.comps := by
  cases exec_effect h with
  | init => simp [Instr.opcode] at hi
  | comp => simp [Instr.opcode] at hi
  | setrate fs => exact .inl ⟨rfl, fun b => ⟨_, _, applyRate_comps_get _ fs s b⟩⟩
  | setp idx v e =>
    rw [← e]
    exact .inr (.inl ⟨rfl, fun b => ⟨_, _, setParam_comps_get _ idx v s b⟩⟩)
  | reset => exact .inr (.inr (neutralState_conf s))
  | passes _ _ _ hks => exact .inr (.inr hks)
  | _ => exact .inr (.inr (sameConf_refl _))

theorem exec_timeCoefs {i : Instr} {s t : State} (h : exec i s = .next t) (hi : i.opcode ∉ [0x81#8, 0x82#8, 0xA0#8])
    (b : Fin 3) : t.comps[b].cAtt = s.comps[b].cAtt ∧ t.comps[b].cRel = s.comps[b].cRel := by
  simp only [List.mem_cons, List.not_mem_nil, or_false, not_or] at hi
  rcases exec_comp_cases h (by simp [hi]) with ⟨hop, -⟩ | ⟨-, hk⟩ | hk
  · exact absurd hop hi.2.1
  · obtain ⟨_, _, e⟩ := hk b
    rw [e]
    exact ⟨rfl, rfl⟩
  · rw [hk b]
    exact ⟨rfl, rfl⟩

theorem exec_compConfig {i : Instr} {s t : State} (h : exec i s = .next t) (hi : i.opcode ∉ [0x81#8, 0xA0#8]) (b : Fin 3) :
    t.comps[b].thr = s.comps[b].thr ∧ t.comps[b].relTc = s.comps[b].relTc ∧
      t.comps[b].auxLin = s.comps[b].auxLin ∧ t.comps[b].auxKnee = s.comps[b].auxKnee := by
  rcases exec_comp_cases h hi with ⟨-, hk⟩ | ⟨-, hk⟩ | hk
  · obtain ⟨_, _, e⟩ := hk b
    rw [e]
    exact ⟨rfl, rfl, rfl, rfl⟩
  · obtain ⟨_, _, e⟩ := hk b
    rw [e]
    exact ⟨rfl, rfl, rfl, rfl⟩
  · rw [hk b]
    exact ⟨rfl, rfl, rfl, rfl⟩

theorem exec_ratios {i : Instr} {s t : State} (h : exec i s = .next t) (hi : i.opcode ∉ [0x81#8, 0xA0#8, 0x90#8])
    (b : Fin 3) : t.comps[b].sel = s.comps[b].sel ∧ t.comps[b].upr = s.comps[b].upr := by
  simp only [List.mem_cons, List.not_mem_nil, or_false, not_or] at hi
  rcases exec_comp_cases h (by simp [hi]) with ⟨-, hk⟩ | ⟨hop, -⟩ | hk
  · obtain ⟨_, _, e⟩ := hk b
    rw [e]
    exact ⟨rfl, rfl⟩
  · exact absurd hop hi.2.2
  · rw [hk b]
    exact ⟨rfl, rfl⟩

/-- Settles O14: one clause per element, each from the effects of its writers. -/
theorem configurationWriters : Obligations.ConfigurationWriters := fun _ _ _ h =>
  ⟨exec_stream h, exec_lifecycle h, exec_fs h, exec_crossovers h, exec_params h, exec_sc h,
    fun hi => ⟨coefs_of_sameCoefs (exec_coefs h hi), exec_timeCoefs h hi⟩, exec_compConfig h, exec_ratios h⟩

end Sys2Proof.Machine
end

section
/-! SUPPORT. The register map read backwards: each register's address (10_state.md R26), and what WRREG leaves for RDREG. -/

namespace Sys2Proof.Machine

open Sys2Proof Host

/-! ## Offsets and addresses -/

/-- The place of a filter register in its unit's row of sixteen addresses (10_state.md R26). -/
def FilterField.offset : FilterField → Nat
  | .b0 => 0
  | .b1 => 1
  | .a1 => 2
  | .a2 => 3
  | .b2 => 4
  | .w1 => 5
  | .w2 => 6
  | .lp => 7
  | .hp => 8
  | .freq => 9

/-- The place of a compressor register in its unit's row of sixteen addresses (10_state.md R26). -/
def CompField.offset : CompField → Nat
  | .rms => 0
  | .env => 1
  | .gr => 2
  | .sel => 3
  | .cAtt => 4
  | .cRel => 5
  | .thr => 6
  | .upr => 7
  | .relTc => 8
  | .auxLin => 9
  | .auxKnee => 10
  | .path => 11
  | .red => 12

/-- The address of a register (10_state.md R26). -/
def Reg.address : Reg → Nat
  | .id => 0x00
  | .state => 0x01
  | .status => 0x02
  | .lastErr => 0x03
  | .fs => 0x04
  | .xoLo => 0x05
  | .xoHi => 0x06
  | .wcur => 0x07
  | .rcur => 0x08
  | .sv k => 0x10 + k.val
  | .sc k => 0x14 + k.val
  | .pk ch => 0x18 + ch.val
  | .ratioUp => 0x20
  | .ratioDn => 0x21
  | .gain2 b => 0x24 + b.val
  | .filter i f => 0x100 + 16 * i.val + f.offset
  | .comp b f => 0x200 + 16 * b.val + f.offset
  | .mgr b => 0x300 + b.val
  | .mrms b => 0x310 + b.val

theorem filterFieldAt_offset (f : FilterField) : filterFieldAt f.offset = some f := by cases f <;> rfl

theorem compFieldAt_offset (f : CompField) : compFieldAt f.offset = some f := by cases f <;> rfl

theorem offset_of_filterFieldAt {n : Nat} {f : FilterField} (h : filterFieldAt n = some f) : n = f.offset := by
  unfold filterFieldAt at h
  split at h <;> cases h <;> rfl

theorem offset_of_compFieldAt {n : Nat} {f : CompField} (h : compFieldAt n = some f) : n = f.offset := by
  unfold compFieldAt at h
  split at h <;> cases h <;> rfl

theorem offset_lt_filter (f : FilterField) : f.offset < 10 := by cases f <;> decide

theorem filterFieldAt_none {n : Nat} (h : 10 ≤ n) : filterFieldAt n = none :=
  Option.eq_none_iff_forall_ne_some.2 fun f hf =>
    absurd (offset_of_filterFieldAt hf ▸ offset_lt_filter f) (Nat.not_lt.2 h)

theorem offset_lt_comp (f : CompField) : f.offset < 13 := by cases f <;> decide

theorem compFieldAt_none {n : Nat} (h : 13 ≤ n) : compFieldAt n = none :=
  Option.eq_none_iff_forall_ne_some.2 fun f hf =>
    absurd (offset_of_compFieldAt hf ▸ offset_lt_comp f) (Nat.not_lt.2 h)

theorem address_of_lowRegAt {n : Nat} {r : Reg} (h : lowRegAt n = some r) : n = r.address := by
  unfold lowRegAt at h
  split at h <;> cases h <;> rfl

/-- A register stands at its own address only (10_state.md R26). -/
theorem address_of_regAt {a : RegAddr} {r : Reg} (h : regAt a = some r) : a.toNat = r.address := by
  unfold regAt at h
  dsimp only at h
  split_ifs at h with hlow hfil hi hcomp hb hmgr hm hr
  · exact address_of_lowRegAt h
  · obtain ⟨f, hf, rfl⟩ := Option.map_eq_some_iff.1 h
    have := offset_of_filterFieldAt hf
    simp only [Reg.address]
    omega
  · obtain ⟨f, hf, rfl⟩ := Option.map_eq_some_iff.1 h
    have := offset_of_compFieldAt hf
    simp only [Reg.address]
    omega
  · cases h
    simp only [Reg.address]
    omega
  · cases h
    simp only [Reg.address]
    omega

/-- The sixteen addresses of a filter unit (10_state.md R26). -/
theorem regAt_filterRow {a : RegAddr} (i : Fin 6) {o : Nat} (ho : o < 16) (ha : a.toNat = 0x100 + 16 * i.val + o) :
    regAt a = (filterFieldAt o).map (Reg.filter i) := by
  have hunit : (a.toNat - 0x100) / 16 = i.val := by omega
  have hfield : (a.toNat - 0x100) % 16 = o := by omega
  unfold regAt
  dsimp only
  rw [if_neg (by omega), if_pos (by omega), dif_pos (by omega)]
  simp only [hunit, hfield]

/-- The sixteen addresses of a compressor unit (10_state.md R26). -/
theorem regAt_compRow {a : RegAddr} (b : Fin 3) {o : Nat} (ho : o < 16) (ha : a.toNat = 0x200 + 16 * b.val + o) :
    regAt a = (compFieldAt o).map (Reg.comp b) := by
  have hunit : (a.toNat - 0x200) / 16 = b.val := by omega
  have hfield : (a.toNat - 0x200) % 16 = o := by omega
  unfold regAt
  dsimp only
  rw [if_neg (by omega), if_neg (by omega), if_pos (by omega), dif_pos (by omega)]
  simp only [hunit, hfield]

/-- The three gain meters (10_state.md R26). -/
theorem regAt_mgrRow {a : RegAddr} (b : Fin 3) (ha : a.toNat = 0x300 + b.val) : regAt a = some (.mgr b) := by
  have hunit : a.toNat - 0x300 = b.val := by omega
  unfold regAt
  dsimp only
  rw [if_neg (by omega), if_neg (by omega), if_neg (by omega), if_pos (by omega), dif_pos (by omega)]
  simp only [hunit]

/-- The three level meters (10_state.md R26). -/
theorem regAt_mrmsRow {a : RegAddr} (b : Fin 3) (ha : a.toNat = 0x310 + b.val) : regAt a = some (.mrms b) := by
  have hunit : a.toNat - 0x310 = b.val := by omega
  unfold regAt
  dsimp only
  rw [if_neg (by omega), if_neg (by omega), if_neg (by omega), if_neg (by omega), dif_pos (by omega)]
  simp only [hunit]

/-- A register is found at its address (10_state.md R26). -/
theorem regAt_ofNat_address (r : Reg) : regAt (BitVec.ofNat 16 r.address) = some r := by
  cases r with
  | filter i f =>
    have hlt := offset_lt_filter f
    have ha : (BitVec.ofNat 16 (Reg.filter i f).address).toNat = 0x100 + 16 * i.val + f.offset := by
      simp only [Reg.address, BitVec.toNat_ofNat]
      omega
    rw [regAt_filterRow i (by omega) ha, filterFieldAt_offset]
    rfl
  | comp b f =>
    have hlt := offset_lt_comp f
    have ha : (BitVec.ofNat 16 (Reg.comp b f).address).toNat = 0x200 + 16 * b.val + f.offset := by
      simp only [Reg.address, BitVec.toNat_ofNat]
      omega
    rw [regAt_compRow b (by omega) ha, compFieldAt_offset]
    rfl
  | sv k => fin_cases k <;> rfl
  | sc k => fin_cases k <;> rfl
  | pk k => fin_cases k <;> rfl
  | gain2 k => fin_cases k <;> rfl
  | mgr b => exact regAt_mgrRow b (by simp only [Reg.address, BitVec.toNat_ofNat]; omega)
  | mrms b => exact regAt_mrmsRow b (by simp only [Reg.address, BitVec.toNat_ofNat]; omega)
  | _ => rfl

/-- The register map: each register stands at its address and nowhere else (10_state.md R26). -/
theorem regAt_iff {a : RegAddr} {r : Reg} : regAt a = some r ↔ a.toNat = r.address := by
  refine ⟨address_of_regAt, fun h => ?_⟩
  rw [← regAt_ofNat_address r, ← h, BitVec.ofNat_toNat, BitVec.setWidth_eq]

/-! ## The statement on the map -/

theorem toNat_base_add {base n : Nat} (h : base + n < 65536) :
    (BitVec.ofNat 16 base + BitVec.ofNat 16 n).toNat = base + n := by
  rw [← BitVec.ofNat_add, BitVec.toNat_ofNat, Nat.mod_eq_of_lt h]

/-- The register at a base address plus an index. -/
theorem regAt_base_add {base n : Nat} {r : Reg} (hr : r.address = base + n) (h : base + n < 65536) :
    regAt (BitVec.ofNat 16 base + BitVec.ofNat 16 n) = some r :=
  regAt_iff.2 ((toNat_base_add h).trans hr.symm)

theorem regAt_filter (i : Fin 6) (f : FilterField) :
    regAt (0x0100#16 + BitVec.ofNat 16 (16 * i.val + f.offset)) = some (.filter i f) := by
  have hlt := offset_lt_filter f
  exact regAt_base_add (Nat.add_assoc _ _ _) (by omega)

theorem regAt_comp (b : Fin 3) (f : CompField) :
    regAt (0x0200#16 + BitVec.ofNat 16 (16 * b.val + f.offset)) = some (.comp b f) := by
  have hlt := offset_lt_comp f
  exact regAt_base_add (Nat.add_assoc _ _ _) (by omega)

/-- The last six addresses of a filter unit's row are reserved (10_state.md R26). -/
theorem regAt_filter_reserved (i : Fin 6) {o : Nat} (ho : 10 ≤ o) (ho' : o < 16) :
    regAt (0x0100#16 + BitVec.ofNat 16 (16 * i.val + o)) = none := by
  have ha := toNat_base_add (base := 0x0100) (n := 16 * i.val + o) (by omega)
  rw [regAt_filterRow i ho' (ha.trans (Nat.add_assoc _ _ _).symm), filterFieldAt_none ho]
  rfl

/-- The last three addresses of a compressor unit's row are reserved (10_state.md R26). -/
theorem regAt_comp_reserved (b : Fin 3) {o : Nat} (ho : 13 ≤ o) (ho' : o < 16) :
    regAt (0x0200#16 + BitVec.ofNat 16 (16 * b.val + o)) = none := by
  have ha := toNat_base_add (base := 0x0200) (n := 16 * b.val + o) (by omega)
  rw [regAt_compRow b ho' (ha.trans (Nat.add_assoc _ _ _).symm), compFieldAt_none ho]
  rfl

/-- The writable registers: the crossovers and six registers of each compressor (47_register_access.md R241). -/
theorem writable_iff (r : Reg) :
    r.writable = true ↔ r = .xoLo ∨ r = .xoHi ∨ ∃ b f, r = .comp b f ∧ f.offset ∈ [3, 6, 7, 8, 9, 10] := by
  cases r with
  | comp b f => cases f <;> simp [Reg.writable, CompField.offset]
  | _ => simp [Reg.writable]

theorem exists_offset {o : Nat} (h : o < 13) : ∃ f : CompField, f.offset = o := by
  interval_cases o
  · exact ⟨.rms, rfl⟩
  · exact ⟨.env, rfl⟩
  · exact ⟨.gr, rfl⟩
  · exact ⟨.sel, rfl⟩
  · exact ⟨.cAtt, rfl⟩
  · exact ⟨.cRel, rfl⟩
  · exact ⟨.thr, rfl⟩
  · exact ⟨.upr, rfl⟩
  · exact ⟨.relTc, rfl⟩
  · exact ⟨.auxLin, rfl⟩
  · exact ⟨.auxKnee, rfl⟩
  · exact ⟨.path, rfl⟩
  · exact ⟨.red, rfl⟩

theorem exists_writable_iff (a : RegAddr) :
    (∃ r, regAt a = some r ∧ r.writable = true) ↔
      a = 0x0005#16 ∨ a = 0x0006#16 ∨ ∃ b < 3, ∃ o ∈ [3, 6, 7, 8, 9, 10], a.toNat = 0x200 + 16 * b + o := by
  constructor
  · rintro ⟨r, hr, hw⟩
    have ha := regAt_iff.1 hr
    rcases (writable_iff r).1 hw with rfl | rfl | ⟨b, f, rfl, hf⟩
    · exact .inl (BitVec.eq_of_toNat_eq ha)
    · exact .inr (.inl (BitVec.eq_of_toNat_eq ha))
    · exact .inr (.inr ⟨b, b.isLt, f.offset, hf, ha⟩)
  · rintro (rfl | rfl | ⟨b, hb, o, ho, ha⟩)
    · exact ⟨.xoLo, rfl, rfl⟩
    · exact ⟨.xoHi, rfl, rfl⟩
    · obtain ⟨f, rfl⟩ : ∃ f : CompField, f.offset = o := exists_offset (by simp at ho; omega)
      exact ⟨.comp ⟨b, hb⟩ f, regAt_iff.2 ha, (writable_iff _).2 (.inr (.inr ⟨_, f, rfl, ho⟩))⟩

/-- Settles O27: every address of the table is the address of its register, and `regAt_iff` gives the rest. -/
theorem registerMap : Obligations.RegisterMap := by
  refine ⟨fun a a' r h h' => BitVec.eq_of_toNat_eq ((regAt_iff.1 h).trans (regAt_iff.1 h').symm), ?_, fun k => ?_,
    fun i => ?_, fun b => ?_, exists_writable_iff, by simp [regAt, lowRegAt, filterFieldAt, compFieldAt]⟩
  · exact ⟨regAt_iff.2 rfl, regAt_iff.2 rfl, regAt_iff.2 rfl, regAt_iff.2 rfl, regAt_iff.2 rfl, regAt_iff.2 rfl,
      regAt_iff.2 rfl, regAt_iff.2 rfl, regAt_iff.2 rfl, regAt_iff.2 rfl, regAt_iff.2 rfl, regAt_iff.2 rfl,
      regAt_iff.2 rfl⟩
  · have := k.isLt
    exact ⟨regAt_base_add rfl (by omega), regAt_base_add rfl (by omega), regAt_base_add rfl (by omega),
      regAt_base_add rfl (by omega), regAt_base_add rfl (by omega)⟩
  · exact ⟨regAt_filter i .b0, regAt_filter i .b1, regAt_filter i .a1, regAt_filter i .a2, regAt_filter i .b2,
      regAt_filter i .w1, regAt_filter i .w2, regAt_filter i .lp, regAt_filter i .hp, regAt_filter i .freq,
      fun _ => regAt_filter_reserved i⟩
  · exact ⟨regAt_comp b .rms, regAt_comp b .env, regAt_comp b .gr, regAt_comp b .sel, regAt_comp b .cAtt,
      regAt_comp b .cRel, regAt_comp b .thr, regAt_comp b .upr, regAt_comp b .relTc, regAt_comp b .auxLin,
      regAt_comp b .auxKnee, regAt_comp b .path, regAt_comp b .red, fun _ => regAt_comp_reserved b⟩

/-! ## WRREG, then RDREG -/

/-- After an INIT every register holds a value (10_state.md R42). -/
theorem regDefined_of_initDone {s : State} (hd : s.initDone = true) (hm : marksOk s) (r : Reg) :
    s.regDefined r = true := by
  have hset : ∀ j : Fin 20, s.paramSet[j] = true := hm hd
  cases r with
  | ratioUp => exact hset 2
  | ratioDn => exact hset 3
  | gain2 b => exact hset ⟨8 + b.val, by omega⟩
  | comp b f =>
    cases f with
    | upr => exact hset 2
    | sel => exact hset 3
    | _ => exact hd
  | id => rfl
  | state => rfl
  | status => rfl
  | lastErr => rfl
  | _ => exact hd

theorem writeEffect_marks (c : Config) (r : Reg) (v : BitVec 64) (s : State) :
    (writeEffect c r v s).initDone = s.initDone ∧ (writeEffect c r v s).paramSet = s.paramSet := by
  rcases writeEffect_cases c r v s with e | e | ⟨-, -, e⟩ | ⟨-, -, e⟩ | ⟨b, k, e⟩
  all_goals
    rw [e]
    exact ⟨rfl, rfl⟩

/-- A compressor that was put in its place reads back. -/
theorem regValue_setComp (s : State) (b : Fin 3) (k : Comp) (f : CompField) :
    (s.setComp b k).regValue (.comp b f) = compReg k f := by
  simp only [State.regValue, setComp_comps, Fin.getElem_fin, Vector.getElem_set_self]

/-- What WRITE_EFFECT stores is what the register then holds, bit for bit (47_register_access.md R242). -/
theorem regValue_writeEffect {c : Config} {r : Reg} {v : BitVec 64} {s : State} (hw : r.writable = true)
    (hv : r = .xoLo ∨ r = .xoHi → crossoverOk c v s.fs = true) : (writeEffect c r v s).regValue r = v := by
  rcases (writable_iff r).1 hw with rfl | rfl | ⟨b, f, rfl, hf⟩
  · simp only [writeEffect, hv (.inl rfl), if_true]
    rfl
  · simp only [writeEffect, hv (.inr rfl), if_true]
    rfl
  · cases f with
    | sel => exact regValue_setComp _ _ _ _
    | thr => exact regValue_setComp _ _ _ _
    | upr => exact regValue_setComp _ _ _ _
    | relTc => exact regValue_setComp _ _ _ _
    | auxLin => exact regValue_setComp _ _ _ _
    | auxKnee => exact regValue_setComp _ _ _ _
    | _ => simp [CompField.offset] at hf

/-- WRREG of a writable register in READY is WRITE_EFFECT (47_register_access.md R241). -/
theorem exec_wrreg_writable {a : RegAddr} {r : Reg} {s : State} (hready : s.lifecycle = .ready) (ha : regAt a = some r)
    (hw : r.writable = true) (v : BitVec 64) : exec (.wrreg a v) s = .next (writeEffect Config.current r v s) := by
  simp only [exec, execWrreg, hready, ha, hw, reduceCtorEq, if_false, if_true]

/-- RDREG of a register that holds a value returns it (47_register_access.md R240). -/
theorem exec_rdreg_defined {a : RegAddr} {r : Reg} {s : State} (ha : regAt a = some r) (hd : s.regDefined r = true) :
    exec (.rdreg a) s = .next (s.setResp (s.regValue r)) := by
  simp only [exec, execRdreg, State.readReg, ha, hd, if_true]

/-- Settles O32: an accepted WRREG ran WRITE_EFFECT, and the register it wrote is defined and holds the operand. -/
theorem wrregThenRdreg : Obligations.WrregThenRdreg := by
  intro a r v s t hdone hm ha hw hready h hv
  obtain rfl : writeEffect Config.current r v s = t :=
    Outcome.next.inj ((exec_wrreg_writable hready ha hw v).symm.trans h)
  obtain ⟨hinit, hset⟩ := writeEffect_marks Config.current r v s
  have hmarks : marksOk (writeEffect Config.current r v s) := by
    rw [marksOk, hinit, hset]
    exact hm
  rw [exec_rdreg_defined ha (regDefined_of_initDone (hinit.trans hdone) hmarks r), regValue_writeEffect hw hv]
  rfl

end Sys2Proof.Machine
end

section
/-! SUPPORT. The state after power-on (10_state.md R42; 70_reset_and_hazards.md R280; log 3). -/

namespace Sys2Proof.Machine

open Sys2Proof

theorem reset_paramSet (j : Nat) (hj : j < 20) : State.reset.paramSet[j] = false := Vector.getElem_replicate _

theorem reset_paramsOk : paramsOk State.reset := fun j => by
  rw [show State.reset.params[j] = 0#32 from Vector.getElem_replicate _]
  decide

/-- No parameter holds a value at power-on, so no derived value is claimed. -/
theorem reset_derivedOk : derivedOk State.reset := by
  have hunset : ∀ {j : Nat} {hj : j < 20} {p : Prop}, State.reset.paramSet[j] = true → p := fun h =>
    absurd ((reset_paramSet _ _).symm.trans h) Bool.false_ne_true
  exact ⟨hunset, hunset, fun _ => hunset⟩

/-- Settles O54: the ring is UNDEF, the error registers are clear, and the other invariants speak of what INIT or SETP
set. -/
theorem resetMeetsInvariants : Obligations.ResetMeetsInvariants := by
  have hinit : ∀ {p : Prop}, State.reset.initDone = true → p := fun h => absurd h Bool.false_ne_true
  exact ⟨rfl, rfl, hinit, ⟨by decide, .inl ⟨rfl, rfl⟩⟩, reset_paramsOk, hinit, hinit, hinit, rfl,
    reset_derivedOk⟩

end Sys2Proof.Machine
end

section
/-! SUPPORT. The canonical form of the memories (20_memory.md R60, R61, R62; log 5): a cell write keeps it, an emptied ring has
it, and a PROCESS is a series of cell writes. -/

namespace Sys2Proof.Machine

open Sys2Proof Host

/-! ## One cell, or the whole ring -/

theorem memoriesWf_iff {s : State} : memoriesWf s = true ↔ s.ring.wf ringCells = true ∧ s.io.wf ioWords = true := by
  unfold memoriesWf
  exact Bool.and_eq_true_iff

/-- Another ring in canonical form may take the ring's place. -/
theorem memoriesWf_of_ring {s t : State} (hs : memoriesWf s = true) (hring : t.ring.wf ringCells = true)
    (hio : t.io = s.io) : memoriesWf t = true :=
  memoriesWf_iff.2 ⟨hring, hio ▸ (memoriesWf_iff.1 hs).2⟩

theorem setRingCell_keeps_memoriesWf {s : State} (hs : memoriesWf s = true) (ch : BitVec 3) (p : RingPos) (v : F64) :
    memoriesWf (s.setRingCell ch p v) = true :=
  memoriesWf_of_ring hs (Memory.write_wf _ _ _ v (memoriesWf_iff.1 hs).1 (ringAddr_lt ch p)) rfl

theorem setIoWord_keeps_memoriesWf {s : State} (hs : memoriesWf s = true) (b : BitVec 2) (k : BitVec 15) (w : Word) :
    memoriesWf (s.setIoWord b k w) = true := by
  obtain ⟨hring, hio⟩ := memoriesWf_iff.1 hs
  exact memoriesWf_iff.2 ⟨hring, Memory.write_wf _ _ _ w hio (ioAddr_lt b k)⟩

/-! ## The passes of PROCESS -/

theorem writeBlock_keeps_memoriesWf (b : BitVec 2) (ws : List Word) (i : Nat) {s : State} (hs : memoriesWf s = true) :
    memoriesWf (writeBlock b ws i s) = true := by
  induction ws generalizing i s with
  | nil => exact hs
  | cons w ws ih => exact ih (i + 1) (setIoWord_keeps_memoriesWf hs b _ w)

theorem bypassBlock_keeps_memoriesWf {in1 out1 : Bool} {n : Nat} {s t : State} (hs : memoriesWf s = true)
    (h : bypassBlock in1 out1 n s = .next t) : memoriesWf t = true := by
  have hleft := fun ls => writeBlock_keeps_memoriesWf 2#2 ls 0 hs
  obtain ⟨ls, -, ⟨-, rfl⟩ | ⟨-, rs, -, rfl⟩⟩ := bypassBlock_next h
  · exact hleft ls
  · exact writeBlock_keeps_memoriesWf 3#2 rs 0 (hleft ls)

theorem ringWrite_keeps_memoriesWf (bands : Vector F64 6) (l r : F64) {s : State} (hs : memoriesWf s = true) :
    memoriesWf (ringWrite bands l r s) = true := by
  unfold ringWrite
  iterate 8 apply setRingCell_keeps_memoriesWf
  exact hs

theorem advanceWcur_keeps_memoriesWf {s : State} (hs : memoriesWf s = true) : memoriesWf (advanceWcur s) = true := hs

/-- The smoothers and the filter bank touch no memory, so a sample of the split pass is its RING_WRITE. -/
theorem splitSample_keeps_memoriesWf (c : Config) (adv : Bool) (w : Word × Word) {s : State} (hs : memoriesWf s = true) :
    memoriesWf (splitSample c adv w s) = true := by
  unfold splitSample
  apply advanceWcur_keeps_memoriesWf
  apply ringWrite_keeps_memoriesWf
  exact hs

theorem splitPass_keeps_memoriesWf (c : Config) (adv : Bool) (ws : List (Word × Word)) {s : State}
    (hs : memoriesWf s = true) : memoriesWf (splitPass c adv ws s) = true := by
  induction ws generalizing s with
  | nil => exact hs
  | cons w ws ih => exact ih (splitSample_keeps_memoriesWf c adv w hs)

theorem outWrite_keeps_memoriesWf (c : Config) (outR : BitVec 2) (i : Nat) (l r : F64) {s : State}
    (hs : memoriesWf s = true) : memoriesWf (outWrite c outR i l r s) = true :=
  setIoWord_keeps_memoriesWf (setIoWord_keeps_memoriesWf hs _ _ _) _ _ _

/-- The compressors touch no memory, so a sample of the remix pass is its OUT_WRITE. -/
theorem remixSample_keeps_memoriesWf (c : Config) (g go : F64) (outR : BitVec 2) (i : Nat) (v : Vector F64 6) {s : State}
    (hs : memoriesWf s = true) : memoriesWf (remixSample c g go outR i v s) = true := by
  unfold remixSample
  apply outWrite_keeps_memoriesWf
  exact hs

theorem remixLoop_keeps_memoriesWf {c : Config} {g go : F64} {outR : BitVec 2} {n i : Nat} {rc : RingPos} {s t : State}
    (hs : memoriesWf s = true) (h : remixLoop c g go outR n i rc s = some t) : memoriesWf t = true := by
  induction n generalizing i rc s with
  | zero => cases h; exact hs
  | succ n ih =>
    unfold remixLoop at h
    cases hb : readBands s rc with
    | none => simp [hb] at h
    | some v =>
      rw [hb] at h
      exact ih (remixSample_keeps_memoriesWf c g go outR i v hs) h

theorem pipeline_keeps_memoriesWf {c : Config} {adv : Bool} {outR : BitVec 2} {ws : List (Word × Word)} {s t : State}
    (hs : memoriesWf s = true) (h : pipeline c adv outR ws s = some t) : memoriesWf t = true := by
  have hpeak : memoriesWf (peakPass c ws s) = true := by
    obtain ⟨pk, e⟩ := peakPass_only c ws s
    rw [e]
    exact hs
  exact remixLoop_keeps_memoriesWf (splitPass_keeps_memoriesWf c adv ws hpeak) h

theorem execProcess_keeps_memoriesWf {in0 in1 out0 out1 : Bool} {n : Int} {s t : State} (hs : memoriesWf s = true)
    (h : execProcess in0 in1 out0 out1 n s = .next t) : memoriesWf t = true := by
  rcases execProcess_next h with rfl | rfl | rfl | ⟨-, -, -, hb⟩ | ⟨-, -, -, _, _, -, -, hp⟩
  · exact hs
  · exact hs
  · exact hs
  · exact bypassBlock_keeps_memoriesWf hs hb
  · exact pipeline_keeps_memoriesWf hs hp

/-! ## The statement -/

theorem exec_keeps_memoriesWf {i : Instr} {s t : State} (hs : memoriesWf s = true) (h : exec i s = .next t) :
    memoriesWf t = true := by
  cases exec_effect h with
  | reset hready => exact memoriesWf_of_ring hs (Memory.filled_wf _ zeroF) rfl
  | cleanup => exact memoriesWf_of_ring hs (Memory.undef_wf _) rfl
  | init fs hrate => exact memoriesWf_of_ring hs (Memory.filled_wf _ zeroF) rfl
  | wrio b k w => exact setIoWord_keeps_memoriesWf hs b k w
  | bypass hready => exact execProcess_keeps_memoriesWf hs h
  | passes hready hfill hfl hks => exact execProcess_keeps_memoriesWf hs h
  | _ => exact hs

/-- Settles O56: RESET, INIT and CLEANUP leave a ring with no listed cell, WRIO and PROCESS write cells inside their spaces, and
no other command touches a memory. -/
theorem stepKeepsMemoriesCanonical : Obligations.StepKeepsMemoriesCanonical :=
  step_lift (fun s => memoriesWf s = true) (fun _ _ _ hs => hs) (fun _ _ _ hs => hs) fun _ _ _ => exec_keeps_memoriesWf

end Sys2Proof.Machine
end

section
/-! SUPPORT. The opcode map as a function of the command (30_encoding.md R83 to R85): a command's row of the opcode table is
its opcode and its reserved bits, and its operands are bit fields of the words. `decode_of_opcode` and `decode_of_unassigned`
say with these what the decoder answers on every word. -/

namespace Sys2Proof

/-! ## The fields of a word -/

@[simp] theorem xField_commandWord (op x : BitVec 8) (y : BitVec 16) : xField (commandWord op x y) = x :=
  (BitVec.extractLsb'_append_eq_of_add_le (by decide)).trans BitVec.extractLsb'_append_eq_left

@[simp] theorem yField_commandWord (op x : BitVec 8) (y : BitVec 16) : yField (commandWord op x y) = y :=
  BitVec.extractLsb'_append_eq_left

/-- A word is its three fields (30_encoding.md R81). -/
theorem commandWord_fields (w : Word) : commandWord (opField w) (xField w) (yField w) = w :=
  calc commandWord (opField w) (xField w) (yField w)
    _ = yField w ++ w.extractLsb' 0 16 :=
      congrArg (yField w ++ ·) (BitVec.extractLsb'_append_extractLsb'_eq_extractLsb' rfl)
    _ = w.extractLsb' 0 32 := BitVec.extractLsb'_append_extractLsb'_eq_extractLsb' rfl
    _ = w := BitVec.extractLsb'_eq_self

theorem commandWord_and (op op' x x' : BitVec 8) (y y' : BitVec 16) :
    commandWord op x y &&& commandWord op' x' y' = commandWord (op &&& op') (x &&& x') (y &&& y') :=
  calc commandWord op x y &&& commandWord op' x' y'
    _ = (y &&& y') ++ (x ++ op &&& x' ++ op') := BitVec.and_append
    _ = commandWord (op &&& op') (x &&& x') (y &&& y') := by rw [BitVec.and_append]; rfl

theorem commandWord_inj {op op' x x' : BitVec 8} {y y' : BitVec 16} :
    commandWord op x y = commandWord op' x' y' ↔ op = op' ∧ x = x' ∧ y = y' := by
  constructor
  · intro h
    refine ⟨?_, ?_, ?_⟩
    · simpa [Laws.opField_commandWord] using congrArg opField h
    · simpa using congrArg xField h
    · simpa using congrArg yField h
  · rintro ⟨rfl, rfl, rfl⟩
    rfl

/-- The bits from k on are zero: under the mask of these bits, and as a field. -/
theorem and_highMask_beq_zero {n k m : Nat} (h : k + m = n) (x : BitVec n) :
    (x &&& BitVec.allOnes n <<< k == 0#n) = (x.extractLsb' k m == 0#m) := by
  rw [Bool.eq_iff_iff, beq_iff_eq, beq_iff_eq]
  constructor
  · intro hx
    ext j hj
    have hbit := congrArg (fun v => v.getLsbD (k + j)) hx
    simpa [show k + j < n by omega] using hbit
  · intro hx
    ext j hj
    by_cases hjk : j < k
    · simp [hjk]
    · have hbit := congrArg (fun v => v.getLsbD (j - k)) hx
      simpa [hjk, show j - k < m by omega, show k + (j - k) = j by omega, hj] using hbit

/-! ## The row of a command -/

/-- The bits of X that the encoding of a command reserves (30_encoding.md R84). -/
def Instr.xReserved : Instr → BitVec 8
  | .getp _ | .setp _ _ => 0x00#8
  | .rdring _ _ => 0xF8#8
  | .rdio _ _ | .wrio _ _ _ => 0xFC#8
  | .process _ _ _ _ _ => 0xF0#8
  | _ => 0xFF#8

/-- The bits of Y that the encoding of a command reserves (30_encoding.md R84). -/
def Instr.yReserved : Instr → BitVec 16
  | .rdreg _ | .wrreg _ _ => 0x0000#16
  | .rdring _ _ | .rdio _ _ | .wrio _ _ _ => 0x8000#16
  | _ => 0xFFFF#16

/-- The bits that `i`'s encoding reserves are zero in the word `w` (30_encoding.md R85). -/
def Instr.reservedZero (i : Instr) (w : Word) : Bool :=
  xField w &&& i.xReserved == 0#8 && yField w &&& i.yReserved == 0#16

/-- The row of a command: its opcode is fixed, and its reserved bits to zero (30_encoding.md R85). -/
def Instr.row (i : Instr) : OpcodeRow :=
  ⟨i.mnemonic, commandWord 0xFF#8 i.xReserved i.yReserved, commandWord i.opcode 0#8 0#16⟩

theorem row_matchesWord_iff {i : Instr} {w : Word} :
    i.row.matchesWord w = true ↔ opField w = i.opcode ∧ i.reservedZero w = true := by
  have hop : opField w &&& 0xFF#8 = opField w := BitVec.and_allOnes
  rw [OpcodeRow.matchesWord, ← commandWord_fields w]
  simp [Instr.row, Instr.reservedZero, commandWord_and, commandWord_inj, Laws.opField_commandWord, hop]

/-- The opcode table holds the rows of the commands and no others (30_encoding.md R83). -/
theorem mem_opcodeTable_iff {r : OpcodeRow} : r ∈ opcodeTable ↔ ∃ i : Instr, i.row = r := by
  constructor
  · have hrows : opcodeTable = [Instr.nop, .reset, .cleanup, .getp 0, .rdreg 0, .rdring 0 0, .rdio 0 0, .init 0, .setrate 0,
        .setp 0 0, .wrreg 0 0, .wrio 0 0 0, .process false false false false 0].map Instr.row := rfl
    intro hr
    rw [hrows, List.mem_map] at hr
    obtain ⟨i, -, hi⟩ := hr
    exact ⟨i, hi⟩
  · rintro ⟨i, rfl⟩
    cases i <;> simp only [Instr.row, Instr.mnemonic, Instr.opcode, Instr.xReserved, Instr.yReserved] <;> decide

/-- No two rows of the opcode table share an opcode (30_encoding.md R83). -/
theorem opcodeTable_opcode_inj : ∀ r ∈ opcodeTable, ∀ r' ∈ opcodeTable, opField r.value = opField r'.value → r = r' := by
  decide

/-! ## The decoder -/

/-- The command of `i`'s mnemonic with the operands that X, Y and the operand words hold (30_encoding.md R84). -/
def Instr.withFields (x : BitVec 8) (y : BitVec 16) (w1 w2 : Word) : Instr → Instr
  | .nop => .nop
  | .reset => .reset
  | .cleanup => .cleanup
  | .getp _ => .getp x
  | .rdreg _ => .rdreg y
  | .rdring _ _ => .rdring (x.extractLsb' 0 3) (y.extractLsb' 0 15)
  | .rdio _ _ => .rdio (x.extractLsb' 0 2) (y.extractLsb' 0 15)
  | .init _ => .init (operandO w1 w2)
  | .setrate _ => .setrate (operandO w1 w2)
  | .setp _ _ => .setp x w1
  | .wrreg _ _ => .wrreg y (operandO w1 w2)
  | .wrio _ _ _ => .wrio (x.extractLsb' 0 2) (y.extractLsb' 0 15) w1
  | .process _ _ _ _ _ => .process (x.getLsbD 0) (x.getLsbD 1) (x.getLsbD 2) (x.getLsbD 3) w1.toInt

/-- A word with a command's opcode is refused for a reserved bit that is not zero, else it is that command with the operands of
its fields (30_encoding.md R85, R87). -/
theorem decode_of_opcode {w : Word} {i : Instr} (h : opField w = i.opcode) (w1 w2 : Word) :
    decode w w1 w2 = checkReserved (i.reservedZero w) (i.withFields (xField w) (yField w) w1 w2) := by
  have x2 : (xField w &&& 0xFC#8 == 0#8) = _ := and_highMask_beq_zero (k := 2) (m := 6) rfl _
  have x3 : (xField w &&& 0xF8#8 == 0#8) = _ := and_highMask_beq_zero (k := 3) (m := 5) rfl _
  have x4 : (xField w &&& 0xF0#8 == 0#8) = _ := and_highMask_beq_zero (k := 4) (m := 4) rfl _
  have x8 : xField w &&& 0xFF#8 = xField w := BitVec.and_allOnes
  have y15 : (yField w &&& 0x8000#16 == 0#16) = _ := and_highMask_beq_zero (k := 15) (m := 1) rfl _
  have y16 : yField w &&& 0xFFFF#16 = yField w := BitVec.and_allOnes
  cases i <;> simp only [Instr.opcode] at h <;>
    simp [decode, h, Instr.reservedZero, Instr.withFields, Instr.xReserved, Instr.yReserved, x2, x3, x4, x8, y15, y16]

/-- A word whose opcode is no command's is refused as reserved (30_encoding.md R86). -/
theorem decode_of_unassigned {w : Word} (h : ∀ i : Instr, opField w ≠ i.opcode) (w1 w2 : Word) :
    decode w w1 w2 = .error .reservedOpcode := by
  simp [decode, show opField w ≠ 0x00#8 from h .nop, show opField w ≠ 0x01#8 from h .reset,
    show opField w ≠ 0x02#8 from h .cleanup, show opField w ≠ 0x10#8 from h (.getp 0),
    show opField w ≠ 0x20#8 from h (.rdreg 0), show opField w ≠ 0x21#8 from h (.rdring 0 0),
    show opField w ≠ 0x22#8 from h (.rdio 0 0), show opField w ≠ 0x81#8 from h (.init 0),
    show opField w ≠ 0x82#8 from h (.setrate 0), show opField w ≠ 0x90#8 from h (.setp 0 0),
    show opField w ≠ 0xA0#8 from h (.wrreg 0 0), show opField w ≠ 0xA2#8 from h (.wrio 0 0 0),
    show opField w ≠ 0xC0#8 from h (.process false false false false 0)]

/-- The commands a word decodes to: its word matches the command's row, and its operands are the fields of the words. -/
theorem decode_eq_ok_iff {w w1 w2 : Word} {i : Instr} :
    decode w w1 w2 = .ok i ↔ i.row.matchesWord w = true ∧ i.withFields (xField w) (yField w) w1 w2 = i := by
  rw [row_matchesWord_iff]
  constructor
  · intro h
    have hop := Machine.decode_opcode h
    rw [decode_of_opcode hop] at h
    obtain ⟨hz, hi⟩ := Machine.checkReserved_ok h
    exact ⟨⟨hop, hz⟩, hi⟩
  · rintro ⟨⟨hop, hz⟩, hi⟩
    rw [decode_of_opcode hop, hz, hi]
    rfl

end Sys2Proof
end

section
/-! SUPPORT. The decoder against the opcode table and the bit fields (30_encoding.md R84 to R87). -/

namespace Sys2Proof.Machine

open Sys2Proof

/-- A word is accepted iff it matches a row of the opcode table (30_encoding.md R85). -/
theorem exists_decode_ok_iff (w w1 w2 : Word) :
    (∃ i, decode w w1 w2 = .ok i) ↔ ∃ r ∈ opcodeTable, r.matchesWord w = true := by
  constructor
  · rintro ⟨i, h⟩
    exact ⟨i.row, mem_opcodeTable_iff.2 ⟨i, rfl⟩, (decode_eq_ok_iff.1 h).1⟩
  · rintro ⟨r, hr, hm⟩
    obtain ⟨i, rfl⟩ := mem_opcodeTable_iff.1 hr
    obtain ⟨hop, hz⟩ := row_matchesWord_iff.1 hm
    exact ⟨i.withFields (xField w) (yField w) w1 w2, by rw [decode_of_opcode hop, hz]; rfl⟩

@[simp] theorem opField_row_value (i : Instr) : opField i.row.value = i.opcode :=
  Laws.opField_commandWord _ _ _

/-- A word that matches a row of the table has its opcode. -/
theorem opField_of_matchesWord {r : OpcodeRow} {w : Word} (hr : r ∈ opcodeTable) (h : r.matchesWord w = true) :
    opField r.value = opField w := by
  obtain ⟨i, rfl⟩ := mem_opcodeTable_iff.1 hr
  rw [opField_row_value, (row_matchesWord_iff.1 h).1]

/-- A word is refused as reserved iff no row of the table has its opcode (30_encoding.md R86). -/
theorem decode_reservedOpcode_iff (w w1 w2 : Word) :
    decode w w1 w2 = .error .reservedOpcode ↔ ∀ r ∈ opcodeTable, opField r.value ≠ opField w := by
  constructor
  · intro h r hr hop
    obtain ⟨i, rfl⟩ := mem_opcodeTable_iff.1 hr
    rw [opField_row_value] at hop
    rw [decode_of_opcode hop.symm, checkReserved] at h
    split_ifs at h
    cases h
  · intro h
    refine decode_of_unassigned (fun i hop => h i.row (mem_opcodeTable_iff.2 ⟨i, rfl⟩) ?_) w1 w2
    rw [opField_row_value, hop]

/-- O[63:32] of SETP, WRIO and PROCESS is ignored (30_encoding.md R85). -/
theorem decode_ignores_highOperand {w : Word} (h : opField w = 0x90#8 ∨ opField w = 0xA2#8 ∨ opField w = 0xC0#8)
    (w1 w2 v2 : Word) : decode w w1 w2 = decode w w1 v2 := by
  have key (i : Instr) (hop : opField w = i.opcode) (hi : ∀ x y, i.withFields x y w1 w2 = i.withFields x y w1 v2) :
      decode w w1 w2 = decode w w1 v2 := by
    rw [decode_of_opcode hop, decode_of_opcode hop, hi]
  rcases h with h | h | h
  · exact key (.setp 0 0) h fun _ _ => rfl
  · exact key (.wrio 0 0 0) h fun _ _ => rfl
  · exact key (.process false false false false 0) h fun _ _ => rfl

/-- Settles O2: the table's rows are the rows of the commands, and a word decodes to a command iff it matches its row. -/
theorem decodeAcceptsTableRows : Obligations.DecodeAcceptsTableRows := by
  refine ⟨exists_decode_ok_iff, fun w w1 w2 i h => ?_, fun w r hr r' hr' hm hm' => ?_, decode_reservedOpcode_iff,
    fun w w1 w2 v2 h => decode_ignores_highOperand h w1 w2 v2⟩
  · exact ⟨i.row, mem_opcodeTable_iff.2 ⟨i, rfl⟩, (decode_eq_ok_iff.1 h).1, rfl⟩
  · exact opcodeTable_opcode_inj r hr r' hr' ((opField_of_matchesWord hr hm).trans (opField_of_matchesWord hr' hm').symm)

/-- The low bits of a field are a field that starts at the same bit. -/
theorem extractLsb'_low {n k l m : Nat} (hm : m ≤ l) (x : BitVec n) :
    (x.extractLsb' k l).extractLsb' 0 m = x.extractLsb' k m := by
  ext j hj
  simp [show j < l by omega]

theorem getLsbD_xField {k : Nat} (hk : k < 8) (w : Word) : (xField w).getLsbD k = w.getLsbD (8 + k) := by
  simp [xField, hk]

/-- Settles O3: a decoded command is `withFields` of its words. -/
theorem operandsFromFields : Obligations.OperandsFromFields := by
  intro w w1 w2 i h
  obtain ⟨-, hi⟩ := decode_eq_ok_iff.1 h
  refine ⟨?getp, ?rdreg, ?rdring, ?rdio, ?rate, ?setp, ?wrreg, ?wrio, ?process⟩
  case getp => rintro idx rfl; cases hi; rfl
  case rdreg => rintro a rfl; cases hi; rfl
  case setp => rintro idx v rfl; cases hi; exact ⟨rfl, rfl⟩
  case wrreg => rintro a v rfl; cases hi; exact ⟨rfl, rfl⟩
  case rdring => rintro ch pos rfl; cases hi; exact ⟨extractLsb'_low (by decide) w, extractLsb'_low (by decide) w⟩
  case rdio => rintro b k rfl; cases hi; exact ⟨extractLsb'_low (by decide) w, extractLsb'_low (by decide) w⟩
  case wrio => rintro b k v rfl; cases hi; exact ⟨extractLsb'_low (by decide) w, extractLsb'_low (by decide) w, rfl⟩
  case rate =>
    rintro fs (rfl | rfl)
    · cases hi; rfl
    · cases hi; rfl
  case process =>
    rintro in0 in1 out0 out1 n rfl
    cases hi
    exact ⟨getLsbD_xField (by decide) w, getLsbD_xField (by decide) w, getLsbD_xField (by decide) w,
      getLsbD_xField (by decide) w, rfl⟩

end Sys2Proof.Machine
end

section
/-! SUPPORT. The encoder against the decoder (30_encoding.md R81 to R85): the words of a command are taken back whole from the
front of a stream, and their reserved bits and fields are those the decoder asks for. -/

namespace Sys2Proof.Machine

open Sys2Proof

/-! ## Fetching the words of a command -/

/-- The format of a command is bit 7 of its opcode (30_encoding.md R82). -/
theorem isFormatL_commandWord (op x : BitVec 8) (y : BitVec 16) : isFormatL (commandWord op x y) = op.getLsbD 7 := by
  conv_rhs => rw [← Laws.opField_commandWord op x y]
  simp [isFormatL, opField]

/-- A format-C command is one word (30_encoding.md R82). -/
theorem fetchCommand_formatC {w : Word} (h : isFormatL w = false) (rest : List Word) :
    fetchCommand ([w] ++ rest) = .command w 0#32 0#32 rest := by
  simp [fetchCommand, h]

/-- A format-L command is its command word and the two halves of O (30_encoding.md R81, R82). -/
theorem fetchCommand_formatL {w : Word} (h : isFormatL w = true) (o : BitVec 64) (rest : List Word) :
    fetchCommand (formatL w o ++ rest) = .command w (o.extractLsb' 0 32) (o.extractLsb' 32 32) rest := by
  simp [fetchCommand, formatL, h]

/-! ## The fields the encoder writes -/

/-- O is put together again from its halves (30_encoding.md R81). -/
theorem operandO_halves (o : BitVec 64) : operandO (o.extractLsb' 0 32) (o.extractLsb' 32 32) = o :=
  (BitVec.extractLsb'_append_extractLsb'_eq_extractLsb' rfl).trans BitVec.extractLsb'_eq_self

/-- A field that is padded with zeros keeps its value, and its reserved bits are zero. -/
theorem and_highMask_pad {m k : Nat} (v : BitVec k) :
    (0#m ++ v) &&& BitVec.allOnes (m + k) <<< k = 0#(m + k) := by
  have h := and_highMask_beq_zero (Nat.add_comm k m) (0#m ++ v)
  rw [BitVec.extractLsb'_append_eq_left, beq_self_eq_true, beq_iff_eq] at h
  exact h

/-- The count of PROCESS survives its word (30_encoding.md R84). -/
theorem toInt_ofInt_of_inInt32 {n : Int} (h : inInt32 n = true) : (BitVec.ofInt 32 n).toInt = n := by
  simp only [inInt32, Bool.and_eq_true, decide_eq_true_eq] at h
  exact BitVec.toInt_ofInt_eq_self (by decide) (by norm_num; omega) (by norm_num; omega)

/-- The command word of `i`'s opcode decodes to `i` if its reserved bits are zero and its fields hold `i`'s operands. -/
theorem decode_commandWord {i : Instr} {x : BitVec 8} {y : BitVec 16} {w1 w2 : Word} (hx : x &&& i.xReserved = 0#8)
    (hy : y &&& i.yReserved = 0#16) (hi : i.withFields x y w1 w2 = i) :
    decode (commandWord i.opcode x y) w1 w2 = .ok i := by
  rw [decode_of_opcode (Laws.opField_commandWord _ _ _)]
  simp [checkReserved, Instr.reservedZero, hx, hy, hi]

/-- The low half of X holds the presence bits, the high half is zero (30_encoding.md R84). -/
theorem presenceField_spec (in0 in1 out0 out1 : Bool) :
    presenceField in0 in1 out0 out1 &&& 0xF0#8 = 0#8 ∧
    (presenceField in0 in1 out0 out1).getLsbD 0 = in0 ∧ (presenceField in0 in1 out0 out1).getLsbD 1 = in1 ∧
    (presenceField in0 in1 out0 out1).getLsbD 2 = out0 ∧ (presenceField in0 in1 out0 out1).getLsbD 3 = out1 := by
  revert in0 in1 out0 out1
  decide

/-! ## The round trip -/

/-- The front of the stream `encode i ++ rest` is a whole command that decodes to `i`, and `rest` stands after it. -/
def roundTrips (i : Instr) (rest : List Word) : Prop :=
  ∃ w w1 w2, fetchCommand (encode i ++ rest) = .command w w1 w2 rest ∧ decode w w1 w2 = .ok i

theorem roundTrips_formatC {i : Instr} {x : BitVec 8} {y : BitVec 16} (hlen : Laws.EncodeLength.Statement i)
    (he : encode i = [commandWord i.opcode x y]) (hx : x &&& i.xReserved = 0#8) (hy : y &&& i.yReserved = 0#16)
    (hi : i.withFields x y 0#32 0#32 = i) (rest : List Word) : roundTrips i rest := by
  have hop : i.opcode.getLsbD 7 = false := by simpa [he] using hlen.1
  refine ⟨_, _, _, ?_, decode_commandWord hx hy hi⟩
  rw [he, fetchCommand_formatC ((isFormatL_commandWord _ _ _).trans hop)]

theorem roundTrips_formatL {i : Instr} {x : BitVec 8} {y : BitVec 16} {o : BitVec 64}
    (hlen : Laws.EncodeLength.Statement i) (he : encode i = formatL (commandWord i.opcode x y) o)
    (hx : x &&& i.xReserved = 0#8) (hy : y &&& i.yReserved = 0#16)
    (hi : i.withFields x y (o.extractLsb' 0 32) (o.extractLsb' 32 32) = i) (rest : List Word) : roundTrips i rest := by
  have hop : i.opcode.getLsbD 7 = true := by simpa [he, formatL] using hlen.1
  refine ⟨_, _, _, ?_, decode_commandWord hx hy hi⟩
  rw [he, fetchCommand_formatL ((isFormatL_commandWord _ _ _).trans hop)]

section
open BitVec Laws

/-- A well-formed command is read back from the words of its encoding (30_encoding.md R81 to R85). -/
theorem decode_encode {i : Instr} (hwf : i.wellFormed = true) (rest : List Word) : roundTrips i rest := by
  cases i with
  | nop => exact roundTrips_formatC EncodeLength.nop rfl zero_and zero_and rfl rest
  | reset => exact roundTrips_formatC EncodeLength.reset rfl zero_and zero_and rfl rest
  | cleanup => exact roundTrips_formatC EncodeLength.cleanup rfl zero_and zero_and rfl rest
  | getp idx => exact roundTrips_formatC (EncodeLength.getp idx) rfl and_zero zero_and rfl rest
  | rdreg a => exact roundTrips_formatC (EncodeLength.rdreg a) rfl zero_and and_zero rfl rest
  | rdring ch pos =>
    exact roundTrips_formatC (EncodeLength.rdring ch pos) rfl (and_highMask_pad ch) (and_highMask_pad pos)
      (congrArg₂ Instr.rdring extractLsb'_append_eq_right extractLsb'_append_eq_right) rest
  | rdio b k =>
    exact roundTrips_formatC (EncodeLength.rdio b k) rfl (and_highMask_pad b) (and_highMask_pad k)
      (congrArg₂ Instr.rdio extractLsb'_append_eq_right extractLsb'_append_eq_right) rest
  | init fs =>
    exact roundTrips_formatL (EncodeLength.init fs) rfl zero_and zero_and (congrArg Instr.init (operandO_halves fs)) rest
  | setrate fs =>
    exact roundTrips_formatL (EncodeLength.setrate fs) rfl zero_and zero_and
      (congrArg Instr.setrate (operandO_halves fs)) rest
  | setp idx v =>
    exact roundTrips_formatL (EncodeLength.setp idx v) rfl and_zero zero_and
      (congrArg (Instr.setp idx) extractLsb'_append_eq_right) rest
  | wrreg a v =>
    exact roundTrips_formatL (EncodeLength.wrreg a v) rfl zero_and and_zero
      (congrArg (Instr.wrreg a) (operandO_halves v)) rest
  | wrio b k v =>
    refine roundTrips_formatL (EncodeLength.wrio b k v) rfl (and_highMask_pad b) (and_highMask_pad k) ?_ rest
    have hb : (0#6 ++ b).extractLsb' 0 2 = b := extractLsb'_append_eq_right
    have hk : (0#1 ++ k).extractLsb' 0 15 = k := extractLsb'_append_eq_right
    have hv : (0#32 ++ v).extractLsb' 0 32 = v := extractLsb'_append_eq_right
    exact congr (congrArg₂ Instr.wrio hb hk) hv
  | process in0 in1 out0 out1 n =>
    obtain ⟨hx, h0, h1, h2, h3⟩ := presenceField_spec in0 in1 out0 out1
    have hn : ((0#32 ++ BitVec.ofInt 32 n).extractLsb' 0 32).toInt = n :=
      (congrArg BitVec.toInt extractLsb'_append_eq_right).trans (toInt_ofInt_of_inInt32 hwf)
    refine roundTrips_formatL (EncodeLength.process in0 in1 out0 out1 n) rfl hx zero_and ?_ rest
    rw [Instr.withFields, h0, h1, h2, h3]
    exact congrArg (Instr.process in0 in1 out0 out1) hn

end

/-- Settles O1: each command's encoding has its opcode, its reserved bits zero and its operands in their fields. -/
theorem decodeInvertsEncode : Obligations.DecodeInvertsEncode :=
  fun _ rest hwf => decode_encode hwf rest

end Sys2Proof.Machine
end

section
/-! SUPPORT. The examples of the encoding, and what a step does with CP and with an illegal command (30_encoding.md R82, R88,
R89, R92). -/

namespace Sys2Proof.Machine

open Sys2Proof Host

/-- Settles O4, by running the encoder and the decoder on the twelve examples. -/
theorem encodingExamples : Obligations.EncodingExamples := by
  unfold Obligations.EncodingExamples
  decide

/-- A step on an illegal command consumes its words and raises ERR_ILLEGAL (30_encoding.md R88). -/
theorem step_of_illegal {s : State} {w w1 w2 : Word} {rest : List Word} {e : DecodeError} (hu : s.undefRead = false)
    (hf : fetchCommand s.stream = .command w w1 w2 rest) (hd : decode w w1 w2 = .error e) :
    step s = .next (illegalCommand w (s.consume (commandLength w) rest)) := by
  simp only [step, pendingFault_eq_none.2 hu, hf, hd]

/-- Settles O6: consuming the command moves CP and the stream, and raising the error writes STATUS and LAST_ERR. -/
theorem illegalCommandOnlyRecordsError : Obligations.IllegalCommandOnlyRecordsError :=
  fun _ _ _ _ _ _ hu hf hd => step_of_illegal hu hf hd

/-- A step that completes on a command leaves CP and the stream as consuming the command does (30_encoding.md R89). -/
theorem step_consumes {s t : State} (h : step s = .next t) (hs : s.stream ≠ []) :
    ∃ w w1 w2 rest, fetchCommand s.stream = .command w w1 w2 rest ∧ t.cp = s.cp + commandLength w ∧ t.stream = rest := by
  rcases step_next_cases h with ⟨hnil, -⟩ | ⟨w, w1, w2, rest, hf, ⟨i, -, he⟩ | ⟨e, -, rfl⟩⟩
  · exact absurd hnil hs
  · exact ⟨w, w1, w2, rest, hf, exec_stream he⟩
  · exact ⟨w, w1, w2, rest, hf, rfl, rfl⟩

/-- Settles O7: a step consumes the words the fetch takes, and neither a command nor an error moves CP. -/
theorem cpAdvancesByLength : Obligations.CpAdvancesByLength := by
  refine ⟨rfl, fun s t w rest hs h => ?_⟩
  obtain ⟨v, w1, w2, rest', hf, hcp, hstream⟩ := step_consumes h (by simp [hs])
  rcases fetchCommand_cases s.stream with ⟨-, hf'⟩ | hf' | ⟨_, _, _, _, hf', hdrop, hlen, hhead⟩
  · rw [hf] at hf'; cases hf'
  · rw [hf] at hf'; cases hf'
  · rw [hf] at hf'
    cases hf'
    obtain rfl : w = v := by simpa [hs] using hhead
    exact ⟨hcp, hstream.trans hdrop, hlen⟩

end Sys2Proof.Machine
end

section
/-! SUPPORT. Binary64 arithmetic that changes nothing (00_scope.md R11; log 17): a finite value minus itself is +0.0, a product
with +0.0 is a zero, a product with 1.0 is the other factor, and a zero addend leaves every finite value but −0.0 as it is.
With these, the smoothers (40_parameter_smoother.md R101, R104; log 22). -/

namespace Sys2Proof.Machine

open Sys2Proof

/-! ## Finite patterns -/

theorem unpack64_of_isFinite64 {x : F64} (h : isFinite64 x = true) : ∃ s m e, unpack64 x = .fin s m e := by
  obtain ⟨m, e, hu⟩ := exists_fin_of_fpMag_lt (f := binary64) (b := x.toNat) (of_decide_eq_true h)
  exact ⟨_, m, e, hu⟩

/-- What lies above one finite value and not above another is finite: a NaN compares with neither, and an infinity is beyond
one of them (00_scope.md R14). -/
theorem unpack64_fin_of_between {lo x hi : F64} {s t : Bool} {m n : Nat} {d e : Int} (hlo : unpack64 lo = .fin s m d)
    (hhi : unpack64 hi = .fin t n e) (h : fltLt lo x = true) (h' : fltLe x hi = true) :
    ∃ s' m' e', unpack64 x = .fin s' m' e' := by
  rw [fltLt_eq_valueLt, hlo] at h
  rw [fltLe_eq_or, fltLt_eq_valueLt, fltEq_eq_valueEq, hhi] at h'
  match hx : unpack64 x with
  | .nan => simp [hx, valueLt] at h
  | .inf true => simp [hx, valueLt] at h
  | .inf false => simp [hx, valueLt, valueEq] at h'
  | .fin s' m' e' => exact ⟨s', m', e', rfl⟩

/-! ## The operations on finite operands -/

section
variable {a b : F64} {s t : Bool} {m n : Nat} {d e : Int}

theorem fadd_fin (c : Config) (ha : unpack64 a = .fin s m d) (hb : unpack64 b = .fin t n e) :
    fadd c a b = addFinite s m d t n e := by
  rw [fadd, ha, hb, addValues]

theorem fsub_fin (c : Config) (ha : unpack64 a = .fin s m d) (hb : unpack64 b = .fin t n e) :
    fsub c a b = addFinite s m d (!t) n e := by
  rw [fsub, ha, hb, negValue, addValues]

theorem fmul_fin (c : Config) (ha : unpack64 a = .fin s m d) (hb : unpack64 b = .fin t n e) :
    fmul c a b = round64 (s ^^ t) (m * n) (d + e) := by
  rw [fmul, ha, hb]

/-! ## Zeros -/

theorem unpack64_zeroF : unpack64 zeroF = .fin false 0 (-1074) := by decide

theorem unpack64_oneF : unpack64 oneF = .fin false (2 ^ 52) (-52) := by decide

/-- A zero significand is rounded to the zero of its sign, whatever its power of two. -/
theorem round64_zero (s : Bool) (e : Int) : round64 s 0 e = round64 s 0 0 := by
  rw [round64, round64, fpRound, fpRound, if_pos rfl, if_pos rfl]

theorem unpack64_round64_zero (s : Bool) : unpack64 (round64 s 0 0) = .fin s 0 (-1074) := by
  cases s <;> decide

/-- A value and its opposite sum to +0.0. -/
theorem addFinite_opposite (s : Bool) (m : Nat) (e : Int) : addFinite s m e (!s) m e = zeroF := by
  have hsum (a : Int) : (if s then -a else a) + (if !s then -a else a) = 0 := by cases s <;> simp
  rw [addFinite, hsum, if_pos rfl, Bool.and_not_self]
  rfl

theorem addFinite_comm (s t : Bool) (m n : Nat) (d e : Int) : addFinite s m d t n e = addFinite t n e s m d := by
  simp only [addFinite, min_comm d e, Bool.and_comm s t, add_comm (if s then _ else _ : Int)]

/-- A zero addend may make the common unit of the two addends smaller, and changes no number but a zero. -/
theorem addFinite_zero (s t : Bool) {m : Nat} (d e : Int) (hm : m ≠ 0) : addFinite s m d t 0 e = round64 s m d := by
  obtain ⟨k, hk⟩ := Int.eq_ofNat_of_zero_le (sub_nonneg.2 (min_le_left d e))
  have hpos : 0 < m * 2 ^ k := by positivity
  have hround : round64 s (m * 2 ^ k) (min d e) = round64 s m d := by
    have hexp : d = k + min d e := by omega
    have hval : ((m * 2 ^ k : Nat) : ℝ) * 2 ^ min d e = m * 2 ^ d := by
      conv_rhs => rw [hexp, zpow_add₀ two_ne_zero, zpow_natCast]
      push_cast
      ring
    rw [round64, round64, fpRound_congr binary64_regular.2 s hval]
  rw [← hround, addFinite, hk, Int.toNat_natCast, Nat.zero_shiftLeft, Nat.shiftLeft_eq]
  generalize m * 2 ^ k = M at hpos
  cases s with
  | false => simp [hpos.ne', (Int.natCast_nonneg M).not_gt]
  | true => simp [hpos.ne', hpos]

/-- Adding a zero of either sign keeps every finite value but −0.0, which +0.0 would turn into +0.0. -/
theorem addFinite_zero_unpack64 (t : Bool) (e : Int) (ha : unpack64 a = .fin s m d) (hneg : a ≠ 0x8000000000000000#64) :
    addFinite s m d t 0 e = a := by
  by_cases hm : m = 0
  · subst hm
    have hzero : a = round64 s 0 0 := by rw [← round64_unpack64 ha, round64_zero]
    cases s with
    | false =>
      rw [hzero]
      simp [addFinite]
    | true => exact absurd hzero hneg
  · rw [addFinite_zero s t d e hm, round64_unpack64 ha]

theorem fadd_zero (c : Config) (t : Bool) (ha : unpack64 a = .fin s m d) (hneg : a ≠ 0x8000000000000000#64) :
    fadd c a (round64 t 0 0) = a := by
  rw [fadd_fin c ha (unpack64_round64_zero t), addFinite_zero_unpack64 t _ ha hneg]

theorem zeroF_fadd (c : Config) (ha : unpack64 a = .fin s m d) (hneg : a ≠ 0x8000000000000000#64) :
    fadd c zeroF a = a := by
  rw [fadd_fin c unpack64_zeroF ha, addFinite_comm, addFinite_zero_unpack64 false _ ha hneg]

theorem fsub_zeroF (c : Config) (ha : unpack64 a = .fin s m d) (hneg : a ≠ 0x8000000000000000#64) :
    fsub c a zeroF = a := by
  rw [fsub_fin c ha unpack64_zeroF, addFinite_zero_unpack64 _ _ ha hneg]

theorem fsub_self (c : Config) (ha : unpack64 a = .fin s m d) : fsub c a a = zeroF := by
  rw [fsub_fin c ha ha, addFinite_opposite]

/-- +0.0 times a finite value is the zero of that value's sign. -/
theorem zeroF_fmul (c : Config) (hb : unpack64 b = .fin t n e) : fmul c zeroF b = round64 t 0 0 := by
  rw [fmul_fin c unpack64_zeroF hb, Nat.zero_mul, Bool.false_xor, round64_zero]

/-- 1.0 times a finite value is that value: 2^52 × 2^−52 scales its number by 1. -/
theorem oneF_fmul (c : Config) (hb : unpack64 b = .fin t n e) : fmul c oneF b = b := by
  have hval : ((2 ^ 52 * n : Nat) : ℝ) * 2 ^ (-52 + e) = n * 2 ^ e := by
    have hone : (2 : ℝ) ^ 52 * 2 ^ (-52 : Int) = 1 := by norm_num
    rw [zpow_add₀ two_ne_zero]
    push_cast
    linear_combination ((n : ℝ) * 2 ^ e) * hone
  rw [fmul_fin c unpack64_oneF hb, Bool.false_xor, round64, fpRound_congr binary64_regular.2 t hval]
  exact round64_unpack64 hb

end

/-! ## The smoother -/

/-- A smoother at a finite target other than −0.0 stays there exactly, whatever its finite coefficient: the distance is +0.0,
its share a zero (40_parameter_smoother.md R104). -/
theorem smoothValue_self (c : Config) {v coef : F64} {s t : Bool} {m n : Nat} {d e : Int} (hv : unpack64 v = .fin s m d)
    (hneg : v ≠ 0x8000000000000000#64) (hcoef : unpack64 coef = .fin t n e) : smoothValue c v coef v = v := by
  rw [smoothValue, fsub_self c hv, zeroF_fmul c hcoef, fadd_zero c t hv hneg]

/-- From 0.0 towards 1.0 the first step arrives at the coefficient: it is the coefficient's share of the distance 1.0
(40_parameter_smoother.md R101). -/
theorem smoothValue_zeroF_oneF (c : Config) {coef : F64} {t : Bool} {n : Nat} {e : Int} (hcoef : unpack64 coef = .fin t n e)
    (hneg : coef ≠ 0x8000000000000000#64) : smoothValue c zeroF coef oneF = coef := by
  rw [smoothValue, fsub_zeroF c unpack64_oneF (by decide), oneF_fmul c hcoef, zeroF_fadd c hcoef hneg]

/-- Settles O45: the formula is the definition, the example a first step from 0.0 towards 1.0, and a coefficient in (0, 1] is
finite. -/
theorem smoothStepAndFixedPoint : Obligations.SmoothStepAndFixedPoint := by
  refine fun c => ⟨fun _ _ _ => rfl, ?_, fun v coef hv hneg hlo hhi => ?_⟩
  · have hcoef : unpack64 0x3F847AE147AE147B#64 = .fin false 0x147AE147AE147B (-59) := by decide
    exact smoothValue_zeroF_oneF c hcoef (by decide)
  · obtain ⟨s, m, d, hv'⟩ := unpack64_of_isFinite64 hv
    obtain ⟨t, n, e, hcoef⟩ := unpack64_fin_of_between unpack64_zeroF unpack64_oneF hlo hhi
    exact smoothValue_self c hv' hneg hcoef

end Sys2Proof.Machine
end

section
/-! SUPPORT. The peak envelope (41_peak_envelope.md R111, R113; log 23). -/

namespace Sys2Proof.Machine

open Sys2Proof

/-- A sample below the envelope makes it decay, with the floor at +0.0 (41_peak_envelope.md R111). -/
theorem peakValue_of_below (c : Config) {pk x : F64} (h : fltLt x pk = true) :
    peakValue c pk x = if fltLt (fsub c pk c.decayRate) zeroF then zeroF else fsub c pk c.decayRate := if_pos h

/-- Any other sample becomes the envelope (41_peak_envelope.md R111). -/
theorem peakValue_of_not_below (c : Config) {pk x : F64} (h : fltLt x pk = false) : peakValue c pk x = x :=
  if_neg (Bool.eq_false_iff.1 h)

/-- A value that is not below one from `lo` on is not below `lo`. -/
theorem not_fltLt_of_le_of_not_fltLt {lo a x : F64} (ha : fltLe lo a = true) (hx : fltLt x a = false) :
    fltLt x lo = false := by
  simp only [fltLe, fltLt, Bool.and_eq_true, Bool.not_eq_true', decide_eq_true_eq, Bool.and_eq_false_iff,
    Bool.not_eq_false', decide_eq_false_iff_not] at ha hx ⊢
  obtain ⟨⟨-, hnum⟩, hle⟩ := ha
  rcases hx with (hnan | hnan) | hge
  · exact .inl (.inl hnan)
  · simp [hnum] at hnan
  · exact .inr (by omega)

/-- The decayed envelope is not below zero, by its floor (41_peak_envelope.md R113). -/
theorem peakValue_nonneg (c : Config) {pk x : F64} (h : fltLe zeroF pk = true) :
    fltLt (peakValue c pk x) zeroF = false := by
  cases hx : fltLt x pk with
  | true =>
    rw [peakValue_of_below c hx]
    split_ifs with hy
    · decide
    · exact Bool.eq_false_iff.2 hy
  | false =>
    rw [peakValue_of_not_below c hx]
    exact not_fltLt_of_le_of_not_fltLt h hx

/-- Settles O46: the two branches of PEAK; a comparison with a NaN fails, so that a NaN takes the branch that snaps. -/
theorem peakDecaysSnapsAndFloors : Obligations.PeakDecaysSnapsAndFloors := by
  refine fun c pk x => ⟨peakValue_of_not_below c, fun hx hy => ?_, fun hx hy => ?_, fun hnan => ?_, peakValue_nonneg c⟩
  · rw [peakValue_of_below c hx, if_pos hy]
    rfl
  · rw [peakValue_of_below c hx, if_neg (Bool.eq_false_iff.1 hy)]
  · exact peakValue_of_not_below c (flt_of_nan hnan).1

end Sys2Proof.Machine
end

section
/-! SUPPORT. The elements that no datapath rule reads, called meters here (41_peak_envelope.md R112; 43_compressor.md R152;
10_state.md R40, R41; log 2). A state with its meters blanked out stands for all states that differ in them only. An operation
that does not see them gives the same for a state and its blanked form, once the results are blanked; many operations carry the
meters along, so that blanking before them is blanking after them. -/

namespace Sys2Proof.Machine

open Sys2Proof Host

/-! ## Blanking out -/

/-- A filter unit without its cached outputs. -/
def Filter.blank (u : Filter) : Filter := { u with lp := zeroF, hp := zeroF }

/-- A compressor unit without PATH and RED. -/
def Comp.blank (k : Comp) : Comp := { k with path := false, red := zeroF }

/-- A state without its peak trackers, meters, read cursor, cached filter outputs, PATH and RED. -/
def State.blank (s : State) : State :=
  { s with
    pk := #v[zeroF, zeroF]
    mgr := three fun _ => zeroF
    mrms := three fun _ => zeroF
    rcur := 0#15
    filters := six fun k => s.filters[k].blank
    comps := three fun b => s.comps[b].blank }

theorem Filter.blank_eq_iff {u v : Filter} : u.blank = v.blank ↔ v = { u with lp := v.lp, hp := v.hp } := by
  cases u
  cases v
  simp only [Filter.blank, Filter.mk.injEq]
  tauto

theorem Comp.blank_eq_iff {k l : Comp} : k.blank = l.blank ↔ l = { k with path := l.path, red := l.red } := by
  cases k
  cases l
  simp only [Comp.blank, Comp.mk.injEq]
  tauto

theorem three_inj {α : Type} {f g : Fin 3 → α} : three f = three g ↔ ∀ b, f b = g b :=
  ⟨fun h b => by rw [← three_get f b, h, three_get], fun h => congrArg three (funext h)⟩

theorem six_inj {α : Type} {f g : Fin 6 → α} : six f = six g ↔ ∀ k, f k = g k :=
  ⟨fun h k => by rw [← six_get f k, h, six_get], fun h => congrArg six (funext h)⟩

/-- Two states agree but for the meters iff their blanked forms are equal. -/
theorem agreeButMeters_iff {s t : State} : agreeButMeters s t ↔ s.blank = t.blank := by
  unfold agreeButMeters
  simp only [← Filter.blank_eq_iff, ← Comp.blank_eq_iff, ← six_inj, ← three_inj]
  cases s
  cases t
  simp only [State.blank, State.mk.injEq]
  tauto

theorem Comp.blank_blank (k : Comp) : k.blank.blank = k.blank := rfl

theorem Filter.blank_blank (u : Filter) : u.blank.blank = u.blank := rfl

@[simp] theorem blank_params (s : State) : s.blank.params = s.params := rfl
@[simp] theorem blank_gain2 (s : State) : s.blank.gain2 = s.gain2 := rfl
@[simp] theorem blank_sv (s : State) : s.blank.sv = s.sv := rfl
@[simp] theorem blank_wcur (s : State) : s.blank.wcur = s.wcur := rfl

@[simp] theorem blank_ringCell (s : State) (ch : BitVec 3) (p : RingPos) : s.blank.ringCell ch p = s.ringCell ch p := rfl

@[simp] theorem blank_readBands (s : State) (rc : RingPos) : readBands s.blank rc = readBands s rc := rfl

@[simp] theorem blank_ioWord (s : State) (buf : BitVec 2) (i : BitVec 15) : s.blank.ioWord buf i = s.ioWord buf i := rfl

theorem getElem_blank_comps (s : State) (b : Fin 3) : s.blank.comps[b] = s.comps[b].blank := three_get _ b

theorem setIoWord_blank (s : State) (buf : BitVec 2) (i : BitVec 15) (v : Word) :
    s.blank.setIoWord buf i v = (s.setIoWord buf i v).blank := rfl

theorem blank_blank (s : State) : s.blank.blank = s.blank := rfl

/-- The blanked form of a state is the blanked form of every state it stands for. -/
theorem blank_of_eq_blank {s t : State} (h : s = t.blank) : s.blank = t.blank := by
  rw [h, blank_blank]

/-- Two choices on one condition look the same to `f` if their cases do. -/
theorem apply_ite_congr {α β : Type} (f : α → β) {p : Prop} [Decidable p] {x y x' y' : α} (hx : f x = f x') (hy : f y = f y') :
    f (if p then x else y) = f (if p then x' else y') := by
  split_ifs
  · exact hx
  · exact hy

/-! ## The lifecycle commands and SETP -/

/-- INIT and RESET overwrite every meter. -/
theorem neutralState_blank (s : State) : (neutralState s.blank).blank = (neutralState s).blank := rfl

theorem xoCoef_blank (c : Config) (f fs : F64) (u : Filter) : xoCoef c f fs u.blank = (xoCoef c f fs u).blank := rfl

theorem compCoef_blank (c : Config) (fs : F64) (k : Comp) : compCoef c fs k.blank = (compCoef c fs k).blank := rfl

theorem deriveAll_blank (c : Config) (s : State) : deriveAll c s.blank = (deriveAll c s).blank := by
  simp only [deriveAll, State.blank, six_get, xoCoef_blank]

theorem deriveLow_blank (c : Config) (s : State) : deriveLow c s.blank = (deriveLow c s).blank := by
  simp only [deriveLow, State.blank, six_get, xoCoef_blank, apply_ite Filter.blank]

theorem deriveHigh_blank (c : Config) (s : State) : deriveHigh c s.blank = (deriveHigh c s).blank := by
  simp only [deriveHigh, State.blank, six_get, xoCoef_blank, apply_ite Filter.blank]

theorem applyRate_blank (c : Config) (fs : F64) (s : State) : applyRate c fs s.blank = (applyRate c fs s).blank := by
  simp only [applyRate, deriveAll, State.blank, six_get, three_get, xoCoef_blank, compCoef_blank]

theorem initState_blank (c : Config) (fs : F64) (s : State) : (initState c fs s.blank).blank = (initState c fs s).blank := by
  simp only [initState, initParams, neutralState, deriveAll, State.blank, six_get, three_get, xoCoef_blank, smootherTarget]
  rfl

theorem derive_blank (c : Config) (n : Nat) (v : F32) (s : State) : derive c n v s.blank = (derive c n v s).blank := by
  unfold derive
  split_ifs <;> rfl

theorem setParam_blank (c : Config) (idx : BitVec 8) (v : F32) (s : State) :
    setParam c idx v s.blank = (setParam c idx v s).blank := by
  unfold setParam
  split_ifs with h
  · exact derive_blank c idx.toNat (clamp01 v) (storeParam idx.toNat h (clamp01 v) s)
  · rfl

/-! ## The split pass -/

/-- A filter does not see its cached outputs (10_state.md R40). -/
theorem xoTick_blank (c : Config) (u : Filter) (x : F64) : xoTick c u.blank x = xoTick c u x := rfl

theorem bank_blank (c : Config) (adv : Bool) (s : State) (xL xR : F64) :
    bank c adv s.blank.filters xL xR = bank c adv s.filters xL xR := by
  simp only [bank, bankAdv, bankSimple, State.blank, six_getElem, xoTick_blank, Fin.getElem_fin]

theorem smoothAll_blank (c : Config) (s : State) : smoothAll c s.blank = (smoothAll c s).blank := rfl

theorem setRingCell_blank (s : State) (ch : BitVec 3) (p : RingPos) (v : F64) :
    s.blank.setRingCell ch p v = (s.setRingCell ch p v).blank := rfl

theorem ringWrite_blank (bands : Vector F64 6) (l r : F64) (s : State) :
    ringWrite bands l r s.blank = (ringWrite bands l r s).blank := by
  simp only [ringWrite, setRingCell_blank, blank_wcur]

theorem advanceWcur_blank (s : State) : advanceWcur s.blank = (advanceWcur s).blank := rfl

/-- The peak trackers feed nothing (41_peak_envelope.md R112). -/
theorem peakPass_blank (c : Config) (ws : List (Word × Word)) (s : State) :
    (peakPass c ws s.blank).blank = (peakPass c ws s).blank := by
  obtain ⟨pk, e⟩ := peakPass_only c ws s.blank
  obtain ⟨pk', e'⟩ := peakPass_only c ws s
  rw [e, e']
  rfl

theorem splitSample_blank (c : Config) (adv : Bool) (w : Word × Word) (s : State) :
    (splitSample c adv w s.blank).blank = (splitSample c adv w s).blank := by
  simp only [splitSample, smoothAll_blank, bank_blank, ← advanceWcur_blank, ← ringWrite_blank]
  rfl

theorem splitPass_blank (c : Config) (adv : Bool) (ws : List (Word × Word)) (s : State) :
    (splitPass c adv ws s.blank).blank = (splitPass c adv ws s).blank := by
  induction ws generalizing s with
  | nil => rfl
  | cons w ws ih => rw [splitPass, splitPass, ← ih, splitSample_blank, ih]

/-! ## The compressors and the remix pass -/

/-- Blanking the compressors, and the one that takes the place of another, makes no difference once all are blanked. -/
theorem blank_comps_set (ks : Vector Comp 3) (b : Fin 3) {k k' : Comp} (hk : k.blank = k'.blank) :
    (three fun j => ((three fun i => ks[i].blank).set b k)[j].blank) = three fun j => (ks.set b k')[j].blank := by
  refine three_inj.2 fun j => ?_
  simp only [Fin.getElem_fin, Vector.getElem_set, three_getElem]
  split_ifs
  · exact hk
  · rfl

theorem setComp_blank (s : State) (b : Fin 3) {k k' : Comp} (hk : k.blank = k'.blank) :
    (s.blank.setComp b k).blank = (s.setComp b k').blank := by
  simp only [State.setComp, State.blank, blank_comps_set _ _ hk, six_get, Filter.blank_blank]

/-- A compressor step does not see PATH and RED (10_state.md R41). -/
theorem compNext_blank (c : Config) (b : Fin 3) (p : F64) (k : Comp) : compNext c b p k.blank = compNext c b p k :=
  compNext_path_red c b p k false zeroF

theorem compStep_mult_blank (c : Config) (b : Fin 3) (p g gain : F64) (s : State) :
    (compStep c b p g gain s.blank).2 = (compStep c b p g gain s).2 := by
  simp only [compStep, getElem_blank_comps, compNext_blank]

theorem compStep_blank (c : Config) (b : Fin 3) (p g gain : F64) (s : State) :
    (compStep c b p g gain s.blank).1.blank = (compStep c b p g gain s).1.blank := by
  simp only [compStep, getElem_blank_comps, compNext_blank]
  simp only [State.blank, blank_comps_set _ _ rfl, six_get, Filter.blank_blank]

/-- States that agree but for the meters give a compressor step the same multiplier, and it keeps them so. -/
theorem compStep_congr {s t : State} (c : Config) (b : Fin 3) (p g gain : F64) (h : s.blank = t.blank) :
    (compStep c b p g gain s).2 = (compStep c b p g gain t).2 ∧
      (compStep c b p g gain s).1.blank = (compStep c b p g gain t).1.blank := by
  rw [← compStep_mult_blank, ← compStep_blank, h, compStep_mult_blank, compStep_blank]
  exact ⟨rfl, rfl⟩

theorem outWrite_congr {s t : State} (c : Config) (outR : BitVec 2) (i : Nat) (l r : F64) (h : s.blank = t.blank) :
    (outWrite c outR i l r s).blank = (outWrite c outR i l r t).blank := by
  simp only [outWrite, ← setIoWord_blank, h]

/-- States that agree but for the meters do so after a sample of the remix, which writes both the same output words. -/
theorem remixSample_congr {s t : State} (c : Config) (g go : F64) (outR : BitVec 2) (i : Nat) (v : Vector F64 6)
    (h : s.blank = t.blank) : (remixSample c g go outR i v s).blank = (remixSample c g go outR i v t).blank := by
  have hgain : s.gain2 = t.gain2 := by simpa using congrArg State.gain2 h
  obtain ⟨m0, h0⟩ := compStep_congr c 0 (power c v[0] v[1]) g t.gain2[0] h
  obtain ⟨m1, h1⟩ := compStep_congr c 1 (power c v[2] v[3]) g t.gain2[1] h0
  obtain ⟨m2, h2⟩ := compStep_congr c 2 (power c v[4] v[5]) g t.gain2[2] h1
  simp only [remixSample, hgain, m0, m1, m2]
  exact outWrite_congr c outR i _ _ h2

/-- The remix pass on states that agree but for the meters: both meet an UNDEF ring cell, or the states agree at its end. -/
theorem remixLoop_congr {s t : State} (c : Config) (g go : F64) (outR : BitVec 2) (n i : Nat) (rc : RingPos)
    (h : s.blank = t.blank) :
    (remixLoop c g go outR n i rc s).map State.blank = (remixLoop c g go outR n i rc t).map State.blank := by
  induction n generalizing i rc s t with
  | zero => exact congrArg some h
  | succ n ih =>
    have hbands : readBands s rc = readBands t rc := by simpa using congrArg (readBands · rc) h
    simp only [remixLoop, hbands]
    cases readBands t rc with
    | none => rfl
    | some v => exact ih (i + 1) (rc + 1#15) (remixSample_congr c g go outR i v h)

theorem remixPass_congr {s t : State} (c : Config) (outR : BitVec 2) (n : Nat) (h : s.blank = t.blank) :
    (remixPass c outR n s).map State.blank = (remixPass c outR n t).map State.blank := by
  have hsv : s.sv = t.sv := by simpa using congrArg State.sv h
  have hwcur : s.wcur = t.wcur := by simpa using congrArg State.wcur h
  simp only [remixPass, hsv, hwcur, remixLoop_congr c _ _ outR n 0 _ h]

theorem pipeline_blank (c : Config) (adv : Bool) (outR : BitVec 2) (ws : List (Word × Word)) (s : State) :
    (pipeline c adv outR ws s.blank).map State.blank = (pipeline c adv outR ws s).map State.blank := by
  refine remixPass_congr c outR ws.length ?_
  rw [← splitPass_blank, peakPass_blank, splitPass_blank]

/-! ## The commands -/

theorem readBlock_blank (s : State) (buf : BitVec 2) (n i : Nat) : readBlock s.blank buf n i = readBlock s buf n i := by
  induction n generalizing i with
  | zero => rfl
  | succ n ih => simp only [readBlock, ih, blank_ioWord]

theorem writeBlock_blank (buf : BitVec 2) (vs : List Word) (i : Nat) (s : State) :
    writeBlock buf vs i s.blank = (writeBlock buf vs i s).blank := by
  induction vs generalizing i s with
  | nil => rfl
  | cons v vs ih => exact ih (i + 1) (s.setIoWord buf (BitVec.ofNat 15 i) v)

/-- An answer without the meters of its state. -/
def blankAnswer : Outcome State Fault Refusal → Outcome State Fault Refusal
  | .next t => .next t.blank
  | .fault f => .fault f
  | .refused r => .refused r

theorem blankAnswer_next {s t : State} (h : s.blank = t.blank) : blankAnswer (.next s) = blankAnswer (.next t) :=
  congrArg Outcome.next h

theorem execReset_blank (s : State) : blankAnswer (execReset s.blank) = blankAnswer (execReset s) :=
  apply_ite_congr blankAnswer (p := s.lifecycle = .uninit) rfl (blankAnswer_next (neutralState_blank s))

theorem execInit_blank (fs : F64) (s : State) : blankAnswer (execInit fs s.blank) = blankAnswer (execInit fs s) :=
  apply_ite_congr blankAnswer (blankAnswer_next (initState_blank Config.current fs s)) rfl

theorem execSetrate_blank (fs : F64) (s : State) : blankAnswer (execSetrate fs s.blank) = blankAnswer (execSetrate fs s) :=
  apply_ite_congr blankAnswer (p := s.lifecycle = .uninit) rfl
    (apply_ite_congr blankAnswer (blankAnswer_next (blank_of_eq_blank (applyRate_blank Config.current fs s))) rfl)

theorem execGetp_blank (idx : BitVec 8) (s : State) : blankAnswer (execGetp idx s.blank) = blankAnswer (execGetp idx s) := by
  by_cases hidx : idx.toNat < 20
  · simp only [execGetp, dif_pos hidx]
    exact apply_ite_congr blankAnswer (p := s.paramSet[idx.toNat] = true) rfl rfl
  · simp only [execGetp, dif_neg hidx]
    rfl

theorem execSetp_blank (idx : BitVec 8) (v : F32) (s : State) :
    blankAnswer (execSetp idx v s.blank) = blankAnswer (execSetp idx v s) :=
  blankAnswer_next (blank_of_eq_blank (setParam_blank Config.current idx v s))

theorem execRdring_blank (ch : BitVec 3) (pos : RingPos) (s : State) :
    blankAnswer (execRdring ch pos s.blank) = blankAnswer (execRdring ch pos s) := by
  simp only [execRdring, blank_ringCell]
  cases s.ringCell ch pos <;> rfl

theorem execRdio_blank (buf : BitVec 2) (idx : BitVec 15) (s : State) :
    blankAnswer (execRdio buf idx s.blank) = blankAnswer (execRdio buf idx s) := by
  simp only [execRdio, blank_ioWord]
  cases s.ioWord buf idx <;> rfl

/-- WRREG writes no compressor's PATH or RED. -/
theorem setCompReg_blank (k : Comp) (f : CompField) (v : BitVec 64) : setCompReg k.blank f v = (setCompReg k f v).blank := by
  cases f <;> rfl

theorem writeEffect_blank (c : Config) (r : Reg) (v : BitVec 64) (s : State) :
    (writeEffect c r v s.blank).blank = (writeEffect c r v s).blank := by
  cases r with
  | xoLo =>
    exact apply_ite_congr State.blank (p := crossoverOk c v s.fs = true)
      (blank_of_eq_blank (deriveLow_blank c { s with xoLo := v })) rfl
  | xoHi =>
    exact apply_ite_congr State.blank (p := crossoverOk c v s.fs = true)
      (blank_of_eq_blank (deriveHigh_blank c { s with xoHi := v })) rfl
  | comp b f =>
    have hk : (setCompReg s.blank.comps[b] f v).blank = (setCompReg s.comps[b] f v).blank := by
      rw [getElem_blank_comps, setCompReg_blank, Comp.blank_blank]
    cases f with
    | relTc => exact setComp_blank s b (congrArg (compCoef c s.fs) hk)
    | _ => exact setComp_blank s b hk
  | _ => exact blank_blank s

theorem execWrreg_blank (a : RegAddr) (v : BitVec 64) (s : State) :
    blankAnswer (execWrreg a v s.blank) = blankAnswer (execWrreg a v s) := by
  refine apply_ite_congr blankAnswer (p := s.lifecycle = .uninit) rfl ?_
  cases regAt a with
  | none => rfl
  | some r => exact apply_ite_congr blankAnswer (blankAnswer_next (writeEffect_blank Config.current r v s)) rfl

theorem bypassBlock_blank (in1 out1 : Bool) (n : Nat) (s : State) :
    blankAnswer (bypassBlock in1 out1 n s.blank) = blankAnswer (bypassBlock in1 out1 n s) := by
  simp only [bypassBlock, readBlock_blank, writeBlock_blank]
  cases readBlock s 0#2 n 0 with
  | none => rfl
  | some ls =>
    cases out1 with
    | false => rfl
    | true => cases readBlock s (rightIn in1) n 0 <;> rfl

theorem processBlock_blank (c : Config) (in1 out1 : Bool) (n : Nat) (s : State) :
    blankAnswer (processBlock c in1 out1 n s.blank) = blankAnswer (processBlock c in1 out1 n s) := by
  simp only [processBlock, readBlock_blank]
  cases readBlock s 0#2 n 0 with
  | none => rfl
  | some ls =>
    cases readBlock s (rightIn in1) n 0 with
    | none => rfl
    | some rs =>
      have h := pipeline_blank c (boolParam c s.params[4]) (rightOut out1) (ls.zip rs) s
      dsimp only [blank_params]
      generalize pipeline c (boolParam c s.params[4]) (rightOut out1) (ls.zip rs) s.blank = x at h ⊢
      generalize pipeline c (boolParam c s.params[4]) (rightOut out1) (ls.zip rs) s = y at h ⊢
      match x, y, h with
      | none, none, _ => rfl
      | some t, some u, h => exact blankAnswer_next (Option.some.inj h)

theorem execProcess_blank (in0 in1 out0 out1 : Bool) (n : Int) (s : State) :
    blankAnswer (execProcess in0 in1 out0 out1 n s.blank) = blankAnswer (execProcess in0 in1 out0 out1 n s) := by
  refine apply_ite_congr blankAnswer rfl ?_
  refine apply_ite_congr blankAnswer (p := s.lifecycle = .uninit) rfl ?_
  refine apply_ite_congr blankAnswer rfl ?_
  exact apply_ite_congr blankAnswer (p := boolParam Config.current s.params[19] = true)
    (bypassBlock_blank in1 out1 n.toNat s) (processBlock_blank Config.current in1 out1 n.toNat s)

/-- No command but RDREG sees the meters. -/
theorem exec_blank {i : Instr} (hi : ∀ a, i ≠ .rdreg a) (s : State) :
    blankAnswer (exec i s.blank) = blankAnswer (exec i s) := by
  cases i with
  | nop => rfl
  | reset => exact execReset_blank s
  | cleanup => rfl
  | getp idx => exact execGetp_blank idx s
  | rdreg a => exact absurd rfl (hi a)
  | rdring ch pos => exact execRdring_blank ch pos s
  | rdio b k => exact execRdio_blank b k s
  | init fs => exact execInit_blank fs s
  | setrate fs => exact execSetrate_blank fs s
  | setp idx v => exact execSetp_blank idx v s
  | wrreg a v => exact execWrreg_blank a v s
  | wrio b k w => rfl
  | process in0 in1 out0 out1 n => exact execProcess_blank in0 in1 out0 out1 n s

/-- Answers equal but for the meters are of one kind. -/
theorem blankAnswer_eq {x y : Outcome State Fault Refusal} (h : blankAnswer x = blankAnswer y) :
    (∃ t u, x = .next t ∧ y = .next u ∧ t.blank = u.blank) ∨ (∃ f, x = .fault f ∧ y = .fault f) ∨ ∃ r, x = .refused r := by
  match x, y, h with
  | .next t, .next u, h => exact .inl ⟨t, u, rfl, rfl, Outcome.next.inj h⟩
  | .fault f, .fault _, h => exact .inr (.inl ⟨f, rfl, congrArg _ (Outcome.fault.inj h).symm⟩)
  | .refused r, _, _ => exact .inr (.inr ⟨r, rfl⟩)

/-- Settles O44: two states that differ in the meters only have one blanked form, on which every command but RDREG answers as
on both. -/
theorem metersAffectNothing : Obligations.MetersAffectNothing := by
  intro i s s' hi h
  have hanswer : blankAnswer (exec i s) = blankAnswer (exec i s') := by
    rw [← exec_blank hi s, agreeButMeters_iff.1 h, exec_blank hi s']
  rcases blankAnswer_eq hanswer with ⟨t, t', hs, hs', ht⟩ | hfault | ⟨r, hr⟩
  · exact .inl ⟨t, t', hs, hs', agreeButMeters_iff.2 ht⟩
  · exact .inr hfault
  · exact absurd hr ((exec_answer i s).1 r)

end Sys2Proof.Machine
end

section
/-! SUPPORT. The domain of sample rate and crossovers, and the coefficients of the filter pairs, over a command and a step
(42_crossover_filterbank.md R120 to R124; 10_state.md R28). -/

namespace Sys2Proof.Machine

open Sys2Proof Host

/-! ## The domain of rates and crossovers -/

/-- A sample rate is finite and positive and two crossovers lie below half of it, whatever the configuration
(42_crossover_filterbank.md R123). -/
def ratesInDomain (fs lo hi : F64) : Prop :=
  fltLt zeroF fs = true ∧ fltLt fs posInfF = true ∧
    ∀ c : Config, crossoverOk c lo fs = true ∧ crossoverOk c hi fs = true

theorem ratesOk_iff {s : State} : ratesOk s ↔ (s.initDone = true → ratesInDomain s.fs s.xoLo s.xoHi) := Iff.rfl

/-- A positive value below +∞ is finite. -/
theorem unpack64_fin_of_rate {fs : F64} (hpos : fltLt zeroF fs = true) (hfin : fltLt fs posInfF = true) :
    ∃ s m e, unpack64 fs = .fin s m e := by
  have hinf : unpack64 posInfF = .inf false := by decide
  rw [fltLt_eq_valueLt, unpack64_zeroF] at hpos
  rw [fltLt_eq_valueLt, hinf] at hfin
  match hu : unpack64 fs with
  | .nan => simp [hu, valueLt] at hpos
  | .inf true => simp [hu, valueLt] at hpos
  | .inf false => simp [hu, valueLt] at hfin
  | .fin s m e => exact ⟨s, m, e, rfl⟩

/-- Half of a finite rate is no NaN, so that the domain of a crossover does not depend on the configuration. -/
theorem crossoverOk_config {fs : F64} (hpos : fltLt zeroF fs = true) (hfin : fltLt fs posInfF = true) (c c' : Config)
    (f : F64) : crossoverOk c f fs = crossoverOk c' f fs := by
  obtain ⟨s, m, e, hfs⟩ := unpack64_fin_of_rate hpos hfin
  have hhalf : unpack64 halfF = .fin false (2 ^ 52) (-53) := by decide
  rw [crossoverOk, crossoverOk, fmul_fin c hfs hhalf, fmul_fin c' hfs hhalf]

theorem crossoverOk_pos {c : Config} {f fs : F64} (h : crossoverOk c f fs = true) : fltLt zeroF f = true :=
  (Bool.and_eq_true_iff.1 h).1

/-- A rate that INIT or SETRATE accepts for two positive crossovers (46_lifecycle_commands.md R222, R223). -/
theorem ratesInDomain_of_rateOk {c : Config} {fs lo hi : F64} (h : rateOk c fs lo hi = true) (hlo : fltLt zeroF lo = true)
    (hhi : fltLt zeroF hi = true) : ratesInDomain fs lo hi := by
  simp only [rateOk, Bool.and_eq_true] at h
  obtain ⟨⟨⟨⟨-, hpos⟩, hfin⟩, hbelowLo⟩, hbelowHi⟩ := h
  refine ⟨hpos, hfin, fun c' => ?_⟩
  rw [crossoverOk_config hpos hfin c' c, crossoverOk_config hpos hfin c' c]
  exact ⟨Bool.and_eq_true_iff.2 ⟨hlo, hbelowLo⟩, Bool.and_eq_true_iff.2 ⟨hhi, hbelowHi⟩⟩

theorem defaultCrossovers_pos : fltLt zeroF Config.xoLoDefault = true ∧ fltLt zeroF Config.xoHiDefault = true := by decide

theorem exec_keeps_ratesOk {i : Instr} {s t : State} (hs : ratesOk s) (h : exec i s = .next t) : ratesOk t := by
  cases exec_effect h with
  | init fs hrate =>
    obtain ⟨hlo, hhi⟩ := defaultCrossovers_pos
    exact fun _ => ratesInDomain_of_rateOk hrate hlo hhi
  | setrate fs hready hrate =>
    intro hdone
    obtain ⟨-, -, hxo⟩ := hs hdone
    obtain ⟨hlo, hhi⟩ := hxo Config.current
    exact ratesInDomain_of_rateOk hrate (crossoverOk_pos hlo) (crossoverOk_pos hhi)
  | xoLo a v hready hv =>
    intro hdone
    obtain ⟨hpos, hfin, hxo⟩ := hs hdone
    exact ⟨hpos, hfin, fun c => ⟨(crossoverOk_config hpos hfin c _ v).trans hv, (hxo c).2⟩⟩
  | xoHi a v hready hv =>
    intro hdone
    obtain ⟨hpos, hfin, hxo⟩ := hs hdone
    exact ⟨hpos, hfin, fun c => ⟨(hxo c).1, (crossoverOk_config hpos hfin c _ v).trans hv⟩⟩
  | _ => exact hs

/-! ## The filter pairs -/

/-- Two units have the same coefficients (42_crossover_filterbank.md R120). -/
def lanesPaired (u v : Filter) : Prop := u.a1 = v.a1 ∧ u.b1 = v.b1 ∧ u.a2 = v.a2 ∧ u.b2 = v.b2

/-- Six units derived for two crossovers: FREQ and b0 of each (10_state.md R28; 42_crossover_filterbank.md R121, R122), and the
coefficients of each pair (R120). -/
def bankDerived (lo hi : F64) (fl : Vector Filter 6) : Prop :=
  (∀ i : Fin 6, fl[i].freq = crossoverOf lo hi i ∧ fl[i].b0 = oneF) ∧
    ∀ i j : Fin 6, i.val / 2 = j.val / 2 → lanesPaired fl[i] fl[j]

theorem filtersOk_iff {s : State} : filtersOk s ↔ (s.initDone = true → bankDerived s.xoLo s.xoHi s.filters) := Iff.rfl

/-- The derived coefficients are a function of crossover and rate (42_crossover_filterbank.md R122). -/
theorem xoCoef_paired (c : Config) (f fs : F64) (u v : Filter) : lanesPaired (xoCoef c f fs u) (xoCoef c f fs v) :=
  ⟨rfl, rfl, rfl, rfl⟩

/-- The units of a pair are on the same side of the division between the crossovers (42_crossover_filterbank.md R121). -/
theorem pair_same_side {i j : Fin 6} (h : i.val / 2 = j.val / 2) : i.val ≤ 3 ↔ j.val ≤ 3 := by omega

theorem crossoverOf_pair (lo hi : F64) {i j : Fin 6} (h : i.val / 2 = j.val / 2) :
    crossoverOf lo hi i = crossoverOf lo hi j := by
  simp only [crossoverOf, pair_same_side h]

/-- What changes the recursive state only leaves a derived bank derived. -/
theorem bankDerived_of_sameCoefs {lo hi : F64} {f g : Vector Filter 6} (hg : bankDerived lo hi g) (h : sameCoefs f g) :
    bankDerived lo hi f := by
  obtain ⟨hunit, hpair⟩ := hg
  refine ⟨fun i => ?_, fun i j hij => ?_⟩
  · rw [h i]
    exact hunit i
  · rw [h i, h j]
    exact hpair i j hij

/-- INIT and SETRATE derive every unit (42_crossover_filterbank.md R124). -/
theorem deriveAll_bankDerived (c : Config) (s : State) : bankDerived s.xoLo s.xoHi (deriveAll c s).filters := by
  refine ⟨fun i => ?_, fun i j hij => ?_⟩
  · rw [deriveAll_filters, six_get]
    exact ⟨rfl, rfl⟩
  · rw [deriveAll_filters, six_get, six_get, crossoverOf_pair _ _ hij]
    exact xoCoef_paired _ _ _ _ _

/-- WRREG XO_LO derives the units of that crossover and keeps the others (42_crossover_filterbank.md R124). -/
theorem deriveLow_bankDerived (c : Config) {s : State} {lo : F64} (h : bankDerived lo s.xoHi s.filters) :
    bankDerived s.xoLo s.xoHi (deriveLow c s).filters := by
  obtain ⟨hunit, hpair⟩ := h
  refine ⟨fun i => ?_, fun i j hij => ?_⟩
  · rw [deriveLow_filters, six_get]
    specialize hunit i
    unfold crossoverOf at hunit ⊢
    split_ifs at hunit ⊢
    · exact ⟨rfl, rfl⟩
    · exact hunit
  · rw [deriveLow_filters, six_get, six_get]
    simp only [pair_same_side hij]
    split_ifs
    · exact xoCoef_paired _ _ _ _ _
    · exact hpair i j hij

/-- WRREG XO_HI likewise (42_crossover_filterbank.md R124). -/
theorem deriveHigh_bankDerived (c : Config) {s : State} {hi : F64} (h : bankDerived s.xoLo hi s.filters) :
    bankDerived s.xoLo s.xoHi (deriveHigh c s).filters := by
  obtain ⟨hunit, hpair⟩ := h
  refine ⟨fun i => ?_, fun i j hij => ?_⟩
  · rw [deriveHigh_filters, six_get]
    specialize hunit i
    unfold crossoverOf at hunit ⊢
    split_ifs at hunit ⊢
    · exact hunit
    · exact ⟨rfl, rfl⟩
  · rw [deriveHigh_filters, six_get, six_get]
    simp only [pair_same_side hij]
    split_ifs
    · exact hpair i j hij
    · exact xoCoef_paired _ _ _ _ _

theorem initState_bankDerived (c : Config) (fs : F64) (s : State) :
    bankDerived Config.xoLoDefault Config.xoHiDefault (initState c fs s).filters := by
  refine bankDerived_of_sameCoefs (deriveAll_bankDerived c (initParams c { s with
    lifecycle := .ready, fs := fs, xoLo := Config.xoLoDefault, xoHi := Config.xoHiDefault })) ?_
  unfold initState
  exact neutralState_coefs _

theorem exec_keeps_filtersOk {i : Instr} {s t : State} (hs : filtersOk s) (h : exec i s = .next t) : filtersOk t := by
  cases exec_effect h with
  | reset hready => exact fun hdone => bankDerived_of_sameCoefs (hs hdone) (neutralState_coefs s)
  | init fs hrate => exact fun _ => initState_bankDerived _ fs s
  | setrate fs hready hrate => exact fun _ => deriveAll_bankDerived _ _
  | xoLo a v hready hv => exact fun hdone => deriveLow_bankDerived _ (s := { s with xoLo := v }) (hs hdone)
  | xoHi a v hready hv => exact fun hdone => deriveHigh_bankDerived _ (s := { s with xoHi := v }) (hs hdone)
  | passes hready hfill hfl hks => exact fun hdone => bankDerived_of_sameCoefs (hs hdone) hfl
  | _ => exact hs

/-- Settles O59: INIT and SETRATE check the rate and derive every unit, WRREG of a crossover checks it and derives its own
units, and no other command touches a rate, a crossover or a coefficient. -/
theorem stepKeepsRatesAndCoefficients : Obligations.StepKeepsRatesAndCoefficients :=
  step_lift (fun s => ratesOk s ∧ filtersOk s) (fun _ _ _ hs => hs) (fun _ _ _ hs => hs)
    fun _ _ _ ⟨hr, hf⟩ h => ⟨exec_keeps_ratesOk hr h, exec_keeps_filtersOk hf h⟩

end Sys2Proof.Machine
end

section
/-! SUPPORT. The mid band of the simple topology (42_crossover_filterbank.md R130, R131). -/

namespace Sys2Proof.Machine

open Sys2Proof Host

/-- The three passes leave the bands of each sample at its position of the ring (44_process.md R176, R182). -/
theorem pipeline_cell {c : Config} {adv : Bool} {outR : BitVec 2} {ws : List (Word × Word)} {s t : State}
    (hlen : ws.length ≤ 32768) (h : pipeline c adv outR ws s = some t) {i : Nat} {v : Vector F64 6}
    (hv : (directSplit c adv ws (peakPass c ws s)).2[i]? = some v) (ch : Fin 6) :
    t.ringCell (BitVec.ofNat 3 ch.val) (s.wcur + BitVec.ofNat 15 i) = some v[ch] := by
  obtain ⟨u, hu, hring, -⟩ := pipeline_direct c adv outR ws s hlen
  obtain rfl : t = u := Option.some.inj (h.symm.trans hu)
  obtain ⟨-, -, hbands, hcells⟩ := splitPass_direct c adv ws (peakPass c ws s) hlen
  have hi : i < ws.length := hbands ▸ (List.getElem?_eq_some_iff.1 hv).1
  have hwcur : (peakPass c ws s).wcur = s.wcur := by
    obtain ⟨pk, e⟩ := peakPass_only c ws s
    rw [e]
  obtain ⟨hband, -, -⟩ := hcells i v ws[i] hv (List.getElem?_eq_getElem hi)
  rw [ringCell_congr hring, ← hwcur]
  exact hband ch

/-- BANK_SIMPLE gives a silent mid band, whatever the units hold (42_crossover_filterbank.md R130). -/
theorem bankSimple_mid (c : Config) (fl : Vector Filter 6) (xL xR : F64) :
    (bankSimple c fl xL xR).2[2] = zeroF ∧ (bankSimple c fl xL xR).2[3] = zeroF := ⟨rfl, rfl⟩

theorem directSplit_simple_mid (c : Config) (ws : List (Word × Word)) (s : State) :
    ∀ v ∈ (directSplit c false ws s).2, v[2] = zeroF ∧ v[3] = zeroF := by
  induction ws generalizing s with
  | nil => exact fun v hv => absurd hv List.not_mem_nil
  | cons w ws ih =>
    intro v hv
    rcases List.mem_cons.1 hv with rfl | hv
    · exact bankSimple_mid c _ _ _
    · exact ih _ v hv

/-- Settles O41: the ring holds the bands of the simple bank, and their mid band is silent. -/
theorem simpleTopologySilencesMidBand : Obligations.SimpleTopologySilencesMidBand := by
  intro in1 out1 n s t hready hn hmax hbypass hsimple h i hi
  obtain ⟨ls, rs, -, -, hlen, hp⟩ := process_full hready hn hmax hbypass h
  rw [hsimple] at hp
  have hblock : (ls.zip rs).length ≤ 32768 := by omega
  obtain ⟨-, -, hbands, -⟩ := splitPass_direct Config.current false (ls.zip rs)
    (peakPass Config.current (ls.zip rs) s) hblock
  have hv := List.getElem?_eq_getElem (hi.trans_eq (hbands.trans hlen).symm)
  obtain ⟨hleft, hright⟩ := directSplit_simple_mid _ _ _ _ (List.mem_of_getElem? hv)
  have hcell := pipeline_cell hblock hp hv
  exact ⟨(hcell 2).trans (congrArg some hleft), (hcell 3).trans (congrArg some hright)⟩

end Sys2Proof.Machine
end

section
/-! SUPPORT. A zeroed filter on a silent sample (42_crossover_filterbank.md R125, R126; log 17, 18). The zero of sign `s` is
written `round64 s 0 0`. -/

namespace Sys2Proof.Machine

open Sys2Proof

/-! ## Arithmetic on zeros -/

theorem round64_false_zero : round64 false 0 0 = 0#64 := rfl

/-- What compares equal to +0.0 is one of the two zeros (00_scope.md R14). -/
theorem eq_zero_of_fltEq {x : F64} (h : fltEq x zeroF = true) : ∃ s, x = round64 s 0 0 := by
  rw [fltEq_eq_valueEq, unpack64_zeroF] at h
  match hx : unpack64 x with
  | .nan => simp [hx, valueEq] at h
  | .inf s => simp [hx, valueEq] at h
  | .fin s m e =>
    have hzero : finValue s m e = finValue false 0 (-1074) := by simpa [hx, valueEq] using h
    obtain rfl : m = 0 := finValue_eq_zero_iff.1 (hzero.trans (finValue_eq_zero_iff.2 rfl))
    exact ⟨s, by rw [← round64_unpack64 hx, round64_zero]⟩

theorem fltEq_zero (s : Bool) : fltEq (round64 s 0 0) zeroF = true := by cases s <;> decide

/-- The sum of two zeros is −0.0 only if both are. -/
theorem fadd_zeros (c : Config) (s t : Bool) : fadd c (round64 s 0 0) (round64 t 0 0) = round64 (s && t) 0 0 := by
  rw [fadd_fin c (unpack64_round64_zero s) (unpack64_round64_zero t)]
  simp [addFinite]

theorem fsub_zeros (c : Config) (s t : Bool) : fsub c (round64 s 0 0) (round64 t 0 0) = round64 (s && !t) 0 0 := by
  rw [fsub_fin c (unpack64_round64_zero s) (unpack64_round64_zero t)]
  simp [addFinite]

theorem zero_fmul (c : Config) (s : Bool) {b : F64} {t : Bool} {n : Nat} {e : Int} (hb : unpack64 b = .fin t n e) :
    fmul c (round64 s 0 0) b = round64 (s ^^ t) 0 0 := by
  rw [fmul_fin c (unpack64_round64_zero s) hb, Nat.zero_mul, round64_zero]

theorem fmul_zero (c : Config) (s : Bool) {a : F64} {t : Bool} {n : Nat} {e : Int} (ha : unpack64 a = .fin t n e) :
    fmul c a (round64 s 0 0) = round64 (t ^^ s) 0 0 := by
  rw [fmul_fin c ha (unpack64_round64_zero s), Nat.mul_zero, round64_zero]

/-- A finite pattern with its sign bit clear. -/
theorem unpack64_fin_of_nonneg {x : F64} (h : isFinite64 x = true) (hsign : x.getLsbD 63 = false) :
    ∃ m e, unpack64 x = .fin false m e := by
  obtain ⟨s, m, e, hx⟩ := unpack64_of_isFinite64 h
  obtain ⟨hneg, -⟩ := fpUnpack_fin hx
  exact ⟨m, e, by rw [hx, ← hneg, ← hsign]; rfl⟩

/-! ## XO_TICK -/

/-- Settles O47: every product is a zero, A1 × (+0.0) is +0.0 because A1 is not negative, and a sum with +0.0 in it is +0.0;
only the high output may take the sign of the sample. -/
theorem silenceKeepsFilterAtZero : Obligations.SilenceKeepsFilterAtZero := by
  intro c u x hw1 hw2 hx ha1 ha2 hb1 hb2 hsign
  obtain ⟨s, rfl⟩ := eq_zero_of_fltEq hx
  obtain ⟨_, _, ha1⟩ := unpack64_fin_of_nonneg ha1 hsign
  obtain ⟨_, _, _, ha2⟩ := unpack64_of_isFinite64 ha2
  obtain ⟨_, _, _, hb1⟩ := unpack64_of_isFinite64 hb1
  obtain ⟨_, _, _, hb2⟩ := unpack64_of_isFinite64 hb2
  have htwo : unpack64 twoF = .fin false (2 ^ 52) (-51) := by decide
  rw [← round64_false_zero] at hw1 hw2 ⊢
  have hp : fsub c (round64 s 0 0) u.w2 = round64 s 0 0 := by
    rw [hw2, fsub_zeros, Bool.not_false, Bool.and_true]
  have hit : fadd c (fmul c u.w1 u.a1) (fmul c (round64 s 0 0) u.a2) = round64 false 0 0 := by
    rw [hw1, zero_fmul c _ ha1, zero_fmul c _ ha2, fadd_zeros, Bool.xor_false, Bool.false_and]
  have hlp : fadd c (fadd c (fmul c u.w1 u.a2) u.w2) (fmul c (round64 s 0 0) u.b2) = round64 false 0 0 := by
    rw [hw1, hw2, zero_fmul c _ ha2, zero_fmul c _ hb2, fadd_zeros, fadd_zeros, Bool.and_false, Bool.false_and]
  have hstate : fsub c (fmul c twoF (round64 false 0 0)) (round64 false 0 0) = round64 false 0 0 := by
    rw [fmul_zero c _ htwo, fsub_zeros, Bool.xor_false, Bool.false_and]
  simp only [xoTick, hp, hit, hlp, true_and]
  refine ⟨?_, ?_, ?_⟩
  · rw [hw1, hstate]
  · rw [hw2, hstate]
  · rw [fmul_zero c _ hb1, fsub_zeros, fsub_zeros]
    exact fltEq_zero _

end Sys2Proof.Machine
end

section
/-! SUPPORT. Values that are not negative (00_scope.md R11, R14), and the selector that SETP 3 leaves (43_compressor.md R146,
R154; 45_parameter_commands.md R202 to R204; log 11): a ratio is computed from a parameter value in [0, 1] by steps that give
nothing negative, and a mode threshold is negative. -/

namespace Sys2Proof.Machine

open Sys2Proof Host

/-! ## Signs -/

/-- A value that is not below zero: a NaN, +∞, or a number that is not negative. -/
def valueNotNeg : FpValue → Prop
  | .nan => True
  | .inf s => s = false
  | .fin s m e => 0 ≤ finValue s m e

theorem valueNotNeg_iff (v : FpValue) : valueNotNeg v ↔ valueLt v (.fin false 0 (-1074)) = false := by
  have hzero : finValue false 0 (-1074) = 0 := finValue_eq_zero_iff.2 rfl
  cases v <;> simp [valueLt, valueNotNeg, hzero]

theorem not_fltLt_zeroF_iff {x : F64} : fltLt x zeroF = false ↔ valueNotNeg (unpack64 x) := by
  rw [fltLt_eq_valueLt, unpack64_zeroF, valueNotNeg_iff]

theorem valueNotNeg_nan64 (c : Config) (op : FpOp) (a b : F64) : valueNotNeg (unpack64 (c.nan64 op a b)) := by
  rw [isNaN64_iff.1 (isNaN64_nan64 c op a b)]
  trivial

theorem valueNotNeg_inf64 : valueNotNeg (unpack64 (inf64 false)) := by
  rw [unpack64_inf64]
  rfl

theorem finValue_false_nonneg (m : Nat) (e : Int) : 0 ≤ finValue false m e :=
  not_lt.1 fun h => Bool.false_ne_true (finValue_neg_iff.1 h).1

/-- A number that is not negative is not rounded to a negative one, to which zero would be nearer; the sign of an exact zero
does not matter. -/
theorem valueNotNeg_of_roundsTo64 {x : ℚ} {neg : Bool} {r : F64} (h : roundsTo64 x neg r) (hx : 0 ≤ x)
    (hneg : neg = true → x = 0) : valueNotNeg (unpack64 r) := by
  unfold roundsTo64 at h
  match hr : unpack64 r with
  | .nan => trivial
  | .inf s =>
    rw [hr] at h
    obtain ⟨rfl, hbound⟩ := h
    have hpos : (0 : ℝ) < (2 ^ 54 - 1) * 2 ^ 970 := mul_pos (by norm_num) (by positivity)
    refine Bool.eq_false_iff.2 fun hs => ?_
    rw [hneg hs, Rat.cast_zero, abs_zero] at hbound
    exact absurd hbound hpos.not_ge
  | .fin s m e =>
    rw [hr] at h
    obtain ⟨-, -, hnear⟩ := h
    obtain ⟨hle, -⟩ := hnear false 0 (-1074) ⟨zeroF, unpack64_zeroF⟩
    rw [finValue_eq_zero_iff.2 rfl, Rat.cast_zero, zero_sub, abs_neg,
      abs_of_nonneg (a := (x : ℝ)) (Rat.cast_nonneg.2 hx)] at hle
    have hnonneg : (0 : ℝ) ≤ finValue s m e := by linarith [neg_abs_le ((finValue s m e : ℝ) - x)]
    exact Rat.cast_nonneg.1 hnonneg

/-! ## Sums and products -/

/-- The sign of an exact sum is negative only for a zero, where the sum is not negative (00_scope.md R11). -/
theorem eq_zero_of_sumSign {x : ℚ} {z : Bool} (hx : 0 ≤ x) (h : (if x = 0 then z else decide (x < 0)) = true) : x = 0 := by
  by_contra hne
  rw [if_neg hne, decide_eq_true_iff] at h
  exact absurd hx h.not_ge

section
variable {a b : F64} {t : Bool} {n : Nat} {e : Int}

theorem fadd_not_neg (c : Config) (ha : fltLt a zeroF = false) (hb : unpack64 b = .fin false n e) :
    fltLt (fadd c a b) zeroF = false := by
  rw [not_fltLt_zeroF_iff] at ha ⊢
  match hu : unpack64 a with
  | .nan =>
    rw [fadd, hu]
    exact valueNotNeg_nan64 c .add a b
  | .inf s =>
    obtain rfl : s = false := by rwa [hu] at ha
    rw [fadd, hu, hb]
    exact valueNotNeg_inf64
  | .fin s m d =>
    rw [hu] at ha
    have hsum := add_nonneg ha (finValue_false_nonneg n e)
    exact valueNotNeg_of_roundsTo64 (fadd_roundsTo c hu hb) hsum (eq_zero_of_sumSign hsum)

/-- What is above a finite value is not below it after the value is subtracted. -/
theorem fsub_not_neg (c : Config) (h : fltLt b a = true) (hb : unpack64 b = .fin t n e) :
    fltLt (fsub c a b) zeroF = false := by
  rw [fltLt_eq_valueLt, hb] at h
  rw [not_fltLt_zeroF_iff]
  match hu : unpack64 a with
  | .nan => simp [hu, valueLt] at h
  | .inf s =>
    obtain rfl : s = false := by simpa [hu, valueLt] using h
    rw [fsub, hu, hb]
    exact valueNotNeg_inf64
  | .fin s m d =>
    have hlt : finValue t n e < finValue s m d := by simpa [hu, valueLt] using h
    have hdiff := sub_nonneg.2 hlt.le
    exact valueNotNeg_of_roundsTo64 (fsub_roundsTo c hu hb) hdiff (eq_zero_of_sumSign hdiff)

theorem fmul_not_neg (c : Config) (ha : fltLt a zeroF = false) (hb : unpack64 b = .fin false n e) :
    fltLt (fmul c a b) zeroF = false := by
  rw [not_fltLt_zeroF_iff] at ha ⊢
  match hu : unpack64 a with
  | .nan =>
    rw [fmul, hu]
    exact valueNotNeg_nan64 c .mul a b
  | .inf s =>
    obtain rfl : s = false := by rwa [hu] at ha
    rw [fmul, hu, hb]
    dsimp only
    split_ifs
    · exact valueNotNeg_nan64 c .mul a b
    · exact valueNotNeg_inf64
  | .fin s m d =>
    rw [hu] at ha
    refine valueNotNeg_of_roundsTo64 (fmul_roundsTo c hu hb) (mul_nonneg ha (finValue_false_nonneg n e)) fun hs => ?_
    obtain rfl : s = true := by simpa using hs
    have hm : finValue true m d = 0 := finValue_eq_zero_iff.2 (by simpa using mt finValue_neg_iff.2 (not_lt.2 ha))
    rw [hm, zero_mul]

end

/-! ## The ratio of a parameter -/

/-- Widening keeps a value on its side of zero (00_scope.md R12). -/
theorem widen_not_neg (c : Config) {v : F32} (h : fltLt32 v 0x00000000#32 = false) : fltLt (widen c v) zeroF = false := by
  have hzero : unpack32 0x00000000#32 = .fin false 0 (-149) := by decide
  rw [not_fltLt_zeroF_iff]
  rw [fltLt32_eq_valueLt, hzero] at h
  match hu : unpack32 v with
  | .nan =>
    rw [isNaN64_iff.1 (isNaN64_widen c hu)]
    trivial
  | .inf s =>
    obtain rfl : s = false := by simpa [hu, valueLt] using h
    rw [widen_inf c hu]
    rfl
  | .fin s m e =>
    obtain ⟨m', e', hw, hval⟩ := widen_fin c hu
    rw [hw, valueNotNeg, hval]
    simpa [hu, valueLt, finValue_eq_zero_iff.2] using h

theorem ratioOf_eq (c : Config) (v : F32) : ratioOf c v =
    if fltLt halfF (widen c v) then fadd c (fmul c (fsub c (widen c v) halfF) sixteenF) oneF else fmul c (widen c v) twoF := rfl

/-- The ratio of a parameter that is not negative is not negative (45_parameter_commands.md R203). -/
theorem ratioOf_not_neg (c : Config) {v : F32} (h : fltLt32 v 0x00000000#32 = false) : fltLt (ratioOf c v) zeroF = false := by
  have hhalf : unpack64 halfF = .fin false (2 ^ 52) (-53) := by decide
  have htwo : unpack64 twoF = .fin false (2 ^ 52) (-51) := by decide
  have hsixteen : unpack64 sixteenF = .fin false (2 ^ 52) (-48) := by decide
  rw [ratioOf_eq]
  split_ifs with hbig
  · exact fadd_not_neg c (fmul_not_neg c (fsub_not_neg c hbig hhalf) hsixteen) unpack64_oneF
  · exact fmul_not_neg c (widen_not_neg c h) htwo

theorem paramInUnit_not_neg {v : F32} (h : paramInUnit v = true) : fltLt32 v 0x00000000#32 = false := by
  simp only [paramInUnit, Bool.and_eq_true, Bool.not_eq_true'] at h
  obtain ⟨⟨-, hneg⟩, -⟩ := h
  exact hneg

/-! ## The selector -/

/-- A value that is not above another lies below what the other lies below. -/
theorem fltLt_of_fltLe_of_fltLt {x y z : F64} (hxy : fltLe x y = true) (hyz : fltLt y z = true) : fltLt x z = true := by
  simp only [fltLe, fltLt, Bool.and_eq_true, decide_eq_true_eq] at hxy hyz ⊢
  obtain ⟨⟨hx, -⟩, hle⟩ := hxy
  obtain ⟨⟨-, hz⟩, hlt⟩ := hyz
  exact ⟨⟨hx, hz⟩, by omega⟩

/-- Either comparison takes the primary path only from the threshold down. -/
theorem fltLe_of_selectPrimary {c : Config} {x : F64} (h : selectPrimary c x = true) : fltLe x c.modeThr = true := by
  unfold selectPrimary at h
  cases hcmp : c.modeCmp with
  | lt =>
    have hlt : fltLt x c.modeThr = true := by rwa [hcmp] at h
    rw [fltLe_eq_or, hlt, Bool.true_or]
  | le => rwa [hcmp] at h

/-- The mode threshold is negative, whatever its row (43_compressor.md R146; log 11). -/
theorem modeThr_neg (c : Config) : fltLt c.modeThr zeroF = true :=
  acceptOr_ok (ok := fun v => fltLt v zeroF) (by decide) _

theorem selectPrimary_of_not_neg (c : Config) {x : F64} (h : fltLt x zeroF = false) : selectPrimary c x = false :=
  Bool.eq_false_iff.2 fun hsel => Bool.eq_false_iff.1 h (fltLt_of_fltLe_of_fltLt (fltLe_of_selectPrimary hsel) (modeThr_neg c))

/-- Settles O48: SETP 3 leaves the ratio of a value in [0, 1], which is not negative; a NaN is below nothing. -/
theorem parametersNeverSelectPrimary : Obligations.ParametersNeverSelectPrimary := by
  refine ⟨fun v s t h c b => ?_, fun c x hnan => selectPrimary_of_not_neg c (flt_of_nan (.inl hnan)).1⟩
  obtain rfl : setParam Config.current 3#8 v s = t := Outcome.next.inj h
  rw [setParam_comps_get]
  exact selectPrimary_of_not_neg c (ratioOf_not_neg _ (paramInUnit_not_neg (paramInUnit_clamp01 v)))

end Sys2Proof.Machine
end

section
/-! SUPPORT. A compressor step over REF_PATH (43_compressor.md R144, R145, R149, R153; log 24): the clamp of the gain, and the
gain at ratio 1. -/

namespace Sys2Proof.Machine

open Sys2Proof

/-! ## The clamp and the path -/

/-- A clamp gives a NaN or a value within its bounds (00_scope.md R14). -/
theorem clampf_in_range {lo hi : F64} (h : fltLe lo hi = true) (x : F64) :
    isNaN64 (clampf x lo hi) = true ∨ (fltLe lo (clampf x lo hi) = true ∧ fltLe (clampf x lo hi) hi = true) := by
  have hnum := h
  simp only [fltLe, Bool.and_eq_true, Bool.not_eq_true'] at hnum
  obtain ⟨⟨hlo, hhi⟩, -⟩ := hnum
  unfold clampf
  split_ifs with hbelow habove
  · exact .inr ⟨by simp [fltLe, hlo], h⟩
  · exact .inr ⟨h, by simp [fltLe, hhi]⟩
  · cases hx : isNaN64 x with
    | true => exact .inl rfl
    | false =>
      rw [fltLt_iff_not_fltLe hx hlo, Bool.not_eq_false] at hbelow
      rw [fltLt_iff_not_fltLe hhi hx, Bool.not_eq_false] at habove
      exact .inr ⟨hbelow, habove⟩

theorem gainFloor_default {c : Config} (h : c.rows.gainFloor = none) : c.gainFloor = 0x3F847AE147AE147B#64 := by
  rw [Config.gainFloor, h, Option.getD_none]

theorem log2db_default {c : Config} (h : c.rows.log2db = none) : c.log2db = 0x40215F2CED384F29#64 := by
  rw [Config.log2db, h, Option.getD_none]

/-- RED is GR (43_compressor.md R144). -/
theorem compNext_red (c : Config) (b : Fin 3) (p : F64) (k : Comp) : (compNext c b p k).red = (compNext c b p k).gr := rfl

/-- Where both path rows are left alone, the gain is REF_PATH's at the new envelope, whatever the selector
(43_compressor.md R144, R147). -/
theorem compNext_gr {c : Config} (hprimary : c.rows.pathPrimary = none) (halt : c.rows.pathAlt = none) (b : Fin 3) (p : F64)
    (k : Comp) : (compNext c b p k).gr = refGain c (pathRegs k) (compNext c b p k).env := by
  simp only [compNext, primaryPath, altPath, hprimary, halt, ite_self, refPath]

/-- Settles O49: the gain of REF_PATH is clamped last. -/
theorem gainStaysInRangeOrNaN : Obligations.GainStaysInRangeOrNaN := by
  intro c b p k hprimary halt hfloor
  refine ⟨compNext_red c b p k, ?_, rfl, rfl⟩
  rw [compNext_gr hprimary halt, refGain, gainFloor_default hfloor]
  exact clampf_in_range (by decide) _

/-! ## Ratio 1 -/

/-- Two ratios of 1 give a ratio of 1 on both sides of the threshold (43_compressor.md R148). -/
theorem refRatio_oneF {k : Config.PathRegs} (hupr : k.upr = oneF) (hsel : k.sel = oneF) (env : F64) :
    refRatio k env = oneF := by
  rw [refRatio, hupr, hsel]
  split_ifs <;> decide

theorem fdiv_oneF_oneF (c : Config) : fdiv c oneF oneF = oneF := by
  rw [fdiv_fin c unpack64_oneF unpack64_oneF, if_neg (by decide)]
  decide

/-- A gain of zero decibels is a zero exponent of the same sign (43_compressor.md R149). -/
theorem fdiv_zero_log2db {c : Config} (h : c.rows.log2db = none) (s : Bool) :
    fdiv c (round64 s 0 0) c.log2db = round64 s 0 0 := by
  have hlog : unpack64 0x40215F2CED384F29#64 = .fin false 0x115F2CED384F29 (-49) := by decide
  rw [log2db_default h, fdiv_fin c (unpack64_round64_zero s) hlog, if_neg (by decide)]
  cases s <;> decide

/-- The smoothed value at its target stays there, as a smoother does (40_parameter_smoother.md R104; 43_compressor.md R142). -/
theorem slew_self (c : Config) {x coef : F64} {s t : Bool} {m n : Nat} {d e : Int} (hx : unpack64 x = .fin s m d)
    (hneg : x ≠ 0x8000000000000000#64) (hcoef : unpack64 coef = .fin t n e) : slew c x x coef = x :=
  smoothValue_self c hx hneg hcoef

/-- At ratio 1 the gain in decibels is a zero of either sign, the target 1.0, and a gain of 1.0 is already there
(43_compressor.md R149). -/
theorem refGain_oneF {c : Config} (hlog : c.rows.log2db = none) (hfloor : c.rows.gainFloor = none)
    (hexp : ∀ s, c.exp (round64 s 0 0) = oneF) {k : Config.PathRegs} {env : F64} (hupr : k.upr = oneF) (hsel : k.sel = oneF)
    (hgr : k.gr = oneF) (hdist : isFinite64 (fsub c k.thr env) = true) (hatt : isFinite64 k.cAtt = true)
    (hrel : isFinite64 k.cRel = true) : refGain c k env = oneF := by
  obtain ⟨s, _, _, hdist⟩ := unpack64_of_isFinite64 hdist
  have hslope : fsub c oneF (fdiv c oneF (refRatio k env)) = round64 false 0 0 := by
    rw [refRatio_oneF hupr hsel, fdiv_oneF_oneF, fsub_self c unpack64_oneF]
    rfl
  have hclamp : clampf oneF c.gainFloor Config.maxRatio = oneF := by
    rw [gainFloor_default hfloor]
    decide
  have hcoef : isFinite64 (if fltLt oneF oneF then k.cRel else k.cAtt) = true := by
    split_ifs
    · exact hrel
    · exact hatt
  obtain ⟨_, _, _, hcoef⟩ := unpack64_of_isFinite64 hcoef
  rw [refGain, hslope, fmul_zero c false hdist, fdiv_zero_log2db hlog, hexp, hclamp, hgr,
    slew_self c unpack64_oneF (by decide) hcoef, hclamp]

/-- Settles O50: REF_PATH leaves unity gain alone, and the default rows make every step one of REF_PATH. -/
theorem ratioOneIsTransparent : Obligations.RatioOneIsTransparent := by
  intro c hlog hfloor hpos hneg
  have hexp : ∀ s, c.exp (round64 s 0 0) = oneF
    | false => hpos
    | true => hneg
  refine ⟨fun k env => refGain_oneF hlog hfloor hexp, fun b p k hprimary halt hupr hsel hgr hdist hatt hrel => ?_⟩
  rw [compNext_red, compNext_gr hprimary halt, and_self]
  exact refGain_oneF hlog hfloor hexp hupr hsel hgr hdist hatt hrel

end Sys2Proof.Machine
end

section
/-! SUPPORT. What a PROCESS does, said once: the checks in their order (44_process.md R171), the bypass (R173), and the passes
as the pipeline without a ring beside the ring the split leaves (R170, R182). -/

namespace Sys2Proof.Machine

open Sys2Proof Host

/-! ## The passes -/

/-- The pipeline without a ring: each sample's bands go straight from the split to the compressors, with g and go the smoother
values after the whole split (44_process.md R178, R182). -/
def ringFree (c : Config) (adv : Bool) (outR : BitVec 2) (ws : List (Word × Word)) (s : State) : State :=
  let r := directSplit c adv ws (peakPass c ws s)
  directRemix c r.1.sv[c.gCmpSrc] r.1.sv[c.gOutSrc] outR r.2 0 r.1

/-- The state after the three passes: what the pipeline without a ring leaves, the ring of the split pass, and both cursors past
the block (44_process.md R176, R177, R182). -/
def afterPasses (c : Config) (adv : Bool) (outR : BitVec 2) (ws : List (Word × Word)) (s : State) : State :=
  { ringFree c adv outR ws s with
    ring := (splitPass c adv ws (peakPass c ws s)).ring
    wcur := s.wcur + BitVec.ofNat 15 ws.length
    rcur := s.wcur + BitVec.ofNat 15 ws.length }

theorem pipeline_eq_afterPasses (c : Config) (adv : Bool) (outR : BitVec 2) {ws : List (Word × Word)} (s : State)
    (hlen : ws.length ≤ 32768) : pipeline c adv outR ws s = some (afterPasses c adv outR ws s) := by
  obtain ⟨t, hp, hring, ht⟩ := pipeline_direct c adv outR ws s hlen
  rw [hp, ht, hring]
  rfl

/-! ## The outcome of a command -/

/-- A PROCESS that its checks let through (44_process.md R171). -/
def processAccepted (in0 out0 : Bool) (n : Int) (s : State) : Prop :=
  in0 = true ∧ out0 = true ∧ s.lifecycle = .ready ∧ 1 ≤ n ∧ n ≤ 32768

theorem processAccepted.toNat_le {in0 out0 : Bool} {n : Int} {s : State} (h : processAccepted in0 out0 n s) :
    n.toNat ≤ 32768 := by
  obtain ⟨-, -, -, -, hmax⟩ := h
  exact Int.toNat_le.2 hmax

/-- What a PROCESS that completes on `s` leaves, by the check that ends it or the part that it runs (44_process.md R170,
R171, R173). -/
inductive ProcessOutcome (in0 in1 out0 out1 : Bool) (n : Int) (s : State) : State → Prop where
  /-- The silent cases: a left channel is absent, or there is no sample. -/
  | silent (h : in0 = false ∨ out0 = false ∨ n ≤ 0) : ProcessOutcome in0 in1 out0 out1 n s s
  /-- ERR_UNINIT. -/
  | uninit (hin : in0 = true) (hout : out0 = true) (hn : 0 < n) (hstate : s.lifecycle = .uninit) :
      ProcessOutcome in0 in1 out0 out1 n s (raiseError .uninit 0xC0#8 s)
  /-- ERR_BLOCK. -/
  | block (hin : in0 = true) (hout : out0 = true) (hn : 32768 < n) (hstate : s.lifecycle = .ready) :
      ProcessOutcome in0 in1 out0 out1 n s (raiseError .block 0xC0#8 s)
  /-- The bypass. -/
  | bypass {t : State} (haccepted : processAccepted in0 out0 n s) (hbypass : boolParam Config.current s.params[19] = true)
      (h : bypassBlock in1 out1 n.toNat s = .next t) : ProcessOutcome in0 in1 out0 out1 n s t
  /-- The three passes over the words of the block. -/
  | passes {ls rs : List Word} (haccepted : processAccepted in0 out0 n s)
      (hbypass : boolParam Config.current s.params[19] = false) (hleft : readBlock s 0#2 n.toNat 0 = some ls)
      (hright : readBlock s (rightIn in1) n.toNat 0 = some rs) :
      ProcessOutcome in0 in1 out0 out1 n s
        (afterPasses Config.current (boolParam Config.current s.params[4]) (rightOut out1) (ls.zip rs) s)

theorem length_zip_readBlock {s : State} {b b' : BitVec 2} {n : Nat} {ls rs : List Word} (hl : readBlock s b n 0 = some ls)
    (hr : readBlock s b' n 0 = some rs) : (ls.zip rs).length = n := by
  rw [List.length_zip, readBlock_length hl, readBlock_length hr, Nat.min_self]

theorem processBlock_next_iff {c : Config} {in1 out1 : Bool} {n : Nat} {s t : State} (hn : n ≤ 32768) :
    processBlock c in1 out1 n s = .next t ↔ ∃ ls rs,
      readBlock s 0#2 n 0 = some ls ∧ readBlock s (rightIn in1) n 0 = some rs ∧
      t = afterPasses c (boolParam c s.params[4]) (rightOut out1) (ls.zip rs) s := by
  unfold processBlock
  match hl : readBlock s 0#2 n 0, hr : readBlock s (rightIn in1) n 0 with
  | some ls, some rs =>
    simp [pipeline_eq_afterPasses c _ _ s ((length_zip_readBlock hl hr).trans_le hn), eq_comm]
  | none, _ => simp
  | some _, none => simp

theorem ready_of_not_uninit {s : State} (h : ¬ s.lifecycle = .uninit) : s.lifecycle = .ready := by
  match hl : s.lifecycle with
  | .uninit => exact absurd hl h
  | .ready => rfl

theorem silent_iff {in0 out0 : Bool} {n : Int} :
    (!in0 || !out0 || decide (n ≤ 0)) = true ↔ in0 = false ∨ out0 = false ∨ n ≤ 0 := by
  simp [or_assoc]

/-- Past the checks the bypass parameter decides (44_process.md R171, R173). -/
theorem execProcess_of_accepted {in0 out0 : Bool} {n : Int} {s : State} (h : processAccepted in0 out0 n s) (in1 out1 : Bool) :
    execProcess in0 in1 out0 out1 n s = if boolParam Config.current s.params[19] then bypassBlock in1 out1 n.toNat s
      else processBlock Config.current in1 out1 n.toNat s := by
  obtain ⟨hin, hout, hstate, hn, hmax⟩ := h
  have hpos : 0 < n := hn
  rw [execProcess, if_neg (by simpa [hin, hout] using hpos), if_neg (by simp [hstate]),
    if_neg (not_lt.2 hmax : ¬ Config.maxBlock < n)]

theorem processOutcome_of_execProcess {in0 in1 out0 out1 : Bool} {n : Int} {s t : State}
    (h : execProcess in0 in1 out0 out1 n s = .next t) : ProcessOutcome in0 in1 out0 out1 n s t := by
  unfold execProcess at h
  split_ifs at h with hsilent huninit hblock hbypass
  · rw [← Outcome.next.inj h]
    exact .silent (silent_iff.1 hsilent)
  all_goals
    rw [silent_iff] at hsilent
    push Not at hsilent
    obtain ⟨hin, hout, hn⟩ := hsilent
    rw [Bool.ne_false_iff] at hin hout
  · rw [← Outcome.next.inj h]
    exact .uninit hin hout hn huninit
  · rw [← Outcome.next.inj h]
    exact .block hin hout hblock (ready_of_not_uninit huninit)
  all_goals
    have haccepted : processAccepted in0 out0 n s := ⟨hin, hout, ready_of_not_uninit huninit, hn, not_lt.1 hblock⟩
  · exact .bypass haccepted hbypass h
  · obtain ⟨ls, rs, hl, hr, rfl⟩ := (processBlock_next_iff haccepted.toNat_le).1 h
    exact .passes haccepted (Bool.eq_false_iff.2 hbypass) hl hr

theorem execProcess_of_processOutcome {in0 in1 out0 out1 : Bool} {n : Int} {s t : State}
    (h : ProcessOutcome in0 in1 out0 out1 n s t) : execProcess in0 in1 out0 out1 n s = .next t := by
  cases h with
  | silent h => rw [execProcess, if_pos (silent_iff.2 h)]
  | uninit hin hout hn hstate => rw [execProcess, if_neg (by simpa [hin, hout] using hn), if_pos hstate]
  | block hin hout hn hstate =>
    have hpos : 0 < n := by omega
    rw [execProcess, if_neg (by simpa [hin, hout] using hpos), if_neg (by simp [hstate]),
      if_pos (show Config.maxBlock < n from hn)]
  | bypass haccepted hbypass h => rw [execProcess_of_accepted haccepted, if_pos hbypass, h]
  | passes haccepted hbypass hleft hright =>
    rw [execProcess_of_accepted haccepted, hbypass]
    exact (processBlock_next_iff haccepted.toNat_le).2 ⟨_, _, hleft, hright, rfl⟩

/-- The outcomes are exactly what PROCESS answers. -/
theorem exec_process_iff {in0 in1 out0 out1 : Bool} {n : Int} {s t : State} :
    exec (.process in0 in1 out0 out1 n) s = .next t ↔ ProcessOutcome in0 in1 out0 out1 n s t :=
  ⟨processOutcome_of_execProcess, execProcess_of_processOutcome⟩

end Sys2Proof.Machine
end

section
/-! SUPPORT. The checks of PROCESS (44_process.md R171) and its bypass (R173). -/

namespace Sys2Proof.Machine

open Sys2Proof Host

/-! ## The checks -/

/-- A PROCESS word with a reserved bit that is not zero is refused (30_encoding.md R84, R87). -/
theorem decode_process_reserved {w : Word} (hop : opField w = 0xC0#8)
    (hres : w.extractLsb' 12 4 ≠ 0#4 ∨ w.extractLsb' 16 16 ≠ 0#16) (w1 w2 : Word) :
    decode w w1 w2 = .error .reservedField := by
  have hx : (xField w).extractLsb' 4 4 = w.extractLsb' 12 4 := by
    ext k hk
    simp [xField, show 4 + k < 8 by omega, ← Nat.add_assoc]
  have hzero : ((xField w).extractLsb' 4 4 == 0#4 && yField w == 0#16) = false := by
    rw [hx, yField]
    simpa [Classical.or_iff_not_imp_left] using hres
  simp [decode, hop, hzero, checkReserved]

theorem isFormatL_process {w : Word} (hop : opField w = 0xC0#8) : isFormatL w = true := by
  rw [← commandWord_fields w, isFormatL_commandWord, hop]
  rfl

theorem fetchCommand_process {w : Word} (hop : opField w = 0xC0#8) (w1 w2 : Word) (rest : List Word) :
    fetchCommand (w :: w1 :: w2 :: rest) = .command w w1 w2 rest := by
  rw [fetchCommand, if_pos (isFormatL_process hop)]

/-- An error that leaves STATUS and LAST_ERR as they were leaves everything (60_exceptions.md R264). -/
theorem raiseError_eq_self {e : ErrorCode} {op : BitVec 8} {s : State} (hstatus : (raiseError e op s).status = s.status)
    (hlast : (raiseError e op s).lastErr = s.lastErr) : raiseError e op s = s :=
  calc raiseError e op s
    _ = { s with status := (raiseError e op s).status, lastErr := (raiseError e op s).lastErr } := rfl
    _ = s := by rw [hstatus, hlast]

/-- Settles O35: the outcomes of PROCESS list its checks, and a word with a reserved bit is not PROCESS at all. -/
theorem processChecksInOrder : Obligations.ProcessChecksInOrder := by
  refine ⟨fun s w w1 w2 rest hu hs hop hres => ?_, fun in0 in1 out0 out1 n s =>
    ⟨fun h => exec_process_iff.2 (.silent h), fun hin hout hn hstate => exec_process_iff.2 (.uninit hin hout hn hstate),
      fun hin hout hn hstate => exec_process_iff.2 (.block hin hout hn hstate), fun t h hne hstatus hlast => ?_⟩⟩
  · change opField w = 0xC0#8 at hop
    rw [step_of_illegal hu (hs ▸ fetchCommand_process hop w1 w2 rest) (decode_process_reserved hop hres w1 w2),
      illegalCommand, hop, commandLength, if_pos (isFormatL_process hop)]
    rfl
  · cases exec_process_iff.1 h with
    | silent => exact absurd rfl hne
    | uninit => exact absurd (raiseError_eq_self hstatus hlast) hne
    | block => exact absurd (raiseError_eq_self hstatus hlast) hne
    | bypass haccepted => exact haccepted
    | passes haccepted => exact haccepted

/-! ## The bypass -/

theorem toNat_ofNat15_lt {i n : Nat} (h : i < n) : (BitVec.ofNat 15 i).toNat < n := by
  rw [BitVec.toNat_ofNat]
  exact (Nat.mod_le i _).trans_lt h

/-- What stands in the I/O memory after a block read from buffer `b` was written to buffer `d`. -/
theorem ioWord_writeBlock_of_readBlock {s : State} {b : BitVec 2} {n : Nat} {vs : List Word} (hn : n ≤ 32768)
    (h : readBlock s b n 0 = some vs) (d : BitVec 2) (u : State) (a : BitVec 2) (k : BitVec 15) :
    (writeBlock d vs 0 u).ioWord a k = if a = d ∧ k.toNat < n then s.ioWord b k else u.ioWord a k := by
  have hlen := readBlock_length h
  rw [writeBlock_io _ _ _ _ (by omega), hlen, Nat.zero_add, Nat.sub_zero]
  refine ite_congr (by simp) (fun hk => ?_) fun _ => rfl
  obtain ⟨-, hk⟩ := hk
  rw [← (readBlock_some h k.toNat hk).1, Nat.zero_add, BitVec.ofNat_toNat, BitVec.setWidth_eq]

/-- What stands in the I/O memory after a bypass: the right input words in OUT1 when it is present, the left ones in OUT0, and
every other word as before (44_process.md R173). -/
theorem bypassBlock_ioWord {in1 out1 : Bool} {n : Nat} {s t : State} (hn : n ≤ 32768) (h : bypassBlock in1 out1 n s = .next t)
    (b : BitVec 2) (k : BitVec 15) :
    t.ioWord b k = if out1 = true ∧ b = 3#2 ∧ k.toNat < n then s.ioWord (rightIn in1) k
      else if b = 2#2 ∧ k.toNat < n then s.ioWord 0#2 k else s.ioWord b k := by
  obtain ⟨ls, hl, ⟨rfl, rfl⟩ | ⟨rfl, rs, hr, rfl⟩⟩ := bypassBlock_next h
  · simp [ioWord_writeBlock_of_readBlock hn hl]
  · simp [ioWord_writeBlock_of_readBlock hn hl, ioWord_writeBlock_of_readBlock hn hr]

theorem exists_readBlock {s : State} {b : BitVec 2} {n : Nat} (h : inputsWritten s b n) : ∃ vs, readBlock s b n 0 = some vs :=
  ⟨_, readBlock_of_written fun j hj => (Nat.zero_add j).symm ▸ h j hj⟩

/-- A bypass completes once the words that it copies are written. -/
theorem bypassBlock_completes {in1 out1 : Bool} {n : Nat} {s : State} (hl : inputsWritten s 0#2 n)
    (hr : out1 = true → inputsWritten s (rightIn in1) n) : ∃ t, bypassBlock in1 out1 n s = .next t := by
  obtain ⟨ls, hl⟩ := exists_readBlock hl
  cases out1 with
  | false => exact ⟨_, by rw [bypassBlock, hl]; rfl⟩
  | true =>
    obtain ⟨rs, hr⟩ := exists_readBlock (hr rfl)
    exact ⟨_, by rw [bypassBlock, hl, hr]; rfl⟩

/-- A word that no PROCESS of `n` samples writes: of an input buffer, of OUT1 when it is absent, or past the block
(44_process.md R173, R179). -/
def outsideOutput (out1 : Bool) (n : Nat) (b : BitVec 2) (k : BitVec 15) : Prop :=
  b = 0#2 ∨ b = 1#2 ∨ (b = 3#2 ∧ out1 = false) ∨ n ≤ k.toNat

theorem bypassBlock_ioWord_outside {in1 out1 : Bool} {n : Nat} {s t : State} (hn : n ≤ 32768)
    (h : bypassBlock in1 out1 n s = .next t) {b : BitVec 2} {k : BitVec 15} (hk : outsideOutput out1 n b k) :
    t.ioWord b k = s.ioWord b k := by
  have hright : ¬ (out1 = true ∧ b = 3#2 ∧ k.toNat < n) := by
    rintro ⟨rfl, rfl, hlt⟩
    simp [outsideOutput, not_le.2 hlt] at hk
  have hleft : ¬ (b = 2#2 ∧ k.toNat < n) := by
    rintro ⟨rfl, hlt⟩
    simp [outsideOutput, not_le.2 hlt] at hk
  rw [bypassBlock_ioWord hn h, if_neg hright, if_neg hleft]

/-- Settles O36: a bypass answers with the copied words, and the four cases of its I/O memory are those of the statement. -/
theorem bypassCopiesWords : Obligations.BypassCopiesWords := by
  intro in1 out1 n s hstate hn hmax hbypass hl hr
  obtain ⟨t, h⟩ := bypassBlock_completes hl hr
  have hio := bypassBlock_ioWord (Int.toNat_le.2 hmax) h
  refine ⟨t, exec_process_iff.2 (.bypass ⟨rfl, rfl, hstate, hn, hmax⟩ hbypass h), ?_, fun i hi => ?_, fun hout i hi => ?_,
    fun b k hk => bypassBlock_ioWord_outside (Int.toNat_le.2 hmax) h hk⟩
  · obtain ⟨io, rfl⟩ := bypass_only h
    rfl
  · rw [hio, if_neg (by simp), if_pos ⟨rfl, toNat_ofNat15_lt hi⟩]
  · rw [hio, if_pos ⟨hout, rfl, toNat_ofNat15_lt hi⟩, rightIn]

end Sys2Proof.Machine
end

section
/-! SUPPORT. The passes of PROCESS element by element (44_process.md R170, R174 to R182): what each element is after them, and
PROCESS on a block whose input words are written. -/

namespace Sys2Proof.Machine

open Sys2Proof Host

/-! ## The elements of the state after the passes -/

section
variable (c : Config) (adv : Bool) (outR : BitVec 2) (ws : List (Word × Word)) (s : State)

/-- What the remix may change of the state that the split leaves. -/
theorem ringFree_only : ∃ ks mg mr io, ringFree c adv outR ws s =
    { (directSplit c adv ws (peakPass c ws s)).1 with comps := ks, mgr := mg, mrms := mr, io := io } :=
  directRemix_only _ _ _ _ _ _ _

theorem ringFree_sv_eq : (ringFree c adv outR ws s).sv = (directSplit c adv ws (peakPass c ws s)).1.sv := by
  obtain ⟨ks, mg, mr, io, e⟩ := ringFree_only c adv outR ws s
  rw [e]

theorem ringFree_filters : (ringFree c adv outR ws s).filters = (directSplit c adv ws (peakPass c ws s)).1.filters := by
  obtain ⟨ks, mg, mr, io, e⟩ := ringFree_only c adv outR ws s
  rw [e]

theorem ringFree_pk_eq : (ringFree c adv outR ws s).pk = (peakPass c ws s).pk := by
  obtain ⟨ks, mg, mr, io, e⟩ := ringFree_only c adv outR ws s
  obtain ⟨sv, fl, e'⟩ := directSplit_only c adv ws (peakPass c ws s)
  rw [e, e']

/-- The smoothers: one SMOOTH step per sample (40_parameter_smoother.md R103; 44_process.md R175). -/
theorem ringFree_sv (k : Fin 3) : (ringFree c adv outR ws s).sv[k] =
    (fun x => smoothValue c x s.sc[k] (smootherTarget c s k))^[ws.length] s.sv[k] := by
  obtain ⟨pk, e⟩ := peakPass_only c ws s
  rw [ringFree_sv_eq, directSplit_sv, e]
  rfl

/-- The peak trackers: one PEAK step per sample (41_peak_envelope.md R112; 44_process.md R174). -/
theorem ringFree_pk :
    (ringFree c adv outR ws s).pk[0] = ws.foldl (fun x w => peakValue c x (widen c w.1)) s.pk[0] ∧
    (ringFree c adv outR ws s).pk[1] = ws.foldl (fun x w => peakValue c x (widen c w.2)) s.pk[1] := by
  rw [ringFree_pk_eq]
  exact peakPass_pk c ws s

theorem directSplit_io : (directSplit c adv ws (peakPass c ws s)).1.io = s.io := by
  obtain ⟨sv, fl, e⟩ := directSplit_only c adv ws (peakPass c ws s)
  obtain ⟨pk, e'⟩ := peakPass_only c ws s
  rw [e, e']

end

theorem blockWords_getElem? (s : State) (in1 : Bool) {n i : Nat} (h : i < n) :
    (blockWords s in1 n)[i]? = some (ioWordD s 0#2 i, ioWordD s (rightIn in1) i) := by
  simp [blockWords, h]

theorem blockWords_length (s : State) (in1 : Bool) (n : Nat) : (blockWords s in1 n).length = n := by
  simp [blockWords]

section
variable (c : Config) (adv : Bool) (outR : BitVec 2) {ws : List (Word × Word)} (s : State) (hlen : ws.length ≤ 32768)
include hlen

theorem directSplit_length : (directSplit c adv ws s).2.length = ws.length := by
  obtain ⟨-, -, h, -⟩ := splitPass_direct c adv ws s hlen
  exact h

theorem exists_bands {i : Nat} (hi : i < ws.length) : ∃ v, (directSplit c adv ws s).2[i]? = some v :=
  ⟨_, List.getElem?_eq_getElem (hi.trans_eq (directSplit_length c adv s hlen).symm)⟩

/-- The ring at a position of the block: the six bands of the sample, then the two raw samples (44_process.md R176). -/
theorem afterPasses_ringCell {i : Nat} {v : Vector F64 6} {w : Word × Word}
    (hv : (directSplit c adv ws (peakPass c ws s)).2[i]? = some v) (hw : ws[i]? = some w) :
    (∀ ch : Fin 6,
      (afterPasses c adv outR ws s).ringCell (BitVec.ofNat 3 ch.val) (s.wcur + BitVec.ofNat 15 i) = some v[ch]) ∧
    (afterPasses c adv outR ws s).ringCell 6#3 (s.wcur + BitVec.ofNat 15 i) = some (widen c w.1) ∧
    (afterPasses c adv outR ws s).ringCell 7#3 (s.wcur + BitVec.ofNat 15 i) = some (widen c w.2) := by
  obtain ⟨-, -, -, hcells⟩ := splitPass_direct c adv ws (peakPass c ws s) hlen
  obtain ⟨pk, e⟩ := peakPass_only c ws s
  have hwcur : (peakPass c ws s).wcur = s.wcur := by rw [e]
  rw [hwcur] at hcells
  exact hcells i v w hv hw

/-- The remix writes an output word for every sample of the block, and equal ones where the two lanes are equal
(44_process.md R178, R179). -/
theorem ringFree_outputs (hout : outR = 2#2 ∨ outR = 3#2) {i : Nat} (hi : i < ws.length) :
    ((ringFree c adv outR ws s).ioWord 2#2 (BitVec.ofNat 15 i)).isSome = true ∧
    (outR = 3#2 → ((ringFree c adv outR ws s).ioWord 3#2 (BitVec.ofNat 15 i)).isSome = true ∧
      ((∀ v ∈ (directSplit c adv ws (peakPass c ws s)).2, v[0] = v[1] ∧ v[2] = v[3] ∧ v[4] = v[5]) →
        (ringFree c adv outR ws s).ioWord 2#2 (BitVec.ofNat 15 i) =
          (ringFree c adv outR ws s).ioWord 3#2 (BitVec.ofNat 15 i))) := by
  have hbands := directSplit_length c adv (peakPass c ws s) hlen
  have h := directRemix_io_same c (directSplit c adv ws (peakPass c ws s)).1.sv[c.gCmpSrc]
    (directSplit c adv ws (peakPass c ws s)).1.sv[c.gOutSrc] outR (directSplit c adv ws (peakPass c ws s)).2 0
    (directSplit c adv ws (peakPass c ws s)).1 i (by omega) (by omega) hout
  rw [Nat.zero_add] at h
  exact h

end

theorem rightOut_eq (out1 : Bool) : rightOut out1 = 2#2 ∨ rightOut out1 = 3#2 := by
  cases out1
  · exact .inl rfl
  · exact .inr rfl

/-! ## A block whose input words are written -/

/-- Both cursors are past the block (44_process.md R177). -/
theorem afterPasses_blockWords (c : Config) (adv : Bool) (outR : BitVec 2) (in1 : Bool) (n : Nat) (s : State) :
    afterPasses c adv outR (blockWords s in1 n) s =
      { ringFree c adv outR (blockWords s in1 n) s with
        ring := (afterPasses c adv outR (blockWords s in1 n) s).ring
        wcur := s.wcur + BitVec.ofNat 15 n
        rcur := s.wcur + BitVec.ofNat 15 n } := by
  rw [afterPasses, blockWords_length]

/-- PROCESS completes on a block whose input words are written (44_process.md R170; 70_reset_and_hazards.md R292). -/
theorem exec_process_written {in1 out1 : Bool} {n : Int} {s : State} (hstate : s.lifecycle = .ready) (hn : 0 < n)
    (hmax : n ≤ 32768) (hbypass : boolParam Config.current s.params[19] = false) (hl : inputsWritten s 0#2 n.toNat)
    (hr : inputsWritten s (rightIn in1) n.toNat) :
    exec (.process true in1 true out1 n) s = .next (afterPasses Config.current (boolParam Config.current s.params[4])
      (rightOut out1) (blockWords s in1 n.toNat) s) := by
  obtain ⟨ls, rs, hls, hrs, hzip⟩ := readBlock_blockWords hl hr
  rw [← hzip]
  exact exec_process_iff.2 (.passes ⟨rfl, rfl, hstate, hn, hmax⟩ hbypass hls hrs)

/-- Settles O37: the block completes, and each element of the state after the passes is what the statement gives. -/
theorem processBlockCompletes : Obligations.ProcessBlockCompletes := by
  intro in1 out1 n s hstate _ hn hmax hbypass hl hr c
  have hlength := blockWords_length s in1 n.toNat
  have hlen : (blockWords s in1 n.toNat).length ≤ 32768 := hlength.trans_le (Int.toNat_le.2 hmax)
  obtain ⟨hpkL, hpkR⟩ := ringFree_pk c (boolParam c s.params[4]) (rightOut out1) (blockWords s in1 n.toNat) s
  refine ⟨_, exec_process_written hstate hn hmax hbypass hl hr, ?_, rfl, ?_, fun k => ?_, hpkL, hpkR, fun i hi => ?_⟩
  · rw [afterPasses_blockWords]
  · rintro rfl
    rw [afterPasses_blockWords]
    simp
  · have hsv := ringFree_sv c (boolParam c s.params[4]) (rightOut out1) (blockWords s in1 n.toNat) s k
    rw [hlength] at hsv
    exact hsv
  · have hi' := hi.trans_eq hlength.symm
    obtain ⟨hL, hR⟩ := ringFree_outputs c (boolParam c s.params[4]) (rightOut out1) s hlen (rightOut_eq out1) hi'
    obtain ⟨v, hv⟩ := exists_bands c (boolParam c s.params[4]) (peakPass c (blockWords s in1 n.toNat) s) hlen hi'
    obtain ⟨-, hrawL, hrawR⟩ := afterPasses_ringCell c (boolParam c s.params[4]) (rightOut out1) s hlen hv
      (blockWords_getElem? s in1 hi)
    exact ⟨hrawL, hrawR, hL, fun hout => (hR (hout ▸ rfl)).1⟩

/-- Settles O39: PROCESS is the pipeline without a ring beside the ring of the split, which holds the bands. -/
theorem processIsRingFreePipeline : Obligations.ProcessIsRingFreePipeline := by
  intro in1 out1 n s hstate _ hn hmax hbypass hl hr c ws r u
  have hlength : ws.length = n.toNat := blockWords_length s in1 n.toNat
  have hlen : ws.length ≤ 32768 := hlength.trans_le (Int.toNat_le.2 hmax)
  refine ⟨_, exec_process_written hstate hn hmax hbypass hl hr, ?_, fun i v hv => ?_⟩
  · exact afterPasses_blockWords c _ (rightOut out1) in1 n.toNat s
  · have hi : i < n.toNat := by
      rw [← hlength, ← directSplit_length c (boolParam c s.params[4]) (peakPass c ws s) hlen]
      exact (List.getElem?_eq_some_iff.1 hv).1
    obtain ⟨hbands, -⟩ := afterPasses_ringCell c _ (rightOut out1) s hlen hv (blockWords_getElem? s in1 hi)
    exact hbands

end Sys2Proof.Machine
end

section
/-! SUPPORT. What a PROCESS leaves alone (44_process.md R179, R180), and that what it leaves does not depend on what the ring
held before it (R182). -/

namespace Sys2Proof.Machine

open Sys2Proof Host

/-! ## The frame -/

section
variable (c : Config) (adv : Bool) {ws : List (Word × Word)} (s : State)

/-- The passes write the ring at the positions of the block only (44_process.md R176). -/
theorem afterPasses_ringCell_other (outR : BitVec 2) {ch : BitVec 3} {pos : RingPos}
    (h : ∀ i < ws.length, pos ≠ s.wcur + BitVec.ofNat 15 i) :
    (afterPasses c adv outR ws s).ringCell ch pos = s.ringCell ch pos := by
  obtain ⟨pk, e⟩ := peakPass_only c ws s
  calc (afterPasses c adv outR ws s).ringCell ch pos
    _ = (splitPass c adv ws (peakPass c ws s)).ringCell ch pos := rfl
    _ = (peakPass c ws s).ringCell ch pos := splitPass_cell_other c adv ws _ ch pos (by rw [e]; exact h)
    _ = s.ringCell ch pos := ringCell_congr (peakPass_ring c ws s) ch pos

/-- The passes write the output words of the block only (44_process.md R179). -/
theorem afterPasses_ioWord_outside (hlen : ws.length ≤ 32768) {out1 : Bool} {b : BitVec 2} {k : BitVec 15}
    (hk : outsideOutput out1 ws.length b k) :
    (afterPasses c adv (rightOut out1) ws s).ioWord b k = s.ioWord b k := by
  have hbands := directSplit_length c adv (peakPass c ws s) hlen
  have hplace : (b ≠ 2#2 ∧ b ≠ rightOut out1) ∨ k.toNat < 0 ∨
      0 + (directSplit c adv ws (peakPass c ws s)).2.length ≤ k.toNat := by
    rw [hbands, Nat.zero_add]
    rcases hk with rfl | rfl | ⟨rfl, rfl⟩ | hk
    · exact .inl ⟨by decide, by cases out1 <;> decide⟩
    · exact .inl ⟨by decide, by cases out1 <;> decide⟩
    · exact .inl ⟨by decide, by decide⟩
    · exact .inr (.inr hk)
  exact (directRemix_io_other _ _ _ _ _ 0 _ b k (by omega) hplace).trans (ioWord_congr (directSplit_io c adv ws s) b k)

end

theorem process_ioWord_outside {in0 in1 out0 out1 : Bool} {n : Int} {s t : State} (h : ProcessOutcome in0 in1 out0 out1 n s t)
    {b : BitVec 2} {k : BitVec 15} (hk : outsideOutput out1 n.toNat b k) : t.ioWord b k = s.ioWord b k := by
  cases h with
  | silent => rfl
  | uninit => rfl
  | block => rfl
  | bypass haccepted hbypass h =>
    exact bypassBlock_ioWord_outside haccepted.toNat_le h hk
  | passes haccepted hbypass hl hr =>
    have hlength := length_zip_readBlock hl hr
    exact afterPasses_ioWord_outside _ _ s (hlength.trans_le haccepted.toNat_le) (hlength.symm ▸ hk)

theorem process_ringCell_other {in0 in1 out0 out1 : Bool} {n : Int} {s t : State} (h : ProcessOutcome in0 in1 out0 out1 n s t)
    {ch : BitVec 3} {pos : RingPos} (hpos : ∀ i < n.toNat, pos ≠ s.wcur + BitVec.ofNat 15 i) :
    t.ringCell ch pos = s.ringCell ch pos := by
  cases h with
  | silent => rfl
  | uninit => rfl
  | block => rfl
  | bypass haccepted hbypass h =>
    obtain ⟨io, rfl⟩ := bypass_only h
    rfl
  | passes haccepted hbypass hl hr =>
    exact afterPasses_ringCell_other _ _ s _ (length_zip_readBlock hl hr ▸ hpos)

/-- Settles O38: each thing that a PROCESS can have done has the shape of the statement, and the I/O memory and the ring have
their frames. -/
theorem processWritesOnly : Obligations.ProcessWritesOnly := by
  intro in0 in1 out0 out1 n s t h
  have hio (b : BitVec 2) (k : BitVec 15) (hk : outsideOutput out1 n.toNat b k) : t.ioWord b k = s.ioWord b k :=
    process_ioWord_outside (exec_process_iff.1 h) hk
  have hring (ch : BitVec 3) (pos : RingPos) (hpos : ∀ i < n.toNat, pos ≠ s.wcur + BitVec.ofNat 15 i) :
      t.ringCell ch pos = s.ringCell ch pos := process_ringCell_other (exec_process_iff.1 h) hpos
  have unraised : ¬ (s.status ≠ s.status ∨ s.lastErr ≠ s.lastErr) := by simp
  rcases process_sum h with rfl | rfl | rfl | ⟨-, io, rfl⟩ | ⟨-, pk, sv, fl, rg, ks, mg, mr, io, w, rfl, hfl, hks⟩
  · exact ⟨rfl, fun _ => rfl, fun _ => rfl, hio, hring, fun herr => absurd herr unraised⟩
  · exact ⟨rfl, fun _ => rfl, fun _ => rfl, hio, hring, fun _ => ⟨rfl, .inl rfl⟩⟩
  · exact ⟨rfl, fun _ => rfl, fun _ => rfl, hio, hring, fun _ => ⟨rfl, .inr rfl⟩⟩
  · exact ⟨rfl, fun _ => rfl, fun _ => rfl, hio, hring, fun herr => absurd herr unraised⟩
  · exact ⟨rfl, hfl, hks, hio, hring, fun herr => absurd herr unraised⟩

/-! ## The ring before the command -/

/-- The state with another ring. -/
def State.withRing (s : State) (m : Memory 64) : State := { s with ring := m }

theorem peakPass_withRing (c : Config) (ws : List (Word × Word)) (s : State) (m : Memory 64) :
    peakPass c ws (s.withRing m) = (peakPass c ws s).withRing m := by
  induction ws generalizing s with
  | nil => rfl
  | cons w ws ih => exact ih (peakSample c w s)

theorem directSplit_withRing (c : Config) (adv : Bool) (ws : List (Word × Word)) (s : State) (m : Memory 64) :
    directSplit c adv ws (s.withRing m) = ((directSplit c adv ws s).1.withRing m, (directSplit c adv ws s).2) := by
  induction ws generalizing s with
  | nil => rfl
  | cons w ws ih =>
    exact congrArg (fun q => (q.1, (bank c adv _ _ _).2 :: q.2)) (ih { smoothAll c s with filters := (bank c adv _ _ _).1 })

theorem directRemix_withRing (c : Config) (g go : F64) (outR : BitVec 2) (vs : List (Vector F64 6)) (i : Nat) (s : State)
    (m : Memory 64) : directRemix c g go outR vs i (s.withRing m) = (directRemix c g go outR vs i s).withRing m := by
  induction vs generalizing i s with
  | nil => rfl
  | cons v vs ih => exact ih (i + 1) (remixSample c g go outR i v s)

theorem readBlock_withRing (s : State) (m : Memory 64) (b : BitVec 2) (n i : Nat) :
    readBlock (s.withRing m) b n i = readBlock s b n i := by
  induction n generalizing i with
  | zero => rfl
  | succ n ih => rw [readBlock, readBlock, ih]; rfl

theorem writeBlock_withRing (s : State) (m : Memory 64) (b : BitVec 2) (vs : List Word) (i : Nat) :
    writeBlock b vs i (s.withRing m) = (writeBlock b vs i s).withRing m := by
  induction vs generalizing i s with
  | nil => rfl
  | cons v vs ih => exact ih (s.setIoWord b (BitVec.ofNat 15 i) v) (i + 1)

theorem ringFree_withRing (c : Config) (adv : Bool) (outR : BitVec 2) (ws : List (Word × Word)) (s : State) (m : Memory 64) :
    ringFree c adv outR ws (s.withRing m) = (ringFree c adv outR ws s).withRing m := by
  simp only [ringFree, peakPass_withRing, directSplit_withRing]
  exact directRemix_withRing _ _ _ _ _ _ _ _

theorem afterPasses_withRing (c : Config) (adv : Bool) (outR : BitVec 2) (ws : List (Word × Word)) (s : State)
    (m : Memory 64) : ∃ m', afterPasses c adv outR ws (s.withRing m) = (afterPasses c adv outR ws s).withRing m' := by
  rw [afterPasses, ringFree_withRing]
  exact ⟨_, rfl⟩

theorem bypassBlock_withRing {in1 out1 : Bool} {n : Nat} {s t : State} (h : bypassBlock in1 out1 n s = .next t)
    (m : Memory 64) : bypassBlock in1 out1 n (s.withRing m) = .next (t.withRing m) := by
  obtain ⟨ls, hl, ⟨rfl, rfl⟩ | ⟨rfl, rs, hr, rfl⟩⟩ := bypassBlock_next h
  · simp [bypassBlock, readBlock_withRing, writeBlock_withRing, hl]
  · simp [bypassBlock, readBlock_withRing, writeBlock_withRing, hl, hr]

/-- Whatever the ring holds, PROCESS has the same outcome but for the ring. -/
theorem ProcessOutcome.withRing {in0 in1 out0 out1 : Bool} {n : Int} {s t : State}
    (h : ProcessOutcome in0 in1 out0 out1 n s t) (m : Memory 64) :
    ∃ m', ProcessOutcome in0 in1 out0 out1 n (s.withRing m) (t.withRing m') := by
  cases h with
  | silent h => exact ⟨m, .silent h⟩
  | uninit hin hout hn hstate => exact ⟨m, .uninit hin hout hn hstate⟩
  | block hin hout hn hstate => exact ⟨m, .block hin hout hn hstate⟩
  | bypass haccepted hbypass h => exact ⟨m, .bypass haccepted hbypass (bypassBlock_withRing h m)⟩
  | passes haccepted hbypass hl hr =>
    obtain ⟨m', e⟩ := afterPasses_withRing Config.current (boolParam Config.current s.params[4]) (rightOut out1) _ s m
    exact ⟨m', e ▸ .passes haccepted hbypass ((readBlock_withRing s m _ _ _).trans hl)
      ((readBlock_withRing s m _ _ _).trans hr)⟩

/-- Settles O40: with another ring PROCESS has the same outcome but for the ring. -/
theorem ringHistoryInvisible : Obligations.RingHistoryInvisible := by
  intro in0 in1 out0 out1 n s t m _ _ h
  obtain ⟨m', h'⟩ := (exec_process_iff.1 h).withRing m
  exact ⟨_, exec_process_iff.2 h', rfl⟩

end Sys2Proof.Machine
end

section
/-! SUPPORT. The two lanes of a PROCESS whose right input is its left one (44_process.md R172; 42_crossover_filterbank.md
R120). -/

namespace Sys2Proof.Machine

open Sys2Proof Host

/-- The left and the right unit of every filter pair are equal (42_crossover_filterbank.md R120). -/
def pairsEqual (fl : Vector Filter 6) : Prop := fl[0] = fl[1] ∧ fl[2] = fl[3] ∧ fl[4] = fl[5]

/-- The left and the right channel of every band are equal. -/
def bandsEqual (v : Vector F64 6) : Prop := v[0] = v[1] ∧ v[2] = v[3] ∧ v[4] = v[5]

theorem lanesEqual_iff {s : State} : lanesEqual s ↔ pairsEqual s.filters ∧ s.pk[0] = s.pk[1] := by
  unfold lanesEqual pairsEqual
  tauto

/-- Equal pairs on equal inputs stay equal and give equal bands, in both topologies (42_crossover_filterbank.md R129, R130). -/
theorem bank_lanes (c : Config) (adv : Bool) {fl : Vector Filter 6} (h : pairsEqual fl) (x : F64) :
    pairsEqual (bank c adv fl x x).1 ∧ bandsEqual (bank c adv fl x x).2 := by
  obtain ⟨h0, h2, h4⟩ := h
  cases adv <;> simp [bank, bankAdv, bankSimple, pairsEqual, bandsEqual, h0, h2, h4]

theorem directSplit_lanes (c : Config) (adv : Bool) (ls : List Word) {s : State} (h : pairsEqual s.filters) :
    pairsEqual (directSplit c adv (ls.zip ls) s).1.filters ∧ ∀ v ∈ (directSplit c adv (ls.zip ls) s).2, bandsEqual v := by
  induction ls generalizing s with
  | nil => exact ⟨h, fun v hv => absurd hv List.not_mem_nil⟩
  | cons w ls ih =>
    obtain ⟨hfilters, hbands⟩ := bank_lanes c adv h (fmul c (widen c w) (smoothAll c s).sv[c.gInSrc])
    obtain ⟨hrest, hbands'⟩ := ih (s := { smoothAll c s with filters := _ }) hfilters
    refine ⟨hrest, fun v hv => ?_⟩
    rcases List.mem_cons.1 hv with rfl | hv
    · exact hbands
    · exact hbands' v hv

theorem peakPass_lanes (c : Config) (ls : List Word) {s : State} (h : s.pk[0] = s.pk[1]) :
    (peakPass c (ls.zip ls) s).pk[0] = (peakPass c (ls.zip ls) s).pk[1] := by
  induction ls generalizing s with
  | nil => exact h
  | cons w ls ih => exact ih (s := peakSample c (w, w) s) (by simp [peakSample, h])

/-- The passes over a block of equal channels keep the lanes equal and give equal output channels. -/
theorem afterPasses_lanes (c : Config) (adv : Bool) (ls : List Word) {s : State} (h : lanesEqual s)
    (hlen : ls.length ≤ 32768) :
    (∀ outR, lanesEqual (afterPasses c adv outR (ls.zip ls) s)) ∧ ∀ i < ls.length,
      (afterPasses c adv 3#2 (ls.zip ls) s).ioWord 2#2 (BitVec.ofNat 15 i) =
        (afterPasses c adv 3#2 (ls.zip ls) s).ioWord 3#2 (BitVec.ofNat 15 i) := by
  obtain ⟨hpairs, hpk⟩ := lanesEqual_iff.1 h
  have hlength : (ls.zip ls).length = ls.length := by simp
  obtain ⟨pk, e⟩ := peakPass_only c (ls.zip ls) s
  have hpairs' : pairsEqual (peakPass c (ls.zip ls) s).filters := by
    rw [e]
    exact hpairs
  obtain ⟨hsplit, hbands⟩ := directSplit_lanes c adv ls hpairs'
  constructor
  · intro outR
    exact lanesEqual_iff.2 ⟨ringFree_filters c adv outR (ls.zip ls) s ▸ hsplit,
      (ringFree_pk_eq c adv outR (ls.zip ls) s ▸ peakPass_lanes c ls hpk :)⟩
  · intro i hi
    obtain ⟨-, hright⟩ := ringFree_outputs c adv 3#2 s (hlength.trans_le hlen) (.inr rfl) (hi.trans_eq hlength.symm)
    obtain ⟨-, heq⟩ := hright rfl
    exact heq hbands

/-- Settles O42: with in1 absent the block's two channels are one list of words, in the passes and in the bypass. -/
theorem monoInputKeepsLanesEqual : Obligations.MonoInputKeepsLanesEqual := by
  intro out1 n s t hs h
  cases exec_process_iff.1 h with
  | silent hsilent =>
    exact ⟨hs, fun _ hn _ _ => absurd hsilent (by simpa using hn)⟩
  | uninit hin hout hn hstate =>
    exact ⟨hs, fun hready _ _ _ => absurd (hready.symm.trans hstate) (by decide)⟩
  | block hin hout hn hstate =>
    exact ⟨hs, fun _ _ hmax _ => absurd hmax (not_le.2 hn)⟩
  | bypass haccepted hbypass h =>
    have hio := bypassBlock_ioWord haccepted.toNat_le h
    obtain ⟨io, rfl⟩ := bypass_only h
    refine ⟨hs, fun _ _ _ hout i hi => ?_⟩
    have hk := toNat_ofNat15_lt hi
    rw [hio, hio, if_neg (by simp), if_pos ⟨rfl, hk⟩, if_pos ⟨hout, rfl, hk⟩]
    rfl
  | passes haccepted hbypass hl hr =>
    obtain rfl := Option.some.inj (hl.symm.trans hr)
    have hlen := readBlock_length hl
    obtain ⟨hlanes, houtputs⟩ := afterPasses_lanes Config.current (boolParam Config.current s.params[4]) _ hs
      (hlen.trans_le haccepted.toNat_le)
    refine ⟨hlanes _, fun _ _ _ hout i hi => ?_⟩
    subst hout
    exact houtputs i (hi.trans_eq hlen.symm)

end Sys2Proof.Machine
end

section
/-! SUPPORT. The parameter commands (45_parameter_commands.md): the clamp by cases, SETP in range, and GETP of a parameter that
holds a value. -/

namespace Sys2Proof.Machine

open Sys2Proof Host

/-! ## The clamp -/

theorem clamp01_of_nan {v : F32} (h : isNaN32 v = true) : clamp01 v = 0x00000000#32 := if_pos h

/-- A comparison that holds is one of numbers. -/
theorem fltLt32_iff {a b : F32} :
    fltLt32 a b = true ↔ (isNaN32 a = false ∧ isNaN32 b = false) ∧ fpKey32 a < fpKey32 b := by
  simp [fltLt32]

theorem fltLt32_asymm {a b : F32} (h : fltLt32 a b = true) : fltLt32 b a = false := by
  obtain ⟨-, hlt⟩ := fltLt32_iff.1 h
  exact Bool.eq_false_iff.2 fun h' => (fltLt32_iff.1 h').2.asymm hlt

theorem fltLt32_trans {a b c : F32} (hab : fltLt32 a b = true) (hbc : fltLt32 b c = true) : fltLt32 a c = true := by
  obtain ⟨⟨ha, -⟩, hlt⟩ := fltLt32_iff.1 hab
  obtain ⟨⟨-, hc⟩, hlt'⟩ := fltLt32_iff.1 hbc
  exact fltLt32_iff.2 ⟨⟨ha, hc⟩, hlt.trans hlt'⟩

theorem clamp01_of_neg {v : F32} (h : fltLt32 v 0x00000000#32 = true) : clamp01 v = 0x00000000#32 := by
  obtain ⟨⟨hnan, -⟩, -⟩ := fltLt32_iff.1 h
  simp [clamp01, hnan, h]

theorem clamp01_of_one_lt {v : F32} (h : fltLt32 0x3F800000#32 v = true) : clamp01 v = 0x3F800000#32 := by
  obtain ⟨⟨-, hnan⟩, -⟩ := fltLt32_iff.1 h
  have hneg : fltLt32 v 0x00000000#32 = false := fltLt32_asymm (fltLt32_trans (by decide) h)
  simp [clamp01, hnan, hneg, h]

theorem clamp01_of_paramInUnit {v : F32} (h : paramInUnit v = true) : clamp01 v = v := by
  simp only [paramInUnit, Bool.and_eq_true, Bool.not_eq_true'] at h
  obtain ⟨⟨hnan, hneg⟩, hbig⟩ := h
  simp [clamp01, hnan, hneg, hbig]

/-- Settles O26: the clamp case by case; its results are values of [0, 1], which it keeps. -/
theorem clampKeepsUnitInterval : Obligations.ClampKeepsUnitInterval := fun v =>
  ⟨clamp01_of_nan, clamp01_of_neg, clamp01_of_one_lt, clamp01_of_paramInUnit, paramInUnit_clamp01 v,
    clamp01_of_paramInUnit (paramInUnit_clamp01 v), by decide, by decide, by decide⟩

/-! ## SETP and GETP -/

theorem eq_ofNat8_iff {idx : BitVec 8} {n : Nat} (hn : n < 256) : idx = BitVec.ofNat 8 n ↔ idx.toNat = n := by
  rw [← BitVec.toNat_inj, BitVec.toNat_ofNat, Nat.mod_eq_of_lt hn]

/-- Settles O23: SETP element by element. -/
theorem setpStoresClampedAndDerives : Obligations.SetpStoresClampedAndDerives := by
  intro idx v s _ c
  refine ⟨setParam c idx v s, rfl, ?frame, fun j => ?file, ?up, ?dn, setParam_gain2_get c idx v s, fun b => ?comps⟩
  case frame =>
    obtain ⟨_, _, _, _, _, _, e⟩ := setParam_only c idx v s
    rw [e]
  case file =>
    simp only [Fin.getElem_fin, setParam_params_getElem, setParam_paramSet_getElem, eq_comm (a := idx.toNat), and_self]
  case up => simp only [setParam_ratioUp, eq_ofNat8_iff (show 2 < 256 by decide)]
  case dn => simp only [setParam_ratioDn, eq_ofNat8_iff (show 3 < 256 by decide)]
  case comps =>
    simp only [setParam_comps_get, eq_ofNat8_iff (show 2 < 256 by decide), eq_ofNat8_iff (show 3 < 256 by decide)]

/-- A word zero-extended is the word under 32 zeros. -/
theorem zeroExtend_word (v : Word) : v.zeroExtend 64 = 0#32 ++ v := BitVec.setWidth_eq_append (by decide)

theorem exec_getp_set {idx : BitVec 8} {s : State} (h : idx.toNat < 20) (hset : s.paramSet[idx.toNat] = true) :
    exec (.getp idx) s = .next (s.setResp (0#32 ++ s.params[idx.toNat])) := by
  rw [exec, execGetp, dif_pos h, if_pos hset, zeroExtend_word]

/-- GETP of an UNDEF parameter returns what the configuration says such a read gets (log 4). -/
theorem exec_getp_undef {idx : BitVec 8} {s : State} (h : idx.toNat < 20) (hset : s.paramSet[idx.toNat] = false) :
    exec (.getp idx) s = .next (s.respondUndef (0#32 ++ Config.current.rows.undefParam idx s.cp)) := by
  rw [exec, execGetp, dif_pos h, if_neg (by simp [hset]), zeroExtend_word]

/-- GETP and SETP of an index that names no parameter (45_parameter_commands.md R201, R206). -/
theorem exec_param_outOfRange {idx : BitVec 8} {s : State} (h : ¬ idx.toNat < 20) :
    exec (.getp idx) s = .next (s.setResp 0#64) ∧ ∀ v, exec (.setp idx v) s = .next s :=
  ⟨dif_neg h, fun _ => congrArg Outcome.next (dif_neg h)⟩

/-- Settles O24: GETP by what it finds, a value, UNDEF, or no parameter. -/
theorem getpReturnsRawBits : Obligations.GetpReturnsRawBits := fun _ _ =>
  ⟨exec_getp_set, fun h hset => ⟨_, exec_getp_undef h hset, step_of_undefRead rfl⟩,
    fun h => exec_param_outOfRange (not_lt.2 h)⟩

/-- Settles O25: SETP leaves the parameter set, at the clamped value, and the clamp keeps a value of [0, 1]. -/
theorem parameterRoundTrip : Obligations.ParameterRoundTrip := by
  intro idx v s hidx
  have hset : (setParam Config.current idx v s).paramSet[idx.toNat] = true := by
    rw [setParam_paramSet_getElem, if_pos rfl]
  have hresp : ((setParam Config.current idx v s).setResp
      (0#32 ++ (setParam Config.current idx v s).params[idx.toNat])).resp = 0#32 ++ clamp01 v := by
    rw [setResp_resp, setParam_params_getElem, if_pos rfl]
  exact ⟨_, _, rfl, exec_getp_set hidx hset, hresp, fun hv => hresp.trans (by rw [clamp01_of_paramInUnit hv])⟩

end Sys2Proof.Machine
end

section
/-! SUPPORT. The inert parameters (45_parameter_commands.md R207; log 2). Every command but INIT and SETP carries the parameter
file along: with another file that holds the same in the parameters the core reads, it answers the same but for the file. -/

namespace Sys2Proof.Machine

open Sys2Proof Host

/-! ## Another parameter file -/

/-- The state with another parameter file and other marks of its parameters. -/
def State.withParams (s : State) (ps : Vector F32 20) (ms : Vector Bool 20) : State := { s with params := ps, paramSet := ms }

/-- A parameter file with its marks that holds what `s` holds in every parameter that is not inert. -/
def sameActive (s : State) (ps : Vector F32 20) (ms : Vector Bool 20) : Prop :=
  ∀ j : Fin 20, inertParam j.val = false → ps[j] = s.params[j] ∧ ms[j] = s.paramSet[j]

theorem agreeButInert_iff {s t : State} : agreeButInert s t ↔ ∃ ps ms, t = s.withParams ps ms ∧ sameActive s ps ms :=
  ⟨fun ⟨e, h⟩ => ⟨t.params, t.paramSet, e, h⟩, fun ⟨_, _, e, h⟩ => e ▸ ⟨rfl, h⟩⟩

theorem agreeButInert_refl (s : State) : agreeButInert s s := ⟨rfl, fun _ _ => ⟨rfl, rfl⟩⟩

/-- An answer with another parameter file in its state. -/
def answerWithParams (ps : Vector F32 20) (ms : Vector Bool 20) :
    Outcome State Fault Refusal → Outcome State Fault Refusal
  | .next t => .next (t.withParams ps ms)
  | .fault f => .fault f
  | .refused r => .refused r

section
variable {s : State} {ps : Vector F32 20} {ms : Vector Bool 20}

theorem sameActive.params (h : sameActive s ps ms) {j : Nat} (hj : j < 20) (hi : inertParam j = false) :
    ps[j] = s.params[j] := (h ⟨j, hj⟩ hi).1

theorem sameActive.paramSet (h : sameActive s ps ms) {j : Nat} (hj : j < 20) (hi : inertParam j = false) :
    ms[j] = s.paramSet[j] := (h ⟨j, hj⟩ hi).2

theorem ringCell_withParams (ch : BitVec 3) (p : RingPos) : (s.withParams ps ms).ringCell ch p = s.ringCell ch p := rfl

theorem ioWord_withParams (b : BitVec 2) (k : BitVec 15) : (s.withParams ps ms).ioWord b k = s.ioWord b k := rfl

/-! ## The lifecycle and access commands -/

theorem execReset_withParams : execReset (s.withParams ps ms) = answerWithParams ps ms (execReset s) := by
  simp only [execReset, apply_ite (answerWithParams ps ms)]
  rfl

theorem execSetrate_withParams (fs : F64) :
    execSetrate fs (s.withParams ps ms) = answerWithParams ps ms (execSetrate fs s) := by
  simp only [execSetrate, apply_ite (answerWithParams ps ms)]
  rfl

theorem execGetp_withParams (h : sameActive s ps ms) {idx : BitVec 8} (hi : inertParam idx.toNat = false) :
    execGetp idx (s.withParams ps ms) = answerWithParams ps ms (execGetp idx s) := by
  by_cases hidx : idx.toNat < 20
  · simp only [execGetp, dif_pos hidx, apply_ite (answerWithParams ps ms), ← h.params hidx hi, ← h.paramSet hidx hi]
    rfl
  · simp only [execGetp, dif_neg hidx]
    rfl

/-- Whether a register is UNDEF depends on parameters 2, 3 and 8 to 10 alone, none of them inert. -/
theorem regDefined_withParams (h : sameActive s ps ms) (r : Reg) : (s.withParams ps ms).regDefined r = s.regDefined r := by
  cases r with
  | ratioUp => exact h.paramSet (by decide) rfl
  | ratioDn => exact h.paramSet (by decide) rfl
  | gain2 b => exact h.paramSet (by omega) (by fin_cases b <;> rfl)
  | comp b f =>
    cases f with
    | upr => exact h.paramSet (by decide) rfl
    | sel => exact h.paramSet (by decide) rfl
    | _ => rfl
  | _ => rfl

theorem execRdreg_withParams (h : sameActive s ps ms) (a : RegAddr) :
    execRdreg a (s.withParams ps ms) = answerWithParams ps ms (execRdreg a s) := by
  unfold execRdreg
  cases regAt a with
  | none => rfl
  | some r =>
    simp only [State.readReg, regDefined_withParams h]
    split_ifs
    · cases r <;> rfl
    · rfl

theorem execRdring_withParams (ch : BitVec 3) (pos : RingPos) :
    execRdring ch pos (s.withParams ps ms) = answerWithParams ps ms (execRdring ch pos s) := by
  simp only [execRdring, ringCell_withParams]
  cases s.ringCell ch pos <;> rfl

theorem execRdio_withParams (b : BitVec 2) (k : BitVec 15) :
    execRdio b k (s.withParams ps ms) = answerWithParams ps ms (execRdio b k s) := by
  simp only [execRdio, ioWord_withParams]
  cases s.ioWord b k <;> rfl

theorem writeEffect_withParams (c : Config) (r : Reg) (v : BitVec 64) :
    writeEffect c r v (s.withParams ps ms) = (writeEffect c r v s).withParams ps ms := by
  cases r with
  | xoLo =>
    simp only [writeEffect, apply_ite (State.withParams · ps ms)]
    rfl
  | xoHi =>
    simp only [writeEffect, apply_ite (State.withParams · ps ms)]
    rfl
  | comp b f => cases f <;> rfl
  | _ => rfl

theorem execWrreg_withParams (a : RegAddr) (v : BitVec 64) :
    execWrreg a v (s.withParams ps ms) = answerWithParams ps ms (execWrreg a v s) := by
  simp only [execWrreg, apply_ite (answerWithParams ps ms)]
  cases regAt a with
  | none => rfl
  | some r =>
    simp only [writeEffect_withParams, apply_ite (answerWithParams ps ms)]
    rfl

/-! ## PROCESS -/

theorem peakPass_withParams (c : Config) (ws : List (Word × Word)) :
    peakPass c ws (s.withParams ps ms) = (peakPass c ws s).withParams ps ms := by
  induction ws generalizing s with
  | nil => rfl
  | cons w ws ih => exact ih (s := peakSample c w s)

/-- The smoothers read parameter 0 alone (40_parameter_smoother.md R102). -/
theorem smoothAll_withParams (c : Config) (h : ps[0] = s.params[0]) :
    smoothAll c (s.withParams ps ms) = (smoothAll c s).withParams ps ms := by
  have htarget (k : Fin 3) : smootherTarget c (s.withParams ps ms) k = smootherTarget c s k := by
    match k with
    | 0 => exact congrArg (widen c) h
    | 1 => rfl
    | 2 => rfl
  simp only [smoothAll, htarget]
  rfl

theorem splitSample_withParams (c : Config) (adv : Bool) (w : Word × Word) (h : ps[0] = s.params[0]) :
    splitSample c adv w (s.withParams ps ms) = (splitSample c adv w s).withParams ps ms := by
  simp only [splitSample, smoothAll_withParams c h]
  rfl

theorem splitPass_withParams (c : Config) (adv : Bool) (ws : List (Word × Word)) (h : ps[0] = s.params[0]) :
    splitPass c adv ws (s.withParams ps ms) = (splitPass c adv ws s).withParams ps ms := by
  induction ws generalizing s with
  | nil => rfl
  | cons w ws ih =>
    obtain ⟨_, _, _, e⟩ := splitSample_only c adv w s
    rw [splitPass, splitSample_withParams c adv w h]
    exact ih (by rw [e, h])

theorem compStep_withParams (c : Config) (b : Fin 3) (p g gain : F64) :
    (compStep c b p g gain (s.withParams ps ms)).1 = (compStep c b p g gain s).1.withParams ps ms ∧
      (compStep c b p g gain (s.withParams ps ms)).2 = (compStep c b p g gain s).2 := ⟨rfl, rfl⟩

theorem outWrite_withParams (c : Config) (outR : BitVec 2) (i : Nat) (l r : F64) :
    outWrite c outR i l r (s.withParams ps ms) = (outWrite c outR i l r s).withParams ps ms := rfl

/-- A sample of the remix reads no parameter: the gains it uses are GAIN2 (44_process.md R178). -/
theorem remixSample_withParams (c : Config) (g go : F64) (outR : BitVec 2) (i : Nat) (v : Vector F64 6) :
    remixSample c g go outR i v (s.withParams ps ms) = (remixSample c g go outR i v s).withParams ps ms := by
  have hgain : (s.withParams ps ms).gain2 = s.gain2 := rfl
  simp only [remixSample, hgain, compStep_withParams]
  exact outWrite_withParams c outR i _ _

theorem remixLoop_withParams (c : Config) (g go : F64) (outR : BitVec 2) (n i : Nat) (rc : RingPos) :
    remixLoop c g go outR n i rc (s.withParams ps ms) = (remixLoop c g go outR n i rc s).map (·.withParams ps ms) := by
  induction n generalizing i rc s with
  | zero => rfl
  | succ n ih =>
    have hbands : readBands (s.withParams ps ms) rc = readBands s rc := rfl
    simp only [remixLoop, hbands]
    cases readBands s rc with
    | none => rfl
    | some v => simp only [remixSample_withParams, ih]

theorem pipeline_withParams (c : Config) (adv : Bool) (outR : BitVec 2) (ws : List (Word × Word)) (h : ps[0] = s.params[0]) :
    pipeline c adv outR ws (s.withParams ps ms) = (pipeline c adv outR ws s).map (·.withParams ps ms) := by
  obtain ⟨pk, e⟩ := peakPass_only c ws s
  have h' : ps[0] = (peakPass c ws s).params[0] := by rw [e, h]
  simp only [pipeline, peakPass_withParams, splitPass_withParams c adv ws h']
  exact remixLoop_withParams c _ _ outR ws.length 0 _

theorem readBlock_withParams (b : BitVec 2) (n i : Nat) : readBlock (s.withParams ps ms) b n i = readBlock s b n i := by
  induction n generalizing i with
  | zero => rfl
  | succ n ih => simp only [readBlock, ih, ioWord_withParams]

theorem writeBlock_withParams (b : BitVec 2) (vs : List Word) (i : Nat) :
    writeBlock b vs i (s.withParams ps ms) = (writeBlock b vs i s).withParams ps ms := by
  induction vs generalizing i s with
  | nil => rfl
  | cons v vs ih => exact ih (s := s.setIoWord b (BitVec.ofNat 15 i) v) (i + 1)

theorem bypassBlock_withParams (in1 out1 : Bool) (n : Nat) :
    bypassBlock in1 out1 n (s.withParams ps ms) = answerWithParams ps ms (bypassBlock in1 out1 n s) := by
  simp only [bypassBlock, readBlock_withParams, writeBlock_withParams]
  cases readBlock s 0#2 n 0 with
  | none => rfl
  | some ls =>
    cases out1 with
    | false => rfl
    | true => cases readBlock s (rightIn in1) n 0 <;> rfl

/-- The passes read parameters 0 and 4 alone (42_crossover_filterbank.md R131). -/
theorem processBlock_withParams (c : Config) (h : sameActive s ps ms) (in1 out1 : Bool) (n : Nat) :
    processBlock c in1 out1 n (s.withParams ps ms) = answerWithParams ps ms (processBlock c in1 out1 n s) := by
  have hadv : (s.withParams ps ms).params[4] = s.params[4] := h.params (by decide) rfl
  simp only [processBlock, readBlock_withParams, hadv, pipeline_withParams c _ _ _ (h.params (by decide) rfl)]
  cases readBlock s 0#2 n 0 with
  | none => rfl
  | some ls =>
    cases readBlock s (rightIn in1) n 0 with
    | none => rfl
    | some rs =>
      dsimp only
      cases pipeline c (boolParam c s.params[4]) (rightOut out1) (ls.zip rs) s <;> rfl

theorem execProcess_withParams (h : sameActive s ps ms) (in0 in1 out0 out1 : Bool) (n : Int) :
    execProcess in0 in1 out0 out1 n (s.withParams ps ms) = answerWithParams ps ms (execProcess in0 in1 out0 out1 n s) := by
  have hbypass : (s.withParams ps ms).params[19] = s.params[19] := h.params (by decide) rfl
  simp only [execProcess, hbypass, bypassBlock_withParams, processBlock_withParams Config.current h,
    apply_ite (answerWithParams ps ms)]
  rfl

/-! ## The commands -/

/-- A command that writes no parameter, and a GETP of none that is inert, answers the same but for the file. -/
theorem exec_withParams (h : sameActive s ps ms) {i : Instr} (hwrite : i.opcode ∉ [0x81#8, 0x90#8])
    (hread : ∀ idx, i = .getp idx → inertParam idx.toNat = false) :
    exec i (s.withParams ps ms) = answerWithParams ps ms (exec i s) := by
  cases i with
  | nop => rfl
  | reset => exact execReset_withParams
  | cleanup => rfl
  | getp idx => exact execGetp_withParams h (hread idx rfl)
  | rdreg a => exact execRdreg_withParams h a
  | rdring ch pos => exact execRdring_withParams ch pos
  | rdio b k => exact execRdio_withParams b k
  | init fs => simp [Instr.opcode] at hwrite
  | setrate fs => exact execSetrate_withParams fs
  | setp idx v => simp [Instr.opcode] at hwrite
  | wrreg a v => exact execWrreg_withParams a v
  | wrio b k w => rfl
  | process in0 in1 out0 out1 n => exact execProcess_withParams h in0 in1 out0 out1 n

end

theorem exec_paramSet {i : Instr} {s t : State} (h : exec i s = .next t) (hi : i.opcode ∉ [0x81#8, 0x90#8]) :
    t.paramSet = s.paramSet := by
  cases exec_effect h with
  | init => simp [Instr.opcode] at hi
  | setp => simp [Instr.opcode] at hi
  | _ => rfl

/-- Two answers that differ in the inert parameters of their states only. -/
def answersAgreeButInert (x y : Outcome State Fault Refusal) : Prop :=
  (∃ t t', x = .next t ∧ y = .next t' ∧ agreeButInert t t') ∨ ∃ f, x = .fault f ∧ y = .fault f

theorem exec_agreeButInert {i : Instr} {s s' : State} (h : agreeButInert s s') (hwrite : i.opcode ∉ [0x81#8, 0x90#8])
    (hread : ∀ idx, i = .getp idx → inertParam idx.toNat = false) : answersAgreeButInert (exec i s) (exec i s') := by
  obtain ⟨ps, ms, rfl, hsame⟩ := agreeButInert_iff.1 h
  rw [exec_withParams hsame hwrite hread]
  match hx : exec i s with
  | .next t =>
    obtain ⟨hps, -⟩ := exec_params hx hwrite
    have hms := exec_paramSet hx hwrite
    refine .inl ⟨t, _, rfl, rfl, agreeButInert_iff.2 ⟨ps, ms, rfl, ?_⟩⟩
    rw [sameActive, hps, hms]
    exact hsame
  | .fault f => exact .inr ⟨f, rfl, rfl⟩
  | .refused r => exact absurd hx ((exec_answer i s).1 r)

/-- INIT overwrites the whole parameter file (10_state.md R42). -/
theorem execInit_agreeButInert {s s' : State} (h : agreeButInert s s') (fs : F64) :
    answersAgreeButInert (execInit fs s) (execInit fs s') := by
  obtain ⟨ps, ms, rfl, hsame⟩ := agreeButInert_iff.1 h
  unfold execInit
  split_ifs
  · exact .inl ⟨_, _, rfl, rfl, agreeButInert_refl _⟩
  · exact .inl ⟨_, _, rfl, rfl, agreeButInert_iff.2 ⟨ps, ms, rfl, hsame⟩⟩

/-- SETP writes the same into both files, and derives from the value it writes alone (45_parameter_commands.md R204). -/
theorem setParam_agreeButInert {s s' : State} (h : agreeButInert s s') (c : Config) (idx : BitVec 8) (v : F32) :
    agreeButInert (setParam c idx v s) (setParam c idx v s') := by
  obtain ⟨ps, ms, rfl, hsame⟩ := agreeButInert_iff.1 h
  constructor
  · unfold setParam derive
    split_ifs <;> rfl
  · intro j hj
    obtain ⟨hps, hms⟩ := hsame j hj
    simp only [Fin.getElem_fin, setParam_params_getElem, setParam_paramSet_getElem]
    split_ifs
    · exact ⟨rfl, rfl⟩
    · exact ⟨hps, hms⟩

/-- Settles O43: INIT and SETP write the file the same way on both sides, and every other command carries it along. -/
theorem inertParametersHaveNoEffect : Obligations.InertParametersHaveNoEffect := by
  intro i s s' hread h
  cases i with
  | init fs => exact execInit_agreeButInert h fs
  | setp idx v => exact .inl ⟨_, _, rfl, rfl, setParam_agreeButInert h Config.current idx v⟩
  | _ => exact exec_agreeButInert h (by simp [Instr.opcode]) hread

end Sys2Proof.Machine
end

section
/-! SUPPORT. Who writes the recursive state and the memories (46_lifecycle_commands.md R224, R225; 44_process.md R180;
20_memory.md R62; 40_parameter_smoother.md R103): the coefficient updates of SETRATE, SETP and WRREG leave the recursive
registers of a filter and of a compressor alone. -/

namespace Sys2Proof.Machine

open Sys2Proof Host

/-! ## The recursive registers of a unit -/

/-- Two filter units have the same recursive state (10_state.md R35). -/
def Filter.sameState (u v : Filter) : Prop := u.w1 = v.w1 ∧ u.w2 = v.w2 ∧ u.lp = v.lp ∧ u.hp = v.hp

/-- Two compressor units have the same recursive state (10_state.md R36). -/
def Comp.sameState (k l : Comp) : Prop :=
  k.rms = l.rms ∧ k.env = l.env ∧ k.gr = l.gr ∧ k.red = l.red ∧ k.path = l.path

theorem Filter.sameState_refl (u : Filter) : u.sameState u := ⟨rfl, rfl, rfl, rfl⟩

theorem Comp.sameState_refl (k : Comp) : k.sameState k := ⟨rfl, rfl, rfl, rfl, rfl⟩

/-- XO_COEF writes coefficients only (42_crossover_filterbank.md R122). -/
theorem xoCoef_sameState (c : Config) (f fs : F64) (u : Filter) : (xoCoef c f fs u).sameState u := ⟨rfl, rfl, rfl, rfl⟩

/-- COMP_COEF writes coefficients only (43_compressor.md R143). -/
theorem compCoef_sameState (c : Config) (fs : F64) (k : Comp) : (compCoef c fs k).sameState k := ⟨rfl, rfl, rfl, rfl, rfl⟩

/-- The registers WRREG can set are configuration (47_register_access.md R242). -/
theorem setCompReg_sameState (k : Comp) (f : CompField) (v : BitVec 64) : (setCompReg k f v).sameState k := by
  cases f <;> exact ⟨rfl, rfl, rfl, rfl, rfl⟩

/-! ## WRREG -/

/-- WRITE_EFFECT leaves the compressors as they are, or replaces one by one of the same recursive state. -/
theorem writeEffect_comps_cases (c : Config) (r : Reg) (v : BitVec 64) (s : State) :
    (writeEffect c r v s).comps = s.comps ∨
    ∃ (b : Fin 3) (k : Comp), k.sameState s.comps[b] ∧ writeEffect c r v s = s.setComp b k := by
  cases r with
  | xoLo => exact .inl (by rw [writeEffect]; split_ifs <;> rfl)
  | xoHi => exact .inl (by rw [writeEffect]; split_ifs <;> rfl)
  | comp b f =>
    have hset := setCompReg_sameState s.comps[b] f v
    cases f with
    | relTc => exact .inr ⟨b, compCoef c s.fs (setCompReg s.comps[b] .relTc v), hset, rfl⟩
    | _ => exact .inr ⟨b, _, hset, rfl⟩
  | _ => exact .inl rfl

theorem writeEffect_compState (c : Config) (r : Reg) (v : BitVec 64) (s : State) (b : Fin 3) :
    (writeEffect c r v s).comps[b].sameState s.comps[b] := by
  rcases writeEffect_comps_cases c r v s with e | ⟨j, k, hk, e⟩
  · rw [e]
    exact Comp.sameState_refl _
  · rw [e, setComp_comps, Fin.getElem_fin, Vector.getElem_set]
    split_ifs with hj
    · obtain rfl : j = b := Fin.ext hj
      exact hk
    · exact Comp.sameState_refl _

theorem execWrreg_compState {a : RegAddr} {v : BitVec 64} {s t : State} (h : execWrreg a v s = .next t) (b : Fin 3) :
    t.comps[b].sameState s.comps[b] := by
  rcases execWrreg_next h with ⟨-, rfl⟩ | ⟨-, rfl⟩ | ⟨-, r, -, -, rfl⟩
  · exact Comp.sameState_refl _
  · exact Comp.sameState_refl _
  · exact writeEffect_compState _ r v s b

/-! ## Every command -/

theorem applyRate_filters_get (c : Config) (fs : F64) (s : State) (k : Fin 6) :
    (applyRate c fs s).filters[k] = xoCoef c (crossoverOf s.xoLo s.xoHi k) fs s.filters[k] := six_get _ k

theorem exec_sv {i : Instr} {s t : State} (h : exec i s = .next t) (hi : i.opcode ∉ [0x81#8, 0xC0#8]) : t.sv = s.sv := by
  cases exec_effect h with
  | init => simp [Instr.opcode] at hi
  | passes => simp [Instr.opcode] at hi
  | _ => rfl

theorem exec_meters {i : Instr} {s t : State} (h : exec i s = .next t) (hi : i.opcode ∉ [0x81#8, 0x01#8, 0xC0#8]) :
    t.pk = s.pk ∧ t.mgr = s.mgr ∧ t.mrms = s.mrms ∧ t.wcur = s.wcur ∧ t.rcur = s.rcur := by
  cases exec_effect h with
  | init => simp [Instr.opcode] at hi
  | reset => simp [Instr.opcode] at hi
  | passes => simp [Instr.opcode] at hi
  | _ => exact ⟨rfl, rfl, rfl, rfl, rfl⟩

theorem exec_filterState {i : Instr} {s t : State} (h : exec i s = .next t) (hi : i.opcode ∉ [0x81#8, 0x01#8, 0xC0#8])
    (k : Fin 6) : t.filters[k].sameState s.filters[k] := by
  cases exec_effect h with
  | init => simp [Instr.opcode] at hi
  | reset => simp [Instr.opcode] at hi
  | passes => simp [Instr.opcode] at hi
  | setrate fs =>
    rw [applyRate_filters_get]
    exact xoCoef_sameState _ _ _ _
  | xoLo a v =>
    rw [deriveLow_filters, six_get]
    split_ifs
    · exact xoCoef_sameState _ _ _ _
    · exact Filter.sameState_refl _
  | xoHi a v =>
    rw [deriveHigh_filters, six_get]
    split_ifs
    · exact Filter.sameState_refl _
    · exact xoCoef_sameState _ _ _ _
  | _ => exact Filter.sameState_refl _

theorem exec_compState {i : Instr} {s t : State} (h : exec i s = .next t) (hi : i.opcode ∉ [0x81#8, 0x01#8, 0xC0#8])
    (b : Fin 3) : t.comps[b].sameState s.comps[b] := by
  cases exec_effect h with
  | init => simp [Instr.opcode] at hi
  | reset => simp [Instr.opcode] at hi
  | passes => simp [Instr.opcode] at hi
  | setrate fs =>
    rw [applyRate_comps_get]
    exact compCoef_sameState Config.current fs _
  | setp idx v e =>
    rw [← e, setParam_comps_get]
    exact ⟨rfl, rfl, rfl, rfl, rfl⟩
  | comp a v => exact execWrreg_compState h b
  | _ => exact Comp.sameState_refl _

theorem exec_ring {i : Instr} {s t : State} (h : exec i s = .next t) (hi : i.opcode ∉ [0x81#8, 0x01#8, 0x02#8, 0xC0#8]) :
    t.ring = s.ring := by
  cases exec_effect h with
  | init => simp [Instr.opcode] at hi
  | reset => simp [Instr.opcode] at hi
  | cleanup => simp [Instr.opcode] at hi
  | passes => simp [Instr.opcode] at hi
  | _ => rfl

theorem exec_io {i : Instr} {s t : State} (h : exec i s = .next t) (hi : i.opcode ∉ [0xA2#8, 0xC0#8]) : t.io = s.io := by
  cases exec_effect h with
  | wrio => simp [Instr.opcode] at hi
  | bypass => simp [Instr.opcode] at hi
  | passes => simp [Instr.opcode] at hi
  | _ => rfl

/-- Settles O15: one clause per element, each from the effects of its writers. -/
theorem datapathWriters : Obligations.DatapathWriters := by
  refine fun i s t h => ⟨exec_sv h, fun hi => ?_, exec_ring h, exec_io h⟩
  obtain ⟨hpk, hmgr, hmrms, hwcur, hrcur⟩ := exec_meters h hi
  exact ⟨hpk, hmgr, hmrms, hwcur, hrcur, exec_filterState h hi, exec_compState h hi⟩

end Sys2Proof.Machine
end

section
/-! SUPPORT. Which commands raise ERR_UNINIT (46_lifecycle_commands.md R226; 60_exceptions.md R265). -/

namespace Sys2Proof.Machine

open Sys2Proof Host

theorem execWrreg_uninit {s : State} (h : s.lifecycle = .uninit) (a : RegAddr) (v : BitVec 64) :
    execWrreg a v s = .next (raiseError .uninit 0xA0#8 s) := if_pos h

theorem execSetrate_uninit {s : State} (h : s.lifecycle = .uninit) (fs : F64) :
    execSetrate fs s = .next (raiseError .uninit 0x82#8 s) := if_pos h

theorem execReset_uninit {s : State} (h : s.lifecycle = .uninit) : execReset s = .next (raiseError .uninit 0x01#8 s) :=
  if_pos h

/-- What a command other than WRREG, SETRATE, RESET and PROCESS does to STATUS: nothing, or it raises an error that is not
ERR_UNINIT (60_exceptions.md R265). -/
theorem exec_status_of_no_uninit {i : Instr} {s t : State} (hi : i.opcode ∉ [0xA0#8, 0x82#8, 0x01#8, 0xC0#8])
    (h : exec i s = .next t) :
    t.status = s.status ∨ ∃ e : ErrorCode, e ≠ .uninit ∧ t.status = s.status ||| statusBit e := by
  cases i with
  | nop => cases h; exact .inl rfl
  | cleanup => cases h; exact .inl rfl
  | wrio b k w => cases h; exact .inl rfl
  | getp idx => obtain ⟨v, rfl | rfl⟩ := execGetp_next h <;> exact .inl rfl
  | rdreg a =>
    rcases execRdreg_next h with ⟨r, -, -, rfl⟩ | ⟨r, v, -, -, rfl⟩ | ⟨-, rfl⟩
    · exact .inl rfl
    · exact .inl rfl
    · exact .inr ⟨.reg, by decide, rfl⟩
  | rdring ch pos => obtain ⟨v, -, rfl⟩ := execRdring_next h; exact .inl rfl
  | rdio b k => obtain ⟨v, -, rfl⟩ := execRdio_next h; exact .inl rfl
  | init fs =>
    rcases execInit_next h with ⟨-, rfl⟩ | rfl
    · exact .inl rfl
    · exact .inr ⟨.rate, by decide, rfl⟩
  | setp idx v =>
    cases h
    obtain ⟨ps, ms, up, dn, g2, ks, e⟩ := setParam_only Config.current idx v s
    rw [e]
    exact .inl rfl
  | _ => simp [Instr.opcode] at hi

/-- Every error but ERR_UNINIT has another STATUS bit (10_state.md R22). -/
theorem statusBit_getLsbD_one {e : ErrorCode} (h : e ≠ .uninit) : (statusBit e).getLsbD 1 = false := by
  cases e with
  | uninit => exact absurd rfl h
  | _ => decide

/-- Settles O12: the lifecycle check comes first in the four commands, and the others raise no ERR_UNINIT. -/
theorem needsReadyRaisesUninit : Obligations.NeedsReadyRaisesUninit := by
  refine fun s => ⟨fun hl => ⟨execWrreg_uninit hl, execSetrate_uninit hl, execReset_uninit hl, fun in1 out1 n hn =>
    exec_process_iff.2 (.uninit rfl rfl hn hl)⟩, fun i t hi h => ?_⟩
  rcases exec_status_of_no_uninit hi h with hs | ⟨e, he, hs⟩
  · rw [hs]
  · rw [hs, BitVec.getLsbD_or, statusBit_getLsbD_one he, Bool.or_false]

end Sys2Proof.Machine
end

section
/-! SUPPORT. The sample rates INIT accepts (46_lifecycle_commands.md R222): rounding moves no number past a binary64 value, so
half of a rate compares with 2000.0 as the rate does with 4000.0. -/

namespace Sys2Proof.Machine

open Sys2Proof

/-! ## Rounding keeps the order -/

section
variable {a b y r : F64} {s t : Bool} {m n : Nat} {d e : Int}

/-- Finite patterns compare as their numbers (00_scope.md R14). -/
theorem fltLe_iff_finValue_le (ha : unpack64 a = .fin s m d) (hb : unpack64 b = .fin t n e) :
    fltLe a b = true ↔ finValue s m d ≤ finValue t n e := by
  rw [fltLe_eq_or, fltLt_eq_valueLt, fltEq_eq_valueEq, ha, hb, valueLt, valueEq, Bool.or_eq_true, decide_eq_true_iff,
    decide_eq_true_iff, le_iff_lt_or_eq]

/-- A finite pattern stands below the bound from which rounding gives an infinity: it is its own rounding. -/
theorem abs_finValue_lt_bound (hy : unpack64 y = .fin s m d) : |(finValue s m d : ℝ)| < (2 ^ 54 - 1) * 2 ^ 970 := by
  have h := round64_roundsTo_finValue s m d
  rw [round64_unpack64 hy, roundsTo64, hy] at h
  obtain ⟨-, hlt, -⟩ := h
  exact hlt

/-- No candidate is nearer to a rounded number than its rounding. -/
theorem abs_sub_le_of_roundsTo64 {x : ℝ} {neg : Bool} (h : roundsTo64 x neg r) (hr : unpack64 r = .fin t n e)
    (hy : unpack64 y = .fin s m d) : |(finValue t n e : ℝ) - x| ≤ |(finValue s m d : ℝ) - x| := by
  rw [roundsTo64, hr] at h
  obtain ⟨-, -, hnear⟩ := h
  exact (hnear s m d ⟨y, hy⟩).1

/-- A number not below a binary64 value is not rounded below it. -/
theorem fltLe_of_le_roundsTo64 {x : ℝ} (h : roundsTo64 x false r) (hy : unpack64 y = .fin s m d)
    (hle : (finValue s m d : ℝ) ≤ x) : fltLe y r = true := by
  match hr : unpack64 r with
  | .nan =>
    rw [roundsTo64, hr] at h
    exact h.elim
  | .inf u =>
    rw [roundsTo64, hr] at h
    obtain ⟨rfl, -⟩ := h
    rw [fltLe_eq_or, fltLt_eq_valueLt, hy, hr]
    rfl
  | .fin u k l =>
    have hnear := abs_sub_le_of_roundsTo64 h hr hy
    rw [abs_sub_comm (finValue s m d : ℝ), abs_of_nonneg (sub_nonneg.2 hle)] at hnear
    have hval : (finValue s m d : ℝ) ≤ finValue u k l := by linarith [neg_abs_le ((finValue u k l : ℝ) - x)]
    exact (fltLe_iff_finValue_le hy hr).2 (Rat.cast_le.1 hval)

/-- A number from 0 up to a binary64 value is not rounded above it. -/
theorem roundsTo64_fltLe_of_le {x : ℝ} (h : roundsTo64 x false r) (hx : 0 ≤ x) (hy : unpack64 y = .fin s m d)
    (hle : x ≤ finValue s m d) : fltLe r y = true := by
  match hr : unpack64 r with
  | .nan =>
    rw [roundsTo64, hr] at h
    exact h.elim
  | .inf u =>
    rw [roundsTo64, hr] at h
    obtain ⟨-, hbound⟩ := h
    rw [abs_of_nonneg hx] at hbound
    exact absurd hbound ((hle.trans (le_abs_self _)).trans_lt (abs_finValue_lt_bound hy)).not_ge
  | .fin u k l =>
    have hnear := abs_sub_le_of_roundsTo64 h hr hy
    rw [abs_of_nonneg (sub_nonneg.2 hle)] at hnear
    have hval : (finValue u k l : ℝ) ≤ finValue s m d := by linarith [le_abs_self ((finValue u k l : ℝ) - x)]
    exact (fltLe_iff_finValue_le hr hy).2 (Rat.cast_le.1 hval)

/-! ## Half of a sample rate -/

/-- A positive finite pattern has the sign +. -/
theorem sign_of_pos (h : fltLt zeroF a = true) (ha : unpack64 a = .fin s m d) : s = false := by
  rw [fltLt_eq_valueLt, unpack64_zeroF, ha, valueLt, decide_eq_true_iff, finValue_eq_zero_iff.2 rfl] at h
  cases s with
  | false => rfl
  | true =>
    rw [← Bool.not_false, finValue_not] at h
    exact absurd (neg_nonpos.2 (finValue_false_nonneg m d)) h.not_ge

/-- Half of a finite pattern, rounded. -/
theorem fmul_halfF_roundsTo (c : Config) (ha : unpack64 a = .fin s m d) :
    roundsTo64 ((finValue s m d / 2 : ℚ) : ℝ) s (fmul c a halfF) := by
  have hhalf : unpack64 halfF = .fin false (2 ^ 52) (-53) := by decide
  have hval : finValue false (2 ^ 52) (-53) = 1 / 2 := by norm_num [finValue]
  have h := fmul_roundsTo c ha hhalf
  rwa [hval, Bool.xor_false, mul_one_div] at h

theorem finValue_succ_exponent (s : Bool) (m : Nat) (d : Int) : finValue s m (d + 1) = 2 * finValue s m d := by
  rw [finValue_eq, finValue_eq, zpow_add_one₀ two_ne_zero]
  ring

/-- A rate from twice a value on has half of it from that value on. -/
theorem fltLe_half_of_fltLe (c : Config) {z : F64} (hpos : fltLt zeroF a = true) (ha : unpack64 a = .fin t n e)
    (hy : unpack64 y = .fin s m d) (hz : unpack64 z = .fin s m (d + 1)) (h : fltLe z a = true) :
    fltLe y (fmul c a halfF) = true := by
  obtain rfl := sign_of_pos hpos ha
  rw [fltLe_iff_finValue_le hz ha, finValue_succ_exponent] at h
  exact fltLe_of_le_roundsTo64 (fmul_halfF_roundsTo c ha) hy (Rat.cast_le.2 (by linarith))

/-- A positive rate up to twice a value has half of it up to that value. -/
theorem half_fltLe_of_fltLe (c : Config) {z : F64} (hpos : fltLt zeroF a = true) (ha : unpack64 a = .fin t n e)
    (hy : unpack64 y = .fin s m d) (hz : unpack64 z = .fin s m (d + 1)) (h : fltLe a z = true) :
    fltLe (fmul c a halfF) y = true := by
  obtain rfl := sign_of_pos hpos ha
  rw [fltLe_iff_finValue_le ha hz, finValue_succ_exponent] at h
  have hnonneg : (0 : ℚ) ≤ finValue false n e / 2 := div_nonneg (finValue_false_nonneg n e) two_pos.le
  exact roundsTo64_fltLe_of_le (fmul_halfF_roundsTo c ha) (Rat.cast_nonneg.2 hnonneg) hy (Rat.cast_le.2 (by linarith))

end

/-! ## The threshold -/

theorem not_fltLe_of_fltLt {a b : F64} (h : fltLt a b = true) : fltLe b a = false := by
  simp only [fltLt, Bool.and_eq_true, decide_eq_true_eq] at h
  obtain ⟨-, hlt⟩ := h
  simp [fltLe, hlt]

/-- To be above a value is to be from the next place of the number line on. -/
theorem fltLt_eq_fltLe_of_key {a a' : F64} (ha : isNaN64 a = false) (ha' : isNaN64 a' = false)
    (hkey : fpKey64 a' = fpKey64 a + 1) (b : F64) : fltLt a b = fltLe a' b := by
  simp only [fltLt, fltLe, ha, ha', hkey, Int.add_one_le_iff]

/-- Half of a rate is above 2000.0 exactly if the rate is above 4000.0: the next values after the two are a factor 2 apart
as well (46_lifecycle_commands.md R222). -/
theorem fltLt_half_iff (c : Config) {fs : F64} (hpos : fltLt zeroF fs = true) (hfin : fltLt fs posInfF = true) :
    fltLt 0x409F400000000000#64 (fmul c fs halfF) = true ↔ fltLt 0x40AF400000000000#64 fs = true := by
  obtain ⟨s, m, e, hfs⟩ := unpack64_fin_of_rate hpos hfin
  constructor
  · intro h
    have hbelow := not_fltLe_of_fltLt h
    have h2000 : unpack64 0x409F400000000000#64 = .fin false 0x1F400000000000 (-42) := by decide
    have h4000 : unpack64 0x40AF400000000000#64 = .fin false 0x1F400000000000 (-42 + 1) := by decide
    have hnan : isNaN64 fs = false := Bool.eq_false_iff.2 fun hn => by simp [isNaN64_iff.1 hn] at hfs
    rw [fltLt_iff_not_fltLe (by decide) hnan, ← Bool.not_eq_true]
    intro hle
    simp [half_fltLe_of_fltLe c hpos hfs h2000 h4000 hle] at hbelow
  · intro h
    have h2000 : unpack64 0x409F400000000001#64 = .fin false 0x1F400000000001 (-42) := by decide
    have h4000 : unpack64 0x40AF400000000001#64 = .fin false 0x1F400000000001 (-42 + 1) := by decide
    rw [fltLt_eq_fltLe_of_key (a' := 0x40AF400000000001#64) (by decide) (by decide) (by decide)] at h
    rw [fltLt_eq_fltLe_of_key (a' := 0x409F400000000001#64) (by decide) (by decide) (by decide)]
    exact fltLe_half_of_fltLe c hpos hfs h2000 h4000 h

theorem fltEq_self_of_fltLt {a x : F64} (h : fltLt a x = true) : fltEq x x = true := by
  simp only [fltLt, Bool.and_eq_true] at h
  obtain ⟨⟨-, hx⟩, -⟩ := h
  simpa [fltEq] using hx

/-- VALID_INIT comparison by comparison (46_lifecycle_commands.md R222). -/
theorem rateOk_iff {c : Config} {fs lo hi : F64} : rateOk c fs lo hi = true ↔
    fltEq fs fs = true ∧ fltLt zeroF fs = true ∧ fltLt fs posInfF = true ∧ fltLt lo (fmul c fs halfF) = true ∧
      fltLt hi (fmul c fs halfF) = true := by
  simp only [rateOk, Bool.and_eq_true, and_assoc]

theorem rateOk_default_iff (c : Config) (fs : F64) : rateOk c fs 0x4069000000000000#64 0x409F400000000000#64 = true ↔
    fltLt 0x40AF400000000000#64 fs = true ∧ fltLt fs posInfF = true := by
  rw [rateOk_iff]
  constructor
  · rintro ⟨-, hpos, hfin, -, hhi⟩
    exact ⟨(fltLt_half_iff c hpos hfin).1 hhi, hfin⟩
  · rintro ⟨hrate, hfin⟩
    have hpos : fltLt zeroF fs = true := fltLt_of_fltLe_of_fltLt (by decide) hrate
    have hhi := (fltLt_half_iff c hpos hfin).2 hrate
    exact ⟨fltEq_self_of_fltLt hrate, hpos, hfin, fltLt_of_fltLe_of_fltLt (by decide) hhi, hhi⟩

/-- Settles O20: of the five comparisons the one with the upper crossover decides, and it is the threshold 4000.0. -/
theorem initAcceptsRatesAbove4000 : Obligations.InitAcceptsRatesAbove4000 := by
  refine fun c fs => ⟨rateOk_iff, rateOk_default_iff c fs, Bool.eq_false_iff.2 fun h => ?_⟩
  obtain ⟨habove, -⟩ := (rateOk_default_iff c _).1 h
  exact absurd habove (by decide)

end Sys2Proof.Machine
end

section
/-! SUPPORT. NOP, RESET, CLEANUP and SETRATE (46_lifecycle_commands.md R220, R223 to R225), and the refusals of a sample rate
(R221 to R223). -/

namespace Sys2Proof.Machine

open Sys2Proof Host

/-! ## NOP -/

/-- A format-C word of the map runs its command on the state with that one word consumed (30_encoding.md R82). -/
theorem step_of_formatC {s : State} {w : Word} {rest : List Word} {i : Instr} (hu : s.undefRead = false)
    (hs : s.stream = w :: rest) (hw : isFormatL w = false) (hd : decode w 0#32 0#32 = .ok i) :
    step s = exec i { s with cp := s.cp + 1, stream := rest } := by
  rw [step_of_command hu ((congrArg fetchCommand hs).trans (fetchCommand_formatC hw rest)) hd, commandLength, hw]
  rfl

/-- An illegal format-C word raises ERR_ILLEGAL on the state with that one word consumed (30_encoding.md R88). -/
theorem step_of_illegal_formatC {s : State} {w : Word} {rest : List Word} {e : DecodeError} (hu : s.undefRead = false)
    (hs : s.stream = w :: rest) (hw : isFormatL w = false) (hd : decode w 0#32 0#32 = .error e) :
    step s = .next (raiseError .illegal (opField w) { s with cp := s.cp + 1, stream := rest }) := by
  rw [step_of_illegal hu ((congrArg fetchCommand hs).trans (fetchCommand_formatC hw rest)) hd, commandLength, hw]
  rfl

/-- A word with the opcode of NOP and a field that is not zero is refused (30_encoding.md R87). -/
theorem decode_nop_reserved {w : Word} (hop : opField w = 0x00#8) (hres : xField w ≠ 0#8 ∨ yField w ≠ 0#16)
    (w1 w2 : Word) :
    decode w w1 w2 = .error .reservedField := by
  have hzero : (xField w == 0#8 && yField w == 0#16) = false := by
    simpa [Classical.or_iff_not_imp_left] using hres
  simp [decode, hop, hzero, checkReserved]

theorem isFormatL_nop {w : Word} (hop : opField w = 0x00#8) : isFormatL w = false := by
  rw [← commandWord_fields w, isFormatL_commandWord, hop]
  rfl

/-- Settles O16: the all-zero word decodes to NOP, and a non-zero field makes a NOP word illegal. -/
theorem nopDoesNothing : Obligations.NopDoesNothing := by
  refine ⟨fun s => rfl, fun s rest hu hs => step_of_formatC (i := .nop) hu hs rfl rfl, fun s w rest hu hs hop hres => ?_⟩
  rw [step_of_illegal_formatC hu hs (isFormatL_nop hop) (decode_nop_reserved hop hres _ _), show opField w = 0x00#8 from hop]
  rfl

/-! ## RESET and CLEANUP -/

theorem not_uninit_of_ready {s : State} (h : s.lifecycle = .ready) : ¬ s.lifecycle = .uninit := by
  rw [h]
  decide

theorem execReset_ready {s : State} (h : s.lifecycle = .ready) : execReset s = .next (neutralState s) :=
  if_neg (not_uninit_of_ready h)

theorem ringCell_of_filled {s : State} {v : F64} (h : s.ring = Memory.filled v) (ch : BitVec 3) (pos : RingPos) :
    s.ringCell ch pos = some v := by
  rw [State.ringCell, h, Memory.filled_read]

theorem ringCell_of_undef {s : State} (h : s.ring = Memory.undef 64) (ch : BitVec 3) (pos : RingPos) :
    s.ringCell ch pos = none := by
  rw [State.ringCell, h, Memory.undef_read]

theorem neutralState_pk_get (s : State) (k : Fin 2) : (neutralState s).pk[k] = zeroF := by
  match k with
  | 0 => rfl
  | 1 => rfl

theorem neutralState_filters_get (s : State) (k : Fin 6) : (neutralState s).filters[k] = clearFilter s.filters[k] :=
  six_get _ k

theorem neutralState_comps_get (s : State) (b : Fin 3) : (neutralState s).comps[b] = clearComp s.comps[b] := three_get _ b

theorem neutralState_meters_get (s : State) (b : Fin 3) :
    (neutralState s).mgr[b] = zeroF ∧ (neutralState s).mrms[b] = zeroF :=
  ⟨three_get _ b, three_get _ b⟩

/-- Settles O17: in READY RESET is `neutralState`, element by element. -/
theorem resetRestoresNeutral : Obligations.ResetRestoresNeutral := fun s hready =>
  ⟨neutralState s, execReset_ready hready, rfl, neutralState_pk_get s, neutralState_filters_get s, neutralState_comps_get s,
    neutralState_meters_get s, ringCell_of_filled rfl⟩

/-- RDRING faults on every cell of a ring that is UNDEF (47_register_access.md R243). -/
theorem exec_rdring_of_undef {s : State} (h : s.ring = Memory.undef 64) (ch : BitVec 3) (pos : RingPos) :
    s.ringCell ch pos = none ∧ exec (.rdring ch pos) s = .fault .undefRingCell := by
  have hcell := ringCell_of_undef h ch pos
  refine ⟨hcell, ?_⟩
  rw [exec, execRdring, hcell]

/-- Settles O18: after CLEANUP the ring is UNDEF in every cell, and CLEANUP writes no other element but STATE. -/
theorem cleanupReleasesRing : Obligations.CleanupReleasesRing := fun s =>
  ⟨{ s with lifecycle := .uninit, ring := Memory.undef 64 }, rfl, rfl, exec_rdring_of_undef rfl, rfl⟩

/-! ## Sample rates -/

theorem execInit_invalid {fs : F64} (h : rateOk Config.current fs Config.xoLoDefault Config.xoHiDefault = false) (s : State) :
    execInit fs s = .next (raiseError .rate 0x81#8 s) := if_neg (Bool.eq_false_iff.1 h)

theorem execInit_valid {fs : F64} (h : rateOk Config.current fs Config.xoLoDefault Config.xoHiDefault = true) (s : State) :
    execInit fs s = .next (initState Config.current fs s) := if_pos h

theorem execSetrate_invalid {fs : F64} {s : State} (hready : s.lifecycle = .ready)
    (h : rateOk Config.current fs s.xoLo s.xoHi = false) : execSetrate fs s = .next (raiseError .rate 0x82#8 s) := by
  rw [execSetrate, if_neg (not_uninit_of_ready hready), if_neg (Bool.eq_false_iff.1 h)]

theorem execSetrate_valid {fs : F64} {s : State} (hready : s.lifecycle = .ready)
    (h : rateOk Config.current fs s.xoLo s.xoHi = true) : execSetrate fs s = .next (applyRate Config.current fs s) := by
  rw [execSetrate, if_neg (not_uninit_of_ready hready), if_pos h]

/-- Settles O21: a refused rate is an error and nothing else, in either command. -/
theorem invalidRateRaisesErrRate : Obligations.InvalidRateRaisesErrRate := fun _ s =>
  ⟨fun h => execInit_invalid h s, fun hready h => execSetrate_invalid hready h⟩

/-- Settles O22: SETRATE leaves the lifecycle state and the crossovers, so it is accepted again, and its coefficients depend on
nothing that it writes. -/
theorem setrateRederives : Obligations.SetrateRederives := by
  refine fun fs s hready hrate => ⟨applyRate Config.current fs s, execSetrate_valid hready hrate, rfl,
    applyRate_filters_get _ fs s, applyRate_comps_get _ fs s, fun n ws => ?_⟩
  have hagain := execSetrate_valid (s := { applyRate Config.current fs s with cp := n, stream := ws }) hready hrate
  rwa [applyRate_again] at hagain

end Sys2Proof.Machine
end

section
/-! SUPPORT. INIT with a valid rate, element by element (46_lifecycle_commands.md R221; 10_state.md R42). The values derived
from PARAM_DEFAULTS are all 1.0. -/

namespace Sys2Proof.Machine

open Sys2Proof Host

/-! ## The derived values of the default parameters -/

theorem widen_half (c : Config) : widen c 0x3F000000#32 = halfF := by
  have h : unpack32 0x3F000000#32 = .fin false (2 ^ 23) (-24) := by decide
  have hround : round64 false (2 ^ 23) (-24) = halfF := by decide
  rw [widen, h]
  exact hround

theorem widen_one (c : Config) : widen c 0x3F800000#32 = oneF := by
  have h : unpack32 0x3F800000#32 = .fin false (2 ^ 23) (-23) := by decide
  have hround : round64 false (2 ^ 23) (-23) = oneF := by decide
  rw [widen, h]
  exact hround

/-- 0.5 × 2.0 and 2.0 × 0.5 are 1.0. -/
theorem halfF_twoF (c : Config) : fmul c halfF twoF = oneF ∧ fmul c twoF halfF = oneF := by
  have hhalf : unpack64 halfF = .fin false (2 ^ 52) (-53) := by decide
  have htwo : unpack64 twoF = .fin false (2 ^ 52) (-51) := by decide
  rw [fmul_fin c hhalf htwo, fmul_fin c htwo hhalf]
  decide

/-- ratio(0.5) = 1.0 (45_parameter_commands.md R203). -/
theorem ratioOf_half (c : Config) : ratioOf c 0x3F000000#32 = oneF := by
  have hbelow : fltLt halfF halfF = false := by decide
  rw [ratioOf_eq, widen_half, hbelow]
  exact (halfF_twoF c).1

/-- The doubled gain of 0.5 is 1.0 (10_state.md R31). -/
theorem doubledGain_half (c : Config) : doubledGain c 0x3F000000#32 = oneF := by
  rw [doubledGain, widen_half]
  exact (halfF_twoF c).2

/-! ## The elements INIT writes -/

section
variable (c : Config) (fs : F64) (s : State)

theorem initState_ratios : (initState c fs s).ratioUp = oneF ∧ (initState c fs s).ratioDn = oneF := by
  rw [initState_ratioUp, initState_ratioDn]
  exact ⟨ratioOf_half c, ratioOf_half c⟩

theorem initState_gain2_one (b : Fin 3) : (initState c fs s).gain2[b] = oneF := by
  rw [initState_gain2_get]
  match b with
  | 0 => exact doubledGain_half c
  | 1 => exact doubledGain_half c
  | 2 => exact doubledGain_half c

theorem initState_paramSet (j : Fin 20) : (initState c fs s).paramSet[j] = true := Vector.getElem_replicate _

/-- Every smoother starts at its target (40_parameter_smoother.md R103). -/
theorem initState_sv_get (k : Fin 3) : (initState c fs s).sv[k] = smootherTarget c (initState c fs s) k := by
  match k with
  | 0 => rfl
  | 1 => rfl
  | 2 => rfl

theorem initState_sv :
    (initState c fs s).sv[0] = oneF ∧ (initState c fs s).sv[1] = oneF ∧ (initState c fs s).sv[2] = c.outGainTarget :=
  ⟨(initState_sv_get c fs s 0).trans (widen_one c), (initState_sv_get c fs s 1).trans (initState_ratios c fs s).1,
    initState_sv_get c fs s 2⟩

theorem initState_filters_get (k : Fin 6) : (initState c fs s).filters[k] =
    clearFilter (xoCoef c (crossoverOf Config.xoLoDefault Config.xoHiDefault k) fs s.filters[k]) := by
  rw [initState, neutralState_filters, six_get, deriveAll_filters, six_get]
  rfl

theorem initState_comps_get (b : Fin 3) : (initState c fs s).comps[b] =
    clearComp (compCoef c fs (initComp c oneF oneF s.comps[b])) := by
  rw [← ratioOf_half c]
  exact (three_get _ b).trans (congrArg clearComp (three_get _ b))

theorem initState_pk_get (k : Fin 2) : (initState c fs s).pk[k] = zeroF := by
  match k with
  | 0 => rfl
  | 1 => rfl

theorem initState_meters_get (b : Fin 3) : (initState c fs s).mgr[b] = zeroF ∧ (initState c fs s).mrms[b] = zeroF :=
  ⟨three_get _ b, three_get _ b⟩

end

/-- Settles O19: an accepted INIT is `initState`, element by element. -/
theorem initSetsEveryElement : Obligations.InitSetsEveryElement := fun fs s hrate =>
  ⟨initState Config.current fs s, execInit_valid hrate s, ⟨rfl, rfl, rfl, rfl, rfl, rfl, rfl⟩,
    ⟨rfl, rfl, initState_paramSet _ fs s⟩, ⟨rfl, rfl, rfl⟩, initState_params _ fs s,
    ⟨(initState_ratios _ fs s).1, (initState_ratios _ fs s).2, initState_gain2_one _ fs s⟩, ⟨rfl, rfl, rfl⟩,
    initState_sv _ fs s, initState_pk_get _ fs s, initState_filters_get _ fs s, initState_comps_get _ fs s,
    initState_meters_get _ fs s, ⟨rfl, rfl⟩, ringCell_of_filled rfl⟩

end Sys2Proof.Machine
end

section
/-! SUPPORT. RDREG (47_register_access.md R240): the state element each address of the map returns (10_state.md R24, R26, R27),
and what a read of an UNDEF register leaves (00_scope.md R10; log 4). -/

namespace Sys2Proof.Machine

open Sys2Proof Host

/-! ## A register that is UNDEF -/

/-- A read of an UNDEF register returns what the configuration says such a read gets, within the register's width (log 4). -/
theorem exec_rdreg_undef {a : RegAddr} {r : Reg} {s : State} (ha : regAt a = some r) (hd : s.regDefined r = false) :
    exec (.rdreg a) s = .next (s.respondUndef (r.fit (Config.current.rows.undefReg a s.cp))) := by
  simp only [exec, execRdreg, State.readReg, ha, hd, Bool.false_eq_true, if_false]

theorem toNat_zeroExtend64_lt {n : Nat} (x : BitVec n) : (x.zeroExtend 64).toNat < 2 ^ n := by
  rw [BitVec.toNat_setWidth]
  exact (Nat.mod_le _ _).trans_lt x.isLt

/-- A cursor reads as 15 bits even where it is UNDEF (10_state.md R26, R27). -/
theorem fit_cursor_lt {r : Reg} (hr : r = .wcur ∨ r = .rcur) (v : BitVec 64) : (r.fit v).toNat < 2 ^ 15 := by
  rcases hr with rfl | rfl
  · exact toNat_zeroExtend64_lt _
  · exact toNat_zeroExtend64_lt _

/-- PATH reads as one bit even where it is UNDEF (10_state.md R26, R27). -/
theorem fit_path_lt {r : Reg} {b : Fin 3} (hr : r = .comp b .path) (v : BitVec 64) : (r.fit v).toNat < 2 := by
  rw [hr]
  exact toNat_zeroExtend64_lt (v.setWidth 1)

/-! ## A register that holds a value -/

theorem exec_rdreg_reserved {a : RegAddr} (ha : regAt a = none) (s : State) :
    exec (.rdreg a) s = .next (raiseError .reg 0x20#8 s) := by
  simp only [exec, execRdreg, ha]

theorem lifecycleWord_eq (l : Lifecycle) : lifecycleWord l = if l = .ready then 1#64 else 0#64 := by
  cases l with
  | uninit => rfl
  | ready => rfl

theorem zeroExtend_cursor (p : RingPos) : p.zeroExtend 64 = 0#49 ++ p := BitVec.setWidth_eq_append (by decide)

theorem compReg_path (k : Comp) : compReg k .path = if k.path then 1#64 else 0#64 := by
  unfold compReg
  cases k.path with
  | false => rfl
  | true => rfl

/-- RDREG at the address of a register that holds the value `v`. -/
theorem exec_rdreg_value {a : RegAddr} {r : Reg} {v : BitVec 64} {s : State} (ha : regAt a = some r)
    (hd : s.regDefined r = true) (hv : s.regValue r = v) : exec (.rdreg a) s = .next { s with resp := v } :=
  hv ▸ exec_rdreg_defined ha hd

/-- RDREG of a filter register once an INIT has run (10_state.md R26, R42). -/
theorem exec_rdreg_filter {s : State} (hdone : s.initDone = true) (i : Fin 6) (f : FilterField) :
    exec (.rdreg (0x0100#16 + BitVec.ofNat 16 (16 * i.val + f.offset))) s =
      .next { s with resp := filterReg s.filters[i] f } :=
  exec_rdreg_defined (regAt_filter i f) hdone

/-- RDREG of a compressor register that holds a value. -/
theorem exec_rdreg_comp {s : State} {b : Fin 3} {f : CompField} (hd : s.regDefined (.comp b f) = true) :
    exec (.rdreg (0x0200#16 + BitVec.ofNat 16 (16 * b.val + f.offset))) s =
      .next { s with resp := compReg s.comps[b] f } :=
  exec_rdreg_defined (regAt_comp b f) hd

/-- RDREG of a register of a family laid out in rising addresses from a base. -/
theorem exec_rdreg_indexed {base k : Nat} {r : Reg} {s : State} (hd : s.regDefined r = true) (hr : r.address = base + k)
    (h : base + k < 65536) :
    exec (.rdreg (BitVec.ofNat 16 base + BitVec.ofNat 16 k)) s = .next { s with resp := s.regValue r } :=
  exec_rdreg_defined (regAt_base_add hr h) hd

/-- Settles O28: the map gives the register of an address, `regDefined` whether it holds a value, and `regValue` the value. -/
theorem rdregReturnsRegister : Obligations.RdregReturnsRegister := by
  intro s
  refine ⟨fun a r => exec_rdreg_defined, fun a r ha hd => ⟨_, exec_rdreg_undef ha hd, step_of_undefRead rfl,
    fun hr => fit_cursor_lt hr _, fun b hr => fit_path_lt hr _⟩, fun a ha => exec_rdreg_reserved ha s,
    exec_rdreg_value (r := .id) rfl rfl rfl, exec_rdreg_value (r := .state) rfl rfl (lifecycleWord_eq _),
    exec_rdreg_value (r := .status) rfl rfl rfl, exec_rdreg_value (r := .lastErr) rfl rfl rfl,
    fun hset => ⟨exec_rdreg_value (r := .ratioUp) rfl hset rfl, fun b => ?_⟩,
    fun hset => ⟨exec_rdreg_value (r := .ratioDn) rfl hset rfl, fun b => ?_⟩, fun b hset => ?_,
    fun hdone => ⟨?_, fun k => ?_, fun i => ?_, fun b => ?_⟩⟩
  · exact exec_rdreg_indexed (r := .comp b .upr) hset (by simp only [Reg.address, CompField.offset]; omega) (by omega)
  · exact exec_rdreg_indexed (r := .comp b .sel) hset (by simp only [Reg.address, CompField.offset]; omega) (by omega)
  · exact exec_rdreg_indexed (r := .gain2 b) hset rfl (by omega)
  · exact ⟨exec_rdreg_value (r := .fs) rfl hdone rfl, exec_rdreg_value (r := .xoLo) rfl hdone rfl,
      exec_rdreg_value (r := .xoHi) rfl hdone rfl, exec_rdreg_value (r := .wcur) rfl hdone (zeroExtend_cursor _),
      exec_rdreg_value (r := .rcur) rfl hdone (zeroExtend_cursor _), exec_rdreg_value (r := .pk 0) rfl hdone rfl,
      exec_rdreg_value (r := .pk 1) rfl hdone rfl⟩
  · exact ⟨exec_rdreg_indexed (r := .sv k) hdone rfl (by omega), exec_rdreg_indexed (r := .sc k) hdone rfl (by omega),
      exec_rdreg_indexed (r := .mgr k) hdone rfl (by omega), exec_rdreg_indexed (r := .mrms k) hdone rfl (by omega)⟩
  · have reads := exec_rdreg_filter hdone i
    exact ⟨reads .b0, reads .b1, reads .a1, reads .a2, reads .b2, reads .w1, reads .w2, reads .lp, reads .hp, reads .freq⟩
  · have hpath := exec_rdreg_value (regAt_comp b .path) hdone (compReg_path s.comps[b])
    exact ⟨exec_rdreg_comp (f := .rms) hdone, exec_rdreg_comp (f := .env) hdone, exec_rdreg_comp (f := .gr) hdone,
      exec_rdreg_comp (f := .cAtt) hdone, exec_rdreg_comp (f := .cRel) hdone, exec_rdreg_comp (f := .thr) hdone,
      exec_rdreg_comp (f := .relTc) hdone, exec_rdreg_comp (f := .auxLin) hdone, exec_rdreg_comp (f := .auxKnee) hdone,
      hpath, exec_rdreg_comp (f := .red) hdone⟩

end Sys2Proof.Machine
end

section
/-! SUPPORT. WRREG in READY (47_register_access.md R241, R242): the crossovers with their filters, the compressor registers, and
the addresses it refuses. -/

namespace Sys2Proof.Machine

open Sys2Proof Host

/-! ## The crossovers -/

theorem crossoverOk_iff {c : Config} {f fs : F64} :
    crossoverOk c f fs = true ↔ fltLt zeroF f = true ∧ fltLt f (fmul c fs halfF) = true := by
  rw [crossoverOk, Bool.and_eq_true]

theorem deriveLow_filters_get (c : Config) (s : State) (k : Fin 6) : (deriveLow c s).filters[k] =
    if k.val ≤ 3 then xoCoef c s.xoLo s.fs s.filters[k] else s.filters[k] :=
  six_get _ k

theorem deriveHigh_filters_get (c : Config) (s : State) (k : Fin 6) : (deriveHigh c s).filters[k] =
    if k.val ≤ 3 then s.filters[k] else xoCoef c s.xoHi s.fs s.filters[k] :=
  six_get _ k

/-- A crossover inside the domain is stored and its filters follow (42_crossover_filterbank.md R124). -/
theorem writeEffect_crossover {c : Config} {v : F64} {s : State} (h : crossoverOk c v s.fs = true) :
    writeEffect c .xoLo v s = deriveLow c { s with xoLo := v } ∧
    writeEffect c .xoHi v s = deriveHigh c { s with xoHi := v } :=
  ⟨if_pos h, if_pos h⟩

theorem writeEffect_crossover_invalid {c : Config} {v : F64} {s : State} (h : ¬ crossoverOk c v s.fs = true) :
    writeEffect c .xoLo v s = raiseError .rate 0xA0#8 s ∧ writeEffect c .xoHi v s = raiseError .rate 0xA0#8 s :=
  ⟨if_neg h, if_neg h⟩

/-- WRREG at the two crossover addresses is WRITE_EFFECT. -/
theorem exec_wrreg_crossover {s : State} (hready : s.lifecycle = .ready) (v : F64) :
    exec (.wrreg 0x0005#16 v) s = .next (writeEffect Config.current .xoLo v s) ∧
    exec (.wrreg 0x0006#16 v) s = .next (writeEffect Config.current .xoHi v s) :=
  ⟨exec_wrreg_writable hready rfl rfl v, exec_wrreg_writable hready rfl rfl v⟩

/-- Settles O29: WRITE_EFFECT of a crossover, by whether the operand lies in the domain. -/
theorem wrregCrossover : Obligations.WrregCrossover := by
  intro v s hready
  obtain ⟨hlo, hhi⟩ := exec_wrreg_crossover hready v
  refine ⟨fun hv => ?_, fun hv => ?_⟩
  · obtain ⟨elo, ehi⟩ := writeEffect_crossover (crossoverOk_iff.2 hv)
    rw [hlo, hhi, elo, ehi]
    exact ⟨⟨_, rfl, rfl, deriveLow_filters_get _ _⟩, ⟨_, rfl, rfl, deriveHigh_filters_get _ _⟩⟩
  · obtain ⟨elo, ehi⟩ := writeEffect_crossover_invalid (mt crossoverOk_iff.1 hv)
    rw [hlo, hhi, elo, ehi]
    exact ⟨rfl, rfl⟩

/-! ## The compressor registers -/

/-- WRREG at the address of a writable compressor register is WRITE_EFFECT. -/
theorem exec_wrreg_comp {s : State} (hready : s.lifecycle = .ready) (b : Fin 3) {f : CompField}
    (hw : (Reg.comp b f).writable = true) (v : BitVec 64) :
    exec (.wrreg (0x0200#16 + BitVec.ofNat 16 (16 * b.val + f.offset)) v) s =
      .next (writeEffect Config.current (.comp b f) v s) :=
  exec_wrreg_writable hready (regAt_comp b f) hw v

/-- Settles O30: each writable register stands at its offset, and WRITE_EFFECT puts the band's compressor with the operand
stored, after COMP_COEF for REL_TC. -/
theorem wrregCompressor : Obligations.WrregCompressor := fun b v _ hready =>
  ⟨exec_wrreg_comp hready b (f := .sel) rfl v, exec_wrreg_comp hready b (f := .thr) rfl v,
    exec_wrreg_comp hready b (f := .upr) rfl v, exec_wrreg_comp hready b (f := .auxLin) rfl v,
    exec_wrreg_comp hready b (f := .auxKnee) rfl v, exec_wrreg_comp hready b (f := .relTc) rfl v⟩

/-! ## Reserved and read-only addresses -/

/-- Settles O31: an address with no register, or with one that is not writable, is refused. -/
theorem wrregReadOnlyRaisesErrReg : Obligations.WrregReadOnlyRaisesErrReg := by
  intro a v s hready hro
  rw [exec, execWrreg, if_neg (not_uninit_of_ready hready)]
  cases ha : regAt a with
  | none => rfl
  | some r => exact if_neg (Bool.eq_false_iff.1 (hro r ha))

end Sys2Proof.Machine
end

section
/-! SUPPORT. The access commands of the memories (47_register_access.md R243 to R245): RDRING, RDIO and WRIO. -/

namespace Sys2Proof.Machine

open Sys2Proof Host

/-! ## The I/O memory -/

theorem exec_rdio_some {b : BitVec 2} {k : BitVec 15} {s : State} {u : Word} (h : s.ioWord b k = some u) :
    exec (.rdio b k) s = .next { s with resp := 0#32 ++ u } := by
  rw [exec, execRdio, h, ← zeroExtend_word]
  rfl

theorem exec_rdio_none {b : BitVec 2} {k : BitVec 15} {s : State} (h : s.ioWord b k = none) :
    exec (.rdio b k) s = .fault .undefIoWord := by
  rw [exec, execRdio, h]

/-- Settles O34: WRIO is one cell write, and RDIO reads the cell. -/
theorem wrioThenRdio : Obligations.WrioThenRdio := fun b k v s =>
  ⟨⟨s.setIoWord b k v, rfl, rfl, ioWord_setIoWord_same s b k v, fun b' k' => ioWord_setIoWord_other s b b' k k' v,
    exec_rdio_some (ioWord_setIoWord_same s b k v)⟩, fun _ => exec_rdio_some, exec_rdio_none⟩

/-! ## The ring -/

theorem exec_rdring_some {ch : BitVec 3} {pos : RingPos} {s : State} {v : F64} (h : s.ringCell ch pos = some v) :
    exec (.rdring ch pos) s = .next { s with resp := v } := by
  rw [exec, execRdring, h]
  rfl

theorem exec_rdring_none {ch : BitVec 3} {pos : RingPos} {s : State} (h : s.ringCell ch pos = none) :
    exec (.rdring ch pos) s = .fault .undefRingCell := by
  rw [exec, execRdring, h]

/-- A ring cell holds a value exactly in READY (10_state.md R42). -/
theorem ready_iff_ringCell_isSome {s : State} (hs : lifecycleOk s) (ch : BitVec 3) (pos : RingPos) :
    s.lifecycle = .ready ↔ (s.ringCell ch pos).isSome = true := by
  refine ⟨fun hready => ?_, fun hcell => ready_of_not_uninit fun hun => ?_⟩
  · obtain ⟨-, hfill⟩ := ready_ring hs hready
    exact Memory.read_defined _ _ (hfill ▸ rfl)
  · rw [lifecycleOk, hun] at hs
    rw [ringCell_of_undef hs] at hcell
    cases hcell

/-- Settles O33: RDRING by what the cell holds, and the ring by the lifecycle state. -/
theorem rdringReturnsCell : Obligations.RdringReturnsCell := fun ch pos _ =>
  ⟨fun _ => exec_rdring_some, exec_rdring_none, fun hs => ready_iff_ringCell_isSome hs ch pos⟩

end Sys2Proof.Machine
end

section
/-! SUPPORT. The end of the stream, a cut-off command (70_reset_and_hazards.md R291; 20_memory.md R65), and the precision of
errors (60_exceptions.md R264). -/

namespace Sys2Proof.Machine

open Sys2Proof Host

/-! ## A stream that ends inside a command -/

/-- The fetch finds a cut-off command exactly in a stream that ends inside a format-L one (20_memory.md R65). -/
theorem fetchCommand_truncated_iff {ws : List Word} :
    fetchCommand ws = .truncated ↔ ∃ w rest, ws = w :: rest ∧ isFormatL w = true ∧ rest.length < 2 := by
  match ws with
  | [] => simp [fetchCommand]
  | w :: rest =>
    cases hw : isFormatL w with
    | false => simp [fetchCommand, hw]
    | true =>
      match rest with
      | [] => simp [fetchCommand, hw]
      | [_] => simp [fetchCommand, hw]
      | _ :: _ :: _ => simp [fetchCommand, hw]

/-- No command stops with the fault of a cut-off command. -/
theorem exec_ne_truncated (i : Instr) (s : State) : exec i s ≠ .fault .truncatedCommand := by
  rcases exec_cases i s with ⟨t, e⟩ | ⟨_, _, -, -, e⟩ | ⟨_, _, -, -, e⟩ | ⟨_, _, _, -, -, e⟩ | ⟨-, -, e⟩ <;>
    simp [e]

/-- A step stops for a cut-off command exactly in a run that has not faulted whose stream ends inside one. -/
theorem step_truncated_iff {s : State} :
    step s = .fault .truncatedCommand ↔ s.undefRead = false ∧ fetchCommand s.stream = .truncated := by
  cases hu : s.undefRead with
  | true => simp [step_of_undefRead hu]
  | false =>
    cases hf : fetchCommand s.stream with
    | ended => simp [step, pendingFault_eq_none.2 hu, hf]
    | truncated => simp [step, pendingFault_eq_none.2 hu, hf]
    | command w w1 w2 rest =>
      cases hd : decode w w1 w2 with
      | ok i => simp [step_of_command hu hf hd, exec_ne_truncated]
      | error e => simp [step_of_illegal hu hf hd]

/-- A step on an empty stream is idle (60_exceptions.md R276). -/
theorem step_of_stream_nil {s : State} (hu : s.undefRead = false) (hs : s.stream = []) : step s = .next s := by
  simp [step, pendingFault_eq_none.2 hu, hs, fetchCommand]

/-- Settles O8: the fetch alone decides between an empty stream, a cut-off command and a whole one. -/
theorem streamEndAndTruncation : Obligations.StreamEndAndTruncation :=
  ⟨fun _ => step_of_stream_nil, fun _ => step_truncated_iff.trans (and_congr_right' fetchCommand_truncated_iff)⟩

/-! ## Errors are precise -/

/-- A command that completes leaves STATUS and LAST_ERR, or raises an error under its opcode and does nothing else
(60_exceptions.md R264). -/
theorem exec_precise {i : Instr} {s t : State} (h : exec i s = .next t) :
    (t.status = s.status ∧ t.lastErr = s.lastErr) ∨ ∃ e, t = raiseError e i.opcode s := by
  cases exec_effect h with
  | error e hi => exact .inr ⟨e, rfl⟩
  | errorOfRead a ha => exact .inr ⟨.reg, rfl⟩
  | _ => exact .inl ⟨rfl, rfl⟩

/-- A step that completes on a command word consumes the command, and then executes it or raises ERR_ILLEGAL. -/
theorem step_next_of_cons {s t : State} {w : Word} {rest : List Word} (hs : s.stream = w :: rest) (h : step s = .next t) :
    (∃ i : Instr, i.opcode = opField w ∧
      exec i (s.consume (commandLength w) (s.stream.drop (commandLength w))) = .next t) ∨
    t = raiseError .illegal (opField w) (s.consume (commandLength w) (s.stream.drop (commandLength w))) := by
  rcases step_next_cases h with ⟨hnil, -⟩ | ⟨v, w1, w2, rest', hf, hdone⟩
  · rw [hs] at hnil; cases hnil
  rcases fetchCommand_cases s.stream with ⟨-, hf'⟩ | hf' | ⟨_, _, _, _, hf', hdrop, -, hhead⟩
  · rw [hf] at hf'; cases hf'
  · rw [hf] at hf'; cases hf'
  · rw [hf] at hf'
    cases hf'
    obtain rfl : w = v := by simpa [hs] using hhead
    rw [← hdrop]
    rcases hdone with ⟨i, hd, he⟩ | ⟨e, -, rfl⟩
    · exact .inl ⟨i, (decode_opcode hd).symm, he⟩
    · exact .inr rfl

/-- Settles O10: a step consumes its command, which moves CP and the stream only, and the command is precise. -/
theorem errorsArePrecise : Obligations.ErrorsArePrecise := by
  intro s t w rest hs h
  rcases step_next_of_cons hs h with ⟨i, hop, he⟩ | rfl
  · rcases exec_precise he with hkeep | ⟨e, rfl⟩
    · exact .inl hkeep
    · rw [hop]
      exact .inr ⟨e, rfl⟩
  · exact .inr ⟨.illegal, rfl⟩

end Sys2Proof.Machine
end

section
/-! SUPPORT. What holds at power-on of the marks and of the commands that stop (10_state.md R42; 70_reset_and_hazards.md R280;
log 4). -/

namespace Sys2Proof.Machine

open Sys2Proof Host

/-- At power-on the control registers hold a value and no other register does (10_state.md R42). -/
theorem reset_regDefined_iff (r : Reg) :
    State.reset.regDefined r = true ↔ r = .id ∨ r = .state ∨ r = .status ∨ r = .lastErr := by
  cases r with
  | comp b f => cases f <;> simp [State.regDefined, State.reset]
  | _ => simp [State.regDefined, State.reset]

/-- In UNINIT a PROCESS is silent or raises ERR_UNINIT, so it reads no memory (44_process.md R171). -/
theorem exec_process_completes_of_uninit {s : State} (h : s.lifecycle = .uninit) (in0 in1 out0 out1 : Bool) (n : Int) :
    ∃ t, exec (.process in0 in1 out0 out1 n) s = .next t := by
  by_cases hsilent : in0 = false ∨ out0 = false ∨ n ≤ 0
  · exact ⟨s, exec_process_iff.2 (.silent hsilent)⟩
  · obtain ⟨hin, hout, hn⟩ : in0 = true ∧ out0 = true ∧ 0 < n := by simpa using hsilent
    exact ⟨_, exec_process_iff.2 (.uninit hin hout hn h)⟩

/-- In UNINIT only the reads of a memory cell stop. -/
theorem exec_fault_of_uninit {i : Instr} {s : State} {f : Fault} (hs : s.lifecycle = .uninit) (h : exec i s = .fault f) :
    (∃ ch pos, i = .rdring ch pos) ∨ ∃ b k, i = .rdio b k := by
  rcases exec_cases i s with ⟨t, e⟩ | ⟨ch, pos, hi, -, -⟩ | ⟨b, k, hi, -, -⟩ | ⟨in1, out1, n, rfl, -, -⟩ | ⟨hready, -, -⟩
  · cases h.symm.trans e
  · exact .inl ⟨ch, pos, hi⟩
  · exact .inr ⟨b, k, hi⟩
  · obtain ⟨t, e⟩ := exec_process_completes_of_uninit hs true in1 true out1 n
    cases h.symm.trans e
  · cases hs.symm.trans hready

/-- Settles O55: the fields of `State.reset`, its memories and marks, and what can stop in UNINIT. -/
theorem powerOnState : Obligations.PowerOnState :=
  ⟨rfl, rfl, rfl, rfl, rfl, fun _ _ => rfl, fun _ _ => rfl, fun j => reset_paramSet j.val j.isLt, rfl,
    reset_regDefined_iff, fun _ _ => exec_fault_of_uninit rfl⟩

end Sys2Proof.Machine
end
